-- ==== Sys2Proof/Word.lean ====
section
/-!
DEFINITION. The word types of the Karone 960 (R6, R7, R144) and their plainest arithmetic.
-/
namespace Sys2Proof

/-- A 64-bit register value (R12). -/
abbrev Word := BitVec 64

/-- The smallest addressable unit of memory (R6). -/
abbrev Byte := BitVec 8

/-- One unit of an instruction stream: 32 bits, little-endian (R6, R126). -/
abbrev Unit32 := BitVec 32

/-- A core number: `die × 80 + cluster × 10 + slot`; no core above 319 exists (R8). -/
abbrev CoreId := Fin 320

/-- `wrap64(x)` of R144: an unbounded integer taken modulo 2^64. -/
def wrap64 (x : Int) : Word := BitVec.ofInt 64 x

/-- `s64(x)` of R144: a register value read as two's complement. -/
def s64 (x : Word) : Int := x.toInt

/-- `u64(x)` of R144: a register value read as unsigned. -/
def u64 (x : Word) : Nat := x.toNat

/-- `sext` of R11, to 64 bits. -/
def sext64 {n : Nat} (x : BitVec n) : Word := x.signExtend 64

/-- `zext` of R11, to 64 bits. -/
def zext64 {n : Nat} (x : BitVec n) : Word := x.setWidth 64

/-- Bits `[hi:lo]` of a register value as a number (R6, R11). -/
def bits (x : Word) (hi lo : Nat) : Nat := (x.toNat >>> lo) % 2 ^ (hi + 1 - lo)

end Sys2Proof
end

