-- ==== Sys2Proof/Syntax.lean ====
section
/-!
DEFINITION. The syntax of every step of the Karone 960: one constructor of `Instr` per row of
spec/opcode_table.json. Register numbers and immediates stay bit vectors of the width their encoding
gives them; closed sets of names are inductive types (R126 to R142).
-/
namespace Sys2Proof

/-- A 5-bit register field naming g0 to g31 (R128). -/
abbrev Reg := BitVec 5

/-- The operations of ALU and ALUX, in fn5 order (R146). -/
inductive AluOp where
  | add | sub | and | or | xor | andn | shl | shr | sar | rot | min | max
  | minu | maxu | mul | mulh | mulhu | div | divu | rem | remu | clz | popc | ctz
  deriving DecidableEq, Repr

/-- The conditions of CMP, CMPX and CMPL, in order (R152). CMPI uses the first, second, third and fifth. -/
inductive Cond where
  | eq | ne | lt | le | ltu | leu | gt | ge | gtu | geu | tst
  deriving DecidableEq, Repr

/-- The combine mode of a comparison, rd[4:3] (R152). -/
inductive Combine where
  | set | and | or | andn
  deriving DecidableEq, Repr

/-- The kinds of SHI, imm[7:6] (R130, R148). -/
inductive ShiftKind where
  | shl | shr | sar | rot
  deriving DecidableEq, Repr

/-- The size codes of loads: B, H, W, D zero-extending; BS, HS, WS sign-extending (R130). -/
inductive LoadSize where
  | b | h | w | d | bs | hs | ws
  deriving DecidableEq, Repr

/-- The size codes of stores (R130). -/
inductive StoreSize where
  | b | h | w | d
  deriving DecidableEq, Repr

/-- The branch hint: 00 none, 01 resolves assuming not taken, 10 resolves assuming taken (R128, R143). -/
inductive Hint where
  | none | notTaken | taken
  deriving DecidableEq, Repr

/-- The six scopes; codes 6 and 7 are ILLEGAL_INSTR (R69). -/
inductive Scope where
  | core | gang | cluster | device | pool | system
  deriving DecidableEq, Repr

/-- The four ord codes; `sync` is acquire on a load and release on a store or FENCEM (R70). -/
inductive Order where
  | plain | sync | acqRel | seqCst
  deriving DecidableEq, Repr

/-- The operations of ATOM, fn4 0 to 10 (R190). -/
inductive AtomOp where
  | add | and | or | xor | min | max | minu | maxu | xchg | cas | fadd
  deriving DecidableEq, Repr

/-- The engines that PUT and GET name (R131). -/
inductive EngineId where
  | pix | ume | sampler | fe
  deriving DecidableEq, Repr

/-- The system registers of R205. -/
inductive SysReg where
  | coreId | gangId | ctxId | nodeArg | dcc | mode | srseed | liter | ldisc | mxmiss | werr
  | trapvec | trappc | trapcause | trapaddr | boostinfo | sscr0 | sscr1 | sscr2 | sscr3
  | relquery | winsel | windesc0 | windesc1 | windesc2 | windesc3 | engarea
  deriving DecidableEq, Repr

/-- A guard: the instruction has an effect only if `k[kg] XOR kn` is 1 (R129). -/
structure Guard where
  kg : BitVec 3
  kn : Bool
  deriving DecidableEq, Repr

/-- An operand descriptor of a vector word (R135). -/
structure Desc where
  step   : BitVec 3
  offset : BitVec 5
  kind   : Bool
  index  : BitVec 5
  deriving DecidableEq, Repr

/-- The fields of a vector word but for op8, which the constructor names (R135). -/
structure VWord where
  aux  : BitVec 38
  b    : Desc
  a    : Desc
  d    : Desc
  pm   : Bool
  sat  : Bool
  rnd  : BitVec 2
  type : BitVec 4
  deriving DecidableEq, Repr

/-- The fields of a matrix word but for op8 (R254). -/
structure MWord where
  stamp  : BitVec 32
  xaddr  : BitVec 32
  baddr  : BitVec 32
  bpitch : BitVec 16
  apitch : BitVec 16
  aaddr  : BitVec 32
  kg     : BitVec 6
  missp  : Bool
  gscale : Bool
  btr    : Bool
  nsel   : Bool
  sparse : Bool
  gather : Bool
  acc    : BitVec 2
  bfmt   : BitVec 4
  afmt   : BitVec 4
  deriving DecidableEq, Repr

/-- The fields of a transform instruction but for op6 (R139, R290). -/
structure XWord where
  imm : BitVec 16
  ag  : BitVec 4
  hs  : BitVec 3
  hd  : BitVec 3
  deriving DecidableEq, Repr

/-- The fields of a sampler instruction but for op6 (R139, R302). -/
structure SWord where
  imm : BitVec 16
  f   : Bool
  yb  : BitVec 3
  ya  : BitVec 3
  yd  : BitVec 3
  deriving DecidableEq, Repr

/-- A copy record (R140). `kindAux` is the 8-byte input at +0x70; RESULT at +0x78 is the channel's. -/
structure CopyRec where
  next : Word
  ctl  : Word
  src  : Word
  dst  : Word
  e0 : BitVec 32
  e1 : BitVec 32
  e2 : BitVec 32
  e3 : BitVec 32
  s0 : Word
  s1 : Word
  s2 : Word
  s3 : Word
  d0 : Word
  d1 : Word
  d2 : Word
  d3 : Word
  kindAux : Word
  deriving DecidableEq, Repr

/-- What the hang detector watches (R453). -/
inductive StallUnit where
  | channel (core : CoreId) (n : BitVec 3)
  | matrix (core : CoreId)
  | transform (core : CoreId)
  | sampler (cluster : BitVec 5)
  | fe (cluster : BitVec 5)
  | ume (die : BitVec 2)
  deriving DecidableEq, Repr

/-- The state that an uncorrectable SRAM error can poison, or the translation entry it invalidates (R405). -/
inductive SramPlace where
  | stashGranule (g : BitVec 14)
  | vectorRow (r : BitVec 10)
  | accRow (r : BitVec 9)
  | fifoRow (fifo : BitVec 3) (entry : BitVec 2) (row : BitVec 5)
  | gReg (r : Reg)
  | kReg (r : BitVec 3)
  | l1Tlb (i : BitVec 6)
  | l2Tlb (i : BitVec 12)
  | walkCache (i : BitVec 10)
  deriving DecidableEq, Repr

/-- The TDISP requests that move the TDI between its states (R425). -/
inductive TdispReq where
  | lock | start | stop
  deriving DecidableEq, Repr

/-- An extent of an add-capacity event (R433): start and length in 512 KiB units, and the device's tag. -/
structure Extent where
  start  : BitVec 29
  length : BitVec 29
  tag    : BitVec 16
  deriving DecidableEq, Repr

/-- Every step of the part: one constructor per row of spec/opcode_table.json. The rows with operands come
first and those without operands last, each part in the table's order. A request row names no operands: the
object it serves stands in State. -/
inductive Instr where
  -- control stream, page 0 (R130)
  | ill (x : BitVec 24)
  | alu (op : AluOp) (gd : Guard) (rb ra rd : Reg)
  | addi (imm : BitVec 14) (ra rd : Reg)
  | andi (imm : BitVec 14) (ra rd : Reg)
  | ori (imm : BitVec 14) (ra rd : Reg)
  | xori (imm : BitVec 14) (ra rd : Reg)
  | shi (kind : ShiftKind) (n : BitVec 6) (ra rd : Reg)
  | sel (gd : Guard) (rb ra rd : Reg)
  | cmp (cond : Cond) (gd : Guard) (rb ra : Reg) (comb : Combine) (kt : BitVec 3)
  | cmpi (cond : Cond) (imm : BitVec 14) (ra : Reg) (kt : BitVec 3)
  | ld (sz : LoadSize) (off : BitVec 11) (ra rd : Reg)
  | st (sz : StoreSize) (off : BitVec 11) (ra rs : Reg)
  | br (hint : Hint) (gd : Guard) (off : BitVec 18)
  | j (off : BitVec 24)
  | jl (off : BitVec 24)
  | jr (ra rd : Reg)
  | vrun (imm8 : BitVec 8) (gb ga : Reg)
  | mrun (imm8 : BitVec 8) (gb ga : Reg)
  | xrun (imm8 : BitVec 8) (gb ga : Reg)
  | put (eng : EngineId) (sub : BitVec 4) (nores boost : Bool) (gb ga : Reg)
  | get (eng : EngineId) (ga : Reg)
  | wait (mx cp st ld : BitVec 6)
  | fencem (mask : BitVec 6) (rel : Bool) (scope : Scope)
  | barInit (b : BitVec 6) (ga : Reg)
  | barArrive (b : BitVec 6) (n : Bool) (gb : Reg)
  | barArriver (b : BitVec 6) (n : Bool) (gb ga : Reg)
  | barWait (b : BitVec 6) (ga : Reg)
  | barCnt (b : BitVec 6) (ga : Reg)
  | mbxSend (m : BitVec 4) (gb ga : Reg)
  | mbxRecv (m : BitVec 4) (gb ga : Reg)
  | mbxPoll (m : BitVec 4) (ga : Reg)
  | cpsStart (c : BitVec 3) (ga : Reg)
  | cpsStat (c : BitVec 3) (ga : Reg)
  | cpsWmark (c : BitVec 3) (ga : Reg)
  | cpsStop (c : BitVec 3)
  | evtSignal (gb ga : Reg)
  | evtRead (gb ga : Reg)
  | trap (code : BitVec 14)
  | lexit (imm : BitVec 14) (ra : Reg)
  | sysr (reg : SysReg) (rd : Reg)
  | sysw (reg : SysReg) (ra : Reg)
  -- page 1 (R132)
  | pixLookup (tree : BitVec 3) (nores : Bool) (gb ga : Reg)
  | pixInsert (tree : BitVec 3) (nores : Bool) (ga : Reg)
  | pixRef (tree : BitVec 3) (nores : Bool) (ga : Reg)
  | pixUnref (tree : BitVec 3) (nores : Bool) (ga : Reg)
  | pixEvict (tree : BitVec 3) (nores : Bool) (gb ga : Reg)
  | umeCfg (ctx : BitVec 6) (nores : Bool) (ga : Reg)
  | umePost (ctx : BitVec 6) (nores : Bool) (gb ga : Reg)
  | umeRound (ctx : BitVec 6) (nores : Bool) (ga : Reg)
  | umeDirty (ctx : BitVec 6) (nores : Bool) (gb ga : Reg)
  | umeReset (ctx : BitVec 6) (nores : Bool)
  | smpr (ctx : BitVec 6) (nores : Bool) (ga : Reg)
  | approxBegin (region : BitVec 4)
  | approxEnd (region : BitVec 4)
  | fitcInv (region : BitVec 4) (nores : Bool)
  | fitcStat (region : BitVec 4) (nores : Bool)
  | fitcSett (region : BitVec 4) (nores : Bool) (gb ga : Reg)
  | kvc (b : BitVec 6) (gb ga : Reg)
  | rflush (b : BitVec 6) (ga : Reg)
  | rinval (b : BitVec 6) (ga : Reg)
  | unstand (slot : BitVec 4)
  | shed (ga : Reg)
  | tokSig (t : BitVec 3) (ga : Reg)
  | tokWaitt (t : BitVec 3) (ga : Reg)
  -- X and L forms (R133, R134)
  | ldx (sz : LoadSize) (acq : Bool) (scope : Scope) (gd : Guard) (bl : BitVec 2) (imm : BitVec 16) (rb ra rd : Reg)
  | stx (sz : StoreSize) (rel : Bool) (scope : Scope) (gd : Guard) (imm : BitVec 16) (rb ra rd : Reg)
  | atom (op : AtomOp) (dword : Bool) (ord : Order) (scope : Scope) (gd : Guard) (imm : BitVec 16) (rc rb ra rd : Reg)
  | ldstand (slot : BitVec 4) (acq : Bool) (scope : Scope) (gd : Guard) (imm : BitVec 16) (rc rb ra : Reg)
  | bfx (sx rp : Bool) (w : BitVec 7) (p : BitVec 6) (gd : Guard) (bl : BitVec 2) (rb ra rd : Reg)
  | bfi (rp : Bool) (w : BitVec 7) (p : BitVec 6) (gd : Guard) (bl : BitVec 2) (rb ra rd : Reg)
  | fsh (left rn : Bool) (n : BitVec 6) (gd : Guard) (bl : BitVec 2) (rc rb ra rd : Reg)
  | loop (gd : Guard) (imm : BitVec 16) (ra : Reg)
  | setmode (fields : BitVec 4) (gd : Guard) (imm : BitVec 16) (ra : Reg)
  | li (gd : Guard) (bl : BitVec 2) (lit : BitVec 32) (rd : Reg)
  | lih (gd : Guard) (bl : BitVec 2) (lit : BitVec 32) (rd : Reg)
  | addl (gd : Guard) (bl : BitVec 2) (lit : BitVec 32) (ra rd : Reg)
  | cmpl (cond : Cond) (gd : Guard) (bl : BitVec 2) (lit : BitVec 32) (ra : Reg) (comb : Combine) (kt : BitVec 3)
  | alux (op : AluOp) (gd : Guard) (bl : BitVec 2) (rb ra rd : Reg)
  | cmpx (cond : Cond) (gd : Guard) (bl : BitVec 2) (rb ra : Reg) (comb : Combine) (kt : BitVec 3)
  -- events of a core, a gang and its memory
  | preemptWithdraw (gang : Nat)
  | gangSave (gang : Nat)
  | gangRestore (gang : Nat)
  | windowRecall (granule : BitVec 14) (write : Bool)
  | subscriptionPush (slot : BitVec 4)
  | backInvalidation (port : BitVec 2) (line : Nat)
  | pageWalk (ctx : BitVec 6) (va : Word)
  -- vector words (R136)
  | vadd (w : VWord)
  | vsub (w : VWord)
  | vmul (w : VWord)
  | vmad (w : VWord)
  | vmin (w : VWord)
  | vmax (w : VWord)
  | vabs (w : VWord)
  | vneg (w : VWord)
  | vand (w : VWord)
  | vor (w : VWord)
  | vxor (w : VWord)
  | vnot (w : VWord)
  | vshl (w : VWord)
  | vshr (w : VWord)
  | vsar (w : VWord)
  | vcmp (w : VWord)
  | vsel (w : VWord)
  | vcvt (w : VWord)
  | vrcp (w : VWord)
  | vrsq (w : VWord)
  | vexp2 (w : VWord)
  | vlog2 (w : VWord)
  | vtanh (w : VWord)
  | verf (w : VWord)
  | vsumr (w : VWord)
  | vmaxr (w : VWord)
  | vscan (w : VWord)
  | vtopk (w : VWord)
  | vtbl (w : VWord)
  | vzip (w : VWord)
  | vunzip (w : VWord)
  | vmov (w : VWord)
  | vpopc (w : VWord)
  | vbfx (w : VWord)
  | vfsh (w : VWord)
  | viota (w : VWord)
  | vclamp (w : VWord)
  | vdot4 (w : VWord)
  | vscale (w : VWord)
  | vld (w : VWord)
  | vldx (w : VWord)
  | vldb (w : VWord)
  | vldz (w : VWord)
  | vst (w : VWord)
  | vstx (w : VWord)
  | vstz (w : VWord)
  | vshape (w : VWord)
  | vmpush (w : VWord)
  | vminv (w : VWord)
  | vmpop (w : VWord)
  | vskip (w : VWord)
  | vmode (w : VWord)
  | vsignal (w : VWord)
  | vnop (w : VWord)
  -- matrix words (R138)
  | mma (w : MWord)
  | mzero (w : MWord)
  | mlda (w : MWord)
  | msta (w : MWord)
  | madda (w : MWord)
  | mbias (w : MWord)
  | mxfr (w : MWord)
  | msync (w : MWord)
  -- copy records (R140)
  | channelTailReread (c : BitVec 3)
  | linear (c : BitVec 3) (r : CopyRec)
  | tensor (c : BitVec 3) (r : CopyRec)
  | maskpack (c : BitVec 3) (r : CopyRec)
  | scatter (c : BitVec 3) (r : CopyRec)
  | multicast (c : BitVec 3) (r : CopyRec)
  | reduce (c : BitVec 3) (r : CopyRec)
  | expand (c : BitVec 3) (r : CopyRec)
  | decrypt (c : BitVec 3) (r : CopyRec)
  | fill (c : BitVec 3) (r : CopyRec)
  | note (c : BitVec 3) (r : CopyRec)
  -- transform sequencer (R290)
  | xseqHalt (w : XWord)
  | xseqLoop (w : XWord)
  | endl (w : XWord)
  | setag (w : XWord)
  | move (w : XWord)
  | cvt (w : XWord)
  | pack (w : XWord)
  | unpk (w : XWord)
  | trans (w : XWord)
  | tokw (w : XWord)
  | toks (w : XWord)
  | seth (w : XWord)
  | addh (w : XWord)
  | brnz (w : XWord)
  -- sampler (R302)
  | smpHalt (w : SWord)
  | ldl (w : SWord)
  | scl (w : SWord)
  | pen (w : SWord)
  | msk (w : SWord)
  | topk (w : SWord)
  | topp (w : SWord)
  | minp (w : SWord)
  | smx (w : SWord)
  | cum (w : SWord)
  | rnd (w : SWord)
  | pick (w : SWord)
  | argm (w : SWord)
  | emit (w : SWord)
  | acc (w : SWord)
  | res (w : SWord)
  | conf (w : SWord)
  | mov (w : SWord)
  | movi (w : SWord)
  | adds (w : SWord)
  | addsImmediate (w : SWord)
  | brc (w : SWord)
  -- requests as the engines perform them
  | feSgdStep (cluster : BitVec 5) (ctx : BitVec 6) (region : BitVec 4)
  | kvcCommit (cluster : BitVec 5)
  | cacheWalkerRange (die : BitVec 2)
  -- scheduler and host
  | submitRoot (ctx : BitVec 6) (root : Word)
  | abort (ctx : BitVec 6)
  | graphHeaderRead (ctx : BitVec 6)
  | nodeDescriptorRead (graph : Nat)
  | eventSet (e : BitVec 16) (value : Word)
  | eventAdd (e : BitVec 16) (value : Word)
  | nodeEnterReady (node : Nat)
  | placementHold (part : BitVec 3)
  | preemptRequest (node : Nat)
  | conditionalNode (node : Nat)
  | hostSignalNode (node : Nat)
  | joinNode (node : Nat)
  | bootGo (core : CoreId)
  | coalescerTailPoll (slot : BitVec 10)
  | coalescerEmit (slot : BitVec 10)
  | budgetPublish (die : BitVec 2)
  | tlbinv (value : Word)
  | shedsel (value : Word)
  | drvaccWrite (high : Bool) (value : Word)
  | contextValidWrite (ctx : BitVec 6) (value : Word)
  | capWrite (value : Word)
  | registerWrite (off : BitVec 26) (size : BitVec 4) (value : Word)
  | engineStallDetected (unit : StallUnit)
  | portDead (p : BitVec 2)
  | kill (p : BitVec 2)
  | portRetrain (p : BitVec 2)
  | admitPort (p : BitVec 2)
  | validate (w : BitVec 4)
  | addCapacityEvent (p : BitVec 2) (extents : List Extent)
  | releaseRequest (p : BitVec 2) (e : BitVec 8)
  | accept (p : BitVec 2) (e : BitVec 8)
  | reject (p : BitVec 2) (e : BitVec 8)
  | release (p : BitVec 2) (e : BitVec 8)
  | reservedOpcode (u : Unit32)
  | xseqReservedOpcode (w : Unit32)
  | smpReservedOpcode (w : Unit32)
  | treeInstall (tree : BitVec 3) (block : BitVec 256)
  | tdispRequest (r : TdispReq)
  | p0Reached (cluster : BitVec 5)
  | storeAcknowledgement (entry : Nat)
  | softErrorCorrected (die : BitVec 2)
  | sramErrorPoisoned (place : SramPlace)
  -- the rows without operands (what they act on stands in State)
  -- control stream, page 0 (R130)
  | join
  | mark
  | yield
  | halt
  | nop
  | eret
  -- events of a core, a gang and its memory
  | pendingFaultTaken
  | fifoStall
  | stopTokenTimeout
  | preemptionStop
  | coreFinish
  | sramUe
  -- matrix words (R138)
  | latchFill
  -- transform sequencer (R290)
  | transformRunStart
  -- sampler (R302)
  | samplerStart
  -- requests as the engines perform them
  | pixLookupRequest
  | pixInsertRequest
  | pixRefRequest
  | pixUnrefRequest
  | pixEvictRequest
  | umeCfgRequest
  | umePostRequest
  | umeRoundRequest
  | umeDirtyRequest
  | umeResetRequest
  | feInvRequest
  | feStatRequest
  | feSettRequest
  -- scheduler and host
  | nodePlacement
  | powerUp
  | coldReset
  | functionLevelReset
  | hotReset
  | loadModel
  | extend
  | readMeas
  | slotState
  | clearSlot
  | getVersion
  | getCapabilities
  | negotiateAlgorithms
  | getDigests
  | getCertificate
  | challenge
  | getMeasurements
  | keyExchange
  | finish
  | endSession
  | ideKm
  | setKey
  | powerLoss
  | loadReturn
  deriving DecidableEq, Repr

end Sys2Proof
end

