-- ==== Sys2Proof/Config.lean ====
section
/-!
DEFINITION. What an implementation fixes (the configuration record, the silicon and its firmware) and the values the
spec leaves open. Each is an opaque constant: nothing in Lean can evaluate it or prove a value of it.
-/
namespace Sys2Proof

/-- The three vector queues (R20). -/
inductive VQ where
  | vlq | vaq | vsq
  deriving DecidableEq, Repr, Inhabited

/-- Who makes the next move. The units of the part are listed in INVENTORY.md under Agents; from `clock` on they are moves of
time, of the world outside or of caches, which the spec lets happen at any moment (DESIGN CHOICE, log entry 1). -/
inductive Agent where
  | seq (c : CoreId)
  | vec (c : CoreId) (q : VQ)
  | mx (c : CoreId)
  | latch (c : CoreId)
  | chan (c : CoreId) (n : BitVec 3)
  | xseq (c : CoreId)
  | smp (k : BitVec 5) (i : BitVec 6)
  | pix (tree : BitVec 3)
  | ume (ctx : BitVec 8)
  | fe (k : BitVec 5)
  | kvc (k : BitVec 5)
  | walker (die : BitVec 2)
  | event (c : CoreId) (i : Instr)
  | clock (n : Nat)
  | cycle
  | crossing (port : BitVec 2) (line : Nat)
  | silence (port : BitVec 2)
  | remoteStore (port : BitVec 2) (addr : Nat) (bytes : List Byte)
  | hostStore (addr : Nat) (bytes : List Byte)
  | hostRead (off size : Nat)
  | llcEvict (i : Nat)
  | tlbEvict (c : CoreId) (i : Nat)
  | metaError (block : Nat)
  | memError (space : BitVec 3) (addr : Nat)
  | mailbox
  | doe (secured : Bool) (msg : List Byte)
  deriving DecidableEq, Repr, Inhabited

/-- The supervisor code that firmware leaves resident on a core from 0xE000 up (R50, R439): none on a core never brought into
service, an image that the spec does not print, or the runtime's image whose trap handler R375 prints (log entry 60). -/
inductive Resident where
  | none | image | fitTrap
  deriving DecidableEq, Repr, Inhabited

/-- What the package flash holds and start-up verifies (R426, R439, R440). -/
inductive BootObject where
  | securityFirmware | hubFirmware | configRecord | firmware | supervisor
  deriving DecidableEq, Repr, Inhabited

/-- A signed object of the package flash: its content, its version, and its two signatures with the public keys that it offers
for them (R439). -/
structure SignedObject where
  content  : List Byte
  version  : BitVec 32
  edKey    : List Byte
  edSig    : List Byte
  mldsaKey : List Byte
  mldsaSig : List Byte
  deriving DecidableEq, Repr, Inhabited

/-- A key pair of the security controller (R438). -/
structure KeyPair where
  secret : List Byte
  shown : List Byte
  deriving DecidableEq, Repr, Inhabited

namespace Config

/-- The mover when the agenda is empty: free for each move number (R19; log entry 1). -/
opaque freeAgent : Nat → Agent

/-- Free 64-bit values: what the spec calls undefined while the machine goes on (R41, R79; log entry 2). -/
opaque freeWord : Nat → Word

/-- Free bytes: destination bytes beyond WMARK of a shed copy record (R414; log entry 2). -/
opaque freeByte : Nat → Byte

/-- A correctly rounded special function at an operand whose enclosure the model's arithmetic does not decide:
the function code, the format code, the operand bits (R223, R307, R348; log entry 2). -/
opaque freeSpecial : Nat → Nat → Nat → Nat

/-- The context under which a coalescer slot's addresses are translated and its nodes run: R396 names none
(log entry 23). -/
opaque coalContext : Nat → BitVec 6

/-- The hash that chooses a line's home slice among its set; it is not disclosed (R61; log entry 2). -/
opaque sliceHash : Nat → Nat

/-- The function that chooses the set of an LLC slice for a line; the spec does not give it (R1; log entry 65). -/
opaque setHash : Nat → Nat

/-- The device is a KR960-M (R4). -/
opaque liquid : Bool

/-- FORM of the configuration record, 0 KR960-P or 1 KR960-M (R4, R416). -/
def form : Byte := if liquid then 1 else 0

/-- The silicon stepping (R416). -/
opaque stepping : Byte

/-- CFGVER of the configuration record (R416). -/
opaque cfgver : BitVec 32

/-- The features that the configuration record offers: bits 0 to 10 of R417, and BASE in bit 11. -/
opaque offered : BitVec 12

/-- DEVCAP of the configuration record: bits 126 to 11 are reserved and read 0 (R416, R417). -/
def devcap : BitVec 128 := offered.extractLsb' 11 1 ++ (0 : BitVec 116) ++ offered.extractLsb' 0 11

/-- The watts by which POWERLIM lies below 2,200 W in the configuration record of a KR960-P (R4, R416). -/
opaque powerBelow : BitVec 16

/-- POWERLIM of the configuration record, in W: 2,200 on a KR960-M, at most 2,200 on a KR960-P (R4, R416). -/
def powerlim : BitVec 16 := if liquid then 2200 else BitVec.ofNat 16 (2200 - powerBelow.toNat)

/-- The supervisor code that the spec does not print, by address: a whole image, or what stands behind the trap handler of R375
in the runtime's (R50, R401). -/
opaque supervisorByte : Nat → Byte

/-- The supervisor image that firmware loads when a core is brought into service (R50). -/
opaque resident : Resident

/-- THRESH1 to THRESH3 of the configuration record (R420). -/
opaque thresh : BitVec 2 → BitVec 32

/-- THROTTLE of the configuration record, in °C (R420). -/
opaque throttle : Byte

/-- The cores that firmware brings into service at start-up (R416, R450). -/
opaque coreInService : CoreId → Bool

/-- What training finds at each port: a device with 256-byte flits, CXL.io, CXL.mem and HDM-DB with back-invalidation, its lanes
and GT/s, whether it offers dynamic capacity, its heads minus 1, at most 15, and this processor's head (R428, R429). -/
opaque portTrains : BitVec 2 → Bool
opaque portWidth : BitVec 2 → Byte
opaque portSpeed : BitVec 2 → Byte
opaque portDcap : BitVec 2 → Bool
opaque portHeads : BitVec 2 → BitVec 4
opaque portHead : BitVec 2 → BitVec 4

/-- A device that has all that R428 requires, x16 and 64 GT/s among it: its port comes up. -/
def portUp (p : BitVec 2) : Bool := portTrains p && decide (portWidth p = 16 ∧ portSpeed p = 64)

/-- MDBASE[47:12] of each memory controller, set by firmware (R420). -/
opaque mdbasePage : BitVec 3 → BitVec 36

/-- MDBASE of a memory controller: the bits outside 47 to 12 are reserved (R420). -/
def mdbase (n : BitVec 3) : Word := (0 : BitVec 16) ++ mdbasePage n ++ (0 : BitVec 12)

/-- Whether the training of a step of R426, 0 or 1, succeeds at a power-up. -/
opaque startupOk : Nat → Nat → Bool

/-- What the package flash holds at a power-up; the public keys and the minimum version that its configuration record names (R439). -/
opaque flash : Nat → BootObject → SignedObject
opaque recordKeys : Nat → List Byte × List Byte
opaque minVersion : Nat → BitVec 32

/-- The hashes of the Ed25519 and the ML-DSA-65 public key that the security controller's ROM holds (R439). -/
opaque romKeyHash : BitVec 1 → List Byte

/-- Verification of a signature by the two schemes: public key, SHA-384 digest, signature (R439). -/
opaque edVerify : List Byte → List Byte → List Byte → Bool
opaque mldsaVerify : List Byte → List Byte → List Byte → Bool

/-- The hub's PUF response, and the key pairs that the two schemes derive from a 32-byte seed (R438). -/
opaque puf : List Byte
opaque edKeyPair : List Byte → KeyPair
opaque mldsaKeyPair : List Byte → KeyPair

/-- Whether the host has enabled AtomicOp routing (R423). -/
opaque atomicRouting : Bool

/-- The responder's 32-byte nonces by draw number (R444), and the signatures under a private key of a transcript hash: 64 bytes of
Ed25519, 3,309 of ML-DSA-65 (R445). -/
opaque nonce : Nat → BitVec 256
opaque edSign : List Byte → List Byte → BitVec 512
opaque mldsaSign : List Byte → List Byte → BitVec 26472

/-- The responder's secp384r1 share of a draw, and the secret that it gives with the requester's share (R444). -/
opaque keyShare : Nat → BitVec 768
opaque dheSecret : Nat → List Byte → BitVec 384

/-- The certificate chains of the package flash: slot 0 to the Ed25519 identity key, slot 1 to the ML-DSA-65 one (R438). -/
opaque certChain : BitVec 1 → List Byte

/-- What an IDE_KM query response says of the device's ports and IDE registers (R446). -/
opaque ideQuery : List Byte

/-- DataTransferSize and MaxSPDMmsgSize of the responder, which the spec does not give (R444; log entry 28). -/
opaque spdmSize : BitVec 32

/-- What the die's sensors and meters read at each publication (R397): measured power in 1/16 W, hottest °C. -/
opaque measuredPower : Nat → BitVec 2 → Nat
opaque hottest : Nat → BitVec 2 → Byte

end Config
end Sys2Proof
end

