-- ==== Sys2Proof/Machine/Sha.lean ====
section
/-!
DEFINITION. SHA-384 (FIPS 180-4; its constants PRESUMED, log entry 10) and the extension of a measurement register (R440).
-/
namespace Sys2Proof.Machine

/-- The integer cube root. -/
def icbrt (n : Nat) : Nat :=
  (List.range 80).foldl (fun r i => let c := r + 2 ^ (79 - i)
                                    if c * c * c ≤ n then c else r) 0

/-- The first primes: a number below 512 with no smaller divisor. -/
def primes : List Nat := (List.range 512).filter fun n => decide (2 ≤ n) && (List.range n).all fun d => decide (d < 2 ∨ n % d ≠ 0)

/-- The round constants: 64 fraction bits of the cube roots of the first 80 primes. -/
def shaK : List Word := (primes.take 80).map fun p => BitVec.ofNat 64 (icbrt (p * 2 ^ 192))

/-- The initial hash value of SHA-384: 64 fraction bits of the square roots of the ninth to sixteenth primes. -/
def shaInit : List Word := ((primes.drop 8).take 8).map fun p => BitVec.ofNat 64 (Nat.sqrt (p * 2 ^ 128))

/-- The padded message. -/
def shaPad (m : List Byte) : List Byte :=
  m ++ [0x80] ++ List.replicate ((239 - m.length % 128) % 128) 0 ++ beBytes 16 (8 * m.length)

/-- The next word of the message schedule, newest first. -/
def shaNext (ws : List Word) : List Word :=
  let a := ws.getD 1 0
  let b := ws.getD 14 0
  let s1 := a.rotateRight 19 ^^^ a.rotateRight 61 ^^^ (a >>> 6)
  let s0 := b.rotateRight 1 ^^^ b.rotateRight 8 ^^^ (b >>> 7)
  (s1 + ws.getD 6 0 + s0 + ws.getD 15 0) :: ws

/-- One round on the eight working variables. -/
def shaRound (v : List Word) (kw : Word × Word) : List Word :=
  match v with
  | [a, b, c, d, e, f, g, h] =>
    let t1 := h + (e.rotateRight 14 ^^^ e.rotateRight 18 ^^^ e.rotateRight 41) + ((e &&& f) ^^^ (~~~e &&& g)) + kw.1 + kw.2
    let t2 := (a.rotateRight 28 ^^^ a.rotateRight 34 ^^^ a.rotateRight 39) + ((a &&& b) ^^^ (a &&& c) ^^^ (b &&& c))
    [t1 + t2, a, b, c, d + t1, e, f, g]
  | _ => v

/-- One block of 128 bytes. -/
def shaBlock (ks : List Word) (hs : List Word) (b : List Byte) : List Word :=
  let w0 := ((List.range 16).map fun i => BitVec.ofNat 64 (beVal ((b.drop (8 * i)).take 8))).reverse
  let ws := ((List.range 64).foldl (fun ws _ => shaNext ws) w0).reverse
  List.zipWith (· + ·) hs ((ks.zip ws).foldl shaRound hs)

/-- SHA-384 of a message, as its 48 bytes. -/
def sha384 (m : List Byte) : List Byte :=
  let p := shaPad m
  let ks := shaK
  let hs := (List.range (p.length / 128)).foldl (fun hs i => shaBlock ks hs ((p.drop (128 * i)).take 128)) shaInit
  ((hs.take 6).map fun h => beBytes 8 h.toNat).flatten

/-- HMAC-SHA-384 (FIPS 198-1). -/
def hmac384 (key msg : List Byte) : List Byte :=
  let k := if 128 < key.length then sha384 key else key
  let pad := k ++ List.replicate (128 - k.length) 0
  sha384 (pad.map (· ^^^ 0x5C) ++ sha384 (pad.map (· ^^^ 0x36) ++ msg))

/-- The expansion step of HKDF-SHA-384 (RFC 5869): n bytes. -/
def hkdfExpand (prk info : List Byte) (n : Nat) : List Byte :=
  ((((List.range ((n + 47) / 48)).foldl (fun (acc : List Byte × List Byte) i =>
    let t := hmac384 prk (acc.1 ++ info ++ [BitVec.ofNat 8 (i + 1)])
    (t, acc.2 ++ t)) ([], []))).2).take n

/-- HKDF-SHA-384 with no salt. -/
def hkdf384 (ikm info : List Byte) (n : Nat) : List Byte := hkdfExpand (hmac384 (List.replicate 48 0) ikm) info n

/-- The bytes of a text. -/
def ascii (t : String) : List Byte := t.toList.map fun c => BitVec.ofNat 8 c.toNat

/-- A digest as a 384-bit number, first byte lowest, as registers hold bytes (R440). -/
def digestBits (bs : List Byte) : BitVec 384 := BitVec.ofNat 384 (leVal bs)

/-- The extension of a measurement register: SHA-384 of its 48 bytes followed by the data (R440). -/
def extendMr (mr : BitVec 384) (d : List Byte) : BitVec 384 := digestBits (sha384 (bvBytes 48 mr ++ d))

end Sys2Proof.Machine
end

