-- ==== Sys2Proof/Machine/State.lean ====
section
/-!
DEFINITION. The state of the whole device as plain data: 320 cores with their queues and engines, 32 clusters, four dies,
memories, scheduler, pool and security controller (INVENTORY.md, State), and the state after reset.
-/
namespace Sys2Proof.Machine

/-- The faults that stop the model itself. Every fault of the spec is a trap or a status, hence a next state. -/
inductive Fault where
  /-- Raised by `step` when the part has no power and the mover is not POWER_UP: with power off it holds no state
  (R426). Safe: the model stops where the part does nothing. -/
  | poweredOff
  deriving DecidableEq, Repr

/-- The refusals of the model. -/
inductive Refusal where
  /-- Raised by an arm of `exec` whose instruction has no meaning yet, by mnemonic. Safe. -/
  | notModelled (mnemonic : String)
  deriving DecidableEq, Repr

/-- The causes of R400, R271 and R172 by their 8-bit code. -/
abbrev Cause := Byte

/-! ### Memory -/

/-- A map with natural-number keys, strictly rising. -/
abbrev KMap (α : Type) := List (Nat × α)

/-- A byte memory: its cells in canonical form and the numbers of its poisoned 64-byte granules, rising (R93). -/
structure Mem where
  cells : List Host.Cell
  bad   : List Nat
  deriving DecidableEq, Repr

/-- Where a physical byte lives (R53, R421): device HBM, host memory over PCIe, or the device of a pool port. -/
inductive Space where
  | hbm | host | pool (port : BitVec 2)
  deriving DecidableEq, Repr

/-- A physical location. -/
structure Loc where
  space : Space
  addr  : Nat
  deriving DecidableEq, Repr

/-- The region classes of R53; codes 6 and 7 never translate. -/
inductive Region where
  | lcl | poolBi | poolRo | poolSwf | host | hostWc
  deriving DecidableEq, Repr

/-- A line of POOL_SWF memory held in the LLC (R53, R89): the line number is its address div 128. -/
structure LlcLine where
  port  : BitVec 2
  line  : Nat
  data  : BitVec 1024
  bad   : BitVec 2
  dirty : Bool
  deriving DecidableEq, Repr

/-- A window granule of a core that is not invalid (R58): its stash granule, the global address it mirrors, its home with
class, owner tag and COMP, the permissions of its page, its dirty bytes. `transient`: a back-invalidation crossed its fill
(R432). -/
structure Gran where
  core   : CoreId
  win    : BitVec 4
  gran   : Nat
  va     : Nat
  home   : Loc
  region : Region
  owner  : Byte
  comp   : Bool
  rd     : Bool
  wr     : Bool
  transient : Bool
  dirty  : BitVec 64
  deriving DecidableEq, Repr

/-- An entry of a slice's range directory (R61): holder core and window, intent, and a strided byte range of rows, clipped to one
512 KiB page, whose virtual number stands beside it, and to the lines of the slice. -/
structure DirRange where
  slice  : Nat
  core   : CoreId
  win    : BitVec 4
  write  : Bool
  space  : Space
  page   : Nat
  vpage  : Nat
  base   : Int
  width  : Nat
  stride : Int
  count  : Nat
  deriving DecidableEq, Repr

/-- The format tag of an LLC line: FMT and the number of the window that gave it; 0xF is untagged (R64, R66). -/
structure LineTag where
  fmt : BitVec 4
  win : BitVec 7
  deriving DecidableEq, Repr, Inhabited

/-- The format tag of a stash granule: FMT, the window that gave it, and the device address its bytes were read at, from
which R65 counts the elements. -/
structure GranTag where
  fmt  : BitVec 4
  win  : BitVec 7
  home : Nat
  deriving DecidableEq, Repr, Inhabited

/-- An entry of a home's subscriber table (R82, R83): stores not yet pushed, and what R86 needs. -/
structure Sub where
  core    : CoreId
  slot    : BitVec 4
  word    : Loc
  pending : Nat
  coal    : Bool
  last    : BitVec 32
  deriving DecidableEq, Repr

/-! ### A core -/

/-- A general register with its poison bit (R12, R93). -/
structure PReg where
  val : Word
  bad : Bool
  deriving DecidableEq, Repr, Inhabited

/-- A predicate with its poison bit (R12, R93). -/
structure PBit where
  val : Bool
  bad : Bool
  deriving DecidableEq, Repr, Inhabited

/-- What the sequencer is doing: no launch; running; after HALT; stopped at a pre-emption point; killed (R45, R48, R404). -/
inductive SeqStatus where
  | off | running | halted | stopped | killed
  deriving DecidableEq, Repr

/-- Where a loop record stands (R34): the model's reading, log entry 12. -/
inductive LoopPhase where
  | prologue | kernel | epilogue
  deriving DecidableEq, Repr

/-- The iteration tag of an entry (R35). -/
inductive IterTag where
  | prologue | iter (n : BitVec 32) | epilogue
  deriving DecidableEq, Repr

/-- A loop record in the loop stack (R32, R34). -/
structure LoopRec where
  pstart : BitVec 32
  kstart : BitVec 32
  estart : BitVec 32
  eend   : BitVec 32
  trip   : BitVec 32
  ixstep : BitVec 16
  ixen   : Bool
  ixreg  : BitVec 5
  iter   : BitVec 32
  ret    : BitVec 32
  phase  : LoopPhase
  deriving DecidableEq, Repr

/-- A request held in the boost buffer (R175). -/
structure HeldPut where
  eng   : EngineId
  sub   : BitVec 4
  nores : Bool
  obj   : BitVec 6
  a     : PReg
  b     : PReg
  deriving DecidableEq, Repr

/-- What a boosted instruction writes (R38, R42). -/
inductive ShadowDst where
  | g (r : BitVec 5) | k (t : BitVec 3) | put (p : HeldPut)
  deriving DecidableEq, Repr

/-- A boost shadow or boost-buffer entry, with its deferred fault (R12, R41). The list of a core is in execution order. -/
structure Shadow where
  lvl   : BitVec 2
  dst   : ShadowDst
  val   : Word
  bad   : Bool
  fault : Option (Cause × Word)
  pc    : BitVec 16
  deriving DecidableEq, Repr

/-- A run of VRUN or MRUN not complete: its address, the first word not yet pushed, the end (R169). A list of them, since
supervisor code may run words of its own while a user run is frozen. `live`: it is in progress; a trap freezes it, and only an
ERET to its address makes it live again. -/
structure RunIdx where
  pc     : BitVec 16
  next   : Nat
  stop   : Nat
  live   : Bool
  deriving DecidableEq, Repr

/-- The unit that detected an engine fault (R206 SRC, R402). -/
inductive FaultUnit where
  | queue (q : VQ) | mx | chan (n : BitVec 3) | xseq | sampler (i : BitVec 6) | ume | fe
  deriving DecidableEq, Repr

/-- A pending or delivered engine fault (R402, R403); `at_` is the core-clock cycle of its detection. -/
structure EngFault where
  unit_ : FaultUnit
  cause : Cause
  addr  : Word
  at_   : Nat
  deriving DecidableEq, Repr

/-- The registers and control state of the sequencer (R12, R37, R79, R118, R205). `bound`: the PC stands at a
kernel-iteration boundary that it has just reached (R44). `boundAt`: that PC, if a trap was
taken there. `fellTo`: the return PC of a trap raised behind an instruction, which ERET reaches by fall-through (R34, R209). -/
structure SeqRegs where
  g      : Vector PReg 32
  k      : Vector PBit 8
  pc     : BitVec 16
  sup    : Bool
  status : SeqStatus
  mode   : Word
  srseed : Word
  ldisc  : Word
  psn    : Word
  voi    : Word
  run    : List RunIdx
  loops  : List LoopRec
  bound  : Bool
  boundAt : Option (BitVec 16)
  fellTo : Option (BitVec 16)
  boost  : List Shadow
  deriving DecidableEq, Repr

/-- The system registers that are not elsewhere (R96, R205 to R208, R458). `relfree`: GATHER changed while stores were
outstanding, so the tracking of this round is undefined (R79). -/
structure SysRegs where
  gangId    : Word
  ctxId     : Word
  nodeArg   : Word
  mxmiss    : Word
  werr      : Word
  trapvec   : Word
  trappc    : Word
  trapcause : Word
  trapaddr  : Word
  boostinfo : Word
  sscr      : Vector Word 4
  relquery  : Word
  relfree   : Bool
  winsel    : BitVec 4
  engarea   : Word
  deriving DecidableEq, Repr

/-- The shape of vector words: R rows and C columns (R213). -/
structure Shape where
  rows : Nat
  cols : Nat
  deriving DecidableEq, Repr

/-- One row of 64 bytes with its poison (R12, R93). -/
structure Row where
  bits : BitVec 512
  bad  : Bool
  deriving DecidableEq, Repr, Inhabited

/-- One accumulator row of 96 elements of 32 bits with its poison (R12, R93). -/
structure AccRow where
  bits : BitVec 3072
  bad  : Bool
  deriving DecidableEq, Repr, Inhabited

/-- A FIFO entry: R rows, enables by element number, element size in half bytes, tag (R26, R35, R216). -/
structure FifoEntry where
  rows  : List Row
  en    : BitVec 4096
  half  : Nat
  tag   : IterTag
  deriving DecidableEq, Repr

/-- What the dispatcher attaches to an entry (R22, R35): the word's index in its memory, registers, mode state, seed, push
sequence number. -/
structure Capture where
  idx  : Nat
  r1   : Word
  r2   : Word
  mode : BitVec 7
  seed : Word
  psn  : Nat
  tag  : IterTag
  deriving DecidableEq, Repr

/-- An entry of a vector queue with its vector order index (R22) and the shape that the dispatcher knows for it (R213). -/
structure VEntry where
  word  : Instr
  cap   : Capture
  voi   : Nat
  shape : Shape
  deriving DecidableEq, Repr

/-- What VAQ forwards to the copies in VLQ and VSQ (R29, R31): the new top, or VSKIP's decision. -/
inductive MaskMsg where
  | top (voi : Nat) (m : BitVec 4096) | skip (voi : Nat) (yes : Bool)
  deriving DecidableEq, Repr

/-- A vector queue: its entries, shape, mask stack (innermost first), skip bound, halt, mask channel (R12, R21, R28, R31). -/
structure VQueue where
  entries : List VEntry
  shape   : Shape
  masks   : List (BitVec 4096)
  skipTo  : Option Nat
  halted  : Bool
  msgs    : List MaskMsg
  deriving DecidableEq, Repr

/-- An operand latch: the stash bytes and format tags as the gather unit read them, and the scales of TAG operands, of A
keyed 64 * row + group, of B 8192 + 64 * column + group (R258, R264). -/
structure Latch where
  mem    : Mem
  tags   : KMap GranTag
  scales : KMap (Byte × Bool)
  deriving DecidableEq, Repr

/-- An entry of MXQ (R21, R264, R265). -/
structure MEntry where
  word      : Instr
  cap       : Capture
  stampLost : Bool
  latch     : Option Latch
  deriving DecidableEq, Repr

/-- The vector and matrix engines of a core (R12). Rows of v are keyed `32 * register + row`, rows of a `96 * a + row`. -/
structure Engines where
  v     : KMap Row
  m     : Vector (BitVec 4096) 8
  acc   : KMap AccRow
  shape : Shape
  vlq   : VQueue
  vaq   : VQueue
  vsq   : VQueue
  mxq   : List MEntry
  mxHalted : Bool
  fifos : Vector (List FifoEntry) 6
  deriving DecidableEq, Repr

/-- A barrier (R180). -/
structure Barrier where
  cntw    : BitVec 32
  estat   : Byte
  esrc    : BitVec 10
  expect  : BitVec 16
  arrived : BitVec 16
  err     : Bool
  phase   : Bool
  init    : Bool
  deriving DecidableEq, Repr, Inhabited

/-- The states of a copy channel (R188), with the wait of TAIL (R407). -/
inductive ChanState where
  | idle | walk | tail | idleTail | stopped | halted
  deriving DecidableEq, Repr, Inhabited

/-- What a channel halted by COPY_XLATE repeats after ERET: the record from byte WMARK, the end writes of a record from the
given one on (0 RESULT, 1 ctl), or the record read (R403). -/
inductive ChanResume where
  | record (done : Nat) | writes (rec_ : CopyRec) (from_ : Nat) (status : Byte) (result : Word) | read
  deriving DecidableEq, Repr

/-- A copy channel (R188, R273, R403, R407). `ended` counts the records it has ended, for FENCEM's marker (R178). -/
structure Chan where
  state  : ChanState
  head   : Word
  va     : Word
  wmark  : Nat
  status : Byte
  twait  : Bool
  reread : Nat
  stopAt : Bool
  resume : Option ChanResume
  ended  : Nat
  deriving DecidableEq, Repr

/-- A standing-load slot (R81, R84, R407). -/
structure Slot where
  active : Bool
  va     : Word
  sa     : BitVec 20
  scope  : Scope
  acq    : Bool
  read   : Bool
  deriving DecidableEq, Repr

/-- A sequencer store that its home has not acknowledged (R72, R78): bytes lowest address first. `rel`: the scope of a
release, which waits for the stores before it (R74, R78, R92). `round`: the round it carries in gathered-count mode (R79). -/
structure PendStore where
  loc    : Loc
  region : Region
  comp   : Bool
  va     : Word
  bytes  : List Byte
  bad    : Bool
  seqno  : Nat
  rel    : Option Scope
  round  : Option (BitVec 4)
  deriving DecidableEq, Repr

/-- The markers of the latest FENCEM (R178): the mask, the push sequence number and store number at it, the channel
records to end, and the release scope if it carries one. -/
structure Fence where
  mask  : BitVec 6
  psn   : Nat
  store : Nat
  chans : List (BitVec 3 × Nat)
  rel   : Option Scope
  deriving DecidableEq, Repr

/-- A request to a shared engine (R171, R172): `order` is its arrival number, `target` the engine's own object. -/
structure Req where
  eng    : EngineId
  obj    : BitVec 6
  target : Nat
  sub    : BitVec 4
  a      : PReg
  b      : PReg
  nores  : Bool
  order  : Nat
  result : Option (Word × Bool)
  deriving DecidableEq, Repr

/-- A TLB entry: context, base of the page as VA[51:19], size code of R413, the leaf (R410, R412). -/
structure TlbEntry where
  ctx  : BitVec 6
  page : Nat
  size : BitVec 3
  leaf : Word
  deriving DecidableEq, Repr

/-- A window descriptor (R56): its four words. -/
structure WinDesc where
  w0 : Word
  w1 : Word
  w2 : Word
  w3 : Word
  deriving DecidableEq, Repr, Inhabited

/-- An approximable-region descriptor as the image declares it (R319). -/
structure Region319 where
  begin_ : BitVec 16
  end_   : BitVec 16
  nin    : Nat
  nout   : Nat
  widths : List Nat
  acts   : List Nat
  flags  : BitVec 2
  batch  : Nat
  lrexp  : Nat
  sexp   : Nat
  vsamp  : Nat
  trip   : BitVec 32
  valt   : BitVec 32
  steps  : Nat
  weights : Option (List (BitVec 32))
  ins    : List (BitVec 32)
  outs   : List (BitVec 32)
  deriving DecidableEq, Repr

/-- The header declarations in force on a core (R49, R317). `fifo` holds the producer byte of lf0 to lf3. -/
structure Decl where
  gregs    : Nat
  barriers : Nat
  mboxes   : Nat
  stash    : Nat
  slip     : Nat
  fifo     : Vector Byte 6
  regions  : List Region319
  deriving DecidableEq, Repr

/-- An open approximable-region invocation (R201, R346): the region, its state at BEGIN, whether it is sampled, whether
its inputs were clean, the inputs, and the surrogate's results on them where BEGIN evaluates it. -/
structure Invocation where
  region  : BitVec 4
  state   : Nat
  sampled : Bool
  clean   : Bool
  ins     : List (BitVec 32)
  sur     : List (BitVec 32)
  deriving DecidableEq, Repr

/-- An address generator (R289). -/
structure AddrGen where
  base : Word
  cnt  : Vector (BitVec 16) 4
  str  : Vector (BitVec 32) 4
  idx  : Vector (BitVec 16) 4
  deriving DecidableEq, Repr, Inhabited

/-- An entry of the transform run queue (R170, R288): the first word, runs left, run number, captured mode and seed. -/
structure XRunEntry where
  first : BitVec 12
  left  : Nat
  num   : Nat
  mode  : BitVec 7
  seed  : Word
  deriving DecidableEq, Repr

/-- The transform sequencer of an S core (R288). `active`: a run has started; `halted`: an engine fault; `bits`, `bitsBad`,
`flags`: what an interrupted PACK, UNPK or CVT carries from element to element (R294, R295). -/
structure XSeq where
  h      : Vector PReg 8
  ag     : Vector AddrGen 16
  tk     : Vector (BitVec 16) 8
  tpc    : Nat
  loops  : List (Nat × Nat)
  xprog  : Nat
  bits   : Nat
  bitsBad : Bool
  flags  : BitVec 2
  runs   : List XRunEntry
  active : Bool
  halted : Bool
  deriving DecidableEq, Repr

/-- The boot mailbox of a core (R395). -/
structure BootBox where
  handle : Word
  argb   : Word
  seed   : Word
  gang   : Word
  part   : BitVec 3
  ctx    : Byte
  go     : Bool
  state  : BitVec 8
  code   : Byte
  deriving DecidableEq, Repr, Inhabited

/-- A core (R12). `sup`: the supervisor code that firmware has loaded into its control memory from 0xE000 up (R50; log entry
60). -/
structure Core where
  rg     : SeqRegs
  sys    : SysRegs
  eng    : Engines
  xs     : XSeq
  bars   : Vector Barrier 64
  chans  : Vector Chan 8
  slots  : Vector Slot 16
  wins   : Vector WinDesc 16
  stash  : Mem
  tags   : KMap GranTag
  cmem   : Mem
  vmem   : KMap (BitVec 96)
  mmem   : KMap (BitVec 192)
  xmem   : KMap Unit32
  image  : Option (Word × BitVec 6)
  decl   : Decl
  ctx    : BitVec 6
  gang   : Option Nat
  stores : List PendStore
  storeNo : Nat
  loadsOut : Nat
  fence  : Option Fence
  reqs   : List Req
  pend   : List EngFault
  taken  : List EngFault
  inv    : Option Invocation
  boot   : BootBox
  tlb    : List TlbEntry
  inSvc  : Bool
  ueCount : Nat
  hung   : BitVec 10
  sup    : Resident
  deriving DecidableEq, Repr

/-! ### Clusters and dies -/

/-- A sampler candidate (R299). -/
structure Cand where
  val : BitVec 32
  id  : BitVec 32
  bad : Bool
  deriving DecidableEq, Repr, Inhabited

/-- A sampler context (R299): candidates 0 to NC - 1 and beyond as written, its owner gang and requesting core. -/
structure SmpCtx where
  cands : KMap Cand
  nc    : Nat
  y     : Vector PReg 8
  key   : Word
  ctr   : BitVec 128
  spc   : Nat
  run   : BitVec 2
  gang  : Option Nat
  core  : CoreId
  deriving DecidableEq, Repr

/-- A mailbox (R184): owner gang and its number there, entries oldest first with poison. -/
structure MBox where
  gang : Option (Nat × BitVec 4)
  fifo : List (BitVec 128 × Bool)
  deriving DecidableEq, Repr, Inhabited

/-- A microcode segment of the sampler store (R301, R318): the context and handle by which gangs share it, first word, length. Placement reserves it; `loaded` once the overlay loader has copied the program. -/
structure Segment where
  ctx    : BitVec 6
  handle : Word
  first  : Nat
  len    : Nat
  loaded : Bool
  deriving DecidableEq, Repr

/-- A region record bound by a fitting engine (R341, R343): the working copy, by gang and region. -/
structure FeRec where
  gang    : Nat
  region  : BitVec 4
  ctx     : BitVec 6
  desc    : Region319
  state   : Nat
  flags   : BitVec 2
  sexp    : Nat
  trip    : BitVec 32
  invoc   : Nat
  sampled : Nat
  stepsDone : Nat
  ncap    : Nat
  nval    : Nat
  lasterr : BitVec 32
  trips   : Nat
  handle  : Word
  weights : List (BitVec 32)
  capture : List (List (BitVec 32))
  vbuf    : List (List (BitVec 32))
  batch   : Option (List (List (BitVec 32)))
  deriving DecidableEq, Repr

/-- A commit handed to a commit unit (R324), with the context and gang that issued it. -/
structure Commit where
  core : CoreId
  desc : Word
  acc  : BitVec 32
  bar  : BitVec 6
  ctx  : BitVec 6
  gang : Option Nat
  deriving DecidableEq, Repr

/-- A cluster: sampler contexts and microcode, mailboxes, fitting engine, commit unit, L2 TLB, P-state, the sampler
context from which the next instruction is sought (R1, R299, R301, R397). -/
structure Cluster where
  smp    : KMap SmpCtx
  ucode  : KMap Unit32
  segs   : List Segment
  mbox   : Vector MBox 16
  fe     : List FeRec
  kvc    : List Commit
  tlb    : List TlbEntry
  pstate : BitVec 3
  smpNext : BitVec 6
  feHung : Bool
  smHung : Bool
  deriving DecidableEq, Repr

/-- A configured UME block context (R333). -/
structure UmeCfg where
  len    : Nat
  groups : Nat
  kind   : Nat
  q      : Nat
  w      : Nat
  rper   : Nat
  thr    : BitVec 32
  cdg    : Nat
  bdg    : Nat
  tokva  : Word
  mapva  : Word
  ctx    : BitVec 6
  deriving DecidableEq, Repr

/-- A UME block context (R333 to R337): configuration, masked positions, round counter, posted pairs, dirty entries by
position and group, owner gang. -/
structure UmeCtx where
  cfg    : Option UmeCfg
  masked : List Nat
  round  : Nat
  posted : Option (List (Nat × BitVec 32 × BitVec 32))
  dirty  : List (Nat × Nat)
  gang   : Option Nat
  deriving DecidableEq, Repr, Inhabited

/-- A range handed to a cache walker (R195, R196). -/
structure WalkRange where
  core   : CoreId
  ctx    : BitVec 6
  inval  : Bool
  bar    : BitVec 6
  base   : Word
  rowlen : Nat
  count  : Nat
  stride : Int
  deriving DecidableEq, Repr

/-- An entry of a die's walk cache (R412): the pointer that level 1 or 2 of a context's tables holds for a virtual address,
by VA[51:41] or VA[51:30]. -/
structure PtrEntry where
  ctx   : BitVec 6
  level : BitVec 2
  key   : Nat
  ptr   : Word
  deriving DecidableEq, Repr

/-- A die: UME, cache walker, walk cache, power manager, telemetry (R90, R333, R397, R420, R451, R452). -/
structure Die where
  ume     : KMap UmeCtx
  walker  : List WalkRange
  budget  : BitVec 32
  temp    : Byte
  periods : Nat
  coarsen : Word
  eccce   : Word
  eccue   : Word
  walks   : Word
  stepdn  : Word
  energy  : Nat
  umeHung : Bool
  wcache  : List PtrEntry
  deriving DecidableEq, Repr

/-! ### Scheduler -/

/-- A context entry with its hidden MODELOK bit (R378, R443). -/
structure Ctx where
  ptroot  : Word
  engarea : Word
  fearea  : Word
  evcnt   : BitVec 16
  evbase  : BitVec 16
  valid   : Bool
  part    : BitVec 3
  tag     : Byte
  modelok : Bool
  deriving DecidableEq, Repr, Inhabited

/-- A submission mailbox (R379). -/
structure Submit where
  roots : List Word
  ovf   : Bool
  deriving DecidableEq, Repr, Inhabited

/-- A node descriptor as read (R381). -/
structure NodeDesc where
  kind    : Nat
  cls     : Nat
  gangm   : Nat
  gangs   : Nat
  prio    : Nat
  eclass  : Nat
  image   : Word
  arg     : Word
  seed    : Word
  nsmp    : Nat
  nume    : Nat
  pixmask : Byte
  flags   : BitVec 3
  die     : Nat
  aux     : Word
  tops    : List (BitVec 256)
  waits   : List (Nat × Nat)
  sigs    : List (Nat × Nat)
  deriving DecidableEq, Repr

/-- The node states of R384. -/
inductive NodeState where
  | waiting | eligible | ready | placed | running | saved
  deriving DecidableEq, Repr

/-- What the read of a CONDITIONAL node's predicate gave (R389): the word, or the code with which the node fails. -/
inductive PredRead where
  | word (w : BitVec 32) | failed (code : Cause)
  deriving DecidableEq, Repr

/-- A node in flight: its graph or coalescer slot, index, descriptor VA, state, run of a LOOP (R383), order of
eligibility, the DCC at which it entered READY (R390), and a CONDITIONAL's predicate as read (R389). -/
structure Node where
  id    : Nat
  graph : Option Nat
  slot  : Option (Nat × Nat)
  idx   : Nat
  ctx   : BitVec 6
  va    : Word
  desc  : NodeDesc
  state : NodeState
  run   : Nat
  order : Nat
  since : Word
  gang  : Option Nat
  pred  : Option PredRead
  deriving DecidableEq, Repr

/-- A graph in flight (R380): the next node the walker reads. -/
structure Graph where
  id      : Nat
  ctx     : BitVec 6
  nnodes  : Nat
  nodes   : Word
  doneev  : Nat
  failev  : Option Nat
  donecnt : Nat
  next    : Nat
  retired : Bool
  deriving DecidableEq, Repr

/-- The states of a gang from placement on (R384, R406); a killed one holds its cores until their requests end (R404). -/
inductive GangState where
  | placed | waitP0 | running | stopping | saved | killed
  deriving DecidableEq, Repr

/-- What the model keeps of a saved member beside its save area, whose layout R407 and R408 give no place for it: unpopped
requests (the layout of ENGAREA is not given), loop phases innermost first, the latest FENCEM and the channels' record
counts; of the transform sequencer number, mode and seed of the queued runs, whether the first has started, what an
interrupted transfer carries, and whether TPC stands past word 4,095 (R292); the skip bounds of VLQ, VAQ and VSQ (R31); RELQUERY's
undefined round (R79); the lead's mailbox poison; where in ENGAREA the values of the unpopped elements stand (log entry 25). -/
structure Kept where
  core   : CoreId
  reqs   : List Req
  phases : List LoopPhase
  fence  : Option Fence
  ended  : Vector Nat 8
  xruns  : List (Nat × BitVec 7 × Word)
  xpart  : Bool × Nat × Bool × BitVec 2
  xpast  : Bool
  skips  : List (Option Nat)
  relfree : Bool
  mbad   : List (List Bool)
  area   : Option Word
  deriving DecidableEq, Repr

/-- A gang (R15, R391, R392, R406): members in index order, those that have finished, its argument base, the mailboxes it
declares, granted contexts, save slots while stopping or saved, the earliest DCC of the next pre-emption request, the
members' pending ENGINE_SHED faults of R406, and the DCC of its latest start. -/
structure Gang where
  num     : Nat
  node    : Nat
  ctx     : BitVec 6
  members : List CoreId
  cluster : BitVec 5
  smp     : List (BitVec 6)
  ume     : List (BitVec 6)
  pixmask : Byte
  hostmb  : Bool
  stamped : Bool
  image   : Word
  prio    : Nat
  state   : GangState
  slots   : List Nat
  pending : List (CoreId × EngFault)
  start   : Word
  done    : List CoreId
  kept    : List Kept
  mboxes  : Nat
  arg     : Word
  retry   : Word
  deriving DecidableEq, Repr

/-- An event-table entry (R386). -/
structure Event where
  count   : BitVec 32
  hostvis : Bool
  vec     : BitVec 11
  spill   : Bool
  deriving DecidableEq, Repr, Inhabited

/-- A registered wait (R387, R388): the node, event and threshold. -/
structure Wait where
  node : Nat
  ev   : Nat
  thr  : Nat
  deriving DecidableEq, Repr

/-- The scheduler (R378 to R393, R419). `writers`: the write-intent tile operands of the nodes placed so far, with their die
and context, the latest first (R391). `holds`: the nodes whose hold on lower-ranked ones has begun (R390). -/
structure Sched where
  run       : Bool
  bringup   : Bool
  spillbase : Word
  spilln    : Nat
  savebase  : Word
  saven     : Nat
  submits   : Vector Submit 64
  graphs    : List Graph
  nodes     : List Node
  gangs     : List Gang
  waits     : List Wait
  spill     : List Wait
  events    : KMap Event
  nextGang  : Nat
  nextId    : Nat
  rr        : BitVec 6
  spills    : Word
  preempts  : Word
  writers   : List (Nat × BitVec 6 × List (BitVec 256))
  holds     : List Nat
  deriving DecidableEq, Repr

/-- A partition (R398). -/
structure Part where
  clmask    : BitVec 32
  ways      : BitVec 16
  poolshare : BitVec 16
  hbmshare  : BitVec 16
  rpshare   : BitVec 16
  deriving DecidableEq, Repr, Inhabited

/-- A coalescer slot (R396): configuration, HEAD, the tail last seen, arrival times of the pending, lists in use. -/
structure Coal where
  ring     : Word
  tailva   : Word
  tmpl     : Word
  glist    : Word
  b        : BitVec 16
  t        : BitVec 16
  deadline : BitVec 16
  log2n    : Byte
  en       : Bool
  head     : BitVec 32
  arrivals : List Word
  busy     : BitVec 4
  deriving DecidableEq, Repr, Inhabited

/-- The error log (R399, R420): ring entries of 256 bits keyed by index mod 4,096. -/
structure ErrLog where
  widx : BitVec 32
  ridx : BitVec 32
  vec  : BitVec 11
  drop : BitVec 32
  ring : KMap (BitVec 256)
  deriving DecidableEq, Repr

/-! ### Host link, pool, security -/

/-- A PIX tree control block, installed or not, with its clock (R326). -/
structure Tree where
  nodebase  : Word
  htab      : Word
  nmax      : Nat
  tag       : Byte
  installed : Bool
  clock     : Word
  deriving DecidableEq, Repr, Inhabited

/-- Identity, start-up and host control (R416 to R418, R424 to R426). `tdi`: 0 unlocked, 1 locked, 2 run, 3 error; `tdiErr`: whether the last
TDISP request received an error response, none before one; `ide`: the IDE streams in their secure state, rising; `ideKeys`: the key material that IDE_KM has programmed, by stream (R424, R446). -/
structure Ident where
  phase   : BitVec 4
  fail    : Byte
  portup  : BitVec 4
  devcap  : BitVec 128
  drvacc  : BitVec 128
  hostctl : Word
  tdi     : BitVec 2
  tdiErr  : Option Bool
  ide     : List Nat
  ideKeys : KMap (List Byte)
  boots   : Nat
  deriving DecidableEq, Repr

/-- Power registers (R397, R420, R456). -/
structure Power where
  thresh   : Vector (BitVec 32) 3
  throttle : Byte
  cap      : BitVec 16
  deriving DecidableEq, Repr

/-- A format window (R63). -/
structure FmtWin where
  base  : Word
  limit : Word
  pack  : Word
  scale : Word
  ctl   : BitVec 6
  deriving DecidableEq, Repr, Inhabited

/-- A CXL port (R429) with its extent table (R433). `state`: 0 down, 1 training, 2 up, 3 dead, 4 retrained. -/
structure Port where
  state   : BitVec 3
  width   : Byte
  speed   : Byte
  dcap    : Bool
  heads   : BitVec 5
  head    : BitVec 4
  losscnt : BitVec 16
  ext     : KMap Extent
  xstate  : KMap (BitVec 2)
  rqrel   : List Nat
  owed    : List Nat
  deriving DecidableEq, Repr

/-- A pool window (R430). `wstate`: 0 OK, 1 LOST, 2 REVAL. Addresses in 512 KiB units. -/
structure PoolWin where
  base   : BitVec 29
  size   : BitVec 29
  dpa    : BitVec 29
  en     : Bool
  wstate : BitVec 2
  dyn    : Bool
  act    : Bool
  repl   : Bool
  rport  : BitVec 2
  port   : BitVec 2
  deriving DecidableEq, Repr, Inhabited

/-- The pool: ports, windows, POOLSTAT, the agent's filter of POOL_BI lines, oldest first (R429 to R431); the lines of which a
back-invalidation was answered while a request for them is in flight, and which of them the present step requests (R432); the
ports that have stopped answering and are not yet declared dead (R435, R436). -/
structure Pool where
  ports  : Vector Port 4
  wins   : Vector PoolWin 16
  vec    : BitVec 11
  dcev   : Bool
  chg    : BitVec 4
  filter : List (BitVec 2 × Nat)
  crossed : List (BitVec 2 × Nat)
  used   : List (BitVec 2 × Nat)
  silent : BitVec 4
  mem    : Vector Mem 4
  deriving DecidableEq, Repr

/-- A key slot (R442, R446, R448). `state`: 0 EMPTY, 1 LOADED, 2 ARMED. -/
structure KeySlot where
  state   : BitVec 2
  tag     : Byte
  key     : BitVec 256
  lastctr : Word
  deriving DecidableEq, Repr, Inhabited

/-- The request-order state of the SPDM responder (R444). -/
inductive SpdmPhase where
  | start | version | caps | algs | keyed | session
  deriving DecidableEq, Repr

/-- One direction of a secured session: AES-256 key, IV, sequence number (R444). -/
structure SecureDir where
  key : List Byte
  iv  : List Byte
  seq : Nat
  deriving DecidableEq, Repr

/-- The session of the responder (R444): its identifier, the keys of requests and of responses, the requester's finished key, and
the handshake secret from which FINISH derives the keys of the application phase. -/
structure Session where
  id       : List Byte
  req      : SecureDir
  rsp      : SecureDir
  finished : List Byte
  secret   : List Byte
  deriving DecidableEq, Repr

/-- The security controller (R438 to R448): identity keys, measurement registers, mailbox with the opcode that it executes, key slots,
SPDM responder with its session; `cover` holds the session identifier and the keys that protect the response to the present request, none for a plain message. -/
structure Security where
  edKey   : KeyPair
  mldsaKey : KeyPair
  mr      : Vector (BitVec 384) 16
  opcode  : BitVec 16
  result  : Byte
  fresh   : Bool
  vec     : BitVec 11
  args    : KMap Byte
  out     : List Byte
  keys    : Vector KeySlot 64
  spdm    : SpdmPhase
  version : Byte
  trans   : List Byte
  request : List Byte
  reply   : List Byte
  draws   : Nat
  busy    : Option (BitVec 16)
  session : Option Session
  cover   : Option (List Byte × SecureDir)
  deriving DecidableEq, Repr

/-- Raised MSI-X vectors, and the bytes of the MSI-X table and pending-bit array (R415, R422). -/
structure Msix where
  raised : List Nat
  table  : Mem
  deriving DecidableEq, Repr

/-- Which part of the device the present step belongs to: the model's own field, set by `step`. -/
structure Focus where
  core : CoreId
  vq   : VQ
  smp  : BitVec 5 × BitVec 6
  tree : BitVec 3
  ume  : BitVec 8
  fe   : BitVec 5
  deriving DecidableEq, Repr

/-- An engine that the hang detector watches: what stood for its progress when last looked at, and the DCC since which it has made
none (R453). -/
structure Watch where
  unit  : StallUnit
  seen  : List (List Nat)
  since : Word
  deriving DecidableEq, Repr

/-- The device. `cycle` counts the core-clock cycles that order the detection of engine faults (R402); `free` and `moves` count the
free values and free movers drawn: fields of the model, not of the spec. -/
structure State where
  focus    : Focus
  agenda   : List Agent
  moves    : Nat
  free     : Nat
  order    : Nat
  powered  : Bool
  dcc      : Word
  cycle    : Nat
  cores    : Vector Core 320
  clusters : Vector Cluster 32
  dies     : Vector Die 4
  hbm      : Mem
  host     : Mem
  badBlocks : List Nat
  llc      : List LlcLine
  llcTags  : KMap LineTag
  grans    : List Gran
  dir      : List DirRange
  subs     : List Sub
  ctxs     : Vector Ctx 64
  sched    : Sched
  parts    : Vector Part 8
  coal     : KMap Coal
  log      : ErrLog
  trees    : Vector Tree 8
  tlbinv   : Word
  ident    : Ident
  power    : Power
  fmt      : Vector FmtWin 128
  pool     : Pool
  sec      : Security
  msix     : Msix
  stallt   : BitVec 32
  watches  : List Watch
  sheds    : Word
  misses   : Word
  deriving DecidableEq, Repr

/-! ### Reset -/

/-- A memory with nothing listed. -/
def Mem.empty : Mem := ⟨[], []⟩

/-- g and k, MODE and the control state before any launch (R14, R37, R118; log entry 4). -/
def SeqRegs.reset : SeqRegs :=
  { g := Vector.replicate 32 ⟨0, false⟩, k := Vector.replicate 8 ⟨false, false⟩, pc := 0, sup := false, status := .off,
    mode := 0, srseed := 0, ldisc := 0, psn := 0, voi := 0, run := [], loops := [], bound := false,
    boundAt := none, fellTo := none, boost := [] }

/-- The system registers: TRAPVEC reads 0xE000 (R458); the rest 0 (R205; log entry 4). -/
def SysRegs.reset : SysRegs :=
  { gangId := 0, ctxId := 0, nodeArg := 0, mxmiss := 0, werr := 0, trapvec := 0xE000, trappc := 0, trapcause := 0,
    trapaddr := 0, boostinfo := 0, sscr := Vector.replicate 4 0, relquery := 0, relfree := false, winsel := 0, engarea := 0 }

/-- R = 32, C = 16 (R14). -/
def Shape.launch : Shape := ⟨32, 16⟩

/-- An empty vector queue at the launch shape (R14). -/
def VQueue.launch : VQueue := ⟨[], Shape.launch, [], none, false, []⟩

/-- The engines as a launch sets them (R14). -/
def Engines.launch : Engines :=
  { v := [], m := Vector.replicate 8 0, acc := [], shape := Shape.launch, vlq := VQueue.launch, vaq := VQueue.launch,
    vsq := VQueue.launch, mxq := [], mxHalted := false, fifos := Vector.replicate 6 [] }

/-- An address generator at launch: BASE 0, CNT 1, STR 0, IDX 0 (R288). -/
def AddrGen.launch : AddrGen := ⟨0, Vector.replicate 4 1, Vector.replicate 4 0, Vector.replicate 4 0⟩

/-- The transform sequencer at launch (R288). -/
def XSeq.launch : XSeq :=
  { h := Vector.replicate 8 ⟨0, false⟩, ag := Vector.replicate 16 AddrGen.launch, tk := Vector.replicate 8 0, tpc := 0,
    loops := [], xprog := 0, bits := 0, bitsBad := false, flags := 0, runs := [], active := false, halted := false }

/-- A barrier that is not initialised (R14, R180). -/
def Barrier.reset : Barrier := ⟨0, 0, 0, 0, 0, false, false, false⟩

/-- An idle channel (R188). -/
def Chan.idle : Chan := ⟨.idle, 0, 0, 0, 0, false, 0, false, none, 0⟩

/-- An inactive slot (R14). -/
def Slot.none : Slot := ⟨false, 0, 0, .core, false, false⟩

/-- No declarations in force: no image is loaded (R49; log entry 4). -/
def Decl.none : Decl := ⟨32, 0, 0, 0, 1, Vector.replicate 6 0, []⟩

/-- A boot mailbox at reset (R395). -/
def BootBox.reset : BootBox := ⟨0, 0, 0, 0, 0, 0, false, 0, 0⟩

/-- A core after start-up, before any launch. -/
def Core.reset (inService : Bool) : Core :=
  { rg := SeqRegs.reset, sys := SysRegs.reset, eng := Engines.launch, xs := XSeq.launch,
    bars := Vector.replicate 64 Barrier.reset, chans := Vector.replicate 8 Chan.idle,
    slots := Vector.replicate 16 Slot.none, wins := Vector.replicate 16 ⟨0, 0, 0, 0⟩, stash := Mem.empty, tags := [],
    cmem := Mem.empty, vmem := [], mmem := [], xmem := [], image := none, decl := Decl.none, ctx := 0, gang := none,
    stores := [], storeNo := 0, loadsOut := 0, fence := none, reqs := [], pend := [], taken := [], inv := none,
    boot := BootBox.reset, tlb := [], inSvc := inService, ueCount := 0, hung := 0, sup := if inService then Config.resident else .none }

/-- A sampler context that nothing has used (R299; log entry 4). -/
def SmpCtx.reset : SmpCtx := ⟨[], 0, Vector.replicate 8 ⟨0, false⟩, 0, 0, 0, 0, none, 0⟩

/-- A cluster after start-up, at P0 (log entry 4). -/
def Cluster.reset : Cluster :=
  { smp := [], ucode := [], segs := [], mbox := Vector.replicate 16 ⟨none, []⟩, fe := [], kvc := [], tlb := [],
    pstate := 0, smpNext := 0, feHung := false, smHung := false }

/-- A die after start-up (R420, R451). -/
def Die.reset : Die := ⟨[], [], 0, 0, 0, 0, 0, 0, 0, 0, 0, false, []⟩

/-- The scheduler with every table of R419 at 0 (R426). -/
def Sched.reset : Sched :=
  { run := false, bringup := false, spillbase := 0, spilln := 0, savebase := 0, saven := 0,
    submits := Vector.replicate 64 ⟨[], false⟩, graphs := [], nodes := [], gangs := [], waits := [], spill := [],
    events := [], nextGang := 1, nextId := 0, rr := 0, spills := 0, preempts := 0,
    writers := [], holds := [] }

/-- A port at reset (R429). -/
def Port.reset : Port := ⟨0, 0, 0, false, 0, 0, 0, [], [], [], []⟩

/-- A port after its training at start-up (R426 phase 3, R428; Config). -/
def Port.start (p : BitVec 2) : Port :=
  if Config.portUp p then
    { Port.reset with state := 2, width := Config.portWidth p, speed := Config.portSpeed p, dcap := Config.portDcap p,
                      heads := (Config.portHeads p).setWidth 5, head := Config.portHead p }
  else Port.reset

/-- The pool after start-up: trained ports UP, every window register 0 (R429, R430). -/
def Pool.reset : Pool :=
  { ports := Vector.ofFn fun p => Port.start (BitVec.ofFin p),
    wins := Vector.replicate 16 ⟨0, 0, 0, false, 0, false, false, false, 0, 0⟩, vec := 0, dcev := false, chg := 0,
    filter := [], crossed := [], used := [], silent := 0, mem := Vector.replicate 4 Mem.empty }

/-- The SHA-384 digest of an object of the package flash at a power-up (R439, R440). -/
def objectDigest (boot : Nat) (o : BootObject) : List Byte := sha384 (Config.flash boot o).content

/-- The object whose digest start-up extends into a measurement register (R440). -/
def measuredObject (i : Nat) : BootObject :=
  match i with
  | 0 => .securityFirmware
  | 1 => .hubFirmware
  | 2 => .configRecord
  | _ => .supervisor

/-- The measurement registers after a start-up that has passed its first steps: MR0 and MR1 by ROM and controller, MR2 with the
configuration record, MR3 with the supervisor image, MR4 with DEVCAP (R440); the others 0. -/
def startMr (boot : Nat) (rec_ image ready : Bool) : Vector (BitVec 384) 16 :=
  Vector.ofFn fun (i : Fin 16) =>
    if i.val < 2 ∨ (i.val = 2 ∧ rec_ = true) ∨ (i.val = 3 ∧ image = true) then extendMr 0 (objectDigest boot (measuredObject i.val))
    else if i.val = 4 ∧ ready = true then extendMr 0 (bvBytes 16 Config.devcap)
    else 0

/-- The security controller after start-up: its identity derived from the PUF response, every slot EMPTY, no session, no argument (R438,
R440, R441, R447). -/
def Security.reset : Security :=
  { edKey := Config.edKeyPair (hkdf384 Config.puf (ascii "KRN-ED25519") 32),
    mldsaKey := Config.mldsaKeyPair (hkdf384 Config.puf (ascii "KRN-MLDSA65") 32),
    mr := startMr 0 true true true, opcode := 0, result := 0, fresh := false, vec := 0, args := [], out := [],
    keys := Vector.replicate 64 ⟨0, 0, 0, 0⟩, spdm := .start, version := 0, trans := [], request := [], reply := [],
    draws := 0, busy := none, session := none, cover := none }

/-- Identity at PHASE 5: DEVCAP from the record, DRVACC 0, no fault (R416, R418, R426). -/
def Ident.reset : Ident :=
  { phase := 5, fail := 0,
    portup := BitVec.ofBool (Config.portUp 3) ++ BitVec.ofBool (Config.portUp 2) ++
      BitVec.ofBool (Config.portUp 1) ++ BitVec.ofBool (Config.portUp 0),
    devcap := Config.devcap, drvacc := 0, hostctl := 0, tdi := 0, tdiErr := none, ide := [], ideKeys := [],
    boots := 0 }

/-- The power registers: thresholds from the record, CAP = POWERLIM (R420, R456). -/
def Power.reset : Power :=
  { thresh := Vector.ofFn fun i => Config.thresh (BitVec.ofNat 2 i.val), throttle := Config.throttle,
    cap := Config.powerlim }

/-- The error log at READY: an entry with SRC 4 and CODE 0x23 for each core that start-up left out of service (R450). -/
def startLog : ErrLog :=
  let out := (List.finRange 320).filter fun c => !Config.coreInService c
  let entry (c : CoreId) : BitVec 256 := BitVec.ofNat 256 (4 * 2 ^ 128 + 0x23 * 2 ^ 136 + c.val * 2 ^ 160)
  { widx := BitVec.ofNat 32 out.length, ridx := 0, vec := 0, drop := 0, ring := (List.range out.length).zip (out.map entry) }

/-- The device right after a start-up that succeeded, in PHASE 5 (R426): nothing submitted, nothing launched, memory with
nothing listed. -/
def State.reset : State :=
  { focus := ⟨0, .vlq, (0, 0), 0, 0, 0⟩, agenda := [], moves := 0, free := 0, order := 0, powered := true, dcc := 0, cycle := 0,
    cores := Vector.ofFn fun c => Core.reset (Config.coreInService c),
    clusters := Vector.replicate 32 Cluster.reset, dies := Vector.replicate 4 Die.reset, hbm := Mem.empty,
    host := Mem.empty, badBlocks := [], llc := [], llcTags := [], grans := [], dir := [], subs := [],
    ctxs := Vector.replicate 64 ⟨0, 0, 0, 0, 0, false, 0, 0, false⟩, sched := Sched.reset,
    parts := Vector.replicate 8 ⟨0, 0, 0, 0, 0⟩, coal := [], log := startLog,
    trees := Vector.replicate 8 ⟨0, 0, 0, 0, false, 0⟩, tlbinv := 0, ident := Ident.reset, power := Power.reset,
    fmt := Vector.replicate 128 ⟨0, 0, 0, 0, 0⟩, pool := Pool.reset, sec := Security.reset, msix := ⟨[], Mem.empty⟩,
    stallt := 0, watches := [], sheds := 0, misses := 0 }

end Sys2Proof.Machine
end

