-- ==== Sys2Proof/Machine/Sparse.lean ====
section
/-!
DEFINITION. Keyed maps and byte memories: lookup, update, little-endian values (R6), poison of 64-byte granules (R93).
-/
namespace Sys2Proof.Machine

/-- The value at key `k`, `d` if none is listed. -/
def kget {α : Type} (d : α) : KMap α → Nat → α
  | [], _ => d
  | (k', v) :: m, k => if k' = k then v else kget d m k

/-- The value at key `k`, if one is listed. -/
def kget? {α : Type} : KMap α → Nat → Option α
  | [], _ => none
  | (k', v) :: m, k => if k' = k then some v else kget? m k

/-- Put `v` at key `k`, keeping the keys rising. -/
def kput {α : Type} : KMap α → Nat → α → KMap α
  | [], k, v => [(k, v)]
  | (k', v') :: m, k, v =>
    if k < k' then (k, v) :: (k', v') :: m
    else if k = k' then (k, v) :: m
    else (k', v') :: kput m k v

/-- Remove key `k`. -/
def kdel {α : Type} : KMap α → Nat → KMap α
  | [], _ => []
  | (k', v') :: m, k => if k = k' then m else (k', v') :: kdel m k

/-- Put `v` at key `k`, where an unlisted key reads as `d`: putting `d` removes the entry. -/
def kset {α : Type} [DecidableEq α] (d : α) (m : KMap α) (k : Nat) (v : α) : KMap α :=
  if v = d then kdel m k else kput m k v

/-- The canonical form of a map: keys strictly rising, no entry equal to what an unlisted key reads as. -/
def kwf {α : Type} [DecidableEq α] (d : α) : KMap α → Bool
  | [] => true
  | [(_, v)] => decide (v ≠ d)
  | (k, v) :: (k', v') :: m => decide (k < k') && decide (v ≠ d) && kwf d ((k', v') :: m)

/-- Insert into a rising list of numbers. -/
def ninsert (n : Nat) : List Nat → List Nat
  | [] => [n]
  | x :: xs => if n < x then n :: x :: xs else if n = x then x :: xs else x :: ninsert n xs

/-- What a byte that nothing has written reads as (DESIGN CHOICE, log entry 5). -/
def unsetByte : Byte := 0

/-- A strictly rising list. -/
def rising : List Nat → Bool
  | [] => true
  | [_] => true
  | a :: b :: l => decide (a < b) && rising (b :: l)

/-- The canonical form of a byte memory: its cells, and its poisoned granules rising. -/
def Mem.wf (m : Mem) : Bool := kwf unsetByte m.cells && rising m.bad

/-- The byte at an address. -/
def Mem.byte (m : Mem) (a : Nat) : Byte := kget unsetByte m.cells a

/-- `n` bytes from an address up. -/
def Mem.bytes (m : Mem) (a n : Nat) : List Byte := (List.range n).map fun i => m.byte (a + i)

/-- Write bytes from an address up. -/
def cellsWrite : List Host.Cell → Nat → List Byte → List Host.Cell
  | cs, _, [] => cs
  | cs, a, b :: bs => cellsWrite (kset unsetByte cs a b) (a + 1) bs

/-- The granules that `n` bytes from `a` touch. -/
def granulesOf (a n : Nat) : List Nat :=
  if n = 0 then [] else (List.range ((a + n - 1) / 64 - a / 64 + 1)).map (a / 64 + ·)

/-- Whether one of `n` bytes from `a` lies in a poisoned granule (R93). -/
def Mem.poisoned (m : Mem) (a n : Nat) : Bool := (granulesOf a n).any fun g => m.bad.contains g

/-- Mark or clear the poison of granules: poisoned data poisons each granule it touches; clean data clears only a
granule it covers whole (R93). -/
def badAfter (bad : List Nat) (a n : Nat) (p : Bool) : List Nat :=
  (granulesOf a n).foldl (fun l g =>
    if p then ninsert g l
    else if a ≤ 64 * g ∧ 64 * g + 64 ≤ a + n then l.filter (· ≠ g) else l) bad

/-- Write bytes with their poison (R93). -/
def Mem.write (m : Mem) (a : Nat) (bs : List Byte) (p : Bool) : Mem :=
  ⟨cellsWrite m.cells a bs, badAfter m.bad a bs.length p⟩

/-- The 32-bit value at an address of a byte memory. -/
def Mem.u32 (m : Mem) (a : Nat) : Unit32 := BitVec.ofNat 32 (leVal (m.bytes a 4))

/-- The element of a vector that a bit-vector index names. -/
def vget {α : Type} {n : Nat} (i : BitVec n) (v : Vector α (2 ^ n)) : α := v[i.toNat]'i.isLt

/-- A vector with one element replaced. -/
def vset {α : Type} {n : Nat} (i : BitVec n) (x : α) (v : Vector α (2 ^ n)) : Vector α (2 ^ n) :=
  v.set i.toNat x i.isLt

/-- Replace the first element that satisfies `p`. -/
def replaceFirst {α : Type} (p : α → Bool) (f : α → α) : List α → List α
  | [] => []
  | x :: xs => if p x then f x :: xs else x :: replaceFirst p f xs

/-- Remove the element at an index. -/
def removeAt {α : Type} : List α → Nat → List α
  | [], _ => []
  | _ :: xs, 0 => xs
  | x :: xs, i + 1 => x :: removeAt xs i

/-- Update the first entry that satisfies `p`, or append a new one. -/
def updFirst {α : Type} (p : α → Bool) (f : α → α) (new : α) : List α → List α
  | [] => [new]
  | x :: xs => if p x then f x :: xs else x :: updFirst p f new xs

/-- Insert into a list sorted by `le`, behind its equals. -/
def insertBy {α : Type} (le : α → α → Bool) (x : α) : List α → List α
  | [] => [x]
  | y :: ys => if le y x then y :: insertBy le x ys else x :: y :: ys

/-- Sort by `le`, keeping the order of equals. -/
def sortBy {α : Type} (le : α → α → Bool) (l : List α) : List α := l.foldl (fun acc x => insertBy le x acc) []

end Sys2Proof.Machine
end

