-- ==== Sys2Proof/Machine/Base.lean ====
section
/-!
DEFINITION. The result of an operation (a value, a trap or a stall), the core that the present step belongs to, and
the small updates that every unit shares: error log (R399), MSI-X (R422).
-/
namespace Sys2Proof.Machine

/-- A fault as it is raised (R400): cause, TRAPADDR, SRC, the fields that only some causes set (R206, R207, R209), and
the die of the page walk that the access began with (R451). -/
structure TrapInfo where
  cause : Cause
  addr  : Word
  src   : Nat := 0
  code  : BitVec 14 := 0
  orig  : Cause := 0
  info  : Option Word := none
  ret   : Option Nat := none
  fall  : Bool := false
  walked : Option (Fin 4) := none
  deriving DecidableEq, Repr

/-- Why an operation does not complete: a fault, or a unit that waits without effect (R187). -/
inductive Stop where
  | trap (t : TrapInfo) | stall
  deriving DecidableEq, Repr

/-- The result of an operation. -/
abbrev R (α : Type) := Except Stop α

/-- Raise a fault with a cause and TRAPADDR. -/
def raise {α : Type} (cause : Cause) (addr : Word) : R α := .error (.trap { cause := cause, addr := addr })

/-- Wait without effect. -/
def wait {α : Type} : R α := .error .stall

/-- Raise a fault unless a condition holds. -/
def need (ok : Bool) (cause : Cause) (addr : Word) : R Unit := if ok then .ok () else raise cause addr

/-! The cause codes of R400. -/
def cIllegalInstr : Cause := 0x01
def cIllegalReg : Cause := 0x02
def cPriv : Cause := 0x03
def cAlign : Cause := 0x04
def cXlate : Cause := 0x05
def cProt : Cause := 0x06
def cStashBounds : Cause := 0x07
def cBarrierBounds : Cause := 0x08
def cTrapInstr : Cause := 0x09
def cConvertTrap : Cause := 0x0A
def cScheduleMiss : Cause := 0x0B
def cFifoStall : Cause := 0x0C
def cBoostDeferred : Cause := 0x0E
def cCopyXlate : Cause := 0x10
def cCopyRange : Cause := 0x11
def cCopyPoison : Cause := 0x12
def cDecodeFail : Cause := 0x13
def cCrcFail : Cause := 0x14
def cTagFail : Cause := 0x15
def cGcmReplay : Cause := 0x16
def cPoison : Cause := 0x20
def cPoolLost : Cause := 0x21
def cEngineShed : Cause := 0x22
def cSramUe : Cause := 0x23
def cFitTrip : Cause := 0x30

/-! ### The current core -/

/-- The core the present step belongs to. -/
def State.me (s : State) : CoreId := s.focus.core

/-- A core by number. -/
def State.coreAt (s : State) (c : CoreId) : Core := s.cores[c.val]

/-- The state with one core replaced. -/
def State.setCore (s : State) (c : CoreId) (k : Core) : State := { s with cores := s.cores.set c.val k }

/-- The state with one core updated. -/
def State.updCore (s : State) (c : CoreId) (f : Core → Core) : State := s.setCore c (f (s.coreAt c))

/-- The current core. -/
def State.core (s : State) : Core := s.coreAt s.focus.core

/-- The state with the current core updated. -/
def State.upd (s : State) (f : Core → Core) : State := s.updCore s.focus.core f

/-- The slot of a core in its cluster (R8): 0 to 7 M cores, 8 and 9 S cores. -/
def slotOf (c : CoreId) : Nat := c.val % 10

/-- Whether a core is an S core (R8). -/
def isS (c : CoreId) : Bool := decide (8 ≤ slotOf c)

/-- The cluster of a core (R8): cluster_id = die × 8 + cluster = core_id div 10. -/
def clusterOf (c : CoreId) : Fin 32 := ⟨c.val / 10, by omega⟩

/-- The die of a core (R8). -/
def dieOf (c : CoreId) : Fin 4 := ⟨c.val / 80, by omega⟩

/-- The core in a slot of a cluster. -/
def coreIn (k : Fin 32) (slot : Fin 10) : CoreId := ⟨k.val * 10 + slot.val, by omega⟩

/-- A cluster by number. -/
def State.cluster (s : State) (k : Fin 32) : Cluster := s.clusters[k.val]

/-- The state with one cluster updated. -/
def State.updCluster (s : State) (k : Fin 32) (f : Cluster → Cluster) : State :=
  { s with clusters := s.clusters.set k.val (f s.clusters[k.val]) }

/-- A die by number. -/
def State.die (s : State) (d : Fin 4) : Die := s.dies[d.val]

/-- The state with one die updated. -/
def State.updDie (s : State) (d : Fin 4) (f : Die → Die) : State :=
  { s with dies := s.dies.set d.val (f s.dies[d.val]) }

/-- A context by number. -/
def State.ctx (s : State) (n : BitVec 6) : Ctx := vget n s.ctxs

/-- Whether a feature is accepted in DRVACC (R417, R418). -/
def State.feature (s : State) (bit : Nat) : Bool := s.ident.drvacc.getLsbD bit

/-- The sequencer registers of the current core, updated. -/
def State.updRg (s : State) (f : SeqRegs → SeqRegs) : State := s.upd fun k => { k with rg := f k.rg }

/-- The system registers of the current core, updated. -/
def State.updSys (s : State) (f : SysRegs → SysRegs) : State := s.upd fun k => { k with sys := f k.sys }

/-- The engines of the current core, updated. -/
def State.updEng (s : State) (f : Engines → Engines) : State := s.upd fun k => { k with eng := f k.eng }

/-- The PC of the current core. -/
def State.pc (s : State) : BitVec 16 := s.core.rg.pc

/-- The PC of the current core, set. -/
def State.setPc (s : State) (pc : BitVec 16) : State := s.updRg fun r => { r with pc := pc }

/-- A fresh free 64-bit value and the state that has drawn it (log entry 2). -/
def State.drawWord (s : State) : Word × State := (Config.freeWord s.free, { s with free := s.free + 1 })

/-- Update the memory of a space (R53). -/
def State.updMem (s : State) (sp : Space) (f : Mem → Mem) : State :=
  match sp with
  | .hbm => { s with hbm := f s.hbm }
  | .host => { s with host := f s.host }
  | .pool p => { s with pool := { s.pool with mem := vset p (f (vget p s.pool.mem)) s.pool.mem } }

/-- The memory of a space. -/
def State.mem (s : State) (sp : Space) : Mem :=
  match sp with
  | .hbm => s.hbm
  | .host => s.host
  | .pool p => vget p s.pool.mem

/-! ### Error log and interrupts -/

/-- Raise an MSI-X vector (R422). -/
def raiseMsix (v : BitVec 11) (s : State) : State := { s with msix := { s.msix with raised := s.msix.raised ++ [v.toNat] } }

/-- A 32-byte error-log entry (R399). -/
def logEntry (dcc va : Word) (src code ctx : Nat) (core : Nat) : BitVec 256 :=
  BitVec.ofNat 256 (dcc.toNat + va.toNat * 2 ^ 64 + src * 2 ^ 128 + code * 2 ^ 136 + ctx * 2 ^ 144 + core * 2 ^ 160)

/-- Append an entry to the error log, or count it dropped when 4,096 are not consumed; raise its vector (R399, R420). -/
def logError (src : Nat) (code : Cause) (va : Word) (ctx : Nat) (core : Nat) (s : State) : State :=
  let l := s.log
  if (l.widx - l.ridx).toNat = 4096 then { s with log := { l with drop := l.drop + 1 } }
  else raiseMsix l.vec { s with log := { l with
      ring := kput l.ring (l.widx.toNat % 4096) (logEntry s.dcc va src code.toNat ctx core), widx := l.widx + 1 } }

/-- An ignored host write is logged with SRC 3 (R415, R418). -/
def logHostWrite (s : State) : State := logError 3 0 0 0 0xFFFF s

end Sys2Proof.Machine
end

