-- ==== Sys2Proof/Machine/Flags.lean ====
section
/-!
DEFINITION. The fields of MODE (R118), its sticky flags (R120), the conditions of comparisons (R152) and the results of
the integer operations (R146 to R148).
-/
namespace Sys2Proof.Machine

/-- The fields of MODE, or of the seven captured bits (R118, R119). -/
def modeRnd {n : Nat} (m : BitVec n) : Nat := (m.extractLsb' 0 3).toNat
def modeFtz {n : Nat} (m : BitVec n) : Bool := m.getLsbD 3
def modeTiny0 {n : Nat} (m : BitVec n) : Bool := m.getLsbD 4
def modeOvp {n : Nat} (m : BitVec n) : Nat := (m.extractLsb' 5 2).toNat

/-- The bits of MODE that a queue entry captures (R119). -/
def modeCapture (m : Word) : BitVec 7 := m.extractLsb' 0 7

/-- MODE with fields replaced (R118, R203): RND, FTZ and TINY0, OVP. -/
def modeSet (m : Word) (rnd : Option (BitVec 3)) (ft : Option (Bool × Bool)) (ovp : Option (BitVec 2)) : Word :=
  let rnd := rnd.getD (m.extractLsb' 0 3)
  let ft := ft.getD (m.getLsbD 3, m.getLsbD 4)
  let ovp := ovp.getD (m.extractLsb' 5 2)
  m.extractLsb' 7 57 ++ ovp ++ BitVec.ofBool ft.2 ++ BitVec.ofBool ft.1 ++ rnd

/-- OR flag results into MODE.INV (bit 9) and MODE.OVF (bit 8) (R118, R120). -/
def modeOr (m : Word) (inv ovf : Bool) : Word := m ||| (if inv then 0x200 else 0) ||| (if ovf then 0x100 else 0)

/-- A core ORs flag results into its MODE when an entry completes (R120). -/
def orFlags (c : CoreId) (inv ovf : Bool) (s : State) : State :=
  s.updCore c fun k => { k with rg := { k.rg with mode := modeOr k.rg.mode inv ovf } }

/-- SYSW of MODE: RW fields, reserved bits ignored, RND of 6 or 7 leaves RND unchanged, 1 clears INV and OVF (R9, R118). -/
def modeWrite (old new : Word) : Word :=
  let rnd := if (new.extractLsb' 0 3).toNat < 6 then new.extractLsb' 0 3 else old.extractLsb' 0 3
  let inv := old.getLsbD 9 && !new.getLsbD 9
  let ovf := old.getLsbD 8 && !new.getLsbD 8
  0#54 ++ BitVec.ofBool inv ++ BitVec.ofBool ovf ++ 0#1 ++ new.extractLsb' 3 4 ++ rnd

/-- The comparison c of R152 on a and b. -/
def condHolds (c : Cond) (a b : Word) : Bool :=
  match c with
  | .eq => decide (a = b)
  | .ne => decide (a ≠ b)
  | .lt => decide (s64 a < s64 b)
  | .le => decide (s64 a ≤ s64 b)
  | .ltu => decide (u64 a < u64 b)
  | .leu => decide (u64 a ≤ u64 b)
  | .gt => decide (s64 b < s64 a)
  | .ge => decide (s64 b ≤ s64 a)
  | .gtu => decide (u64 b < u64 a)
  | .geu => decide (u64 b ≤ u64 a)
  | .tst => decide (a &&& b ≠ 0)

/-- The combine modes of R152 on the old predicate and c; modes 1 to 3 draw on the old value. -/
def combined (m : Combine) (old : PBit) (c : Bool) (bad : Bool) : PBit :=
  match m with
  | .set => ⟨c, bad⟩
  | .and => ⟨old.val && c, bad || old.bad⟩
  | .or => ⟨old.val || c, bad || old.bad⟩
  | .andn => ⟨old.val && !c, bad || old.bad⟩

/-- Rotate right by n (R146). -/
def rotr (a : Word) (n : Nat) : Word := wrap64 ((u64 a / 2 ^ n : Nat) + (u64 a * 2 ^ (64 - n) : Nat))

/-- The four shifts with an amount below 64 (R146, R148). -/
def shiftBy (k : ShiftKind) (a : Word) (n : Nat) : Word :=
  match k with
  | .shl => wrap64 (a.toNat * 2 ^ n : Nat)
  | .shr => BitVec.ofNat 64 (u64 a / 2 ^ n)
  | .sar => wrap64 (s64 a / (2 ^ n : Nat))
  | .rot => rotr a n

/-- Leading zero bits (R146). -/
def clz (a : Word) : Nat := if a = 0 then 64 else 63 - Nat.log2 a.toNat

/-- One bits (R146). -/
def popcount {n : Nat} (a : BitVec n) : Nat := (List.range n).foldl (fun k i => if a.getLsbD i then k + 1 else k) 0

/-- Trailing zero bits (R146). -/
def ctz (a : Word) : Nat := ((List.range 64).find? fun i => a.getLsbD i).getD 64

/-- DIV of R147. -/
def divs (a b : Word) : Word :=
  if b = 0 then 0xFFFFFFFFFFFFFFFF
  else if s64 a = -(2 ^ 63 : Nat) ∧ s64 b = -1 then a
  else wrap64 (Int.tdiv (s64 a) (s64 b))

/-- REM of R147. -/
def rems (a b : Word) : Word :=
  if b = 0 then a
  else if s64 a = -(2 ^ 63 : Nat) ∧ s64 b = -1 then 0
  else wrap64 (s64 a - Int.tdiv (s64 a) (s64 b) * s64 b)

/-- The result of ALU and ALUX (R146, R147). -/
def aluResult (op : AluOp) (a b : Word) : Word :=
  match op with
  | .add => a + b
  | .sub => a - b
  | .and => a &&& b
  | .or => a ||| b
  | .xor => a ^^^ b
  | .andn => a &&& ~~~b
  | .shl => shiftBy .shl a (bits b 5 0)
  | .shr => shiftBy .shr a (bits b 5 0)
  | .sar => shiftBy .sar a (bits b 5 0)
  | .rot => shiftBy .rot a (bits b 5 0)
  | .min => if s64 a ≤ s64 b then a else b
  | .max => if s64 b ≤ s64 a then a else b
  | .minu => if u64 a ≤ u64 b then a else b
  | .maxu => if u64 b ≤ u64 a then a else b
  | .mul => a * b
  | .mulh => wrap64 (s64 a * s64 b / (2 ^ 64 : Nat))
  | .mulhu => BitVec.ofNat 64 (u64 a * u64 b / 2 ^ 64)
  | .div => divs a b
  | .divu => if b = 0 then 0xFFFFFFFFFFFFFFFF else BitVec.ofNat 64 (u64 a / u64 b)
  | .rem => rems a b
  | .remu => if b = 0 then a else BitVec.ofNat 64 (u64 a % u64 b)
  | .clz => BitVec.ofNat 64 (clz a)
  | .popc => BitVec.ofNat 64 (popcount a)
  | .ctz => BitVec.ofNat 64 (ctz a)

end Sys2Proof.Machine
end

