-- ==== Sys2Proof/WellFormed.lean ====
section
/-!
DEFINITION. The checks that make a term of `Instr` an instruction of the control stream that has an
encoding (R127 step 1, R130 to R134, R145 to R212). Fields that a constructor does not carry are the
zero fields of its encoding. Words of the other streams have one encoding for every field value; their
legality is checked where the spec checks it (R137, R138, R290, R302, R141).
-/
namespace Sys2Proof

/-- The ALU operations of one operand, whose rb field must be 0 (R145). -/
def AluOp.unary : AluOp → Bool
  | .clz | .popc | .ctz => true
  | _ => false

/-- The greatest sub-operation a PUT may carry for each engine (R171). -/
def EngineId.maxSub : EngineId → Nat
  | .pix => 4
  | .ume => 4
  | .sampler => 0
  | .fe => 2

/-- The limits of the BFX and BFI control field (R153). -/
def bitFieldOk (rp : Bool) (w : BitVec 7) (p : BitVec 6) (rb : Reg) : Bool :=
  decide (1 ≤ w.toNat) && decide (w.toNat ≤ 64) &&
    (if rp then p == 0 else rb == 0 && decide (p.toNat + w.toNat ≤ 64))

/-- The limits of the SETMODE fields: a selected field only, RND below 6, ra only for the seed (R203). -/
def setmodeOk (fields : BitVec 4) (imm : BitVec 16) (ra : Reg) : Bool :=
  fields != 0 && decide (imm.toNat < 128) &&
    (if fields.getLsbD 0 then decide (imm.toNat % 8 < 6) else decide (imm.toNat % 8 = 0)) &&
    (fields.getLsbD 1 || decide (imm.toNat / 8 % 4 = 0)) &&
    (fields.getLsbD 2 || decide (imm.toNat / 32 % 4 = 0)) &&
    (fields.getLsbD 3 || ra == 0)

/-- Whether an instruction of the control stream has an encoding. -/
def Instr.wellFormed : Instr → Bool
  | .alu op _ rb _ _ => !op.unary || rb == 0
  | .alux op _ _ rb _ _ => !op.unary || rb == 0
  | .vrun imm8 gb _ => imm8 == 0 || gb == 0
  | .mrun imm8 gb _ => imm8 == 0 || gb == 0
  | .xrun imm8 gb _ => imm8 == 0 || gb == 0
  | .put eng sub _ _ _ _ => decide (sub.toNat ≤ eng.maxSub)
  | .fencem mask rel scope => mask != 0 && (rel || scope == .core)
  | .barArrive _ n gb => n || gb == 0
  | .barArriver _ n gb _ => n || gb == 0
  | .mbxRecv _ gb ga => gb != ga || ga == 0
  | .ldx _ acq scope _ bl _ _ _ _ => (acq || scope == .core) && (!acq || bl == 0)
  | .stx _ rel scope _ _ _ _ _ => rel || scope == .core
  | .atom op dword _ _ _ _ rc _ _ _ => (op != .fadd || !dword) && (op == .cas || rc == 0)
  | .ldstand _ acq scope _ _ _ _ _ => acq || scope == .core
  | .bfx _ rp w p _ _ rb _ _ => bitFieldOk rp w p rb
  | .bfi rp w p _ _ rb _ _ => bitFieldOk rp w p rb
  | .fsh _ rn n _ _ rc _ _ _ => if rn then n == 0 else rc == 0
  | .setmode fields _ imm ra => setmodeOk fields imm ra
  | _ => true

end Sys2Proof
end

