-- ==== Sys2Proof/Decode.lean ====
section
/-!
DEFINITION. Decoding of the six instruction streams (R126 to R142) and the encoder beside it. Decoding is
total on any units; an encoding that is no instruction is rejected by name.
-/
namespace Sys2Proof

/-- Why an encoding is no instruction (R127 step 1, R130, R134, R136, R138, R139, R141). -/
inductive Reject where
  /-- a reserved opcode -/
  | opcode
  /-- a reserved function, sub-operation, hint, size, scope or ord code -/
  | function
  /-- a field that the instruction does not use, or a reserved field, that is not 0 -/
  | field
  /-- an opcode in the form (X or L) that it does not have -/
  | form
  deriving DecidableEq, Repr

/-- Bits `[lo + n - 1 : lo]` of an encoded word (R6). -/
def fld {w : Nat} (u : BitVec w) (lo n : Nat) : BitVec n := u.extractLsb' lo n

/-! ### Codes of the closed fields -/

/-- fn5 of ALU and ALUX (R146); 24 to 31 are reserved. -/
def AluOp.ofCode (c : BitVec 5) : Option AluOp :=
  match c.toNat with
  | 0 => some .add | 1 => some .sub | 2 => some .and | 3 => some .or | 4 => some .xor | 5 => some .andn
  | 6 => some .shl | 7 => some .shr | 8 => some .sar | 9 => some .rot | 10 => some .min | 11 => some .max
  | 12 => some .minu | 13 => some .maxu | 14 => some .mul | 15 => some .mulh | 16 => some .mulhu
  | 17 => some .div | 18 => some .divu | 19 => some .rem | 20 => some .remu | 21 => some .clz
  | 22 => some .popc | 23 => some .ctz | _ => none

/-- The fn5 of an ALU operation (R146). -/
def AluOp.code : AluOp → BitVec 5
  | .add => 0 | .sub => 1 | .and => 2 | .or => 3 | .xor => 4 | .andn => 5 | .shl => 6 | .shr => 7
  | .sar => 8 | .rot => 9 | .min => 10 | .max => 11 | .minu => 12 | .maxu => 13 | .mul => 14 | .mulh => 15
  | .mulhu => 16 | .div => 17 | .divu => 18 | .rem => 19 | .remu => 20 | .clz => 21 | .popc => 22 | .ctz => 23

/-- fn5 of a comparison (R152); 11 to 31 are reserved. -/
def Cond.ofCode (c : BitVec 5) : Option Cond :=
  match c.toNat with
  | 0 => some .eq | 1 => some .ne | 2 => some .lt | 3 => some .le | 4 => some .ltu | 5 => some .leu
  | 6 => some .gt | 7 => some .ge | 8 => some .gtu | 9 => some .geu | 10 => some .tst | _ => none

/-- The fn5 of a condition (R152). -/
def Cond.code : Cond → BitVec 5
  | .eq => 0 | .ne => 1 | .lt => 2 | .le => 3 | .ltu => 4 | .leu => 5 | .gt => 6 | .ge => 7 | .gtu => 8
  | .geu => 9 | .tst => 10

/-- rd[4:3] of CMPI: EQ, NE, LT, LTU (R130, R151). -/
def Cond.ofShortCode (c : BitVec 2) : Cond :=
  match c.toNat with
  | 0 => .eq | 1 => .ne | 2 => .lt | _ => .ltu

/-- The CMPI code of a condition, for the four that CMPI has (R151). -/
def Cond.shortCode : Cond → Option (BitVec 2)
  | .eq => some 0 | .ne => some 1 | .lt => some 2 | .ltu => some 3 | _ => none

/-- rd[4:3] of CMP, CMPX and CMPL (R130). -/
def Combine.ofCode (c : BitVec 2) : Combine :=
  match c.toNat with
  | 0 => .set | 1 => .and | 2 => .or | _ => .andn

/-- The code of a combine mode (R130). -/
def Combine.code : Combine → BitVec 2
  | .set => 0 | .and => 1 | .or => 2 | .andn => 3

/-- imm[7:6] of SHI (R148). -/
def ShiftKind.ofCode (c : BitVec 2) : ShiftKind :=
  match c.toNat with
  | 0 => .shl | 1 => .shr | 2 => .sar | _ => .rot

/-- The code of a SHI kind (R148). -/
def ShiftKind.code : ShiftKind → BitVec 2
  | .shl => 0 | .shr => 1 | .sar => 2 | .rot => 3

/-- The load size codes (R130); 7 is reserved. -/
def LoadSize.ofCode (c : BitVec 3) : Option LoadSize :=
  match c.toNat with
  | 0 => some .b | 1 => some .h | 2 => some .w | 3 => some .d | 4 => some .bs | 5 => some .hs | 6 => some .ws
  | _ => none

/-- The code of a load size (R130). -/
def LoadSize.code : LoadSize → BitVec 3
  | .b => 0 | .h => 1 | .w => 2 | .d => 3 | .bs => 4 | .hs => 5 | .ws => 6

/-- The store size codes (R130); 4 to 7 are reserved. -/
def StoreSize.ofCode (c : BitVec 3) : Option StoreSize :=
  match c.toNat with
  | 0 => some .b | 1 => some .h | 2 => some .w | 3 => some .d | _ => none

/-- The code of a store size (R130). -/
def StoreSize.code : StoreSize → BitVec 3
  | .b => 0 | .h => 1 | .w => 2 | .d => 3

/-- The hint codes (R128); 11 is ILLEGAL_INSTR. -/
def Hint.ofCode (c : BitVec 2) : Option Hint :=
  match c.toNat with
  | 0 => some .none | 1 => some .notTaken | 2 => some .taken | _ => Option.none

/-- The code of a hint (R128). -/
def Hint.code : Hint → BitVec 2
  | .none => 0 | .notTaken => 1 | .taken => 2

/-- The scope codes (R69); 6 and 7 are ILLEGAL_INSTR. -/
def Scope.ofCode (c : BitVec 3) : Option Scope :=
  match c.toNat with
  | 0 => some .core | 1 => some .gang | 2 => some .cluster | 3 => some .device | 4 => some .pool
  | 5 => some .system | _ => none

/-- The code of a scope (R69). -/
def Scope.code : Scope → BitVec 3
  | .core => 0 | .gang => 1 | .cluster => 2 | .device => 3 | .pool => 4 | .system => 5

/-- The ord codes of ATOM (R70). -/
def Order.ofCode (c : BitVec 2) : Order :=
  match c.toNat with
  | 0 => .plain | 1 => .sync | 2 => .acqRel | _ => .seqCst

/-- The code of an ord (R70). -/
def Order.code : Order → BitVec 2
  | .plain => 0 | .sync => 1 | .acqRel => 2 | .seqCst => 3

/-- The ord of LDX, STX, LDSTAND and FENCEM: codes 10 and 11 are ILLEGAL_INSTR there (R70). -/
def syncOfCode (c : BitVec 2) : Option Bool :=
  match c.toNat with
  | 0 => some false | 1 => some true | _ => none

/-- The code of an ord that is plain or synchronising (R70). -/
def syncCode (b : Bool) : BitVec 2 := if b then 1 else 0

/-- fn4 of ATOM (R190). -/
def AtomOp.ofCode (c : BitVec 4) : Option AtomOp :=
  match c.toNat with
  | 0 => some .add | 1 => some .and | 2 => some .or | 3 => some .xor | 4 => some .min | 5 => some .max
  | 6 => some .minu | 7 => some .maxu | 8 => some .xchg | 9 => some .cas | 10 => some .fadd | _ => none

/-- The fn4 of an atomic operation (R190). -/
def AtomOp.code : AtomOp → BitVec 4
  | .add => 0 | .and => 1 | .or => 2 | .xor => 3 | .min => 4 | .max => 5 | .minu => 6 | .maxu => 7
  | .xchg => 8 | .cas => 9 | .fadd => 10

/-- The id6 of PUT and GET (R131). -/
def EngineId.ofCode (c : BitVec 6) : Option EngineId :=
  match c.toNat with
  | 0 => some .pix | 1 => some .ume | 2 => some .sampler | 3 => some .fe | _ => none

/-- The code of an engine (R131). -/
def EngineId.code : EngineId → BitVec 6
  | .pix => 0 | .ume => 1 | .sampler => 2 | .fe => 3

/-- The system-register numbers (R205); any other number is ILLEGAL_INSTR (R204). -/
def SysReg.ofCode (c : BitVec 14) : Option SysReg :=
  match c.toNat with
  | 0x000 => some .coreId | 0x001 => some .gangId | 0x002 => some .ctxId | 0x003 => some .nodeArg
  | 0x004 => some .dcc | 0x008 => some .mode | 0x009 => some .srseed | 0x00C => some .liter
  | 0x00D => some .ldisc | 0x00E => some .mxmiss | 0x00F => some .werr | 0x020 => some .trapvec
  | 0x021 => some .trappc | 0x022 => some .trapcause | 0x023 => some .trapaddr | 0x024 => some .boostinfo
  | 0x028 => some .sscr0 | 0x029 => some .sscr1 | 0x02A => some .sscr2 | 0x02B => some .sscr3
  | 0x030 => some .relquery | 0x040 => some .winsel | 0x041 => some .windesc0 | 0x042 => some .windesc1
  | 0x043 => some .windesc2 | 0x044 => some .windesc3 | 0x050 => some .engarea | _ => none

/-- The number of a system register (R205). -/
def SysReg.code : SysReg → BitVec 14
  | .coreId => 0x000 | .gangId => 0x001 | .ctxId => 0x002 | .nodeArg => 0x003 | .dcc => 0x004
  | .mode => 0x008 | .srseed => 0x009 | .liter => 0x00C | .ldisc => 0x00D | .mxmiss => 0x00E
  | .werr => 0x00F | .trapvec => 0x020 | .trappc => 0x021 | .trapcause => 0x022 | .trapaddr => 0x023
  | .boostinfo => 0x024 | .sscr0 => 0x028 | .sscr1 => 0x029 | .sscr2 => 0x02A | .sscr3 => 0x02B
  | .relquery => 0x030 | .winsel => 0x040 | .windesc0 => 0x041 | .windesc1 => 0x042 | .windesc2 => 0x043
  | .windesc3 => 0x044 | .engarea => 0x050

/-! ### Control stream: decoding -/

/-- The instruction when its remaining fields are legal. -/
def accepted (ok : Bool) (i : Instr) : Except Reject Instr := if ok then .ok i else .error .field

/-- A code that must be one of a closed set. -/
def coded {α : Type} (c : Option α) (k : α → Except Reject Instr) : Except Reject Instr :=
  match c with
  | some a => k a
  | none => .error .function

/-- The guard of an R form (R128). -/
def guardR (u : Unit32) : Guard := ⟨fld u 23 3, u.getLsbD 26⟩

/-- Page 0 (R130). -/
def decodePage0 (u : Unit32) : Except Reject Instr :=
  let rd := fld u 8 5
  let ra := fld u 13 5
  let rb := fld u 18 5
  let fn5 := fld u 27 5
  let imm14 := fld u 18 14
  let id6 := fld u 18 6
  let imm8 := fld u 24 8
  let upper := fld u 8 24
  match (fld u 2 6).toNat with
  | 0x00 => .ok (.ill upper)
  | 0x01 => coded (AluOp.ofCode fn5) fun op => accepted (!op.unary || rb == 0) (.alu op (guardR u) rb ra rd)
  | 0x02 => .ok (.addi imm14 ra rd)
  | 0x03 => .ok (.andi imm14 ra rd)
  | 0x04 => .ok (.ori imm14 ra rd)
  | 0x05 => .ok (.xori imm14 ra rd)
  | 0x06 => accepted (fld u 26 6 == 0) (.shi (ShiftKind.ofCode (fld u 24 2)) (fld u 18 6) ra rd)
  | 0x07 => accepted (fn5 == 0) (.sel (guardR u) rb ra rd)
  | 0x08 => coded (Cond.ofCode fn5) fun c =>
      .ok (.cmp c (guardR u) rb ra (Combine.ofCode (fld u 11 2)) (fld u 8 3))
  | 0x09 => .ok (.cmpi (Cond.ofShortCode (fld u 11 2)) imm14 ra (fld u 8 3))
  | 0x0A => coded (LoadSize.ofCode (fld u 18 3)) fun sz => .ok (.ld sz (fld u 21 11) ra rd)
  | 0x0B => coded (StoreSize.ofCode (fld u 18 3)) fun sz => .ok (.st sz (fld u 21 11) ra rd)
  | 0x0C => coded (Hint.ofCode (fld u 12 2)) fun h => .ok (.br h ⟨fld u 8 3, u.getLsbD 11⟩ (fld u 14 18))
  | 0x0D => .ok (.j upper)
  | 0x0E => .ok (.jl upper)
  | 0x0F => accepted (fld u 18 14 == 0) (.jr ra rd)
  | 0x10 => accepted (id6 == 0 && (imm8 == 0 || ra == 0)) (.vrun imm8 ra rd)
  | 0x11 => accepted (id6 == 0 && (imm8 == 0 || ra == 0)) (.mrun imm8 ra rd)
  | 0x12 => accepted (id6 == 0 && (imm8 == 0 || ra == 0)) (.xrun imm8 ra rd)
  | 0x13 => coded (EngineId.ofCode id6) fun e =>
      accepted (decide ((fld u 24 4).toNat ≤ e.maxSub) && fld u 29 2 == 0)
        (.put e (fld u 24 4) (u.getLsbD 28) (u.getLsbD 31) ra rd)
  | 0x14 => coded (EngineId.ofCode id6) fun e => accepted (ra == 0 && imm8 == 0) (.get e rd)
  | 0x15 => .ok (.wait (fld u 26 6) (fld u 20 6) (fld u 14 6) (fld u 8 6))
  | 0x16 => coded (Scope.ofCode (fld u 18 3)) fun sc => coded (syncOfCode (fld u 21 2)) fun rel =>
      accepted (fld u 8 10 == 0 && !u.getLsbD 23 && fld u 30 2 == 0 && fld u 24 6 != 0 && (rel || sc == .core))
        (.fencem (fld u 24 6) rel sc)
  | 0x17 => accepted (upper == 0) .join
  | 0x18 => accepted (upper == 0) .mark
  | 0x19 =>
      match imm8.toNat with
      | 0 => accepted (ra == 0) (.barInit id6 rd)
      | 1 => accepted (rd == 0 && ra == 0) (.barArrive id6 false ra)
      | 0x11 => accepted (rd == 0) (.barArrive id6 true ra)
      | 2 => accepted (ra == 0) (.barArriver id6 false ra rd)
      | 0x12 => .ok (.barArriver id6 true ra rd)
      | 3 => accepted (ra == 0) (.barWait id6 rd)
      | 4 => accepted (ra == 0) (.barCnt id6 rd)
      | _ => .error .function
  | 0x1A =>
      if fld u 22 2 != 0 then .error .field else
      match imm8.toNat with
      | 0 => .ok (.mbxSend (fld u 18 4) ra rd)
      | 1 => accepted (ra != rd || rd == 0) (.mbxRecv (fld u 18 4) ra rd)
      | 2 => accepted (ra == 0) (.mbxPoll (fld u 18 4) rd)
      | _ => .error .function
  | 0x1B =>
      if fld u 21 3 != 0 || ra != 0 then .error .field else
      match imm8.toNat with
      | 0 => .ok (.cpsStart (fld u 18 3) rd)
      | 1 => .ok (.cpsStat (fld u 18 3) rd)
      | 2 => .ok (.cpsWmark (fld u 18 3) rd)
      | 3 => accepted (rd == 0) (.cpsStop (fld u 18 3))
      | _ => .error .function
  | 0x1C =>
      if id6 != 0 then .error .field else
      match imm8.toNat with
      | 0 => .ok (.evtSignal ra rd)
      | 1 => .ok (.evtRead ra rd)
      | _ => .error .function
  | 0x1D => accepted (upper == 0) .yield
  | 0x1E => accepted (rd == 0 && ra == 0) (.trap imm14)
  | 0x1F => accepted (rd == 0) (.lexit imm14 ra)
  | 0x20 => coded (SysReg.ofCode imm14) fun r => accepted (ra == 0) (.sysr r rd)
  | 0x21 => coded (SysReg.ofCode imm14) fun r => accepted (rd == 0) (.sysw r ra)
  | 0x22 => accepted (upper == 0) .halt
  | 0x23 => accepted (upper == 0) .nop
  | 0x24 => accepted (upper == 0) .eret
  | _ => .error .opcode

/-- Page 1 (R131, R132). A request argument that its table gives as 0 must name g0 (R171). -/
def decodePage1 (u : Unit32) : Except Reject Instr :=
  let ga := fld u 8 5
  let gb := fld u 13 5
  let id6 := fld u 18 6
  let imm8 := fld u 24 8
  let sub := (fld u 24 4).toNat
  let nores := u.getLsbD 28
  match (fld u 2 6).toNat with
  | 0x00 =>
      if fld u 29 3 != 0 || fld u 21 3 != 0 then .error .field else
      match sub with
      | 0 => .ok (.pixLookup (fld u 18 3) nores gb ga)
      | 1 => accepted (gb == 0) (.pixInsert (fld u 18 3) nores ga)
      | 2 => accepted (gb == 0) (.pixRef (fld u 18 3) nores ga)
      | 3 => accepted (gb == 0) (.pixUnref (fld u 18 3) nores ga)
      | 4 => .ok (.pixEvict (fld u 18 3) nores gb ga)
      | _ => .error .function
  | 0x01 =>
      if fld u 29 3 != 0 then .error .field else
      match sub with
      | 0 => accepted (gb == 0) (.umeCfg id6 nores ga)
      | 1 => .ok (.umePost id6 nores gb ga)
      | 2 => accepted (gb == 0) (.umeRound id6 nores ga)
      | 3 => .ok (.umeDirty id6 nores gb ga)
      | 4 => accepted (gb == 0 && ga == 0) (.umeReset id6 nores)
      | _ => .error .function
  | 0x02 => accepted (fld u 29 3 == 0 && sub == 0 && gb == 0) (.smpr id6 nores ga)
  | 0x03 =>
      if fld u 22 2 != 0 || ga != 0 || gb != 0 then .error .field else
      match imm8.toNat with
      | 0 => .ok (.approxBegin (fld u 18 4))
      | 1 => .ok (.approxEnd (fld u 18 4))
      | _ => .error .function
  | 0x04 =>
      if fld u 29 3 != 0 || fld u 22 2 != 0 then .error .field else
      match sub with
      | 0 => accepted (gb == 0 && ga == 0) (.fitcInv (fld u 18 4) nores)
      | 1 => accepted (gb == 0 && ga == 0) (.fitcStat (fld u 18 4) nores)
      | 2 => .ok (.fitcSett (fld u 18 4) nores gb ga)
      | _ => .error .function
  | 0x05 => accepted (imm8 == 0) (.kvc id6 gb ga)
  | 0x06 => accepted (imm8 == 0 && gb == 0) (.rflush id6 ga)
  | 0x07 => accepted (imm8 == 0 && gb == 0) (.rinval id6 ga)
  | 0x08 => accepted (imm8 == 0 && fld u 22 2 == 0 && ga == 0 && gb == 0) (.unstand (fld u 18 4))
  | 0x09 => accepted (imm8 == 0 && id6 == 0 && gb == 0) (.shed ga)
  | 0x0A =>
      if fld u 21 3 != 0 || gb != 0 then .error .field else
      match imm8.toNat with
      | 0 => .ok (.tokSig (fld u 18 3) ga)
      | 1 => .ok (.tokWaitt (fld u 18 3) ga)
      | _ => .error .function
  | _ => .error .opcode

/-- The X form (R133, R134). -/
def decodeX (u v : Unit32) : Except Reject Instr :=
  let rd := fld u 10 5
  let ra := fld u 15 5
  let rb := fld u 20 5
  let rc := fld u 25 5
  let bl := fld u 30 2
  let gd : Guard := ⟨fld v 0 3, v.getLsbD 3⟩
  let scope := fld v 4 3
  let ord := fld v 7 2
  let sz := fld v 9 3
  let fn4 := fld v 12 4
  let fn5 := fld v 11 5
  let imm := fld v 16 16
  match (fld u 2 8).toNat with
  | 0x00 => coded (LoadSize.ofCode sz) fun s => coded (Scope.ofCode scope) fun sc => coded (syncOfCode ord) fun acq =>
      accepted (rc == 0 && fn4 == 0 && (acq || sc == .core) && (!acq || bl == 0)) (.ldx s acq sc gd bl imm rb ra rd)
  | 0x01 => coded (StoreSize.ofCode sz) fun s => coded (Scope.ofCode scope) fun sc => coded (syncOfCode ord) fun rel =>
      accepted (rc == 0 && fn4 == 0 && bl == 0 && (rel || sc == .core)) (.stx s rel sc gd imm rb ra rd)
  | 0x02 => coded (AtomOp.ofCode fn4) fun op => coded (Scope.ofCode scope) fun sc =>
      if sz != 2 && sz != 3 then .error .function else
      accepted (bl == 0 && (op != .fadd || sz == 2) && (op == .cas || rc == 0))
        (.atom op (sz == 3) (Order.ofCode ord) sc gd imm rc rb ra rd)
  | 0x03 => coded (Scope.ofCode scope) fun sc => coded (syncOfCode ord) fun acq =>
      if sz != 2 then .error .function else
      accepted (bl == 0 && fn4 == 0 && !u.getLsbD 14 && (acq || sc == .core))
        (.ldstand (fld u 10 4) acq sc gd imm rc rb ra)
  | 0x04 => accepted (rc == 0 && fld v 4 12 == 0 && !v.getLsbD 31 && bitFieldOk (v.getLsbD 30) (fld v 22 7) (fld v 16 6) rb)
      (.bfx (v.getLsbD 29) (v.getLsbD 30) (fld v 22 7) (fld v 16 6) gd bl rb ra rd)
  | 0x05 => accepted (rc == 0 && fld v 4 12 == 0 && !v.getLsbD 31 && !v.getLsbD 29 &&
        bitFieldOk (v.getLsbD 30) (fld v 22 7) (fld v 16 6) rb)
      (.bfi (v.getLsbD 30) (fld v 22 7) (fld v 16 6) gd bl rb ra rd)
  | 0x06 => accepted (fld v 4 12 == 0 && fld v 24 8 == 0 && (if v.getLsbD 22 then fld v 16 6 == 0 else rc == 0))
      (.fsh (v.getLsbD 23) (v.getLsbD 22) (fld v 16 6) gd bl rc rb ra rd)
  | 0x07 => accepted (bl == 0 && rc == 0 && rb == 0 && rd == 0 && fld v 4 12 == 0) (.loop gd imm ra)
  | 0x08 => accepted (bl == 0 && rc == 0 && rb == 0 && rd == 0 && fld v 4 8 == 0 && setmodeOk fn4 imm ra)
      (.setmode fn4 gd imm ra)
  | 0x09 => .error .form
  | 0x0A => .error .form
  | 0x0B => .error .form
  | 0x0C => coded (AluOp.ofCode fn5) fun op =>
      accepted (rc == 0 && imm == 0 && fld v 4 7 == 0 && (!op.unary || rb == 0)) (.alux op gd bl rb ra rd)
  | 0x0D => coded (Cond.ofCode fn5) fun c =>
      accepted (rc == 0 && imm == 0 && fld v 4 7 == 0)
        (.cmpx c gd bl rb ra (Combine.ofCode (fld u 13 2)) (fld u 10 3))
  | _ => .error .opcode

/-- The L form (R133, R134). -/
def decodeL (u v lit : Unit32) : Except Reject Instr :=
  let rd := fld u 10 5
  let ra := fld u 15 5
  let rbc := fld u 20 10
  let bl := fld u 30 2
  let gd : Guard := ⟨fld v 0 3, v.getLsbD 3⟩
  match (fld u 2 8).toNat with
  | 0x09 =>
      if rbc != 0 || ra != 0 || fld v 4 8 != 0 || fld v 16 16 != 0 then .error .field else
      match (fld v 12 4).toNat with
      | 0 => .ok (.li gd bl lit rd)
      | 1 => .ok (.lih gd bl lit rd)
      | _ => .error .function
  | 0x0A => accepted (rbc == 0 && fld v 4 28 == 0) (.addl gd bl lit ra rd)
  | 0x0B => coded (Cond.ofCode (fld v 11 5)) fun c =>
      accepted (rbc == 0 && fld v 16 16 == 0 && fld v 4 7 == 0)
        (.cmpl c gd bl lit ra (Combine.ofCode (fld u 13 2)) (fld u 10 3))
  | op => if op ≤ 0x0D then .error .form else .error .opcode

/-- How many 32-bit units an instruction whose first unit is `u` has (R126). -/
def unitCount (u : Unit32) : Nat :=
  match (fld u 0 2).toNat with
  | 0 => 1
  | 1 => 1
  | 2 => 2
  | _ => 3

/-- Decodes an instruction of the control stream from its first three units; a shorter form ignores
the units beyond its length (R126). -/
def decodeControl (u v lit : Unit32) : Except Reject Instr :=
  match (fld u 0 2).toNat with
  | 0 => decodePage0 u
  | 1 => decodePage1 u
  | 2 => decodeX u v
  | _ => decodeL u v lit

/-- The step that a decoded control-stream word is: an encoding that is no instruction is the step
RESERVED_OPCODE, which faults ILLEGAL_INSTR (R127, R130, R132, R134), so that every value outside the tables has the fate of
its stream (R142). -/
def controlInstr (u v lit : Unit32) : Instr :=
  match decodeControl u v lit with
  | .ok i => i
  | .error _ => .reservedOpcode u

/-! ### The other streams: decoding -/

/-- The operand descriptor whose lowest bit is at `p` (R135). -/
def descAt (w : BitVec 96) (p : Nat) : Desc := ⟨fld w (p + 11) 3, fld w (p + 6) 5, w.getLsbD (p + 5), fld w p 5⟩

/-- The fields of a vector word (R135). -/
def vfields (w : BitVec 96) : VWord :=
  { aux := fld w 58 38, b := descAt w 44, a := descAt w 30, d := descAt w 16,
    pm := w.getLsbD 15, sat := w.getLsbD 14, rnd := fld w 12 2, type := fld w 8 4 }

/-- A vector word by its op8 (R136). -/
def vectorInstr (op8 : Nat) (w : VWord) : Except Reject Instr :=
  match op8 with
  | 0x00 => .ok (.vadd w) | 0x01 => .ok (.vsub w) | 0x02 => .ok (.vmul w) | 0x03 => .ok (.vmad w)
  | 0x04 => .ok (.vmin w) | 0x05 => .ok (.vmax w) | 0x06 => .ok (.vabs w) | 0x07 => .ok (.vneg w)
  | 0x08 => .ok (.vand w) | 0x09 => .ok (.vor w) | 0x0A => .ok (.vxor w) | 0x0B => .ok (.vnot w)
  | 0x0C => .ok (.vshl w) | 0x0D => .ok (.vshr w) | 0x0E => .ok (.vsar w) | 0x0F => .ok (.vcmp w)
  | 0x10 => .ok (.vsel w) | 0x11 => .ok (.vcvt w) | 0x12 => .ok (.vrcp w) | 0x13 => .ok (.vrsq w)
  | 0x14 => .ok (.vexp2 w) | 0x15 => .ok (.vlog2 w) | 0x16 => .ok (.vtanh w) | 0x17 => .ok (.verf w)
  | 0x18 => .ok (.vsumr w) | 0x19 => .ok (.vmaxr w) | 0x1A => .ok (.vscan w) | 0x1B => .ok (.vtopk w)
  | 0x1C => .ok (.vtbl w) | 0x1D => .ok (.vzip w) | 0x1E => .ok (.vunzip w) | 0x1F => .ok (.vmov w)
  | 0x20 => .ok (.vpopc w) | 0x21 => .ok (.vbfx w) | 0x22 => .ok (.vfsh w) | 0x23 => .ok (.viota w)
  | 0x24 => .ok (.vclamp w) | 0x25 => .ok (.vdot4 w) | 0x26 => .ok (.vscale w)
  | 0x40 => .ok (.vld w) | 0x41 => .ok (.vldx w) | 0x42 => .ok (.vldb w) | 0x43 => .ok (.vldz w)
  | 0x80 => .ok (.vst w) | 0x81 => .ok (.vstx w) | 0x82 => .ok (.vstz w)
  | 0xC0 => .ok (.vshape w) | 0xC1 => .ok (.vmpush w) | 0xC2 => .ok (.vminv w) | 0xC3 => .ok (.vmpop w)
  | 0xC4 => .ok (.vskip w) | 0xC5 => .ok (.vmode w) | 0xC6 => .ok (.vsignal w) | 0xC7 => .ok (.vnop w)
  | _ => .error .opcode

/-- Decodes a vector word (R135, R136); any other opcode value is reserved, and VRUN refuses the word (R142). -/
def decodeVector (w : BitVec 96) : Except Reject Instr := vectorInstr (fld w 0 8).toNat (vfields w)

/-- The fields of a matrix word (R254). -/
def mfields (w : BitVec 192) : MWord :=
  { stamp := fld w 160 32, xaddr := fld w 128 32, baddr := fld w 96 32, bpitch := fld w 80 16,
    apitch := fld w 64 16, aaddr := fld w 32 32, kg := fld w 24 6, missp := w.getLsbD 23,
    gscale := w.getLsbD 22, btr := w.getLsbD 21, nsel := w.getLsbD 20, sparse := w.getLsbD 19,
    gather := w.getLsbD 18, acc := fld w 16 2, bfmt := fld w 12 4, afmt := fld w 8 4 }

/-- A matrix word by its op8 (R138). -/
def matrixInstr (op8 : Nat) (w : MWord) : Except Reject Instr :=
  match op8 with
  | 0 => .ok (.mma w) | 1 => .ok (.mzero w) | 2 => .ok (.mlda w) | 3 => .ok (.msta w)
  | 4 => .ok (.madda w) | 5 => .ok (.mbias w) | 6 => .ok (.mxfr w) | 7 => .ok (.msync w)
  | _ => .error .opcode

/-- Decodes a matrix word; bits [31:30] must be 0 (R138), and any other opcode value is reserved: MRUN refuses the word (R142). -/
def decodeMatrix (w : BitVec 192) : Except Reject Instr :=
  if fld w 30 2 != 0 then .error .field else matrixInstr (fld w 0 8).toNat (mfields w)

/-- The fields of a transform instruction (R139). -/
def xfields (u : Unit32) : XWord := ⟨fld u 16 16, fld u 12 4, fld u 9 3, fld u 6 3⟩

/-- Decodes a transform instruction by op6; field values are checked when it executes (R139, R290). Any other value is reserved
and faults at its word (R142, XSEQ_RESERVED_OPCODE). -/
def decodeTransform (u : Unit32) : Except Reject Instr :=
  let w := xfields u
  match (fld u 0 6).toNat with
  | 0x0 => .ok (.xseqHalt w) | 0x1 => .ok (.xseqLoop w) | 0x2 => .ok (.endl w) | 0x3 => .ok (.setag w)
  | 0x4 => .ok (.move w) | 0x5 => .ok (.cvt w) | 0x6 => .ok (.pack w) | 0x7 => .ok (.unpk w)
  | 0x8 => .ok (.trans w) | 0x9 => .ok (.tokw w) | 0xA => .ok (.toks w) | 0xB => .ok (.seth w)
  | 0xC => .ok (.addh w) | 0xD => .ok (.brnz w) | _ => .error .opcode

/-- The step that a transform instruction word is (R139). -/
def transformInstr (u : Unit32) : Instr :=
  match decodeTransform u with
  | .ok i => i
  | .error _ => .xseqReservedOpcode u

/-- The fields of a sampler instruction (R139). -/
def sfields (u : Unit32) : SWord := ⟨fld u 16 16, u.getLsbD 15, fld u 12 3, fld u 9 3, fld u 6 3⟩

/-- Decodes a sampler instruction by op6, and by f for MOV and ADDS (R139, R302). Any other value is reserved and halts the context
(R142). -/
def decodeSampler (u : Unit32) : Except Reject Instr :=
  let w := sfields u
  match (fld u 0 6).toNat with
  | 0x00 => .ok (.smpHalt w) | 0x01 => .ok (.ldl w) | 0x02 => .ok (.scl w) | 0x03 => .ok (.pen w)
  | 0x04 => .ok (.msk w) | 0x05 => .ok (.topk w) | 0x06 => .ok (.topp w) | 0x07 => .ok (.minp w)
  | 0x08 => .ok (.smx w) | 0x09 => .ok (.cum w) | 0x0A => .ok (.rnd w) | 0x0B => .ok (.pick w)
  | 0x0C => .ok (.argm w) | 0x0D => .ok (.emit w) | 0x0E => .ok (.acc w) | 0x0F => .ok (.res w)
  | 0x10 => .ok (.conf w)
  | 0x11 => .ok (if w.f then .movi w else .mov w)
  | 0x12 => .ok (if w.f then .addsImmediate w else .adds w)
  | 0x13 => .ok (.brc w)
  | _ => .error .opcode

/-- The step that a sampler instruction word is (R139). -/
def samplerInstr (u : Unit32) : Instr :=
  match decodeSampler u with
  | .ok i => i
  | .error _ => .smpReservedOpcode u

/-- The 8-byte little-endian word at byte offset `off` of a 128-byte copy record (R6, R140). -/
def recWord (r : BitVec 1024) (off : Nat) : Word := fld r (8 * off) 64

/-- The fields of a copy record (R140). -/
def recFields (r : BitVec 1024) : CopyRec :=
  { next := recWord r 0x00, ctl := recWord r 0x08, src := recWord r 0x10, dst := recWord r 0x18,
    e0 := fld r (8 * 0x20) 32, e1 := fld r (8 * 0x24) 32, e2 := fld r (8 * 0x28) 32, e3 := fld r (8 * 0x2C) 32,
    s0 := recWord r 0x30, s1 := recWord r 0x38, s2 := recWord r 0x40, s3 := recWord r 0x48,
    d0 := recWord r 0x50, d1 := recWord r 0x58, d2 := recWord r 0x60, d3 := recWord r 0x68,
    kindAux := recWord r 0x70 }

/-- KIND of a copy record's ctl word (R140). -/
def CopyRec.kind (r : CopyRec) : Nat := (fld r.ctl 40 8).toNat

/-- The step that a copy record is, by its KIND; 10 to 255 are reserved (R140, R141). -/
def copyInstr (c : BitVec 3) (r : CopyRec) : Except Reject Instr :=
  match r.kind with
  | 0 => .ok (.linear c r) | 1 => .ok (.tensor c r) | 2 => .ok (.maskpack c r) | 3 => .ok (.scatter c r)
  | 4 => .ok (.multicast c r) | 5 => .ok (.reduce c r) | 6 => .ok (.expand c r) | 7 => .ok (.decrypt c r)
  | 8 => .ok (.fill c r) | 9 => .ok (.note c r) | _ => .error .opcode

/-! ### Encoding -/

/-- An R form (R128). -/
def encR (fn5 : BitVec 5) (gd : Guard) (rb ra rd : BitVec 5) (op6 : BitVec 6) : Unit32 :=
  fn5 ++ BitVec.ofBool gd.kn ++ gd.kg ++ rb ++ ra ++ rd ++ op6 ++ 0#2

/-- An I form (R128). -/
def encI (imm : BitVec 14) (ra rd : BitVec 5) (op6 : BitVec 6) : Unit32 := imm ++ ra ++ rd ++ op6 ++ 0#2

/-- An M form (R128). -/
def encM (off : BitVec 11) (sz : BitVec 3) (ra rd : BitVec 5) (op6 : BitVec 6) : Unit32 :=
  off ++ sz ++ ra ++ rd ++ op6 ++ 0#2

/-- A Q form (R128) of page 0 or 1. -/
def encQ (imm8 : BitVec 8) (id6 : BitVec 6) (gb ga : BitVec 5) (op6 : BitVec 6) (page : BitVec 2) : Unit32 :=
  imm8 ++ id6 ++ gb ++ ga ++ op6 ++ page

/-- imm8 of a request: the sub-operation and the nores flag (R171). -/
def reqImm (nores : Bool) (sub : BitVec 4) : BitVec 8 := 0#3 ++ BitVec.ofBool nores ++ sub

/-- A Z form (R128). -/
def encZ (op6 : BitVec 6) : Unit32 := 0#24 ++ op6 ++ 0#2

/-- Word 0 of an X or L form (R133). -/
def encX0 (bl : BitVec 2) (rc rb ra rd : BitVec 5) (op8 : BitVec 8) (form : BitVec 2) : Unit32 :=
  bl ++ rc ++ rb ++ ra ++ rd ++ op8 ++ form

/-- Word 1 of an X or L form (R133). -/
def encX1 (imm : BitVec 16) (fn4 : BitVec 4) (sz : BitVec 3) (ord : BitVec 2) (scope : BitVec 3) (gd : Guard) :
    Unit32 :=
  imm ++ fn4 ++ sz ++ ord ++ scope ++ BitVec.ofBool gd.kn ++ gd.kg

/-- Word 1 of ALUX, CMPX and CMPL, whose function has five bits (R133). -/
def encX1f (fn5 : BitVec 5) (gd : Guard) : Unit32 := 0#16 ++ fn5 ++ 0#7 ++ BitVec.ofBool gd.kn ++ gd.kg

/-- The imm16 of BFX and BFI (R153). -/
def bitFieldImm (rp sx : Bool) (w : BitVec 7) (p : BitVec 6) : BitVec 16 :=
  0#1 ++ BitVec.ofBool rp ++ BitVec.ofBool sx ++ w ++ p

/-- The units of an instruction of the control stream, first unit first; nothing for a step that is no
encoded instruction (R128 to R134). -/
def encodeControl : Instr → Option (List Unit32)
  | .ill x => some [x ++ 0#6 ++ 0#2]
  | .alu op gd rb ra rd => some [encR op.code gd rb ra rd 0x01]
  | .addi imm ra rd => some [encI imm ra rd 0x02]
  | .andi imm ra rd => some [encI imm ra rd 0x03]
  | .ori imm ra rd => some [encI imm ra rd 0x04]
  | .xori imm ra rd => some [encI imm ra rd 0x05]
  | .shi k n ra rd => some [encI (0#6 ++ k.code ++ n) ra rd 0x06]
  | .sel gd rb ra rd => some [encR 0 gd rb ra rd 0x07]
  | .cmp c gd rb ra comb kt => some [encR c.code gd rb ra (comb.code ++ kt) 0x08]
  | .cmpi c imm ra kt => c.shortCode.map fun cc => [encI imm ra (cc ++ kt) 0x09]
  | .ld sz off ra rd => some [encM off sz.code ra rd 0x0A]
  | .st sz off ra rs => some [encM off sz.code ra rs 0x0B]
  | .br h gd off => some [off ++ h.code ++ BitVec.ofBool gd.kn ++ gd.kg ++ 0x0C#6 ++ 0#2]
  | .j off => some [off ++ 0x0D#6 ++ 0#2]
  | .jl off => some [off ++ 0x0E#6 ++ 0#2]
  | .jr ra rd => some [encI 0 ra rd 0x0F]
  | .vrun imm8 gb ga => some [encQ imm8 0 gb ga 0x10 0]
  | .mrun imm8 gb ga => some [encQ imm8 0 gb ga 0x11 0]
  | .xrun imm8 gb ga => some [encQ imm8 0 gb ga 0x12 0]
  | .put e sub nores boost gb ga =>
      some [encQ (BitVec.ofBool boost ++ 0#2 ++ BitVec.ofBool nores ++ sub) e.code gb ga 0x13 0]
  | .get e ga => some [encQ 0 e.code 0 ga 0x14 0]
  | .wait mx cp st ld => some [mx ++ cp ++ st ++ ld ++ 0x15#6 ++ 0#2]
  | .fencem mask rel sc => some [0#2 ++ mask ++ 0#1 ++ syncCode rel ++ sc.code ++ 0#10 ++ 0x16#6 ++ 0#2]
  | .join => some [encZ 0x17]
  | .mark => some [encZ 0x18]
  | .barInit b ga => some [encQ 0 b 0 ga 0x19 0]
  | .barArrive b n gb => some [encQ (if n then 0x11 else 1) b gb 0 0x19 0]
  | .barArriver b n gb ga => some [encQ (if n then 0x12 else 2) b gb ga 0x19 0]
  | .barWait b ga => some [encQ 3 b 0 ga 0x19 0]
  | .barCnt b ga => some [encQ 4 b 0 ga 0x19 0]
  | .mbxSend m gb ga => some [encQ 0 (0#2 ++ m) gb ga 0x1A 0]
  | .mbxRecv m gb ga => some [encQ 1 (0#2 ++ m) gb ga 0x1A 0]
  | .mbxPoll m ga => some [encQ 2 (0#2 ++ m) 0 ga 0x1A 0]
  | .cpsStart c ga => some [encQ 0 (0#3 ++ c) 0 ga 0x1B 0]
  | .cpsStat c ga => some [encQ 1 (0#3 ++ c) 0 ga 0x1B 0]
  | .cpsWmark c ga => some [encQ 2 (0#3 ++ c) 0 ga 0x1B 0]
  | .cpsStop c => some [encQ 3 (0#3 ++ c) 0 0 0x1B 0]
  | .evtSignal gb ga => some [encQ 0 0 gb ga 0x1C 0]
  | .evtRead gb ga => some [encQ 1 0 gb ga 0x1C 0]
  | .yield => some [encZ 0x1D]
  | .trap code => some [encI code 0 0 0x1E]
  | .lexit imm ra => some [encI imm ra 0 0x1F]
  | .sysr r rd => some [encI r.code 0 rd 0x20]
  | .sysw r ra => some [encI r.code ra 0 0x21]
  | .halt => some [encZ 0x22]
  | .nop => some [encZ 0x23]
  | .eret => some [encZ 0x24]
  | .pixLookup t nores gb ga => some [encQ (reqImm nores 0) (0#3 ++ t) gb ga 0x00 1]
  | .pixInsert t nores ga => some [encQ (reqImm nores 1) (0#3 ++ t) 0 ga 0x00 1]
  | .pixRef t nores ga => some [encQ (reqImm nores 2) (0#3 ++ t) 0 ga 0x00 1]
  | .pixUnref t nores ga => some [encQ (reqImm nores 3) (0#3 ++ t) 0 ga 0x00 1]
  | .pixEvict t nores gb ga => some [encQ (reqImm nores 4) (0#3 ++ t) gb ga 0x00 1]
  | .umeCfg c nores ga => some [encQ (reqImm nores 0) c 0 ga 0x01 1]
  | .umePost c nores gb ga => some [encQ (reqImm nores 1) c gb ga 0x01 1]
  | .umeRound c nores ga => some [encQ (reqImm nores 2) c 0 ga 0x01 1]
  | .umeDirty c nores gb ga => some [encQ (reqImm nores 3) c gb ga 0x01 1]
  | .umeReset c nores => some [encQ (reqImm nores 4) c 0 0 0x01 1]
  | .smpr c nores ga => some [encQ (reqImm nores 0) c 0 ga 0x02 1]
  | .approxBegin r => some [encQ 0 (0#2 ++ r) 0 0 0x03 1]
  | .approxEnd r => some [encQ 1 (0#2 ++ r) 0 0 0x03 1]
  | .fitcInv r nores => some [encQ (reqImm nores 0) (0#2 ++ r) 0 0 0x04 1]
  | .fitcStat r nores => some [encQ (reqImm nores 1) (0#2 ++ r) 0 0 0x04 1]
  | .fitcSett r nores gb ga => some [encQ (reqImm nores 2) (0#2 ++ r) gb ga 0x04 1]
  | .kvc b gb ga => some [encQ 0 b gb ga 0x05 1]
  | .rflush b ga => some [encQ 0 b 0 ga 0x06 1]
  | .rinval b ga => some [encQ 0 b 0 ga 0x07 1]
  | .unstand s => some [encQ 0 (0#2 ++ s) 0 0 0x08 1]
  | .shed ga => some [encQ 0 0 0 ga 0x09 1]
  | .tokSig t ga => some [encQ 0 (0#3 ++ t) 0 ga 0x0A 1]
  | .tokWaitt t ga => some [encQ 1 (0#3 ++ t) 0 ga 0x0A 1]
  | .ldx sz acq sc gd bl imm rb ra rd =>
      some [encX0 bl 0 rb ra rd 0x00 2, encX1 imm 0 sz.code (syncCode acq) sc.code gd]
  | .stx sz rel sc gd imm rb ra rd =>
      some [encX0 0 0 rb ra rd 0x01 2, encX1 imm 0 sz.code (syncCode rel) sc.code gd]
  | .atom op dword ord sc gd imm rc rb ra rd =>
      some [encX0 0 rc rb ra rd 0x02 2, encX1 imm op.code (if dword then 3 else 2) ord.code sc.code gd]
  | .ldstand s acq sc gd imm rc rb ra =>
      some [encX0 0 rc rb ra (0#1 ++ s) 0x03 2, encX1 imm 0 2 (syncCode acq) sc.code gd]
  | .bfx sx rp w p gd bl rb ra rd =>
      some [encX0 bl 0 rb ra rd 0x04 2, encX1 (bitFieldImm rp sx w p) 0 0 0 0 gd]
  | .bfi rp w p gd bl rb ra rd =>
      some [encX0 bl 0 rb ra rd 0x05 2, encX1 (bitFieldImm rp false w p) 0 0 0 0 gd]
  | .fsh left rn n gd bl rc rb ra rd =>
      some [encX0 bl rc rb ra rd 0x06 2,
        encX1 (0#8 ++ BitVec.ofBool left ++ BitVec.ofBool rn ++ n) 0 0 0 0 gd]
  | .loop gd imm ra => some [encX0 0 0 0 ra 0 0x07 2, encX1 imm 0 0 0 0 gd]
  | .setmode f gd imm ra => some [encX0 0 0 0 ra 0 0x08 2, encX1 imm f 0 0 0 gd]
  | .li gd bl lit rd => some [encX0 bl 0 0 0 rd 0x09 3, encX1 0 0 0 0 0 gd, lit]
  | .lih gd bl lit rd => some [encX0 bl 0 0 0 rd 0x09 3, encX1 0 1 0 0 0 gd, lit]
  | .addl gd bl lit ra rd => some [encX0 bl 0 0 ra rd 0x0A 3, encX1 0 0 0 0 0 gd, lit]
  | .cmpl c gd bl lit ra comb kt => some [encX0 bl 0 0 ra (comb.code ++ kt) 0x0B 3, encX1f c.code gd, lit]
  | .alux op gd bl rb ra rd => some [encX0 bl 0 rb ra rd 0x0C 2, encX1f op.code gd]
  | .cmpx c gd bl rb ra comb kt => some [encX0 bl 0 rb ra (comb.code ++ kt) 0x0D 2, encX1f c.code gd]
  | _ => none

/-- An operand descriptor (R135). -/
def encDesc (d : Desc) : BitVec 14 := d.step ++ d.offset ++ BitVec.ofBool d.kind ++ d.index

/-- A vector word with its op8 (R135). -/
def encV (op8 : BitVec 8) (w : VWord) : BitVec 96 :=
  w.aux ++ encDesc w.b ++ encDesc w.a ++ encDesc w.d ++ BitVec.ofBool w.pm ++ BitVec.ofBool w.sat ++ w.rnd ++
    w.type ++ op8

/-- The op8 and fields of a step that is a vector word (R136). -/
def vectorParts : Instr → Option (BitVec 8 × VWord)
  | .vadd w => some (0x00, w) | .vsub w => some (0x01, w) | .vmul w => some (0x02, w) | .vmad w => some (0x03, w)
  | .vmin w => some (0x04, w) | .vmax w => some (0x05, w) | .vabs w => some (0x06, w) | .vneg w => some (0x07, w)
  | .vand w => some (0x08, w) | .vor w => some (0x09, w) | .vxor w => some (0x0A, w) | .vnot w => some (0x0B, w)
  | .vshl w => some (0x0C, w) | .vshr w => some (0x0D, w) | .vsar w => some (0x0E, w) | .vcmp w => some (0x0F, w)
  | .vsel w => some (0x10, w) | .vcvt w => some (0x11, w) | .vrcp w => some (0x12, w) | .vrsq w => some (0x13, w)
  | .vexp2 w => some (0x14, w) | .vlog2 w => some (0x15, w) | .vtanh w => some (0x16, w) | .verf w => some (0x17, w)
  | .vsumr w => some (0x18, w) | .vmaxr w => some (0x19, w) | .vscan w => some (0x1A, w) | .vtopk w => some (0x1B, w)
  | .vtbl w => some (0x1C, w) | .vzip w => some (0x1D, w) | .vunzip w => some (0x1E, w) | .vmov w => some (0x1F, w)
  | .vpopc w => some (0x20, w) | .vbfx w => some (0x21, w) | .vfsh w => some (0x22, w) | .viota w => some (0x23, w)
  | .vclamp w => some (0x24, w) | .vdot4 w => some (0x25, w) | .vscale w => some (0x26, w)
  | .vld w => some (0x40, w) | .vldx w => some (0x41, w) | .vldb w => some (0x42, w) | .vldz w => some (0x43, w)
  | .vst w => some (0x80, w) | .vstx w => some (0x81, w) | .vstz w => some (0x82, w)
  | .vshape w => some (0xC0, w) | .vmpush w => some (0xC1, w) | .vminv w => some (0xC2, w) | .vmpop w => some (0xC3, w)
  | .vskip w => some (0xC4, w) | .vmode w => some (0xC5, w) | .vsignal w => some (0xC6, w) | .vnop w => some (0xC7, w)
  | _ => none

/-- The 96 bits of a step that is a vector word (R135). -/
def encodeVector (i : Instr) : Option (BitVec 96) := (vectorParts i).map fun p => encV p.1 p.2

/-- A matrix word with its op8 (R254). -/
def encM192 (op8 : BitVec 8) (w : MWord) : BitVec 192 :=
  w.stamp ++ w.xaddr ++ w.baddr ++ w.bpitch ++ w.apitch ++ w.aaddr ++ 0#2 ++ w.kg ++ BitVec.ofBool w.missp ++
    BitVec.ofBool w.gscale ++ BitVec.ofBool w.btr ++ BitVec.ofBool w.nsel ++ BitVec.ofBool w.sparse ++
    BitVec.ofBool w.gather ++ w.acc ++ w.bfmt ++ w.afmt ++ op8

/-- The op8 and fields of a step that is a matrix word (R138). -/
def matrixParts : Instr → Option (BitVec 8 × MWord)
  | .mma w => some (0, w) | .mzero w => some (1, w) | .mlda w => some (2, w) | .msta w => some (3, w)
  | .madda w => some (4, w) | .mbias w => some (5, w) | .mxfr w => some (6, w) | .msync w => some (7, w)
  | _ => none

/-- The 192 bits of a step that is a matrix word (R254). -/
def encodeMatrix (i : Instr) : Option (BitVec 192) := (matrixParts i).map fun p => encM192 p.1 p.2

/-- A transform instruction with its op6 (R139). -/
def encXseq (op6 : BitVec 6) (w : XWord) : Unit32 := w.imm ++ w.ag ++ w.hs ++ w.hd ++ op6

/-- The op6 and fields of a step that is a transform instruction (R290). -/
def transformParts : Instr → Option (BitVec 6 × XWord)
  | .xseqHalt w => some (0x0, w) | .xseqLoop w => some (0x1, w) | .endl w => some (0x2, w) | .setag w => some (0x3, w)
  | .move w => some (0x4, w) | .cvt w => some (0x5, w) | .pack w => some (0x6, w) | .unpk w => some (0x7, w)
  | .trans w => some (0x8, w) | .tokw w => some (0x9, w) | .toks w => some (0xA, w) | .seth w => some (0xB, w)
  | .addh w => some (0xC, w) | .brnz w => some (0xD, w)
  | _ => none

/-- The 32 bits of a step that is a transform instruction (R139). -/
def encodeTransform (i : Instr) : Option Unit32 := (transformParts i).map fun p => encXseq p.1 p.2

/-- A sampler instruction with its op6 (R139). -/
def encSmp (op6 : BitVec 6) (w : SWord) : Unit32 := w.imm ++ BitVec.ofBool w.f ++ w.yb ++ w.ya ++ w.yd ++ op6

/-- The op6 and fields of a step that is a sampler instruction (R302). -/
def samplerParts : Instr → Option (BitVec 6 × SWord)
  | .smpHalt w => some (0x00, w) | .ldl w => some (0x01, w) | .scl w => some (0x02, w) | .pen w => some (0x03, w)
  | .msk w => some (0x04, w) | .topk w => some (0x05, w) | .topp w => some (0x06, w) | .minp w => some (0x07, w)
  | .smx w => some (0x08, w) | .cum w => some (0x09, w) | .rnd w => some (0x0A, w) | .pick w => some (0x0B, w)
  | .argm w => some (0x0C, w) | .emit w => some (0x0D, w) | .acc w => some (0x0E, w) | .res w => some (0x0F, w)
  | .conf w => some (0x10, w) | .mov w => some (0x11, w) | .movi w => some (0x11, w) | .adds w => some (0x12, w)
  | .addsImmediate w => some (0x12, w) | .brc w => some (0x13, w)
  | _ => none

/-- The 32 bits of a step that is a sampler instruction (R139). -/
def encodeSampler (i : Instr) : Option Unit32 := (samplerParts i).map fun p => encSmp p.1 p.2

/-- What the decoder reads from an instruction of the control stream whose bits are `w`: bit 0 is the
least significant bit of the first unit, a later unit's bits count on from it, and bits above `nbits`
are 0. Transform and sampler words share these bits with the control stream; the stream, not the word,
tells them apart (R126, R139), and this is the control stream's decoder. -/
def decodeTableWord (nbits w : Nat) : Option Instr :=
  let v := BitVec.ofNat 96 (w % 2 ^ nbits)
  (decodeControl (fld v 0 32) (fld v 32 32) (fld v 64 32)).toOption

end Sys2Proof
end

