-- ==== Sys2Proof/Machine/Pieces.lean ====
section
/-!
DEFINITION. The geometry of copy records: the moves that a record cuts into, and its destination rows in destination order
(R274, R276 to R282).
-/
namespace Sys2Proof.Machine

/-- A move in destination order: bytes of a source or given bytes, to a destination. -/
structure Piece where
  src : Option Nat
  lit : List Byte
  dst : Nat
  n   : Nat
  deriving DecidableEq, Repr

/-- A row cut at the destination's granules; `lit` gives the bytes of a row without a source by their offset. -/
def cutRow (src : Option Int) (lit : Nat → Byte) (dst : Int) (n : Nat) : List Piece :=
  let d := dst.toNat
  (granulesOf d n).map fun g =>
    let lo := max d (64 * g)
    let hi := min (d + n) (64 * g + 64)
    { src := src.map fun a => a.toNat + (lo - d), lit := if src.isNone then (List.range (hi - lo)).map fun i => lit (lo - d + i) else [],
      dst := lo, n := hi - lo }

/-- The pieces that remain after `done` bytes. -/
def skipPieces : Nat → List Piece → List Piece
  | _, [] => []
  | done, p :: ps => if 0 < done ∧ p.n ≤ done then skipPieces (done - p.n) ps else p :: ps

/-! ### TENSOR (R277) -/

/-- A dimension of TENSOR: extent, bound, start, source and destination strides. -/
structure TDim where
  e  : Nat
  b  : Nat
  st : Int
  s  : Int
  d  : Int
  deriving DecidableEq, Repr

/-- The four dimensions of a TENSOR record (R276). -/
def tensorDims (r : CopyRec) : List TDim :=
  let one (i : Nat) (e : BitVec 32) (s d : Word) : TDim :=
    ⟨(fld e 0 16).toNat, (fld e 16 16).toNat, (fld r.kindAux (16 * i) 16).toInt, s.toInt, d.toInt⟩
  [one 0 r.e0 r.s0 r.d0, one 1 r.e1 r.s1 r.d1, one 2 r.e2 r.s2 r.d2, one 3 r.e3 r.s3 r.d3]

/-- The indices of a window in nested order, dimension 0 innermost. -/
def tensorIdx : List TDim → List (List Nat)
  | [] => [[]]
  | t :: ts => ((tensorIdx ts).map fun rest => (List.range t.e).map fun i => i :: rest).flatten

/-- The element size of a TENSOR record. -/
def tensorSize (r : CopyRec) : Nat := 2 ^ (fld r.ctl 0 2).toNat

/-- The move of one element: a copy, or the fill value out of bounds. -/
def tensorPiece (r : CopyRec) (ts : List TDim) (esz : Nat) (ix : List Nat) : Piece :=
  let cs : List (TDim × Int × Int) := (ts.zip ix).map fun ti => (ti.1, ti.1.st + ((ti.2 : Nat) : Int), ((ti.2 : Nat) : Int))
  let dst := cs.foldl (fun a x => a + x.2.2 * x.1.d) r.dst.toInt
  if cs.any fun x => decide (x.2.1 < 0) || (decide (x.1.b ≠ 0) && decide ((x.1.b : Int) ≤ x.2.1)) then
    ⟨none, List.replicate esz (fld r.ctl 8 8), dst.toNat, esz⟩
  else ⟨some (cs.foldl (fun a x => a + x.2.1 * x.1.s) r.src.toInt).toNat, [], dst.toNat, esz⟩

/-! ### Rows -/

/-- Row i of the source and destination of an r-dimension record. -/
def srcRow (r : CopyRec) (i : Nat) : Int := r.src.toInt + i * r.s1.toInt
def dstRow (r : CopyRec) (i : Nat) : Int := r.dst.toInt + i * r.d1.toInt

/-- The destination rows of an r-dimension record. -/
def dstRows (r : CopyRec) (w : Nat) : List (Int × Nat) := (List.range r.e1.toNat).map fun i => (dstRow r i, w)

/-- The rows that a mask keeps: bit i mod 8 of byte i div 8 (R278). -/
def keptRows (r : CopyRec) (mask : List Byte) : List Nat :=
  (List.range r.e1.toNat).filter fun i => (mask.getD (i / 8) 0).getLsbD (i % 8)

/-- The rows that an index list uses, each with its index (R279). -/
def usedRows (r : CopyRec) (bs : List Byte) : List (Nat × Nat) :=
  ((List.range (min r.e1.toNat (bs.length / 4))).map fun i => (i, leVal ((bs.drop (4 * i)).take 4))).filter fun x =>
    decide (x.2 ≠ 0xFFFFFFFF)

/-- The target slots of a MULTICAST record. -/
def multicastSlots (r : CopyRec) : List Nat :=
  ((List.range 8).map fun i => (fld r.kindAux (4 * i) 4).toNat).filter (· ≠ 15)

/-- The bytes of the list that a record's rows depend on: MASKPACK's mask, SCATTER's indices; 0 for the other kinds. -/
def listBytes (r : CopyRec) : Nat :=
  match r.kind with
  | 2 => (r.e1.toNat + 7) / 8
  | 3 => 4 * r.e1.toNat
  | _ => 0

/-- The destination of a record in destination order, as rows of bytes that lie together (R274); `own`: the issuing core's
slot, whose stash a MULTICAST may write; `list`: the bytes of its mask or index list. -/
def recordRows (own : Nat) (r : CopyRec) (list : List Byte) : List (Int × Nat) :=
  let e0 := r.e0.toNat
  match r.kind with
  | 0 | 6 | 7 => [(r.dst.toInt, e0)]
  | 1 => (tensorIdx (tensorDims r)).map fun ix => (((tensorPiece r (tensorDims r) (tensorSize r) ix).dst : Int), tensorSize r)
  | 2 => (List.range (keptRows r list).length).map fun p => (dstRow r p, e0)
  | 3 => (usedRows r list).map fun x => (dstRow r x.2, e0)
  | 4 => if (multicastSlots r).contains own then dstRows r e0 else []
  | 5 => dstRows r ((if fld r.ctl 18 2 = 1 then 2 else 4) * e0)
  | 8 => dstRows r e0
  | _ => [(r.dst.toInt, 8)]

/-- Some byte of rows in destination order, the first of which starts at offset `off`, lies at or above a watermark and within
`n` bytes from an address (R80). -/
def rowsTouch (wm : Nat) (ea : Int) (n : Nat) : Nat → List (Int × Nat) → Bool
  | _, [] => false
  | off, (d, m) :: rows =>
    let from_ := d + ((wm - off : Nat) : Int)
    (decide (wm < off + m) && decide (from_ < ea + n) && decide (ea < d + m)) || rowsTouch wm ea n (off + m) rows

end Sys2Proof.Machine
end

