-- ==== Sys2Proof/Machine/Tables.lean ====
section
/-!
DEFINITION. Page-table entries (R410, R411), the TLBs' and walk caches' entries (R412), the leaf that a translation made now
would take, and the locations of devices that are lost (R435).
-/
namespace Sys2Proof.Machine

/-! ### Page-table entries (R410, R411) -/

/-- The fields of a page-table entry (R410). -/
def pteOwner (e : Word) : Byte := e.extractLsb' 56 8
def pteAddr (e : Word) : Nat := (e.extractLsb' 14 38).toNat * 2 ^ 14
def pteComp (e : Word) : Bool := e.getLsbD 8
def pteWr (e : Word) : Bool := e.getLsbD 7
def pteRd (e : Word) : Bool := e.getLsbD 6
def pteClass (e : Word) : Nat := (e.extractLsb' 3 3).toNat
def pteRun (e : Word) : Bool := e.getLsbD 2
def pteLeaf (e : Word) : Bool := e.getLsbD 1
def pteValid (e : Word) : Bool := e.getLsbD 0
def pteReserved (e : Word) : Bool := decide (e.extractLsb' 52 4 = 0) && decide (e.extractLsb' 9 5 = 0)

/-- A table pointer at level 1 or 2 is well formed (R410, R411). -/
def pointerOk (e : Word) : Bool :=
  pteValid e && pteReserved e && !pteLeaf e && !pteRun e && !pteComp e

/-- A leaf is well formed (R411): at level 3 it must be a leaf; at level 2 RUN must be 0. -/
def leafOk (e : Word) (lvl2 : Bool) : Bool :=
  pteValid e && pteReserved e && pteLeaf e && decide (pteClass e < 6) && (!pteComp e || decide (pteClass e = 0)) &&
    (if lvl2 then !pteRun e && decide (pteAddr e % 2 ^ 30 = 0) else decide (pteAddr e % 2 ^ 19 = 0))

/-- The end of HBM (R421). -/
def hbmEnd : Nat := 0x6000000000

/-! ### TLBs and walk caches (R412) -/

/-- A TLB entry holds a virtual address of a context. -/
def tlbHit (ctx : BitVec 6) (va : Nat) (e : TlbEntry) : Bool :=
  decide (e.ctx = ctx) && (if e.size = 3 then decide (e.page / 2048 = va / 2 ^ 30) else decide (e.page = va / 2 ^ 19))

/-- Add an entry in front; a full TLB of `n` entries drops its oldest (log entry 6). -/
def tlbAdd (n : Nat) (e : TlbEntry) (t : List TlbEntry) : List TlbEntry := (e :: t).take n

/-- The key of a virtual address in the walk cache: VA[51:41] at level 1, VA[51:30] at level 2. -/
def ptrKey (level : BitVec 2) (va : Nat) : Nat := if level = 1 then va / 2 ^ 41 else va / 2 ^ 30

/-- The pointer that a die's walk cache holds for a virtual address; the hub has none. -/
def ptrFind (d : Option (Fin 4)) (ctx : BitVec 6) (level : BitVec 2) (va : Nat) (s : State) : Option Word :=
  match d with
  | none => none
  | some d => ((s.die d).wcache.find? fun e =>
      decide (e.ctx = ctx) && decide (e.level = level) && decide (e.key = ptrKey level va)).map (·.ptr)

/-- Keep a pointer in a die's walk cache of 1,024 entries; a full one drops its oldest (log entry 6). -/
def ptrAdd (d : Option (Fin 4)) (ctx : BitVec 6) (level : BitVec 2) (va : Nat) (ptr : Word) (s : State) : State :=
  match d with
  | none => s
  | some d => s.updDie d fun x => { x with wcache := ((⟨ctx, level, ptrKey level va, ptr⟩ : PtrEntry) :: x.wcache).take 1024 }

/-! ### The owner tag at a recall (R54) -/

/-- An entry of a table node as it stands in HBM. -/
def rawPte (s : State) (node idx : Nat) : Option Word :=
  if node + 8 * idx + 8 ≤ hbmEnd then some (BitVec.ofNat 64 (leVal (s.hbm.bytes (node + 8 * idx) 8))) else none

/-- The leaf that the tables in HBM give a virtual address, if the walk succeeds. -/
def rawLeaf (ctx : BitVec 6) (va : Nat) (s : State) : Option Word := do
  let e1 ← rawPte s (s.ctx ctx).ptroot.toNat (va / 2 ^ 41 % 2048)
  if !pointerOk e1 then none
  else
    let e2 ← rawPte s (pteAddr e1) (va / 2 ^ 30 % 2048)
    if pteLeaf e2 then (if leafOk e2 true then some e2 else none)
    else if !pointerOk e2 then none
    else
      let e3 ← rawPte s (pteAddr e2) (va / 2 ^ 19 % 2048)
      if leafOk e3 false then some e3 else none

/-- The leaf that a translation for a core takes now: of its L1 TLB, of its cluster's L2 TLB, or of the tables. -/
def leafNow (c : CoreId) (va : Nat) (s : State) : Option Word :=
  let ctx := (s.coreAt c).ctx
  match (s.coreAt c).tlb.find? (tlbHit ctx va) with
  | some e => some e.leaf
  | none => match (s.cluster (clusterOf c)).tlb.find? (tlbHit ctx va) with
    | some e => some e.leaf
    | none => rawLeaf ctx va s

/-- A window granule may be recalled: its page, as it is translated now, carries no owner tag or the tag of its context. A
page that no longer translates has no tag to check (R54; log entry 55). -/
def granTagOk (g : Gran) (s : State) : Bool :=
  match leafNow g.core g.va s with
  | none => true
  | some leaf => decide (pteOwner leaf = 0) || decide (pteOwner leaf = (s.ctx (s.coreAt g.core).ctx).tag)

/-! ### Lost devices and refused stores -/

/-- Whether the device behind a location cannot be reached: its port is not UP (R435, R437; log entry 27). -/
def locLost (s : State) (x : Loc) : Bool :=
  match x.space with
  | .pool p => decide ((vget p s.pool.ports).state ≠ 2)
  | _ => false

/-- The port of a location has stopped answering: a request to it is in flight when the port is declared dead (R435, R436; log
entry 67). -/
def locSilent (s : State) (x : Loc) : Bool :=
  match x.space with
  | .pool p => s.pool.silent.getLsbD p.toNat
  | _ => false

/-- What a read in flight to a port returns when the port is declared dead: poisoned data, whose bits the spec leaves open
(R436; log entry 2). -/
def lostBytes (n : Nat) (s : State) : State × List Byte × Bool :=
  let (w, s) := s.drawWord
  (s, (List.range n).map fun i => Config.freeByte (w.toNat + i), true)

/-- Set WERR at the first refused store since it was cleared (R95, R96). -/
def setWerr (c : CoreId) (va : Word) (s : State) : State :=
  s.updCore c fun k =>
    if k.sys.werr.getLsbD 63 then k
    else { k with sys := { k.sys with werr := 0x8000000000000000 ||| (va &&& 0xFFFFFFFFFFFFF) } }

/-- A page to which a write of poisoned data faults (R94): HOST, HOST_WC, or an owner tag that differs from the context's. -/
def poisonBarred (s : State) (ctx : BitVec 6) (r : Region) (owner : Byte) : Bool :=
  decide (r = .host) || decide (r = .hostWc) || decide (owner ≠ (s.ctx ctx).tag)

end Sys2Proof.Machine
end

