-- ==== Sys2Proof/Machine/Home.lean ====
section
/-!
DEFINITION. Accesses at the home of a physical location: home slices and LLC lines (R1, R61, R89), recall of window granules
(R59, R62), subscribed words (R83), compressed blocks (R95), the pool-agent filter (R431, R432), and format windows (R63, R64).
-/
namespace Sys2Proof.Machine

/-- The 64-byte block of a location. -/
def Loc.block (x : Loc) : Loc := ⟨x.space, x.addr / 64 * 64⟩

/-- A location further on. -/
def Loc.plus (x : Loc) (n : Nat) : Loc := ⟨x.space, x.addr + n⟩

/-! ### Home slices (R61) -/

/-- The number of a line that the hashes take: its physical line address, the spaces apart. -/
def lineNumber (x : Loc) : Nat :=
  match x.space with
  | .hbm => x.addr / 128
  | .host => x.addr / 128 + 2 ^ 45
  | .pool p => x.addr / 128 + (p.toNat + 2) * 2 ^ 45

/-- The home slice of a line: of the 48 of the die whose HBM controller serves a LOCAL line, of all 192 for a pool line (R61). -/
def sliceOf (x : Loc) : Nat :=
  match x.space with
  | .hbm => x.addr / 0x1800000000 * 48 + Config.sliceHash (lineNumber x) % 48
  | _ => Config.sliceHash (lineNumber x) % 192

/-- The set of its slice that holds a line: 2 MiB of 128-byte lines in 16 ways are 1,024 sets (R1). -/
def setOf (x : Loc) : Nat := Config.setHash (lineNumber x) % 1024

/-- Two locations lie in the same line. -/
def sameLine (x y : Loc) : Bool := decide (x.space = y.space) && decide (x.addr / 128 = y.addr / 128)

/-! ### LLC lines (R1, R89, R91) -/

/-- The LLC's copy of a POOL_SWF line. -/
def llcFind (s : State) (p : BitVec 2) (line : Nat) : Option LlcLine :=
  s.llc.find? fun l => decide (l.port = p) && decide (l.line = line)

/-- The bytes of a line of a pool device as the LLC would fill them. -/
def llcFetch (s : State) (p : BitVec 2) (line : Nat) : LlcLine :=
  let m := s.mem (.pool p)
  { port := p, line := line, data := BitVec.ofNat 1024 (leVal (m.bytes (128 * line) 128)),
    bad := BitVec.ofBool (m.poisoned (128 * line + 64) 64) ++ BitVec.ofBool (m.poisoned (128 * line) 64), dirty := false }

/-- The bytes of a line from an offset, with the poison of the halves they touch. -/
def llcBytes (l : LlcLine) (off n : Nat) : List Byte × Bool :=
  ((List.range n).map fun i => l.data.extractLsb' (8 * (off + i)) 8,
   (List.range n).any fun i => l.bad.getLsbD ((off + i) / 64))

/-- A line with bytes replaced, dirty, with poison as R93. -/
def llcPut (l : LlcLine) (off : Nat) (bs : List Byte) (p : Bool) : LlcLine :=
  let old := (List.range 128).map fun i => l.data.extractLsb' (8 * i) 8
  let new := (List.range 128).map fun i =>
    if off ≤ i ∧ i < off + bs.length then bs.getD (i - off) 0 else old.getD i 0
  let half (h : Nat) : Bool :=
    if p then (l.bad.getLsbD h || decide (off < 64 * h + 64 ∧ 64 * h < off + bs.length))
    else if off ≤ 64 * h ∧ 64 * h + 64 ≤ off + bs.length then false else l.bad.getLsbD h
  { l with data := BitVec.ofNat 1024 (leVal new), bad := BitVec.ofBool (half 1) ++ BitVec.ofBool (half 0), dirty := true }

/-- Write a dirty line to its pool device; what a port that has stopped answering is sent is lost (R435). -/
def llcWriteBack (l : LlcLine) (s : State) : State :=
  if l.dirty && !locSilent s ⟨.pool l.port, 128 * l.line⟩ then
    s.updMem (.pool l.port) fun m =>
      (m.write (128 * l.line) ((llcBytes l 0 64).1) (l.bad.getLsbD 0)).write (128 * l.line + 64) ((llcBytes l 64 64).1)
        (l.bad.getLsbD 1)
  else s

/-- The place of an LLC line. -/
def LlcLine.loc (l : LlcLine) : Loc := ⟨.pool l.port, 128 * l.line⟩

/-- The lines that the LLC holds: of POOL_SWF memory with their bytes, of HBM with their tags (log entry 65). -/
def llcLines (s : State) : List Loc := s.llc.map LlcLine.loc ++ s.llcTags.map fun kt => ⟨.hbm, 128 * kt.1⟩

/-- Drop a line from the LLC, a dirty one after writing it back. -/
def llcDrop (x : Loc) (s : State) : State :=
  match x.space with
  | .hbm => { s with llcTags := kdel s.llcTags (x.addr / 128) }
  | .host => s
  | .pool p =>
    match llcFind s p (x.addr / 128) with
    | none => s
    | some l => { llcWriteBack l s with llc := s.llc.filter fun y => !(decide (y.port = p) && decide (y.line = x.addr / 128)) }

/-- Make room for a line that enters the LLC: of 16 lines in its set of its slice one leaves, which is free (R1; log entry 65).
Fewer than 16 lines in all fill no set. -/
def llcRoom (x : Loc) (s : State) : State :=
  if s.llc.length + s.llcTags.length < 16 then s
  else
    let same := (llcLines s).filter fun y => decide (sliceOf y = sliceOf x) && decide (setOf y = setOf x)
    if same.length < 16 then s
    else
      let (w, s) := s.drawWord
      match same[w.toNat % same.length]? with
      | some y => llcDrop y s
      | none => s

/-- Replace the LLC's copy of a line, or add it. -/
def llcStore (l : LlcLine) (s : State) : State :=
  if (llcFind s l.port l.line).isSome then
    { s with llc := replaceFirst (fun l' => decide (l'.port = l.port) && decide (l'.line = l.line)) (fun _ => l) s.llc }
  else
    let s := llcRoom l.loc s
    { s with llc := s.llc ++ [l] }

/-! ### Format windows (R63 to R66) -/

/-- Whether FMT names a format the window may carry (R63, R417 bit 6). -/
def fmtOk (s : State) (c : BitVec 6) : Bool :=
  let f := (c.extractLsb' 0 4).toNat
  decide (1 ≤ f ∧ f ≤ 11) && (decide (f ≠ 7 ∧ f ≠ 8) || s.feature 6) &&
    (!c.getLsbD 5 || decide (f = 5 ∨ f = 8))

/-- A format window is active (R63). -/
def fmtActive (s : State) (w : FmtWin) : Bool :=
  w.ctl.getLsbD 4 && decide (w.base < w.limit) && fmtOk s w.ctl

/-- The window that governs an HBM address, with its number: the lowest-numbered active one of its controller that holds it
(R63, R421). -/
def fmtWindow (s : State) (a : Nat) : Option (BitVec 7 × FmtWin) :=
  let n := a / 0xC00000000
  ((List.range 16).map fun w => (BitVec.ofNat 7 (16 * n + w), s.fmt.toList.getD (16 * n + w) ⟨0, 0, 0, 0, 0⟩)).find? fun nw =>
    fmtActive s nw.2 && decide (nw.2.base.toNat ≤ a ∧ a < nw.2.limit.toNat) && decide (n < 8)

/-- Whether an HBM address lies in a WIDEN6 view (R64). -/
def inWiden6 (s : State) (x : Loc) : Bool :=
  match x.space with
  | .hbm => match fmtWindow s x.addr with
    | some (_, w) => w.ctl.getLsbD 5
    | none => false
  | _ => false

/-- The tag of bytes that no window governs. -/
def LineTag.plain : LineTag := ⟨0xF, 0⟩

/-- The tag of an HBM line as the LLC carries it: that of a line it holds, or FMT of the governing window, or 0xF (R64, R66). -/
def lineTag (s : State) (x : Loc) : LineTag :=
  match x.space with
  | .hbm =>
    match kget? s.llcTags (x.addr / 128) with
    | some t => t
    | none => match fmtWindow s x.addr with
      | some (n, w) => ⟨w.ctl.extractLsb' 0 4, n⟩
      | none => .plain
  | _ => .plain

/-- An HBM line enters the LLC with its tag, an untagged one too (R64, R66). -/
def noteTag (x : Loc) (s : State) : State :=
  match x.space with
  | .hbm =>
    if (kget? s.llcTags (x.addr / 128)).isSome then s
    else
      let t := lineTag s x
      let s := llcRoom x s
      { s with llcTags := kput s.llcTags (x.addr / 128) t }
  | _ => s

/-- One byte of HBM as read through the format windows: a WIDEN6 view unpacks 6-bit fields (R64). -/
def widenByte (s : State) (a : Nat) : Byte × Bool :=
  match fmtWindow s a with
  | some (_, w) =>
    if w.ctl.getLsbD 5 then
      let bit := 6 * (a - w.base.toNat)
      let p := w.pack.toNat + bit / 8
      let v := (s.hbm.byte p).toNat + 256 * (s.hbm.byte (p + 1)).toNat
      let span := if bit % 8 ≤ 2 then 1 else 2
      (BitVec.ofNat 8 (v / 2 ^ (bit % 8) % 64), s.hbm.poisoned p span)
    else (s.hbm.byte a, s.hbm.poisoned a 1)
  | none => (s.hbm.byte a, s.hbm.poisoned a 1)

/-! ### Bytes stored at their home -/

/-- Count a store to a subscribed word for its pushes (R83). -/
def subsNote (x : Loc) (n : Nat) (s : State) : State :=
  { s with subs := s.subs.map fun u =>
      if u.word.space = x.space ∧ u.word.addr < x.addr + n ∧ x.addr < u.word.addr + 4 then
        { u with pending := u.pending + 1 } else u }

/-- Whether a write to a page meets a block whose metadata cannot be read: a page marked compressed has such blocks (R95). -/
def badBlockHit (s : State) (x : Loc) (comp : Bool) (n : Nat) : Bool :=
  comp && decide (x.space = .hbm) && (List.range n).any fun i => s.badBlocks.contains ((x.addr + i) / 1024)

/-- Poison the 1 KiB block of a refused write (R95). -/
def poisonBlock (x : Loc) (s : State) : State :=
  { s with hbm := { s.hbm with bad := (List.range 16).foldl (fun l i => ninsert (x.addr / 1024 * 16 + i) l) s.hbm.bad } }

/-- A request goes to a port that has stopped answering: the LLC does not hold the line (R436). -/
def requestLost (s : State) (x : Loc) (r : Region) : Bool :=
  locSilent s x && !(decide (r = .poolSwf) && s.llc.any fun l => decide (l.loc.space = x.space) && decide (l.line = x.addr / 128))

/-- Put bytes at their home with their poison (R53, R89, R93): POOL_SWF goes into the LLC, subscribers are counted. The answer
is false when R95 refuses the write, or a port that has stopped answering takes it (R436). -/
def homeStore (x : Loc) (r : Region) (comp : Bool) (bs : List Byte) (p : Bool) (s : State) : State × Bool :=
  let n := bs.length
  if badBlockHit s x comp n then (poisonBlock x s, false)
  else if requestLost s x r then (s, false)
  else
    let s := subsNote x n s
    match r, x.space with
    | .poolSwf, .pool q =>
      let one (s : State) (ib : Nat × Byte) : State :=
        let a := x.addr + ib.1
        let l := (llcFind s q (a / 128)).getD (llcFetch s q (a / 128))
        llcStore (llcPut l (a % 128) [ib.2] p) s
      if x.addr / 128 = (x.addr + n - 1) / 128 ∧ 0 < n then
        let l := (llcFind s q (x.addr / 128)).getD (llcFetch s q (x.addr / 128))
        (llcStore (llcPut l (x.addr % 128) bs p) s, true)
      else (((List.range n).zip bs).foldl one s, true)
    | _, sp => (s.updMem sp fun m => m.write x.addr bs p, true)

/-! ### Window granules at a home (R59, R62) -/

/-- The runs of dirty bytes of a granule from offset `i` on: offset and length; `left` offsets remain. -/
def dirtyRuns (d : BitVec 64) : Nat → Nat → List (Nat × Nat)
  | 0, _ => []
  | left + 1, i =>
    match dirtyRuns d left (i + 1) with
    | (o, n) :: rest => if d.getLsbD i then (if o = i + 1 then (i, n + 1) :: rest else (i, 1) :: (o, n) :: rest) else (o, n) :: rest
    | [] => if d.getLsbD i then [(i, 1)] else []

/-- The home takes no dirty byte of a granule: the owner tag of its page has changed (R54), its stash copy is poisoned where
R94 bars poisoned writes, or its device is lost (R436; log entry 55). -/
def granBarred (g : Gran) (s : State) : Bool :=
  !granTagOk g s || locLost s g.home ||
    ((s.coreAt g.core).stash.bad.contains g.gran && poisonBarred s (s.coreAt g.core).ctx g.region g.owner)

/-- Write the dirty bytes of a granule, and only those, to the home (R59, R60), with its poison (R93). A write-back that the
home does not take sets the holder's WERR (R95, R436). -/
def granWriteBack (g : Gran) (s : State) : State :=
  if g.dirty = 0 then s
  else if granBarred g s then setWerr g.core (BitVec.ofNat 64 g.va) s
  else
    let st := (s.coreAt g.core).stash
    let put (acc : State × Bool) (r : Nat × Nat) : State × Bool :=
      let (s, ok) := homeStore (g.home.plus r.1) g.region g.comp (st.bytes (64 * g.gran + r.1) r.2) (st.bad.contains g.gran) acc.1
      (s, acc.2 && ok)
    let (t, ok) := (dirtyRuns g.dirty 64 0).foldl put (s, true)
    if ok then t else setWerr g.core (BitVec.ofNat 64 g.va) t

/-! ### The range directories (R61, R62) -/

/-- An entry of a range directory stands for a granule: the holder's window, intent and page, and the slice of the line. -/
def DirRange.covers (e : DirRange) (g : Gran) : Bool :=
  decide (e.core = g.core) && decide (e.win = g.win) && decide (e.write = g.wr) && decide (e.vpage = g.va / 2 ^ 19) &&
    decide (e.space = g.home.space) && decide (e.page = g.home.addr / 2 ^ 19) && decide (e.slice = sliceOf g.home)

/-- The byte at a location lies in the range of an entry: in one of its rows, in its page, in a line of its slice (R61). -/
def DirRange.holds (e : DirRange) (x : Loc) : Bool :=
  decide (x.space = e.space) && decide (x.addr / 2 ^ 19 = e.page) && decide (sliceOf x = e.slice) &&
    (List.range e.count).any fun i =>
      let lo := e.base + (i : Nat) * e.stride
      decide (lo ≤ (x.addr : Int) ∧ (x.addr : Int) < lo + e.width)

/-- Entries beyond the 16,384 of their slice are line-granular: one for each line that their range touches. As earlier entries free
they become range entries again (R62; log entry 66). An entry stands for one granule at least, so that fewer granules fill no
directory. -/
def DirRange.coarse (s : State) (e : DirRange) : Bool :=
  decide (16384 < s.grans.length) &&
    !(((s.dir.filter fun x => decide (x.slice = e.slice)).take 16384).contains e)

/-- A granule conflicts with a request for a block: it mirrors it, or a line-granular entry of its holder holds the line
(R61, R62). -/
def granConflict (s : State) (b : Loc) (g : Gran) : Bool :=
  decide (g.home = b) || (sameLine g.home b && s.dir.any fun e => e.coarse s && e.covers g)

/-- Forget the granules that fail a condition. An entry of a directory frees with the last granule that it stands for. -/
def keepGrans (keep : Gran → Bool) (s : State) : State :=
  if s.grans.all keep then s
  else
    let gs := s.grans.filter keep
    { s with grans := gs, dir := s.dir.filter fun e => gs.any e.covers }

/-- A granule becomes valid: the range of its window's page in its home slice is recorded at the first one. A range for which the
slice has no free entry is recorded line-granular, which COARSEN counts (R61, R62, R451; log entry 66). -/
def dirAdd (g : Gran) (e : DirRange) (s : State) : State :=
  let new := !s.dir.any fun x => x.covers g
  let t := { s with grans := g :: s.grans, dir := if new then s.dir ++ [e] else s.dir }
  if t.grans.length ≤ 16384 then t
  else if h : e.slice / 48 < 4 then
    if new && e.coarse t then t.updDie ⟨e.slice / 48, h⟩ fun d => { d with coarsen := d.coarsen + 1 } else t
  else t

/-! ### Recalls (R59) -/

/-- Recall a block for read: every holder of it with write intent writes its dirty bytes back and keeps its granule valid (R59),
unless the owner tag of its page has changed (R54). -/
def recallRead (b : Loc) (s : State) : State :=
  let hit (g : Gran) : Bool := granConflict s b g && decide (g.dirty ≠ 0)
  let s' := (s.grans.filter hit).foldl (fun s g => granWriteBack g s) s
  let t := keepGrans (fun g => !hit g || granTagOk g s) s'
  { t with grans := t.grans.map fun g => if hit g then { g with dirty := 0 } else g }

/-- Recall a block for write: every holder writes its dirty bytes back and its granule becomes invalid (R59). -/
def recallWrite (b : Loc) (s : State) : State :=
  let s' := (s.grans.filter (granConflict s b)).foldl (fun s g => granWriteBack g s) s
  keepGrans (fun g => !granConflict s b g) s'

/-- The blocks of 64 bytes that `n` bytes touch. -/
def blocksOf (x : Loc) (n : Nat) : List Loc := (granulesOf x.addr n).map fun g => ⟨x.space, 64 * g⟩

/-- Recall for read every block of a range. -/
def recallReads (x : Loc) (n : Nat) (s : State) : State := (blocksOf x n).foldl (fun s b => recallRead b s) s

/-- Recall for write every block of a range. -/
def recallWrites (x : Loc) (n : Nat) (s : State) : State := (blocksOf x n).foldl (fun s b => recallWrite b s) s

/-! ### The pool agent's filter (R431, R432) -/

/-- A line is held for no one: a back-invalidation of it was answered while the present request was in flight (R432). -/
def lineCrossed (s : State) (x : Loc) : Bool :=
  match x.space with
  | .pool p => s.pool.crossed.contains (p, x.addr / 128)
  | _ => false

/-- A subscribed word lies in a pool line. -/
def lineSubscribed (s : State) (pl : BitVec 2 × Nat) : Bool :=
  s.subs.any fun u => decide (u.word.space = .pool pl.1) && decide (u.word.addr / 128 = pl.2)

/-- The pool agent has refetched a line: the subscribers whose word differs from the value last pushed get one more push, marked
as standing for stores of another processor (R86). -/
def repushSubs (p : BitVec 2) (line : Nat) (s : State) : State :=
  let hit (u : Sub) : Bool := decide (u.word.space = .pool p) && decide (u.word.addr / 128 = line)
  let now (u : Sub) : BitVec 32 := BitVec.ofNat 32 (leVal ((s.mem u.word.space).bytes u.word.addr 4))
  { s with subs := s.subs.map fun u =>
      if hit u && decide (now u ≠ u.last) then { u with pending := u.pending + 1, coal := true } else u }

/-- The filter gives up a line as if it had been back-invalidated: its window granules are recalled, its subscribers served
(R431, R86). -/
def filterEvict (s : State) (pl : BitVec 2 × Nat) : State :=
  repushSubs pl.1 pl.2 (recallWrite ⟨.pool pl.1, pl.2 * 128⟩ (recallWrite ⟨.pool pl.1, pl.2 * 128 + 64⟩ s))

/-- The filter holds a POOL_BI line; a full one evicts its oldest entry, as if back-invalidated (R431): a line with a subscribed
word is refetched and so the newest again, and the next oldest goes. -/
def filterAdd (p : BitVec 2) (line : Nat) (s : State) : State :=
  if s.pool.filter.contains (p, line) then s
  else
    let old := s.pool.filter
    if old.length < 2 ^ 21 then { s with pool := { s.pool with filter := old ++ [(p, line)] } }
    else
      let back := old.takeWhile (lineSubscribed s)
      let t := (old.take (back.length + 1)).foldl filterEvict s
      { t with pool := { t.pool with filter := old.drop (back.length + 1) ++ back ++ [(p, line)] } }

/-- Note a POOL_BI line held. A request that a back-invalidation crossed holds no line, whatever it reads and writes in its step
(R432). -/
def filterNote (p : BitVec 2) (line : Nat) (s : State) : State :=
  if s.pool.crossed.contains (p, line) then { s with pool := { s.pool with used := (p, line) :: s.pool.used } }
  else filterAdd p line s

/-- The requests of the last step that back-invalidations had crossed are over (R432). -/
def endUses (s : State) : State :=
  if s.pool.used.isEmpty then s
  else { s with pool := { s.pool with crossed := s.pool.crossed.filter fun x => !s.pool.used.contains x, used := [] } }

/-- Note the lines of a POOL_BI access. -/
def filterNotes (r : Region) (x : Loc) (n : Nat) (s : State) : State :=
  match r, x.space with
  | .poolBi, .pool p =>
    if n = 0 then s
    else (List.range ((x.addr + n - 1) / 128 - x.addr / 128 + 1)).foldl
      (fun s i => filterNote p (x.addr / 128 + i) s) s
  | _, _ => s

/-! ### Reads and writes at the home -/

/-- Recall for read the packed bytes behind `n` elements of a WIDEN6 view (R59, R64). -/
def packedRecall (x : Loc) (n : Nat) (s : State) : State :=
  match fmtWindow s x.addr with
  | some (_, w) =>
    let bit := 6 * (x.addr - w.base.toNat)
    recallReads ⟨.hbm, w.pack.toNat + bit / 8⟩ ((bit % 8 + 6 * n + 7) / 8) s
  | none => s

/-- Read `n` bytes at their home (R53, R71): window holders write back first; POOL_SWF comes through the LLC unless the
read bypasses (R89, R91); WIDEN6 views are unpacked (R64); a port that has stopped answering gives poison (R436). -/
def homeRead (x : Loc) (r : Region) (n : Nat) (bypass : Bool) (s : State) : State × List Byte × Bool :=
  let s := filterNotes r x n (recallReads x n s)
  match r, x.space with
  | .poolSwf, .pool p =>
    let device (s : State) (a : Nat) : State × List Byte × Bool :=
      if locSilent s x then lostBytes 1 s else (s, [(s.mem x.space).byte a], (s.mem x.space).poisoned a 1)
    let byte (s : State) (a : Nat) : State × List Byte × Bool :=
      match llcFind s p (a / 128) with
      | some l => if bypass && !l.dirty then device s a else (s, llcBytes l (a % 128) 1)
      | none =>
        if bypass || locSilent s x then device s a
        else
          let l := llcFetch s p (a / 128)
          (llcStore l s, llcBytes l (a % 128) 1)
    let one (acc : State × List Byte × Bool) (i : Nat) : State × List Byte × Bool :=
      let (s, b, q) := byte acc.1 (x.addr + i)
      (s, acc.2.1 ++ b, acc.2.2 || q)
    (List.range n).foldl one (s, [], false)
  | _, .hbm =>
    if inWiden6 s x then
      let s := packedRecall x n s
      let ps := (List.range n).map fun i => widenByte s (x.addr + i)
      (noteTag x s, ps.map (·.1), ps.any (·.2))
    else (noteTag x s, s.hbm.bytes x.addr n, s.hbm.poisoned x.addr n)
  | _, _ => if locSilent s x then lostBytes n s else (s, (s.mem x.space).bytes x.addr n, (s.mem x.space).poisoned x.addr n)

/-- Write bytes at their home with their poison (R53, R59, R89, R93): other holders are recalled for write. The answer is false
when R95 refuses the write, or its port has stopped answering (R436). -/
def homeWrite (x : Loc) (r : Region) (comp : Bool) (bs : List Byte) (p : Bool) (s : State) : State × Bool :=
  homeStore x r comp bs p (filterNotes r x bs.length (recallWrites x bs.length s))

end Sys2Proof.Machine
end

