-- ==== Sys2Proof/Machine/StoreFifo.lean ====
section
/-!
DEFINITION. The store FIFO of a core (R72, R78, R92): what is performed before what, forwarding, gathered-count mode (R79).
-/
namespace Sys2Proof.Machine

/-- Gathered-count mode is on (R79). -/
def gathering (k : Core) : Bool := k.sys.relquery.getLsbD 59

/-- The round that a store carries in gathered-count mode (R79). -/
def roundOf (k : Core) : Option (BitVec 4) := if gathering k then some (k.sys.relquery.extractLsb' 60 4) else none

/-- Count the arrival of a store of the current round (R79). -/
def countArrived (c : CoreId) (p : PendStore) (s : State) : State :=
  s.updCore c fun k =>
    if p.round.isSome && decide (p.round = roundOf k) then
      { k with sys := { k.sys with relquery := (k.sys.relquery &&& ~~~0xFFFF#64) ||| ((k.sys.relquery + 1) &&& 0xFFFF) } }
    else k

/-- Perform a buffered store at its home; a refusal under R95, or a lost device or one that has stopped answering
(R436), sets WERR. -/
def performStore (c : CoreId) (p : PendStore) (s : State) : State :=
  if locLost s p.loc then setWerr c p.va s
  else
    let (s, ok) := homeWrite p.loc p.region p.comp p.bytes p.bad s
    let s := countArrived c p s
    if ok then s else setWerr c p.va s

/-- Two stores touch a common byte. -/
def storesOverlap (a b : PendStore) : Bool :=
  decide (a.loc.space = b.loc.space) && decide (a.loc.addr < b.loc.addr + b.bytes.length) &&
    decide (b.loc.addr < a.loc.addr + a.bytes.length)

/-- Store `a`, earlier in the FIFO, must be performed before `b`: a common byte or the same home slice (R72), HOST after HOST
(R92), any before a release, HOST_WC only before one at SYSTEM scope (R74, R92). -/
def storeBefore (a b : PendStore) : Bool :=
  (match b.rel with
    | none => false
    | some sc => decide (a.region ≠ .hostWc) || decide (sc = .system)) ||
  storesOverlap a b || (decide (a.region = .host) && decide (b.region = .host)) ||
  (decide (a.loc.space ≠ .host) && decide (b.loc.space ≠ .host) &&
    (sameLine a.loc b.loc || decide (sliceOf a.loc = sliceOf b.loc)))

/-- The stores of a FIFO, each with whether it is performed when those that satisfy a condition must be: it satisfies it, or
one behind it that must be performed waits for it. -/
def mustDrain (p : PendStore → Bool) : List PendStore → List (PendStore × Bool)
  | [] => []
  | x :: xs =>
    let r := mustDrain p xs
    (x, p x || r.any fun yb => yb.2 && storeBefore x yb.1) :: r

/-- Perform the buffered stores of a core that satisfy a condition, in order, with those that must come before them. -/
def drainWhere (c : CoreId) (p : PendStore → Bool) (s : State) : State :=
  let m := mustDrain p (s.coreAt c).stores
  (m.filter (·.2)).foldl (fun s x => performStore c x.1 s)
    (s.updCore c fun k => { k with stores := (m.filter fun x => !x.2).map (·.1) })

/-- Perform every buffered store of a core in order (R76, R92). -/
def drainStores (c : CoreId) (s : State) : State :=
  ((s.coreAt c).stores).foldl (fun s p => performStore c p s) (s.updCore c fun k => { k with stores := [] })

/-- Put a store into the FIFO of 64; a full FIFO performs its oldest first (R177). -/
def pushStore (c : CoreId) (p : PendStore) (s : State) : State :=
  match (s.coreAt c).stores with
  | old :: rest =>
    if 64 ≤ rest.length + 1 then
      (performStore c old (s.updCore c fun k => { k with stores := rest })).updCore c fun k =>
        { k with stores := k.stores ++ [p], storeNo := k.storeNo + 1 }
    else s.updCore c fun k => { k with stores := k.stores ++ [p], storeNo := k.storeNo + 1 }
  | [] => s.updCore c fun k => { k with stores := [p], storeNo := k.storeNo + 1 }

/-- Bytes as the issuing core's own loads see them: the youngest buffered store to a byte is forwarded (R72). -/
def forward (k : Core) (x : Loc) (bs : List Byte) (bad : Bool) : List Byte × Bool :=
  k.stores.foldl (fun acc p =>
    if p.loc.space = x.space ∧ p.loc.addr < x.addr + bs.length ∧ x.addr < p.loc.addr + p.bytes.length then
      (((List.range bs.length).zip acc.1).map fun ib =>
        if p.loc.addr ≤ x.addr + ib.1 ∧ x.addr + ib.1 < p.loc.addr + p.bytes.length then
          p.bytes.getD (x.addr + ib.1 - p.loc.addr) 0 else ib.2,
       p.bad || acc.2)
    else acc) (bs, bad)

/-! ### What a core's own access finds in the FIFO -/

/-- Accesses to a HOST page reach the host in issue order: any access of a core, of its engines and channels too, comes after the
sequencer's earlier HOST stores (R53, R92). -/
def hostOrder (c : CoreId) (r : Region) (s : State) : State :=
  if r = .host then drainWhere c (fun p => decide (p.region = .host)) s else s

/-- A buffered store touches the 64-byte block of a location. -/
def storeInBlock (x : Loc) (p : PendStore) : Bool :=
  decide (p.loc.space = x.space) && decide (p.loc.addr / 64 = x.addr / 64)

/-- Perform the buffered stores of a core to a block that one of its windows mirrors: an access through the window comes after
them in program order (R72). -/
def drainBlock (c : CoreId) (x : Loc) (s : State) : State :=
  if (s.coreAt c).stores.any (storeInBlock x) then drainWhere c (storeInBlock x) s else s

end Sys2Proof.Machine
end

