-- ==== Sys2Proof/Machine/Translate.lean ====
section
/-!
DEFINITION. Effective addresses (R52) and their translation: walks and TLBs (R410 to R413), region classes (R53),
owner tags (R54), physical address spaces (R421) and pool windows (R430, R433).
-/
namespace Sys2Proof.Machine

/-- An effective address as R52 decodes it. -/
inductive EA where
  | stash (a : Nat) | global (va : Nat)
  deriving DecidableEq, Repr

/-- Decode an effective address; a non-canonical one faults XLATE (R52). -/
def decodeEA (ea : Word) : R EA :=
  if ea.toNat < 0x100000 then .ok (.stash ea.toNat)
  else if ea.toNat < 2 ^ 52 then .ok (.global ea.toNat)
  else raise cXlate ea

/-- What an access does, for the permissions it needs (R411): an atomic needs both RD and WR. -/
inductive Access where
  | read | write | atomic
  deriving DecidableEq, Repr

/-- The access writes. -/
def Access.writes : Access → Bool
  | .read => false
  | _ => true

/-- The access reads. -/
def Access.reads : Access → Bool
  | .write => false
  | _ => true

/-- The result of a translation. -/
structure Xl where
  loc    : Loc
  region : Region
  owner  : Byte
  comp   : Bool
  deriving DecidableEq, Repr

/-! ### Page tables (R410, R411) -/

/-- Read one entry of a table node, which lies in HBM (R411, R421): the entry and its poison. -/
def readPte (s : State) (node idx : Nat) : State × Option (Word × Bool) :=
  let a := node + 8 * idx
  if a + 8 ≤ hbmEnd then
    let (s, bs, bad) := homeRead ⟨.hbm, a⟩ .lcl 8 false s
    (s, some (BitVec.ofNat 64 (leVal bs), bad))
  else (s, none)

/-- An entry as a walk takes it: XLATE outside HBM, POISON_CONSUMED if it is poisoned (R411). -/
def walkPte (ea : Word) (node idx : Nat) (s : State) : R (State × Word) :=
  match readPte s node idx with
  | (_, none) => raise cXlate ea
  | (s, some (e, p)) => if p then raise cPoison ea else .ok (s, e)

/-- Count a page walk of a die (R451). -/
def countWalk (d : Fin 4) (s : State) : State := s.updDie d fun x => { x with walks := x.walks + 1 }

/-- Count the walk that an access which faults has begun with (R451). -/
def countTrap (t : TrapInfo) (s : State) : State :=
  match t.walked with
  | none => s
  | some d => countWalk d s

/-- The same for an operation that does not complete. -/
def countStop (e : Stop) (s : State) : State :=
  match e with
  | .trap t => countTrap t s
  | .stall => s

/-- A fault of an access that a walk of a die has begun with: WALKS counts the walk (R451). -/
def noteWalk {α : Type} (d : Option (Fin 4)) (x : R α) : R α :=
  match x with
  | .error (.trap t) => .error (.trap { t with walked := if t.walked.isSome then t.walked else d })
  | r => r

/-- The die on which a core has started a walk between two states. -/
def startedWalk (c : CoreId) (s s' : State) : Option (Fin 4) :=
  if (s'.die (dieOf c)).walks = (s.die (dieOf c)).walks then none else some (dieOf c)

/-- Level 3 of a walk: the leaf of a 512 KiB page. -/
def walkLeaf (ea : Word) (va : Nat) (ptr : Word) (s : State) : R (State × Word × BitVec 3) := do
  let (s, e) ← walkPte ea (pteAddr ptr) (va / 2 ^ 19 % 2048) s
  if leafOk e false then .ok (s, e, 1) else raise cXlate ea

/-- Level 1 of a walk: the pointer of the walk cache, or of the table (R412). -/
def walkTop (d : Option (Fin 4)) (ctx : BitVec 6) (ea : Word) (va : Nat) (s : State) : R (State × Word) :=
  match ptrFind d ctx 1 va s with
  | some e => .ok (s, e)
  | none => do
    let (s, e) ← walkPte ea (s.ctx ctx).ptroot.toNat (va / 2 ^ 41 % 2048) s
    if pointerOk e then .ok (ptrAdd d ctx 1 va e s, e) else raise cXlate ea

/-- Walk the tables of a context for a virtual address: the leaf and its size code, 1 for 512 KiB and 3 for 1 GiB
(R410, R411). Under a pointer of the die's walk cache the levels that it covers are skipped (R412). -/
def walkFrom (d : Option (Fin 4)) (ctx : BitVec 6) (va : Nat) (s : State) : R (State × Word × BitVec 3) :=
  let ea := BitVec.ofNat 64 va
  match ptrFind d ctx 2 va s with
  | some e => walkLeaf ea va e s
  | none => do
    let (s, e1) ← walkTop d ctx ea va s
    let (s, e2) ← walkPte ea (pteAddr e1) (va / 2 ^ 30 % 2048) s
    if pteLeaf e2 then
      if leafOk e2 true then .ok (s, e2, 3) else raise cXlate ea
    else if pointerOk e2 then walkLeaf ea va e2 (ptrAdd d ctx 2 va e2 s)
    else raise cXlate ea

/-- A walk of the hub, which has no walk cache. -/
def walk (ctx : BitVec 6) (va : Nat) (s : State) : R (State × Word × BitVec 3) := walkFrom none ctx va s

/-! ### TLBs (R412) -/

/-- The leaf for a virtual address: from the L1 TLB of the core, the L2 TLB of its cluster, or a walk that fills both
(R412). An invalid entry is never cached (R411). -/
def leafFor (c : CoreId) (ctx : BitVec 6) (va : Nat) (s : State) : R (State × Word × BitVec 3) :=
  match (s.coreAt c).tlb.find? (tlbHit ctx va) with
  | some e => .ok (s, e.leaf, e.size)
  | none =>
    match (s.cluster (clusterOf c)).tlb.find? (tlbHit ctx va) with
    | some e => .ok (s.updCore c fun k => { k with tlb := tlbAdd 64 e k.tlb }, e.leaf, e.size)
    | none => do
      let (s, leaf, size) ← noteWalk (some (dieOf c)) (walkFrom (some (dieOf c)) ctx va (countWalk (dieOf c) s))
      let e : TlbEntry := ⟨ctx, va / 2 ^ 19, size, leaf⟩
      let s := s.updCore c fun k => { k with tlb := tlbAdd 64 e k.tlb }
      .ok (s.updCluster (clusterOf c) fun k => { k with tlb := tlbAdd 4096 e k.tlb }, leaf, size)

/-! ### Pool windows (R430, R433) -/

/-- A pool window is active (R430). -/
def poolWinActive (w : PoolWin) : Bool := w.en && decide (w.size ≠ 0) && !(w.repl && decide (w.rport = w.port))

/-- The lowest-numbered active window that holds a pool address (R430), with its number. -/
def poolWindow (s : State) (a : Nat) : Option (Nat × PoolWin) :=
  ((List.range 16).zip s.pool.wins.toList).find? fun nw =>
    poolWinActive nw.2 && decide (nw.2.base.toNat * 2 ^ 19 ≤ a ∧ a < (nw.2.base.toNat + nw.2.size.toNat) * 2 ^ 19)

/-- The port that serves a window (R430 ACT). -/
def servingPort (w : PoolWin) : BitVec 2 := if w.act then w.rport else w.port

/-- The port that a request through a window goes to. The hub reissues one in flight to a primary that has stopped answering to
the replica, whose port is not DEAD (R435 step 2, R436). -/
def askedPort (s : State) (w : PoolWin) : BitVec 2 :=
  if w.repl && s.pool.silent.getLsbD w.port.toNat && decide ((vget w.rport s.pool.ports).state ≠ 3) then w.rport else servingPort w

/-- The location a window gives a pool address (R430 DPA). -/
def poolLoc (s : State) (w : PoolWin) (a : Nat) : Loc :=
  ⟨.pool (askedPort s w), w.dpa.toNat * 2 ^ 19 + (a - w.base.toNat * 2 ^ 19)⟩

/-- A device address lies in an ACCEPTED extent of a port (R433). -/
def inExtent (s : State) (p : BitVec 2) (a : Nat) : Bool :=
  let port := vget p s.pool.ports
  port.ext.any fun ie => decide (kget 0 port.xstate ie.1 = 2) &&
    decide (ie.2.start.toNat * 2 ^ 19 ≤ a ∧ a < (ie.2.start.toNat + ie.2.length.toNat) * 2 ^ 19)

/-- The class of a leaf (R53). -/
def regionOf (cls : Nat) : Region :=
  match cls with
  | 0 => .lcl | 1 => .poolBi | 2 => .poolRo | 3 => .poolSwf | 4 => .host | _ => .hostWc

/-- Decode the ADDR of a leaf by its class: the XLATE conditions of R417 bit 7, R421 and R430; the PROT condition of R433;
POOL_LOST of R430. -/
def physical (s : State) (r : Region) (a : Nat) (ea : Word) : R Loc :=
  match r with
  | .lcl => if a < hbmEnd then .ok ⟨.hbm, a⟩ else raise cXlate ea
  | .host | .hostWc =>
    if s.ident.hostctl.getLsbD 0 && s.ident.ide.isEmpty then raise cProt ea else .ok ⟨.host, a⟩
  | _ =>
    if r = .poolBi ∧ s.feature 7 = false then raise cXlate ea
    else match poolWindow s a with
      | none => raise cXlate ea
      | some (_, w) =>
        if w.repl ≠ decide (r = .poolRo) then raise cXlate ea
        else
          let x := poolLoc s w a
          if w.dyn && !inExtent s (askedPort s w) x.addr then raise cProt ea
          else if w.wstate ≠ 0 ∨ locLost s x = true then raise cPoolLost ea
          else .ok x

/-- RD, WR, owner tag, POOL_RO (R53, R54, R411). -/
def permitted (s : State) (ctx : BitVec 6) (acc : Access) (leaf : Word) (r : Region) (ea : Word) : R Unit := do
  need (!acc.reads || pteRd leaf) cProt ea
  need (!acc.writes || pteWr leaf) cProt ea
  need (decide (pteOwner leaf = 0) || decide (pteOwner leaf = (s.ctx ctx).tag)) cProt ea
  need (!(acc.writes && decide (r = .poolRo))) cProt ea

/-- The translation that a leaf of a size gives an address: XLATE, then PROT, then POOL_LOST (R54, R157 step 4). -/
def translateLeaf (ctx : BitVec 6) (va : Nat) (acc : Access) (leaf : Word) (size : BitVec 3) (s : State) : R Xl := do
  let ea := BitVec.ofNat 64 va
  let off := if size = 3 then va % 2 ^ 30 else va % 2 ^ 19
  let r := regionOf (pteClass leaf)
  match physical s r (pteAddr leaf + off) ea with
  | .error (.trap t) =>
    if t.cause = cXlate then raise cXlate ea
    else do
      permitted s ctx acc leaf r ea
      raise t.cause ea
  | .error .stall => wait
  | .ok x => do
    permitted s ctx acc leaf r ea
    need (!(acc.writes && inWiden6 s x)) cProt ea
    .ok ⟨x, r, pteOwner leaf, pteComp leaf⟩

/-- Translate a global address for a core in a context. -/
def translate (c : CoreId) (ctx : BitVec 6) (va : Nat) (acc : Access) (s : State) : R (State × Xl) := do
  let (t, leaf, size) ← leafFor c ctx va s
  .ok (t, ← noteWalk (startedWalk c s t) (translateLeaf ctx va acc leaf size t))

/-- Translate a global address for the hub, which has no TLB (R412). -/
def hubTranslate (ctx : BitVec 6) (va : Nat) (acc : Access) (s : State) : R (State × Xl) := do
  let (s, leaf, size) ← walk ctx va s
  .ok (s, ← translateLeaf ctx va acc leaf size s)

/-- A write of poisoned data that R94 refuses: to a HOST page, or to a page with an owner tag that differs. -/
def poisonRefused (s : State) (ctx : BitVec 6) (x : Xl) : Bool := poisonBarred s ctx x.region x.owner

/-- The parts of `n` bytes at an address by granule: offset and length. -/
def granuleParts (a n : Nat) : List (Nat × Nat) :=
  (granulesOf a n).map fun g =>
    let lo := max a (64 * g)
    (lo - a, min (a + n) (64 * g + 64) - lo)

/-- The request of a unit in flight to a port when it is declared dead: a copy record ends with POOL_LOST, a request to a PIX, UME
or FE with POISON (R436; `requestStatus`). -/
def lostRequest (va : Nat) : Stop := .trap { cause := cPoolLost, addr := BitVec.ofNat 64 va, orig := cPoison }

/-- Read `n` bytes at a global address through a translation; a bypassing read passes by the LLC (R91). -/
def readVia (tr : Nat → State → R (State × Xl)) (va n : Nat) (s : State) (bypass : Bool := false) :
    R (State × List Byte × Bool) := do
  need (decide (va + n ≤ 2 ^ 52)) cXlate (BitVec.ofNat 64 va)
  need (decide (0x100000 ≤ va)) cXlate (BitVec.ofNat 64 va)
  (granuleParts va n).foldlM (fun acc p => do
    let (s, bs, bad) := acc
    let (s, x) ← tr (va + p.1) s
    if requestLost s x.loc x.region then throw (lostRequest (va + p.1))
    let (s, b, q) := homeRead x.loc x.region p.2 bypass s
    .ok (s, bs ++ b, bad || q)) (s, [], false)

/-- Write bytes at a global address through a translation. -/
def writeVia (tr : Nat → State → R (State × Xl)) (ctx : BitVec 6) (va : Nat) (bs : List Byte) (bad : Bool) (s : State) :
    R State := do
  need (decide (va + bs.length ≤ 2 ^ 52)) cXlate (BitVec.ofNat 64 va)
  need (decide (0x100000 ≤ va)) cXlate (BitVec.ofNat 64 va)
  (granuleParts va bs.length).foldlM (fun s p => do
    let (s, x) ← tr (va + p.1) s
    need (!(bad && poisonRefused s ctx x)) cPoison (BitVec.ofNat 64 (va + p.1))
    if requestLost s x.loc x.region then throw (lostRequest (va + p.1))
    .ok (homeWrite x.loc x.region x.comp ((bs.drop p.1).take p.2) bad s).1) s

/-- The translation for a unit that works for a core; the core's earlier HOST stores reach the host first (R53, R92). -/
def coreTranslate (c : CoreId) (ctx : BitVec 6) (acc : Access) (va : Nat) (s : State) : R (State × Xl) := do
  let (s, x) ← translate c ctx va acc s
  .ok (hostOrder c x.region s, x)

/-- A read for a unit that has no stash and works for a core (PIX, UME, FE, commit unit, channel). -/
def globalRead (c : CoreId) (ctx : BitVec 6) (va n : Nat) (s : State) (bypass : Bool := false) :
    R (State × List Byte × Bool) :=
  readVia (coreTranslate c ctx .read) va n s bypass

/-- A write for a unit that has no stash and works for a core. -/
def globalWrite (c : CoreId) (ctx : BitVec 6) (va : Nat) (bs : List Byte) (bad : Bool) (s : State) : R State :=
  writeVia (coreTranslate c ctx .write) ctx va bs bad s

/-- A read of the hub (scheduler, host interface). -/
def hubRead (ctx : BitVec 6) (va n : Nat) (s : State) : R (State × List Byte × Bool) :=
  readVia (fun va s => hubTranslate ctx va .read s) va n s

/-- A write of the hub. -/
def hubWrite (ctx : BitVec 6) (va : Nat) (bs : List Byte) (bad : Bool) (s : State) : R State :=
  writeVia (fun va s => hubTranslate ctx va .write s) ctx va bs bad s

end Sys2Proof.Machine
end

