-- ==== Sys2Proof/Machine/Access.lean ====
section
/-!
DEFINITION. Accesses of a core: scratchpad and mapped windows (R55 to R62), format tags (R64), standing-load slots (R84),
copy watermarks (R80), the store FIFO with forwarding (R72, R78, R92), and the checks of R157.
-/
namespace Sys2Proof.Machine

/-! ### Window descriptors (R56) -/

/-- The fields of a window descriptor (R56). -/
def WinDesc.valid (d : WinDesc) : Bool := d.w2.getLsbD 37
def WinDesc.writes (d : WinDesc) : Bool := d.w2.getLsbD 36
def WinDesc.stoff (d : WinDesc) : Nat := (d.w2.extractLsb' 16 20).toNat
def WinDesc.elems (d : WinDesc) : Nat := (d.w2.extractLsb' 0 14).toNat
def WinDesc.width (d : WinDesc) : Nat := d.elems * 2 ^ (d.w2.extractLsb' 14 2).toNat
def WinDesc.base (d : WinDesc) : Nat := (d.w0.extractLsb' 0 52).toNat
def WinDesc.count (d : WinDesc) : Nat := (d.w1.extractLsb' 32 32).toNat
def WinDesc.stride (d : WinDesc) : Int := (d.w1.extractLsb' 0 32).toInt

/-- The global address that a stash address mirrors (R56). -/
def WinDesc.toGlobal (d : WinDesc) (sa : Nat) : Option Nat :=
  if d.valid ∧ d.stoff ≤ sa ∧ sa < d.stoff + d.count * d.width then
    some (((d.base : Int) + ((sa - d.stoff) / d.width : Nat) * d.stride + ((sa - d.stoff) % d.width : Nat)).toNat)
  else none

/-- The stash address that mirrors a global address (R56): the row whose bytes hold it. Rows do not overlap (R57). -/
def WinDesc.toStash (d : WinDesc) (va : Nat) : Option Nat :=
  if d.valid then
    let delta : Int := (va : Int) - d.base
    let row : Int :=
      if d.count ≤ 1 ∨ d.stride = 0 then 0
      else if 0 < d.stride then delta / d.stride
      else if 0 ≤ delta then 0 else (-delta + -d.stride - 1) / -d.stride
    let j := delta - row * d.stride
    if 0 ≤ row ∧ row < d.count ∧ 0 ≤ j ∧ j < d.width then some (d.stoff + row.toNat * d.width + j.toNat) else none
  else none

/-- The window of a core that holds a stash address: its number and descriptor. -/
def winOfStash (k : Core) (sa : Nat) : Option (Nat × WinDesc) :=
  ((List.range 16).zip k.wins.toList).find? fun nd => (nd.2.toGlobal sa).isSome

/-- The window of a core that mirrors a global address: its number, descriptor and stash address. A write-intent window
is the only one (R57); of two read-intent windows the lower number serves. -/
def winOfGlobal (k : Core) (va : Nat) : Option (Nat × WinDesc × Nat) :=
  ((List.range 16).zip k.wins.toList).findSome? fun nd => (nd.2.toStash va).map fun sa => (nd.1, nd.2, sa)

/-! ### Stash bytes -/

/-- Write stash bytes with their poison; the granules' tags become 0xF (R64). -/
def stashRaw (c : CoreId) (sa : Nat) (bs : List Byte) (bad : Bool) (s : State) : State :=
  s.updCore c fun k => { k with stash := k.stash.write sa bs bad,
                                tags := (granulesOf sa bs.length).foldl (fun t g => kdel t g) k.tags }

/-- A range touches the stash bytes of an active slot. -/
def slotHit (sa n : Nat) (l : Slot) : Bool :=
  l.active && decide (l.sa.toNat < sa + n) && decide (sa < l.sa.toNat + 8)

/-- What a core's write of a byte leaves at a stash address: in an active slot ACTIVE is read-only and the reserved bits
read 0 (R10, R81). -/
def slotByte (ls : Vector Slot 16) (a : Nat) (b : Byte) : Byte :=
  if ls.any fun l => l.active && decide (a = l.sa.toNat + 7) then (b &&& 0x7C) ||| 0x80
  else if ls.any fun l => l.active && decide (a = l.sa.toNat + 6) then 0
  else b

/-- The bytes that a core's write leaves. -/
def slotBytesKept (ls : Vector Slot 16) (sa : Nat) (bs : List Byte) : List Byte :=
  if ls.any (slotHit sa bs.length) then ((List.range bs.length).zip bs).map fun ib => slotByte ls (sa + ib.1) ib.2 else bs

/-- A write of stash bytes by a core, an engine or a copy, with their poison (R64, R81). -/
def stashPut (c : CoreId) (sa : Nat) (bs : List Byte) (bad : Bool) (s : State) : State :=
  stashRaw c sa (slotBytesKept (s.coreAt c).slots sa bs) bad s

/-- The tag of an untagged stash granule. -/
def GranTag.plain : GranTag := ⟨0xF, 0, 0⟩

/-- The format tag of a stash granule; an unlisted one is untagged (R64). -/
def stashTag (k : Core) (g : Nat) : GranTag := kget .plain k.tags g

/-- Set the tag of a stash granule. -/
def setTag (c : CoreId) (g : Nat) (t : GranTag) (s : State) : State :=
  s.updCore c fun k => { k with tags := kset .plain k.tags g (if t.fmt = 0xF then .plain else t) }

/-- The tag that bytes of an HBM line carry away, read at a location (R64). -/
def lineGranTag (s : State) (x : Loc) : GranTag := ⟨(lineTag s x).fmt, (lineTag s x).win, x.addr⟩

/-- The granule entry of a core's stash granule. -/
def granFind (s : State) (c : CoreId) (g : Nat) : Option Gran :=
  s.grans.find? fun x => decide (x.core = c) && decide (x.gran = g)

/-- A core may access bytes of a window granule as its page permits (R157 step 4). -/
def granPermits (g : Gran) (acc : Access) : R Unit :=
  need ((!acc.reads || g.rd) && (!acc.writes || g.wr)) cProt (BitVec.ofNat 64 g.va)

/-- The entry of a range directory that stands for a granule of a window: the rows of the window, where the granule's page lies
(R61). -/
def Gran.range (g : Gran) (d : WinDesc) : DirRange :=
  ⟨sliceOf g.home, g.core, g.win, g.wr, g.home.space, g.home.addr / 2 ^ 19, g.va / 2 ^ 19,
   (d.base : Int) - g.va + g.home.addr, d.width, d.stride, d.count⟩

/-- Fetch a window granule through translation, with the faults of the global address for this access. A granule of a
write-intent window whose page permits writes acquires ownership, which recalls the other holders for write (R58, R59). The
core's own stores to the block, and for a HOST page its earlier HOST stores, are performed first (R53, R72). -/
def fillGran (c : CoreId) (win : Nat) (d : WinDesc) (g va : Nat) (acc : Access) (s : State) : R State := do
  let ctx := (s.coreAt c).ctx
  need (decide (va + 64 ≤ 2 ^ 52 ∧ 0x100000 ≤ va)) cXlate (BitVec.ofNat 64 va)
  let (s', leaf, size) ← leafFor c ctx va s
  let x ← noteWalk (startedWalk c s s') (translateLeaf ctx va acc leaf size s')
  let s := s'
  let may (a : Access) : Bool := (translateLeaf ctx va a leaf size s).toBool
  let wr := d.writes && may .write
  let y : Gran := { core := c, win := BitVec.ofNat 4 win, gran := g, va := va, home := x.loc, region := x.region, owner := x.owner,
                    comp := x.comp, rd := may .read, wr := wr, transient := lineCrossed s x.loc, dirty := 0 }
  let s := drainBlock c x.loc (hostOrder c x.region s)
  let s := if wr then recallWrites x.loc 64 s else s
  let (s, bs, bad) := homeRead x.loc x.region 64 false s
  let s := setTag c g (lineGranTag s x.loc) (stashRaw c (64 * g) bs bad s)
  .ok (dirAdd y (y.range d) s)

/-- The core's own stores to the block that a granule mirrors are performed before an access to the granule (R72). -/
def drainGran (c : CoreId) (g : Nat) (s : State) : State :=
  match granFind s c g with
  | some x => drainBlock c x.home s
  | none => s

/-- Make a window granule valid for an access: a first touch fetches it (R58), also after a store of the core under another
address has invalidated it. -/
def ensureGran (c : CoreId) (win : Nat) (d : WinDesc) (g : Nat) (acc : Access) (s : State) : R State :=
  let s := drainGran c g s
  match granFind s c g with
  | some x => do
    granPermits x acc
    .ok s
  | none =>
    match d.toGlobal (64 * g) with
    | none => raise cStashBounds (BitVec.ofNat 64 (64 * g))
    | some va => fillGran c win d g va acc s

/-- Window granules whose fill a back-invalidation crossed have served their one access: what was written goes to the device,
and they are invalid again (R432). -/
def dropTransient (s : State) : State :=
  if s.grans.any (·.transient) then
    let s' := (s.grans.filter (·.transient)).foldl (fun s g => granWriteBack g s) s
    keepGrans (fun g => !g.transient) (endUses s')
  else endUses s

/-- Bytes of a window granule of a core are written while their home has subscribers: they go home at once, so that every
store counts (R83; log entry 56). -/
def pushGran (g : Gran) (s : State) : State :=
  if s.subs.any fun u => decide (u.word.space = g.home.space) && decide (u.word.addr / 64 = g.home.addr / 64) then
    recallRead g.home s
  else s

/-- Mark bytes of a window granule dirty; granules of other cores that mirror the same bytes become invalid (R59). -/
def markDirty (c : CoreId) (sa n : Nat) (s : State) : State :=
  let mine (x : Gran) : Bool := decide (x.core = c) && decide (x.gran = sa / 64)
  let homes := (s.grans.filter mine).map (·.home)
  let mark (x : Gran) : Gran := { x with dirty := (List.range n).foldl (fun d i => d ||| (1#64 <<< ((sa + i) % 64))) x.dirty }
  let t := keepGrans (fun y => decide (y.core = c) || !homes.contains y.home) s
  (s.grans.filter mine).foldl (fun s g => pushGran g s) { t with grans := t.grans.map fun x => if mine x then mark x else x }

/-- Mark the slots of a core whose bytes a load touches as read (R84). -/
def markSlots (c : CoreId) (sa n : Nat) (s : State) : State :=
  if (s.coreAt c).slots.any (slotHit sa n) then
    s.updCore c fun k =>
      { k with slots := k.slots.map fun l => if slotHit sa n l then { l with read := true } else l }
  else s

/-- Where a stash-local range lies: in the scratchpad, or in a window whose granule is made valid for the access; otherwise
STASH_BOUNDS (R49, R157 step 3). The range lies in one granule. -/
def stashReach (c : CoreId) (sa n : Nat) (acc : Access) (s : State) : R (State × Option WinDesc) :=
  let k := s.coreAt c
  if sa + n ≤ k.decl.stash then .ok (s, none)
  else match winOfStash k sa with
    | some (i, d) => do
      let s ← ensureGran c i d (sa / 64) acc s
      .ok (s, some d)
    | none => raise cStashBounds (BitVec.ofNat 64 sa)

/-- Read `n` bytes of one stash granule. -/
def stashRead (c : CoreId) (sa n : Nat) (s : State) : R (State × List Byte × Bool) := do
  let (s, _) ← stashReach c sa n .read s
  let m := (s.coreAt c).stash
  .ok (s, m.bytes sa n, m.poisoned sa n)

/-- Whether a stash range may be written: a read-intent window faults PROT (R58), after the faults of the granule's translation
(R157 step 4: XLATE, then PROT). -/
def stashCheckWrite (c : CoreId) (sa n : Nat) (s : State) : R State := do
  let (t, w) ← stashReach c sa n .write s
  match w with
  | none => .ok t
  | some d => do
    noteWalk (startedWalk c s t) (need d.writes cProt (BitVec.ofNat 64 sa))
    .ok t

/-- Poisoned data for a window granule whose page bars it (R94, R157 step 5); the scratchpad takes any. -/
def granPoison (c : CoreId) (sa : Nat) (bad : Bool) (s : State) : R Unit :=
  if sa < (s.coreAt c).decl.stash then .ok ()
  else match granFind s c (sa / 64) with
  | none => .ok ()
  | some g => need (!(bad && poisonBarred s (s.coreAt c).ctx g.region g.owner)) cPoison (BitVec.ofNat 64 sa)

/-- Write bytes of one stash granule, of the scratchpad or of a window, where they become dirty (R58). A write into an 8-byte
slot changes only the bits written (R81). -/
def stashWrite (c : CoreId) (sa : Nat) (bs : List Byte) (bad : Bool) (s : State) : R State := do
  let s ← stashCheckWrite c sa bs.length s
  if sa + bs.length ≤ (s.coreAt c).decl.stash then .ok (stashPut c sa bs bad s)
  else do
    granPoison c sa bad s
    .ok (markDirty c sa bs.length (stashPut c sa bs bad s))

/-! ### Copy watermarks (R80) -/

/-- Read bytes at a stash address that may cross granules, granule by granule. -/
def stashReadMany (c : CoreId) (sa n : Nat) (s : State) : R (State × List Byte × Bool) :=
  (granuleParts sa n).foldlM (fun acc p => do
    let (s, bs, bad) := acc
    let (s, b, q) ← stashRead c (sa + p.1) p.2 s
    .ok (s, bs ++ b, bad || q)) (s, [], false)

/-- The bytes that a read at an effective address of a core would give now, for a check that changes nothing. -/
def peekBytes (s : State) (c : CoreId) (ea n : Nat) : Option (List Byte) :=
  if ea < 0x100000 then
    match stashReadMany c ea n s with
    | .ok (_, bs, _) => some bs
    | .error _ => none
  else match globalRead c (s.coreAt c).ctx ea n s with
    | .ok (_, bs, _) => some bs
    | .error _ => none

/-- A channel is at work on a record: walking it, or halted in it by COPY_XLATE (R188, R403). -/
def chanBusy (ch : Chan) : Bool :=
  decide (ch.state = .walk) || (decide (ch.state = .halted) && ch.resume.isSome)

/-- The addresses under which a core's access meets bytes: the one given, and the other end of the window that mirrors it
(R56, R58). -/
def aliases (k : Core) (ea : Nat) : List Nat :=
  if ea < 0x100000 then
    match winOfStash k ea with
    | some (_, d) => ea :: (d.toGlobal ea).toList
    | none => [ea]
  else match winOfGlobal k ea with
    | some (_, _, sa) => [ea, sa]
    | none => [ea]

/-- The record that a busy channel of a core works on, with the bytes of its mask or index list. -/
def busyRecord (s : State) (c : CoreId) (ch : Chan) : Option (CopyRec × List Byte) :=
  if !chanBusy ch then none
  else match peekBytes s c ch.va.toNat 128 with
    | none => none
    | some bs =>
      let r := recFields (BitVec.ofNat 1024 (leVal bs))
      if r.ctl.getLsbD 63 then
        some (r, if listBytes r = 0 then [] else (peekBytes s c r.kindAux.toNat (listBytes r)).getD [])
      else none

/-- A read of the owning core waits: it touches bytes of a channel's current record's destination at or above WMARK
(R80). -/
def markStalls (s : State) (c : CoreId) (ea n : Nat) : Bool :=
  (s.coreAt c).chans.any fun ch =>
    match busyRecord s c ch with
    | none => false
    | some (r, list) => (aliases (s.coreAt c) ea).any fun a =>
        rowsTouch ch.wmark (a : Int) n 0 (recordRows (slotOf c) r list)

/-- Stall a read on the watermarks of the core's own channels (R80). -/
def stallOnMark (c : CoreId) (ea n : Nat) (s : State) : R Unit :=
  if markStalls s c ea n then wait else .ok ()

/-! ### Accesses of a core (R157) -/

/-- Who accesses: the sequencer, whose stores are buffered and forwarded (`release`: its release stores, with their scope), or
an engine of the core, whose accesses are performed at once. -/
inductive Via where
  | seq | release (scope : Scope) | engine
  deriving DecidableEq, Repr

/-- Whatever step of R157 an access fails at, TRAPADDR holds its effective address: also for the fill of a window granule,
and for an access served by a window that mirrors the address. -/
def faultAt {α : Type} (ea : Word) (x : R α) : R α :=
  match x with
  | .error (.trap t) => .error (.trap { t with addr := ea })
  | r => r

/-- The read of a global address at its home by a core: its own buffered stores are forwarded to the sequencer (R72). -/
def homeReadVia (c : CoreId) (via : Via) (x : Xl) (n : Nat) (s : State) : State × List Byte × Bool :=
  match via with
  | .engine => homeRead x.loc x.region n false (hostOrder c x.region s)
  | _ =>
    let (s, bs, bad) := homeRead x.loc x.region n false (hostOrder c x.region s)
    (s, forward (s.coreAt c) x.loc bs bad)

/-- The checks of R157 steps 1 to 4 for a read, and the read (step 6). The bytes lie in one 64-byte granule. -/
def coreRead (c : CoreId) (via : Via) (ea : Word) (n : Nat) (s : State) : R (State × List Byte × Bool) := faultAt ea do
  match ← decodeEA ea with
  | .stash a => do
    let (s, bs, bad) ← stashRead c a n s
    stallOnMark c a n s
    .ok (markSlots c a n s, bs, bad)
  | .global va =>
    match winOfGlobal (s.coreAt c) va with
    | some (_, _, sa) => do
      let (s, bs, bad) ← stashRead c sa n s
      stallOnMark c va n s
      .ok (s, bs, bad)
    | none => do
      let (s, x) ← translate c (s.coreAt c).ctx va .read s
      stallOnMark c va n s
      .ok (homeReadVia c via x n s)

/-- The checks of R157 steps 1, 3, 4 and 5 for a write of `n` bytes in one granule: where it goes, at its home or in the
stash. -/
def coreCheckWrite (c : CoreId) (ea : Word) (n : Nat) (bad : Bool) (s : State) : R (State × Option Xl) := faultAt ea do
  match ← decodeEA ea with
  | .stash a => do
    let t ← stashCheckWrite c a n s
    noteWalk (startedWalk c s t) (granPoison c a bad t)
    .ok (t, none)
  | .global va =>
    match winOfGlobal (s.coreAt c) va with
    | some (_, _, sa) => do
      let t ← stashCheckWrite c sa n s
      noteWalk (startedWalk c s t) (granPoison c sa bad t)
      .ok (t, none)
    | none => do
      let (t, x) ← translate c (s.coreAt c).ctx va .write s
      noteWalk (startedWalk c s t) (need (!(bad && poisonRefused t (t.coreAt c).ctx x)) cPoison ea)
      .ok (t, some x)

/-- Perform every earlier store of a core, as a release at a scope orders them: HOST_WC buffers drain only at SYSTEM scope
(R74, R78, R92). In gathered-count mode a release store or FENCEM orders only issue; that every other release of the sequencer
does too (barrier arrivals, MBX.SEND, EVT.SIGNAL, ordered ATOMs) is the model's choice (R79; log entry 57). -/
def releaseAt (sc : Scope) (c : CoreId) (s : State) : State :=
  if gathering (s.coreAt c) then s
  else drainWhere c (fun p => decide (p.region ≠ .hostWc) || decide (sc = .system)) s

/-- A release below SYSTEM scope. -/
def releaseStores (c : CoreId) (s : State) : State := releaseAt .device c s

/-- Count an issued store of gathered-count mode: ISSUED advances modulo 2^16 (R79). -/
def countIssued (c : CoreId) (s : State) : State :=
  s.updCore c fun k =>
    if gathering k then
      { k with sys := { k.sys with relquery := (k.sys.relquery + 0x10000) &&& ~~~0x100000000#64 } } else k

/-- The release scope that a buffered store carries; in gathered-count mode it orders only issue (R79). -/
def Via.rel (via : Via) (k : Core) : Option Scope :=
  match via with
  | .release sc => if gathering k then none else some sc
  | _ => none

/-- A store of the sequencer as it enters the FIFO. -/
def pendingStore (c : CoreId) (via : Via) (x : Xl) (ea : Word) (bs : List Byte) (bad : Bool) (s : State) : PendStore :=
  ⟨x.loc, x.region, x.comp, ea, bs, bad, (s.coreAt c).storeNo, via.rel (s.coreAt c), roundOf (s.coreAt c)⟩

/-- A release store to the stash follows every earlier store (R74). -/
def releaseVia (c : CoreId) (via : Via) (s : State) : State :=
  match via with
  | .release sc => releaseAt sc c s
  | _ => s

/-- A write with every check of R157 but alignment. The bytes lie in one granule. -/
def coreWrite (c : CoreId) (via : Via) (ea : Word) (bs : List Byte) (bad : Bool) (s : State) : R State := do
  let (s, ox) ← coreCheckWrite c ea bs.length bad s
  match ox with
  | some x =>
    match via with
    | .engine =>
      let (s, ok) := homeWrite x.loc x.region x.comp bs bad (hostOrder c x.region s)
      .ok (if ok then s else setWerr c ea s)
    | _ =>
      let s := countIssued c s
      .ok (pushStore c (pendingStore c via x ea bs bad s) s)
  | none => faultAt ea do
    let s := releaseVia c via s
    match ← decodeEA ea with
    | .stash a => stashWrite c a bs bad s
    | .global va =>
      match winOfGlobal (s.coreAt c) va with
      | some (_, _, sa) => stashWrite c sa bs bad s
      | none => .ok s

/-- Read bytes that may cross granules, granule by granule, as an engine does. -/
def coreReadMany (c : CoreId) (via : Via) (ea : Word) (n : Nat) (s : State) : R (State × List Byte × Bool) :=
  (granuleParts ea.toNat n).foldlM (fun acc p => do
    let (s, bs, bad) := acc
    let (s, b, q) ← coreRead c via (ea + BitVec.ofNat 64 p.1) p.2 s
    .ok (s, bs ++ b, bad || q)) (s, [], false)

/-- Write bytes that may cross granules, granule by granule. -/
def coreWriteMany (c : CoreId) (via : Via) (ea : Word) (bs : List Byte) (bad : Bool) (s : State) : R State :=
  (granuleParts ea.toNat bs.length).foldlM (fun s p =>
    coreWrite c via (ea + BitVec.ofNat 64 p.1) ((bs.drop p.1).take p.2) bad s) s

/-! ### Windows installed and unmapped (R57, R60, R208) -/

/-- Write back every dirty granule of a window of a core and forget its granules (R60). -/
def unmapWindow (c : CoreId) (win : BitVec 4) (s : State) : State :=
  let mine (g : Gran) : Bool := decide (g.core = c) && decide (g.win = win)
  let s' := (s.grans.filter mine).foldl (fun s g => granWriteBack g s) s
  keepGrans (fun g => !mine g) s'

/-- Unmap every window of a core: granules written back, VALID cleared (R60). -/
def unmapAll (c : CoreId) (s : State) : State :=
  let s := (List.range 16).foldl (fun s i => unmapWindow c (BitVec.ofNat 4 i) s) s
  s.updCore c fun k => { k with wins := k.wins.map fun d => { d with w2 := d.w2 &&& ~~~0x2000000000#64 } }

/-- Two windows' global byte ranges overlap; rows are compared by their spans, row by row. -/
def windowsOverlap (a b : WinDesc) : Bool :=
  let rows (d : WinDesc) : List (Int × Int) :=
    (List.range d.count).map fun (i : Nat) => ((d.base : Int) + (i : Nat) * d.stride, (d.base : Int) + (i : Nat) * d.stride + d.width)
  (rows a).any fun x => (rows b).any fun y => decide (x.1 < y.2 ∧ y.1 < x.2)

/-- The checks of R57 for a descriptor on a core, against the scratchpad and the other windows. -/
def windowOk (k : Core) (idx : Nat) (d : WinDesc) : Bool :=
  let others := ((List.range 16).zip k.wins.toList).filter fun nd => decide (nd.1 ≠ idx) && nd.2.valid
  decide (d.w0.extractLsb' 52 12 = 0) && decide (d.w2.extractLsb' 38 26 = 0) && decide (d.w3 = 0) &&
  decide (d.base % 64 = 0) && decide (d.stride % 64 = 0) && decide (d.stoff % 64 = 0) &&
  decide (1 ≤ d.count ∧ d.count ≤ 16384) && decide (1 ≤ d.elems) && decide (d.width % 64 = 0) &&
  (decide (d.count = 1) || decide ((d.width : Int) ≤ d.stride.natAbs)) &&
  decide (d.stoff + d.count * d.width ≤ 0x100000) && decide (k.decl.stash ≤ d.stoff) &&
  others.all fun nd =>
    decide (d.stoff + d.count * d.width ≤ nd.2.stoff ∨ nd.2.stoff + nd.2.count * nd.2.width ≤ d.stoff) &&
    (!(d.writes || nd.2.writes) || !windowsOverlap d nd.2)

end Sys2Proof.Machine
end

