-- ==== Sys2Proof/Machine/Events.lean ====
section
/-!
DEFINITION. The event table and its waiters (R385 to R388), retirement of graphs (R380), nodes that end or fail (R383,
R384), abort of a context's queued work: what every unit that signals an event shares.
-/
namespace Sys2Proof.Machine

/-- An event-table entry; an unwritten one is 0 (R386). -/
def evGet (s : State) (e : Nat) : Event := kget ⟨0, false, 0, false⟩ s.sched.events e

/-- The count of an event. -/
def evCount (s : State) (e : Nat) : Nat := (evGet s e).count.toNat

/-- Replace an event-table entry. -/
def evPut (e : Nat) (v : Event) (s : State) : State :=
  { s with sched := { s.sched with events := kput s.sched.events e v } }

/-- A context owns an event: EVBASE to EVBASE + EVCNT (R378). -/
def ownsEvent (c : Ctx) (e : Nat) : Bool :=
  decide (c.evbase.toNat ≤ e ∧ e ≤ c.evbase.toNat + c.evcnt.toNat)

/-- A wait is met (R387). -/
def waitMet (s : State) (w : Wait) : Bool := decide (w.thr ≤ evCount s w.ev)

/-- Update the scheduler. -/
def State.updSched (s : State) (f : Sched → Sched) : State := { s with sched := f s.sched }

/-- A node by id. -/
def findNode (s : State) (id : Nat) : Option Node := s.sched.nodes.find? fun n => decide (n.id = id)

/-- Update a node. -/
def updNode (id : Nat) (f : Node → Node) (s : State) : State :=
  s.updSched fun d => { d with nodes := d.nodes.map fun n => if n.id = id then f n else n }

/-- SPILL of an event clears when no entry of it is left in the spill ring (R386, R388). -/
def clearSpill (e : Nat) (s : State) : State :=
  if (evGet s e).spill && s.sched.spill.all fun w => decide (w.ev ≠ e) then evPut e { evGet s e with spill := false } s else s

/-- Replace the wait pool and the spill ring: every entry free in the pool takes a spilled one, and SPILL follows for every event
that an entry has left (R388). -/
def putWaits (waits spill : List Wait) (s : State) : State :=
  let room := 8192 - waits.length
  s.sched.spill.foldl (fun s w => clearSpill w.ev s)
    (s.updSched fun d => { d with waits := waits ++ spill.take room, spill := spill.drop room })

/-- Remove a node, its waits and its hold. -/
def dropNode (id : Nat) (s : State) : State :=
  let s := s.updSched fun d => { d with nodes := d.nodes.filter (fun n => decide (n.id ≠ id)),
                                        holds := d.holds.filter (fun h => decide (h ≠ id)) }
  putWaits (s.sched.waits.filter fun w => decide (w.node ≠ id)) (s.sched.spill.filter fun w => decide (w.node ≠ id)) s

/-- The read of a CONDITIONAL node's predicate at the moment its last wait is met (R389): the word whole, or the code with which
the node fails. -/
def readPredicate (n : Node) (s : State) : State :=
  if n.desc.kind ≠ 2 then s
  else
    let keep (p : PredRead) (s : State) : State := updNode n.id (fun n => { n with pred := some p }) s
    match hubRead n.ctx n.desc.aux.toNat 4 s with
    | .ok (s, bs, false) => keep (.word (BitVec.ofNat 32 (leVal bs))) s
    | .ok (s, _, true) => keep (.failed cPoison) s
    | .error (.trap t) => keep (.failed t.cause) s
    | .error .stall => keep (.failed 0) s

/-- A waiting node with no wait left becomes ELIGIBLE, in order (R384); a CONDITIONAL reads its predicate (R389). -/
def makeEligible (s : State) : State :=
  s.sched.nodes.foldl (fun s n =>
    if n.state = .waiting ∧ (s.sched.waits.all fun w => decide (w.node ≠ n.id)) ∧
        (s.sched.spill.all fun w => decide (w.node ≠ n.id)) then
      let s := updNode n.id (fun n => { n with state := .eligible, order := s.order }) s
      readPredicate n { s with order := s.order + 1 }
    else s) s

/-- Test the waiters of an event in the step that changes its count: met waits leave the pool; when SPILL is set the
whole ring is scanned, freed pool entries take spilled ones, and SPILL clears for every event that has none left (R387, R388). -/
def retestEvent (e : Nat) (s : State) : State :=
  let keep := s.sched.waits.filter fun w => !(decide (w.ev = e) && waitMet s w)
  let ring := if (evGet s e).spill then s.sched.spill.filter fun w => !waitMet s w else s.sched.spill
  makeEligible (clearSpill e (putWaits keep ring s))

/-- Retire every graph whose DONEEV has reached DONECNT: its nodes that have not been placed are discarded, and the
signals of its running nodes will not be made (R380). -/
def retireGraphs (e : Nat) (s : State) : State :=
  s.sched.graphs.foldl (fun s g =>
    if g.doneev = e ∧ g.retired = false ∧ g.donecnt ≤ evCount s e then
      let gone := s.sched.nodes.filter fun n => decide (n.graph = some g.id) &&
        (decide (n.state = .waiting) || decide (n.state = .eligible) ||
          (decide (n.state = .ready) && n.gang.isNone))
      let s := gone.foldl (fun s n => dropNode n.id s) s
      s.updSched fun d => { d with graphs := d.graphs.map fun h => if h.id = g.id then { h with retired := true } else h }
    else s) s

/-- Set the count of an event and test its waiters (R386, R387). -/
def setEventCount (e : Nat) (n : BitVec 32) (s : State) : State :=
  retireGraphs e (retestEvent e (evPut e { evGet s e with count := n } s))

/-- A saturating increment (R185). -/
def satAdd (a b : BitVec 32) : BitVec 32 := BitVec.ofNat 32 (min (a.toNat + b.toNat) (2 ^ 32 - 1))

/-- Signal an event: saturating increment, MSI-X if it is visible to the host, waiters tested in the same step
(R185, R386, R387). -/
def signalEvent (e : Nat) (inc : BitVec 32) (s : State) : State :=
  let v := evGet s e
  let s := if v.hostvis then raiseMsix v.vec s else s
  setEventCount e (satAdd v.count inc) s

/-- A node's signals are made unless its graph has retired (R380). -/
def signalsMade (s : State) (n : Node) : Bool :=
  match n.graph with
  | none => true
  | some g => s.sched.graphs.any fun h => decide (h.id = g) && !h.retired

/-- Make signals in order (R383). -/
def makeSignals (n : Node) (sigs : List (Nat × Nat)) (s : State) : State :=
  if signalsMade s n then sigs.foldl (fun s ei => signalEvent ei.1 (BitVec.ofNat 32 ei.2) s) s else s

/-- Free the gather list of a coalescer's node (R396). -/
def freeList (n : Node) (s : State) : State :=
  match n.slot with
  | none => s
  | some (slot, l) =>
    match kget? s.coal slot with
    | none => s
    | some c => { s with coal := kput s.coal slot { c with busy := c.busy &&& ~~~(1#4 <<< l) } }

/-- A node is DONE: its signals are made; a LOOP node with runs left goes back to the pool as ELIGIBLE (R383, R384). -/
def nodeDone (id : Nat) (s : State) : State :=
  match findNode s id with
  | none => s
  | some n =>
    let s := makeSignals n n.desc.sigs s
    if n.desc.kind = 1 ∧ n.run + 1 < (n.desc.aux.extractLsb' 0 32).toNat ∧ signalsMade s n then
      { updNode id (fun n => { n with state := .eligible, run := n.run + 1, order := s.order, gang := none }) s with
          order := s.order + 1 }
    else dropNode id (freeList n s)

/-- A node is FAILED: no signal; an error-log entry; FAILEV if it has one (R384). -/
def nodeFailed (id : Nat) (src : Nat) (code : Cause) (core : Nat) (s : State) : State :=
  match findNode s id with
  | none => s
  | some n =>
    let s := logError src code n.va n.ctx.toNat core s
    let fe := (n.graph.bind fun g => s.sched.graphs.find? fun h => decide (h.id = g)).bind fun h => h.failev
    let s := dropNode id (freeList n s)
    match fe with
    | none => s
    | some e => signalEvent e 1 s

/-- A gang by number. -/
def findGang (s : State) (num : Nat) : Option Gang := s.sched.gangs.find? fun g => decide (g.num = num)

/-- Update a gang. -/
def updGang (num : Nat) (f : Gang → Gang) (s : State) : State :=
  s.updSched fun d => { d with gangs := d.gangs.map fun g => if g.num = num then f g else g }

/-- The gang that holds a core. -/
def gangOf (s : State) (c : CoreId) : Option Gang := (s.coreAt c).gang.bind (findGang s)

/-- A core is a member of the gang of another (R17). -/
def sameGang (s : State) (a b : CoreId) : Bool :=
  match gangOf s a with
  | some g => g.members.contains b
  | none => decide (a = b)

/-- The UME context number: die × 64 + context (R333). -/
def umeNum (d : Fin 4) (i : BitVec 6) : Nat := d.val * 64 + i.toNat

/-- A sampler context of a cluster. -/
def smpGet (s : State) (k : Fin 32) (i : BitVec 6) : SmpCtx := kget SmpCtx.reset (s.cluster k).smp i.toNat

/-- Replace a sampler context. -/
def smpPut (k : Fin 32) (i : BitVec 6) (x : SmpCtx) (s : State) : State :=
  s.updCluster k fun cl => { cl with smp := kput cl.smp i.toNat x }

/-- A UME block context of a die. -/
def umeGet (s : State) (d : Fin 4) (i : BitVec 6) : UmeCtx := kget default (s.die d).ume i.toNat

/-- Replace a UME block context. -/
def umePut (d : Fin 4) (i : BitVec 6) (x : UmeCtx) (s : State) : State :=
  s.updDie d fun x' => { x' with ume := kput x'.ume i.toNat x }

/-- Free what a gang held: mailboxes, sampler and UME contexts, cores, save slots (R391, R406). What a UME context holds stays
until it is granted again (R372; log entry 9). -/
def freeGang (g : Gang) (s : State) : State :=
  let k : Fin 32 := g.cluster.toFin
  let s := s.updCluster k fun cl =>
    { cl with mbox := cl.mbox.map fun m =>
        match m.gang with
        | some (n, _) => if n = g.num then ⟨none, []⟩ else m
        | none => m }
  let s := g.smp.foldl (fun s i => smpPut k i { smpGet s k i with gang := none, run := 0 } s) s
  let d : Fin 4 := ⟨g.cluster.toNat / 8, by have := g.cluster.isLt; omega⟩
  let s := g.ume.foldl (fun s i => umePut d i { umeGet s d i with gang := none } s) s
  let s := g.members.foldl (fun s c => s.updCore c fun k =>
    { k with gang := none, rg := { k.rg with status := .off } }) s
  s.updSched fun x => { x with gangs := x.gangs.filter fun h => decide (h.num ≠ g.num) }

end Sys2Proof.Machine
end

