-- ==== Sys2Proof/Machine/Num.lean ====
section
/-!
DEFINITION. Number formats (R105 to R110), exact values, rounding (R115, R121, R123), conversions (R115 to R117) and
integer narrowing (R116, R122). Element codes are natural numbers below 2 to the element width.
-/
namespace Sys2Proof.Machine

/-! ### Types -/

/-- The element size of a type code in half bytes (R106, R214). -/
def halfBytes (t : Nat) : Nat :=
  match t with
  | 0 | 14 | 15 => 8
  | 1 | 2 | 12 | 13 => 4
  | 6 | 11 => 1
  | _ => 2

/-- The element width in bits, w = 8 s (R220). -/
def widthOf (t : Nat) : Nat := 4 * halfBytes t

/-- The float formats are codes 0x0 to 0x8 (R105). -/
def isFloat (t : Nat) : Bool := decide (t ≤ 8)

/-- The signed integer types I8, I4, I16, I32 (R105). -/
def isSigned (t : Nat) : Bool := decide (t = 9 ∨ t = 11 ∨ t = 12 ∨ t = 14)

/-- The bits an integer type's range uses: 4 for I4, otherwise its width (R105). -/
def intBits (t : Nat) : Nat := widthOf t

/-- The least and greatest value of an integer type (R105). -/
def intMin (t : Nat) : Int := if isSigned t then -(2 ^ (intBits t - 1) : Nat) else 0
def intMax (t : Nat) : Int := if isSigned t then (2 ^ (intBits t - 1) : Nat) - 1 else (2 ^ intBits t : Nat) - 1

/-- The integer an element code of an integer type stands for. -/
def intOf (t c : Nat) : Int :=
  if isSigned t ∧ 2 ^ (intBits t - 1) ≤ c then (c : Int) - (2 ^ intBits t : Nat) else c

/-- The element code of an integer taken modulo 2^w. -/
def intCode (t : Nat) (x : Int) : Nat := (x % (2 ^ intBits t : Nat)).toNat

/-! ### Exact values -/

/-- A number: NaN (or NaV), an infinity, or a finite value m × 2^e with a sign (zero is m = 0). -/
inductive FVal where
  | nan | inf (neg : Bool) | fin (neg : Bool) (m : Nat) (e : Int)
  deriving DecidableEq, Repr

/-- The parameters of a format of the IEEE pattern (R105, R107). -/
structure Fmt where
  ebits : Nat
  mbits : Nat
  bias  : Nat
  infs  : Bool
  maxMag : Nat
  deriving DecidableEq, Repr

/-- Formats 0x0 to 0x6 (R105). `maxMag` is the magnitude code of the largest finite value. -/
def fmtOf (t : Nat) : Fmt :=
  match t with
  | 0 => ⟨8, 23, 127, true, 0x7F7FFFFF⟩
  | 1 => ⟨8, 7, 127, true, 0x7F7F⟩
  | 2 => ⟨5, 10, 15, true, 0x7BFF⟩
  | 3 => ⟨4, 3, 7, false, 0x7E⟩
  | 4 => ⟨5, 2, 15, true, 0x7B⟩
  | 5 => ⟨3, 2, 3, false, 0x1F⟩
  | _ => ⟨2, 1, 1, false, 0x7⟩

/-- The exponent of the last place at the bottom of a format: 1 − bias − n. -/
def Fmt.qmin (f : Fmt) : Int := 1 - (f.bias : Int) - f.mbits

/-- The sign weight of a format. -/
def Fmt.signBit (f : Fmt) : Nat := 2 ^ (f.ebits + f.mbits)

/-- Decode a code of formats 0x0 to 0x6 (R107). -/
def decodeIeee (t c : Nat) : FVal :=
  let f := fmtOf t
  let neg := decide (f.signBit ≤ c % (2 * f.signBit))
  let mag := c % f.signBit
  let e := mag / 2 ^ f.mbits
  let m := mag % 2 ^ f.mbits
  if e = 0 then .fin neg m f.qmin
  else if f.infs ∧ e = 2 ^ f.ebits - 1 then (if m = 0 then .inf neg else .nan)
  else if t = 3 ∧ mag = 0x7F then .nan
  else .fin neg (2 ^ f.mbits + m) (f.qmin + (e - 1 : Nat))

/-- The length of the run of equal bits at the top of an n-bit field (R108). -/
def runLen (mag : Nat) (top : Bool) : Nat → Nat
  | 0 => 0
  | n + 1 => if mag.testBit n = top then 1 + runLen mag top n else 0

/-- Decode a tapered code with an `n`-bit magnitude field (R108). -/
def decodeTaper (n c : Nat) : FVal :=
  let neg := c.testBit n
  let mag := c % 2 ^ n
  if mag = 0 then (if neg then .nan else .fin false 0 0)
  else
    let top := mag.testBit (n - 1)
    let r := runLen mag top n
    let k : Int := if top then (r : Int) - 1 else -(r : Int)
    let left := n - r - 1
    let e := if 0 < left then (if mag.testBit (left - 1) then 1 else 0) else 0
    let nf := left - 1
    .fin neg (2 ^ nf + mag % 2 ^ nf) (2 * k + (e : Nat) - (nf : Nat))

/-- The number an element code of any type stands for (R105 to R108). -/
def decodeNum (t c : Nat) : FVal :=
  if t ≤ 6 then decodeIeee t c
  else if t = 7 then decodeTaper 7 (c % 256)
  else if t = 8 then decodeTaper 5 (c % 64)
  else let x := intOf t c
       .fin (decide (x < 0)) x.natAbs 0

/-- A signalling NaN of F32, BF16 or F16: the top fraction bit is clear (R114, R221). -/
def isSNaN (t c : Nat) : Bool :=
  decide (t ≤ 2) && decide (decodeIeee t c = .nan) && !c.testBit ((fmtOf t).mbits - 1)

/-- The canonical NaN of a format, if it has one (R114). -/
def canonNaN (t : Nat) : Option Nat :=
  match t with
  | 0 => some 0x7FC00000 | 1 => some 0x7FC0 | 2 => some 0x7E00 | 3 => some 0x7F | 4 => some 0x7E
  | 7 => some 0x80 | 8 => some 0x20 | _ => none

/-- The canonical NaN as an element code; +0 where the format has none. -/
def nanCode (t : Nat) : Nat := (canonNaN t).getD 0

/-- The zero of a format with a sign; +0 if it has no negative zero (R114). -/
def zeroCode (t : Nat) (neg : Bool) : Nat := if neg ∧ t ≤ 6 then (fmtOf t).signBit else 0

/-- The infinity of a format that has one (R114). -/
def infCode (t : Nat) (neg : Bool) : Nat :=
  let f := fmtOf t
  (2 ^ f.ebits - 1) * 2 ^ f.mbits + if neg then f.signBit else 0

/-- The largest finite value of a format, by sign (R105). -/
def maxCode (t : Nat) (neg : Bool) : Nat :=
  if t = 7 then (if neg then 0xFF else 0x7F)
  else if t = 8 then (if neg then 0x3F else 0x1F)
  else (fmtOf t).maxMag + if neg then (fmtOf t).signBit else 0

/-! ### Rounding -/

/-- The roundings of MODE.RND (R118) and stochastic rounding with its 16 random bits (R123). -/
inductive Rnd where
  | rne | rtz | rup | rdn | rna | sr (rand16 : Nat)
  deriving DecidableEq, Repr

/-- The bits of a natural number. -/
def bitLen (n : Nat) : Nat := if n = 0 then 0 else Nat.log2 n + 1

/-- Round a magnitude m × 2^e, plus a positive amount below one unit of m when `sticky`, to an integer multiple of 2^x:
the multiple and whether it was inexact. With `sticky`, m carries bits below 2^x. -/
def roundAt (r : Rnd) (neg : Bool) (m : Nat) (e : Int) (sticky : Bool) (x : Int) : Nat × Bool :=
  if x ≤ e then (m * 2 ^ (e - x).toNat, sticky)
  else
    let sh := (x - e).toNat
    let q := m / 2 ^ sh
    let rem := m % 2 ^ sh
    let half := 2 ^ (sh - 1)
    let inexact := decide (rem ≠ 0) || sticky
    let up : Bool :=
      match r with
      | .rne => decide (half < rem) || (decide (rem = half) && (sticky || decide (q % 2 = 1)))
      | .rtz => false
      | .rup => inexact && !neg
      | .rdn => inexact && neg
      | .rna => decide (half ≤ rem)
      | .sr w => decide (2 ^ 16 ≤ rem * 2 ^ 16 / 2 ^ sh + w)
    (if up then q + 1 else q, inexact)

/-- The exponent of the last kept place of a magnitude in a format, with exponents unbounded above (R115). -/
def placeOf (f : Fmt) (m : Nat) (e : Int) : Int := max (e + bitLen m - (f.mbits + 1 : Nat)) f.qmin

/-- Encode q × 2^x, with q at most 2^(n+1) and x at or above the bottom place: the magnitude code, which may exceed the
largest finite one. -/
def magCode (f : Fmt) (q : Nat) (x : Int) : Nat :=
  let (q, x) := if q = 2 ^ (f.mbits + 1) then (2 ^ f.mbits, x + 1) else (q, x)
  if q < 2 ^ f.mbits then q
  else ((x - f.qmin).toNat + 1) * 2 ^ f.mbits + (q - 2 ^ f.mbits)

/-- The outcome of a conversion or an operation: an element code with its flags, or CONVERT_TRAP. -/
inductive Conv where
  | ok (code : Nat) (inv ovf : Bool) | trap
  deriving DecidableEq, Repr

/-- The overflow results of R115 by policy code: 0 SAT, 1 INF, 2 NAN, 3 TRAP. -/
def overflowCode (t : Nat) (neg : Bool) (pol : Nat) : Conv :=
  match pol with
  | 0 => .ok (maxCode t neg) false true
  | 1 => if t ≤ 2 ∨ t = 4 then .ok (infCode t neg) false true
         else if t = 5 ∨ t = 6 then .ok (maxCode t neg) false true
         else .ok (nanCode t) false true
  | 2 => if t = 5 ∨ t = 6 then .ok (maxCode t neg) false true else .ok (nanCode t) false true
  | _ => .trap

/-- Compare two magnitudes m × 2^e. -/
def magLt (m : Nat) (e : Int) (m' : Nat) (e' : Int) : Bool :=
  let lo := min e e'
  decide (m * 2 ^ (e - lo).toNat < m' * 2 ^ (e' - lo).toNat)

/-- The nearest tapered magnitude code: halfway cases take the even code (R111). -/
def nearestTaper (n : Nat) (m : Nat) (e : Int) : Nat :=
  let val (c : Nat) : Nat × Int := match decodeTaper n c with
    | .fin _ m e => (m, e)
    | _ => (0, 0)
  let below := (List.range (2 ^ n)).filter fun c => decide (c ≠ 0) && !magLt m e (val c).1 (val c).2
  let c := below.getLastD 1
  let (a, ea) := val c
  if c + 1 < 2 ^ n then
    let (b, eb) := val (c + 1)
    let lo := min (min ea eb) e
    let sc (m : Nat) (e : Int) : Nat := m * 2 ^ (e - lo).toNat
    let mid := sc a ea + sc b eb
    let x2 := 2 * sc m e
    if x2 < mid then c else if mid < x2 then c + 1 else if c % 2 = 0 then c else c + 1
  else c

/-- A conversion to T8 or T6 of a finite nonzero value (R111). -/
def toTaper (t : Nat) (neg : Bool) (m : Nat) (e : Int) (pol : Nat) (tiny0 : Bool) : Conv :=
  let n := if t = 7 then 7 else 5
  let big : Int := if t = 7 then 12 else 8
  let s := if neg then 2 ^ n else 0
  if magLt 1 big m e then overflowCode t neg pol
  else if magLt m e 1 (-big) then .ok (if tiny0 then 0 else s + 1) false false
  else .ok (s + nearestTaper n m e) false false

/-- The pairs of R117, by source and target code. -/
def exactPair (src dst : Nat) : Bool :=
  decide (src = dst) || (decide (dst = 0) && decide (src ≠ 14 ∧ src ≠ 15)) ||
  (decide (dst = 1 ∨ dst = 2) && [3, 4, 5, 6, 7, 8, 9, 10, 11].contains src) ||
  (decide (dst = 3) && [5, 6].contains src) || (decide (dst = 4) && decide (src = 6)) ||
  (decide (dst = 5) && decide (src = 6)) || (decide (dst = 7) && decide (src = 6)) ||
  (decide (9 ≤ src) && decide (9 ≤ dst) &&
    (decide (isSigned src = isSigned dst ∧ intBits src < intBits dst) ||
     (!isSigned src && isSigned dst && decide (intBits src < intBits dst))))

/-- `convert_float` of R115 for a value of source type `src` (16 for an unconverted exact value); `sticky` adds a positive
amount below the last place of the magnitude. -/
def convertFloat (src : Nat) (x : FVal) (sticky : Bool) (t : Nat) (r : Rnd) (pol : Nat) (ftz tiny0 : Bool) : Conv :=
  match x with
  | .nan => match canonNaN t with
    | some c => .ok c false false
    | none => .ok 0 true false
  | .inf neg => if exactPair src t ∧ (t ≤ 2 ∨ t = 4) then .ok (infCode t neg) false false else overflowCode t neg pol
  | .fin neg m e =>
    if m = 0 then .ok (zeroCode t neg) false false
    else if t = 7 ∨ t = 8 then toTaper t neg m e pol tiny0
    else
      let f := fmtOf t
      let x := placeOf f m e
      let (q, _) := roundAt r neg m e sticky x
      let c := magCode f q x
      if f.maxMag < c then overflowCode t neg pol
      else if ftz ∧ t ≤ 2 ∧ c < 2 ^ f.mbits then .ok (zeroCode t neg) false false
      else .ok (c + if neg then f.signBit else 0) false false

/-- An exact value rounded to a type of F32, BF16 or F16 by IEEE 754 in a direction: overflow gives the IEEE result and
OVF (R121); FTZ flushes a subnormal result (R118). -/
def roundIeee (t : Nat) (x : FVal) (sticky : Bool) (r : Rnd) (ftz : Bool) : Conv :=
  match x with
  | .nan => .ok (nanCode t) false false
  | .inf neg => .ok (infCode t neg) false false
  | .fin neg m e =>
    if m = 0 then .ok (zeroCode t neg) false false
    else
      let f := fmtOf t
      let x := placeOf f m e
      let (q, _) := roundAt r neg m e sticky x
      let c := magCode f q x
      if f.maxMag < c then
        let toInf : Bool := match r with
          | .rtz => false
          | .rup => !neg
          | .rdn => neg
          | _ => true
        .ok (if toInf then infCode t neg else maxCode t neg) false true
      else if ftz ∧ c < 2 ^ f.mbits then .ok (zeroCode t neg) false false
      else .ok (c + if neg then f.signBit else 0) false false

/-- Narrow an integer to a type: clamped with OVF when `sat`, otherwise modulo 2^w (R116, R122). -/
def narrow (t : Nat) (x : Int) (sat : Bool) : Conv :=
  if sat then
    if x < intMin t then .ok (intCode t (intMin t)) false true
    else if intMax t < x then .ok (intCode t (intMax t)) false true
    else .ok (intCode t x) false false
  else .ok (intCode t x) false false

/-- A value rounded to an integer under a rounding (R116, R123). -/
def roundInt (x : FVal) (r : Rnd) : Int :=
  match x with
  | .fin neg m e => let q : Int := ((roundAt r neg m e false 0).1 : Nat)
                    if neg then -q else q
  | _ => 0

/-- A conversion to an integer type (R116). -/
def convertInt (x : FVal) (t : Nat) (r : Rnd) (sat : Bool) : Conv :=
  match x with
  | .nan => .ok 0 true false
  | .inf neg => if sat then .ok (intCode t (if neg then intMin t else intMax t)) false true else .ok 0 true false
  | .fin _ _ _ => narrow t (roundInt x r) sat

/-- A subnormal input of F32, BF16 or F16 is flushed to zero of its sign when FTZ is 1 (R118). -/
def flushIn (t c : Nat) (ftz : Bool) : FVal :=
  match decodeNum t c with
  | .fin neg m e => if ftz ∧ t ≤ 2 ∧ m < 2 ^ (fmtOf t).mbits then .fin neg 0 e else .fin neg m e
  | v => v

/-- A conversion between any two types (R115 to R117): exact pairs are carried without rounding or flushing of range. -/
def convert (src c t : Nat) (r : Rnd) (pol : Nat) (sat ftz tiny0 : Bool) : Conv :=
  let v := flushIn src c ftz
  if isFloat t then convertFloat src v false t r pol ftz tiny0 else convertInt v t r sat

/-! ### Exact arithmetic -/

/-- An exact signed dyadic m × 2^e. -/
structure Dy where
  m : Int
  e : Int
  deriving DecidableEq, Repr

/-- The dyadic of a finite value. -/
def FVal.dy : FVal → Dy
  | .fin neg m e => ⟨if neg then -(m : Int) else m, e⟩
  | _ => ⟨0, 0⟩

/-- The exact sum of two dyadics. -/
def Dy.add (a b : Dy) : Dy :=
  let lo := min a.e b.e
  ⟨a.m * (2 ^ (a.e - lo).toNat : Nat) + b.m * (2 ^ (b.e - lo).toNat : Nat), lo⟩

/-- The exact product of two dyadics. -/
def Dy.mul (a b : Dy) : Dy := ⟨a.m * b.m, a.e + b.e⟩

/-- A dyadic as a value, a zero taking the sign given. -/
def Dy.val (a : Dy) (zneg : Bool) : FVal := if a.m = 0 then .fin zneg 0 0 else .fin (decide (a.m < 0)) a.m.natAbs a.e

/-- The value is NaN. -/
def FVal.isNan : FVal → Bool
  | .nan => true
  | _ => false

/-- The value is zero. -/
def FVal.isZero : FVal → Bool
  | .fin _ m _ => decide (m = 0)
  | _ => false

/-- The sign of a value; false for NaN. -/
def FVal.neg : FVal → Bool
  | .inf n => n
  | .fin n _ _ => n
  | .nan => false

/-- The value negated. -/
def FVal.negate : FVal → FVal
  | .nan => .nan
  | .inf n => .inf !n
  | .fin n m e => .fin (!n) m e

/-- The exact sum with IEEE signs of zero (R121): the value and whether infinity − infinity made it invalid. A zero sum of
values of different sign is −0 only when rounding down. -/
def fadd (a b : FVal) (rdn : Bool) : FVal × Bool :=
  match a, b with
  | .nan, _ => (.nan, false)
  | _, .nan => (.nan, false)
  | .inf x, .inf y => if x = y then (.inf x, false) else (.nan, true)
  | .inf x, _ => (.inf x, false)
  | _, .inf y => (.inf y, false)
  | .fin x m e, .fin y m' e' =>
    let zneg := if m = 0 ∧ m' = 0 then (if x = y then x else rdn) else rdn
    ((Dy.add (FVal.dy (.fin x m e)) (FVal.dy (.fin y m' e'))).val zneg, false)

/-- The exact product: the value and whether 0 × infinity made it invalid. -/
def fmul (a b : FVal) : FVal × Bool :=
  match a, b with
  | .nan, _ => (.nan, false)
  | _, .nan => (.nan, false)
  | .inf x, .inf y => (.inf (x != y), false)
  | .inf x, .fin y m _ => if m = 0 then (.nan, true) else (.inf (x != y), false)
  | .fin x m _, .inf y => if m = 0 then (.nan, true) else (.inf (x != y), false)
  | .fin x m e, .fin y m' e' => (.fin (x != y) (m * m') (e + e'), false)

/-- a < b of numbers; false with a NaN; zeros are equal. -/
def fltVal (a b : FVal) : Bool :=
  match a, b with
  | .nan, _ => false
  | _, .nan => false
  | .inf x, .inf y => x && !y
  | .inf x, .fin _ _ _ => x
  | .fin _ _ _, .inf y => !y
  | .fin x m e, .fin y m' e' =>
    let p := FVal.dy (.fin x m e)
    let q := FVal.dy (.fin y m' e')
    decide ((Dy.add p ⟨-q.m, q.e⟩).m < 0)

/-- a = b of numbers; −0 equals +0; false with a NaN. -/
def feqVal (a b : FVal) : Bool := !a.isNan && !b.isNan && !fltVal a b && !fltVal b a

/-- a ≤ b in the total order of numbers with −0 below +0 (R222, R233). -/
def fleTotal (a b : FVal) : Bool :=
  fltVal a b || (feqVal a b && (!(a.isZero && b.isZero) || a.neg || !b.neg))

/-- An exact sum of values with the special rules of R124: NaN if any is NaN or infinities of both signs meet; an
infinity; otherwise the exact dyadic, whose zero has the sign IEEE 754 gives: −0 if every term is −0, and when rounding
down unless every term is +0. The second result tells that infinities of both signs met. -/
def exactSum (xs : List FVal) (rdn : Bool := false) : FVal × Bool :=
  let nan := xs.any FVal.isNan
  let pinf := xs.any fun x => decide (x = .inf false)
  let ninf := xs.any fun x => decide (x = .inf true)
  let zneg := !xs.isEmpty && ((xs.all fun x => x.isZero && x.neg) || (rdn && !(xs.all fun x => x.isZero && !x.neg)))
  if nan then (.nan, false)
  else if pinf ∧ ninf then (.nan, true)
  else if pinf then (.inf false, false)
  else if ninf then (.inf true, false)
  else ((xs.foldl (fun a x => Dy.add a x.dy) ⟨0, 0⟩).val zneg, false)

/-- The code of a conversion's result, with a default for a trap. -/
def Conv.code : Conv → Nat
  | .ok c _ _ => c
  | .trap => 0

/-! ### F32 helpers for the fixed-rounding units (R303, R348) -/

/-- An F32 result rounded to nearest even, subnormals kept (R303, R348). -/
def rne32 (x : FVal) : Nat := (roundIeee 0 x false .rne false).code

/-- The value of F32 bits. -/
def f32 (c : Nat) : FVal := decodeNum 0 c

/-- F32 addition, subtraction and multiplication rounded to nearest even. -/
def addF32 (a b : Nat) : Nat := rne32 (fadd (f32 a) (f32 b) false).1
def subF32 (a b : Nat) : Nat := rne32 (fadd (f32 a) (f32 b).negate false).1
def mulF32 (a b : Nat) : Nat := rne32 (fmul (f32 a) (f32 b)).1

/-- An exact quotient of magnitudes as a value with a sticky part below its last place: at least `p` quotient bits. -/
def divMag (m m' p : Nat) : Nat × Int × Bool :=
  let k := p + bitLen m'
  let n := m * 2 ^ k
  (n / m', -(k : Int), decide (n % m' ≠ 0))

/-- F32 division rounded to nearest even (R305 PEN, R307 SMX, R308 RES). -/
def divF32 (a b : Nat) : Nat :=
  match f32 a, f32 b with
  | .nan, _ => 0x7FC00000
  | _, .nan => 0x7FC00000
  | .inf _, .inf _ => 0x7FC00000
  | .inf x, .fin y _ _ => infCode 0 (x != y)
  | .fin x _ _, .inf y => zeroCode 0 (x != y)
  | .fin x m e, .fin y m' e' =>
    if m' = 0 then (if m = 0 then 0x7FC00000 else infCode 0 (x != y))
    else if m = 0 then zeroCode 0 (x != y)
    else
      let (q, k, st) := divMag m m' 64
      (roundIeee 0 (.fin (x != y) q (e - e' + k)) st .rne false).code

end Sys2Proof.Machine
end

