-- ==== Sys2Proof/Machine/Special.lean ====
section
/-!
DEFINITION. Philox4x32-10 (R123, R307) and correctly rounded special functions (R223, R307, R348): each is enclosed
between two fixed-point bounds; where both bounds round alike that is the result, otherwise the value is free.
-/
namespace Sys2Proof.Machine

/-! ### Philox4x32-10 (R123): the published multipliers and key increments (PRESUMED, log entry 10) -/

/-- One round: counter words and key words. -/
def philoxRound (c : Nat × Nat × Nat × Nat) (k : Nat × Nat) : Nat × Nat × Nat × Nat :=
  let p0 := 0xD2511F53 * c.1
  let p1 := 0xCD9E8D57 * c.2.2.1
  ((p1 / 2 ^ 32) ^^^ c.2.1 ^^^ k.1, p1 % 2 ^ 32, (p0 / 2 ^ 32) ^^^ c.2.2.2 ^^^ k.2, p0 % 2 ^ 32)

/-- Rounds left, counter, key. -/
def philoxRun : Nat → Nat × Nat × Nat × Nat → Nat × Nat → Nat × Nat × Nat × Nat
  | 0, c, _ => c
  | n + 1, c, k => philoxRun n (philoxRound c k) ((k.1 + 0x9E3779B9) % 2 ^ 32, (k.2 + 0xBB67AE85) % 2 ^ 32)

/-- word0 of Philox4x32-10 (R123). -/
def philoxWord0 (key : Word) (c0 c1 c2 c3 : Nat) : Nat :=
  (philoxRun 10 (c0, c1, c2, c3) (key.toNat % 2 ^ 32, key.toNat / 2 ^ 32)).1

/-- rand16 of stochastic rounding (R123). -/
def rand16 (seed : Word) (psn idx : Nat) : Nat :=
  philoxWord0 seed (psn % 2 ^ 32) (psn / 2 ^ 32 % 2 ^ 32) (idx % 2 ^ 32) 0 % 2 ^ 16

/-- The rounding that MODE.RND selects, with the random bits of an element when it is SR (R118, R123). -/
def rndOf (rnd : Nat) (seed : Word) (psn idx : Nat) : Rnd :=
  match rnd with
  | 1 => .rtz | 2 => .rup | 3 => .rdn | 4 => .rna | 5 => .sr (rand16 seed psn idx) | _ => .rne

/-! ### Fixed-point enclosures -/

/-- Fraction bits of the enclosures. -/
def fpBits : Nat := 640

/-- One in fixed point. -/
def fpOne : Int := 2 ^ fpBits

/-- An enclosure: lower and upper bound in fixed point. -/
structure Encl where
  lo : Int
  hi : Int
  deriving DecidableEq, Repr

/-- Floor and ceiling products of fixed-point numbers at or above 0. -/
def fmulLo (a b : Int) : Int := a * b / fpOne
def fmulHi (a b : Int) : Int := -((-(a * b)) / fpOne)

/-- Floor and ceiling quotients of fixed-point numbers, the divisor above 0. -/
def fdivLo (a b : Int) : Int := a * fpOne / b
def fdivHi (a b : Int) : Int := -((-(a * fpOne)) / b)

/-- The Taylor sum of exp at x in [0, 1): terms by repeated product; every term is off by less than one unit. -/
def expTerms (x : Int) : Nat → Nat → Int → Int → Int
  | 0, _, _, acc => acc
  | n + 1, k, t, acc => let t' := t * x / fpOne / (k : Int)
                        expTerms x n (k + 1) t' (acc + t')

/-- An enclosure of exp on [lo, hi] within [0, 1). -/
def expEncl (x : Encl) : Encl :=
  ⟨expTerms x.lo 160 1 fpOne fpOne, expTerms x.hi 160 1 fpOne fpOne + 4096⟩

/-- The odd power series Σ z^(2k+1)/(2k+1) of atanh at z in [0, 1/3]: truncated terms. -/
def atanhTerms (z2 : Int) : Nat → Nat → Int → Int → Int
  | 0, _, _, acc => acc
  | n + 1, k, t, acc => atanhTerms z2 n (k + 2) (t * z2 / fpOne) (acc + t / (k : Int))

/-- An enclosure of atanh on [lo, hi] within [0, 1/3]. -/
def atanhEncl (z : Encl) : Encl :=
  let z2 := fmulHi z.hi z.hi + 1
  ⟨atanhTerms (fmulLo z.lo z.lo) 220 1 z.lo 0 - 4096, atanhTerms z2 220 1 z.hi 0 + 4096⟩

/-- ln 2 = 2 atanh(1/3). -/
def ln2Encl : Encl :=
  let a := atanhEncl ⟨fpOne / 3, fpOne / 3 + 1⟩
  ⟨2 * a.lo, 2 * a.hi⟩

/-- The alternating series of arctan(1/n): floor terms. -/
def atanInv (n : Int) : Nat → Nat → Int → Int → Int
  | 0, _, _, acc => acc
  | f + 1, k, t, acc =>
    let term := t / (k : Int)
    atanInv n f (k + 2) (t / (n * n)) (if k % 4 = 1 then acc + term else acc - term)

/-- π by Machin's formula, 16 arctan(1/5) − 4 arctan(1/239). -/
def piEncl : Encl :=
  let p := 16 * atanInv 5 300 1 (fpOne / 5) 0 - 4 * atanInv 239 120 1 (fpOne / 239) 0
  ⟨p - 2 ^ 20, p + 2 ^ 20⟩

/-- A finite value as a fixed-point number, rounded down; its bits below 2^(−fpBits) are lost. -/
def toFixed (a : Dy) : Int :=
  let sh := a.e + fpBits
  if 0 ≤ sh then a.m * (2 ^ sh.toNat : Nat) else a.m / (2 ^ (-sh).toNat : Nat)

/-! ### Rounding an enclosure -/

/-- Round a positive enclosure times 2^k, with a sign, to nearest even in a type of F32, BF16 or F16. The free value
stands where the bounds round apart. -/
def roundEncl (t : Nat) (neg : Bool) (x : Encl) (k : Int) (ftz : Bool) (fn : Nat) (arg : Nat) : Conv :=
  let lo := roundIeee t (.fin neg x.lo.toNat (k - fpBits)) false .rne ftz
  let hi := roundIeee t (.fin neg x.hi.toNat (k - fpBits)) false .rne ftz
  if 0 < x.lo ∧ lo = hi then lo else .ok (Config.freeSpecial fn t arg % 2 ^ widthOf t) false false

/-- A value just below 2^e, as a rounding sees it. -/
def justBelow (neg : Bool) (e : Int) : FVal := .fin neg (2 ^ 64 - 1) (e - 64)

/-! ### The functions, rounded to nearest even (R121) -/

/-- exp of an exact value: 2^n · exp(r) with r = x − n ln 2 in [0, ln 2). -/
def expConv (t : Nat) (x : FVal) (ftz : Bool) (arg : Nat) : Conv :=
  match x with
  | .nan => .ok (nanCode t) false false
  | .inf true => .ok 0 false false
  | .inf false => .ok (infCode t false) false false
  | .fin _ 0 _ => roundIeee t (.fin false 1 0) false .rne ftz
  | .fin neg m e =>
    if magLt 1 10 m e then
      (if neg then roundIeee t (.fin false 1 (-1000)) true .rne ftz else roundIeee t (.fin false 1 1000) true .rne ftz)
    else if magLt m e 1 (-200) then
      (if neg then roundIeee t (justBelow false 0) true .rne ftz
       else roundIeee t (.fin false (2 ^ 64) (-64)) true .rne ftz)
    else
      let v := toFixed (FVal.dy (.fin neg m e))
      let l := ln2Encl
      let n := v / l.hi - 1
      let r : Encl := ⟨v - max (n * l.lo) (n * l.hi), v + 1 - min (n * l.lo) (n * l.hi)⟩
      let half : Encl := ⟨r.lo / 4, r.hi / 4 + 1⟩
      let h := expEncl half
      let sq (a : Encl) : Encl := ⟨fmulLo a.lo a.lo, fmulHi a.hi a.hi⟩
      roundEncl t false (sq (sq h)) n ftz 0 arg

/-- 2^a. -/
def exp2Conv (t : Nat) (x : FVal) (ftz : Bool) (arg : Nat) : Conv :=
  match x with
  | .nan => .ok (nanCode t) false false
  | .inf true => .ok 0 false false
  | .inf false => .ok (infCode t false) false false
  | .fin _ 0 _ => roundIeee t (.fin false 1 0) false .rne ftz
  | .fin neg m e =>
    if magLt 1 10 m e then
      (if neg then roundIeee t (.fin false 1 (-1000)) true .rne ftz else roundIeee t (.fin false 1 1000) true .rne ftz)
    else if magLt m e 1 (-200) then
      (if neg then roundIeee t (justBelow false 0) true .rne ftz
       else roundIeee t (.fin false (2 ^ 64) (-64)) true .rne ftz)
    else
      let v := toFixed (FVal.dy (.fin neg m e))
      let n := v / fpOne
      let f := v - n * fpOne
      if f = 0 then roundIeee t (.fin false 1 n) false .rne ftz
      else
        let l := ln2Encl
        roundEncl t false (expEncl ⟨fmulLo f l.lo, fmulHi f l.hi⟩) n ftz 1 arg

/-- log2 of a positive finite value. -/
def log2Conv (t : Nat) (m : Nat) (e : Int) (ftz : Bool) (arg : Nat) : Conv :=
  let b := bitLen m
  let n : Int := e + b - 1
  if m = 2 ^ (b - 1) then roundIeee t (.fin (decide (n < 0)) n.natAbs 0) false .rne ftz
  else
    let v := toFixed ⟨m, 1 - (b : Int)⟩
    let z : Encl := ⟨fdivLo (v - fpOne) (v + fpOne), fdivHi (v - fpOne) (v + fpOne)⟩
    let a := atanhEncl z
    let l := ln2Encl
    let frac : Encl := ⟨fdivLo (2 * a.lo) l.hi, fdivHi (2 * a.hi) l.lo⟩
    let r : Encl := ⟨n * fpOne + frac.lo, n * fpOne + frac.hi⟩
    if 0 ≤ n then roundEncl t false r 0 ftz 2 arg else roundEncl t true ⟨-r.hi, -r.lo⟩ 0 ftz 2 arg

/-- tanh of a finite nonzero magnitude with its sign. -/
def tanhConv (t : Nat) (neg : Bool) (m : Nat) (e : Int) (ftz : Bool) (arg : Nat) : Conv :=
  if magLt 1 6 m e then roundIeee t (justBelow neg 0) true .rne ftz
  else
    let v := toFixed ⟨m, e + 1⟩
    let l := ln2Encl
    let n := v / l.hi
    let r : Encl := ⟨v - n * l.hi, v + 1 - n * l.lo⟩
    let h := expEncl ⟨max 0 r.lo / 2, r.hi / 2 + 1⟩
    let sq (a : Encl) : Encl := ⟨fmulLo a.lo a.lo, fmulHi a.hi a.hi⟩
    let ex := sq h
    let big : Encl := ⟨ex.lo * (2 ^ n.toNat : Nat), ex.hi * (2 ^ n.toNat : Nat)⟩
    roundEncl t neg ⟨fdivLo (big.lo - fpOne) (big.lo + fpOne), fdivHi (big.hi - fpOne) (big.hi + fpOne)⟩ 0 ftz 3 arg

/-- The alternating series Σ (−1)^n x^(2n+1) / (n! (2n+1)) of erf at x in (0, 6): each term off by less than 2^8 units. -/
def erfTerms (x2 : Int) : Nat → Nat → Int → Int → Int
  | 0, _, _, acc => acc
  | f + 1, n, p, acc =>
    let term := p / (2 * n + 1 : Nat)
    erfTerms x2 f (n + 1) (p * x2 / fpOne / (n + 1 : Nat)) (if n % 2 = 0 then acc + term else acc - term)

/-- erf of a finite nonzero magnitude with its sign. -/
def erfConv (t : Nat) (neg : Bool) (m : Nat) (e : Int) (ftz : Bool) (arg : Nat) : Conv :=
  if magLt 6 0 m e then roundIeee t (justBelow neg 0) true .rne ftz
  else
    let v := toFixed ⟨m, e⟩
    let s := erfTerms (v * v / fpOne) 420 0 v 0
    let err : Int := 2 ^ 80
    let pi := piEncl
    let rootLo : Int := Nat.sqrt (pi.lo * fpOne).toNat
    let rootHi : Int := Nat.sqrt (pi.hi * fpOne).toNat + 1
    roundEncl t neg ⟨fdivLo (2 * (s - err)) rootHi, fdivHi (2 * (s + err)) rootLo⟩ 0 ftz 4 arg

/-- The special functions of R223 on an element code: VRCP and VRSQ round in the direction given, the others to nearest
even. 0 VRCP, 1 VRSQ, 2 VEXP2, 3 VLOG2, 4 VTANH, 5 VERF. -/
def specialConv (fn t : Nat) (a : FVal) (r : Rnd) (ftz : Bool) (arg : Nat) : Conv :=
  let one := (roundIeee t (.fin false 1 0) false .rne ftz).code
  match fn, a with
  | _, .nan => .ok (nanCode t) false false
  | 0, .inf n => .ok (zeroCode t n) false false
  | 0, .fin n m e =>
    if m = 0 then .ok (infCode t n) false false
    else let (q, k, st) := divMag 1 m 64
         roundIeee t (.fin n q (k - e)) st r ftz
  | 1, .inf n => if n then .ok (nanCode t) true false else .ok (zeroCode t false) false false
  | 1, .fin n m e =>
    if m = 0 then .ok (infCode t n) false false
    else if n then .ok (nanCode t) true false
    else
      let (m, e) := if e % 2 = 0 then (m, e) else (2 * m, e - 1)
      let k := 64 + bitLen m
      let q := Nat.sqrt (2 ^ (2 * k) / m)
      roundIeee t (.fin false q (-(k : Int) - e / 2)) (decide (q * q * m ≠ 2 ^ (2 * k))) r ftz
  | 2, x => exp2Conv t x ftz arg
  | 3, .inf n => if n then .ok (nanCode t) true false else .ok (infCode t false) false false
  | 3, .fin n m e =>
    if m = 0 then .ok (infCode t true) false false
    else if n then .ok (nanCode t) true false
    else log2Conv t m e ftz arg
  | 4, .inf n => .ok (one + if n then (fmtOf t).signBit else 0) false false
  | 4, .fin n m e => if m = 0 then .ok (zeroCode t n) false false else tanhConv t n m e ftz arg
  | _, .inf n => .ok (one + if n then (fmtOf t).signBit else 0) false false
  | _, .fin n m e => if m = 0 then .ok (zeroCode t n) false false else erfConv t n m e ftz arg

end Sys2Proof.Machine
end

