-- ==== Sys2Proof/Machine/FeRecord.lean ====
section
/-!
DEFINITION. The fitting engine's records and arithmetic: region records in the FE area (R340 to R342), binding and
release (R343), the surrogate network (R348) and its SGD step (R349).
-/
namespace Sys2Proof.Machine

/-! ### Surrogate arithmetic (R348, R349) -/

/-- The number of inputs and units of each layer (R341). -/
def layerDims (d : Region319) : List (Nat × Nat) := (d.nin :: d.widths).zip d.widths

/-- The number of weights and biases of a region (R341). -/
def weightCount (d : Region319) : Nat := (layerDims d).foldl (fun n io => n + io.1 * io.2 + io.2) 0

/-- Split the flat weights into layers: rows of inputs per unit, then biases (R341). -/
def splitWeights : List (Nat × Nat) → List (BitVec 32) → List (List (List (BitVec 32)) × List (BitVec 32))
  | [], _ => []
  | (i, o) :: dims, ws =>
    let rows := (List.range o).map fun u => (ws.drop (u * i)).take i
    let rest := ws.drop (o * i)
    (rows, rest.take o) :: splitWeights dims (rest.drop o)

/-- The value of F32 bits. -/
def val32 (x : BitVec 32) : FVal := f32 x.toNat

/-- Rounded to F32, nearest even, the canonical NaN (R348). -/
def round32 (x : FVal) : BitVec 32 := BitVec.ofNat 32 (rne32 x)

/-- z[o] = round(b[o] + exact sum of W[o][i] × x[i]) (R348). -/
def unitSum (ws xs : List (BitVec 32)) (b : BitVec 32) : BitVec 32 :=
  let prods := (ws.zip xs).map fun wx => (fmul (val32 wx.1) (val32 wx.2)).1
  round32 (fadd (val32 b) (exactSum prods).1 false).1

/-- act_l of R348: 0 identity, 1 ReLU, 2 tanh. -/
def activate (act : Nat) (z : BitVec 32) : BitVec 32 :=
  match act with
  | 0 => z
  | 1 => if fltVal (.fin false 0 0) (val32 z) then z else 0
  | _ => BitVec.ofNat 32 (specialConv 4 0 (val32 z) .rne false z.toNat).code

/-- The z and a vectors of every layer for an input vector (R348). -/
def forwardAll : List (List (List (BitVec 32)) × List (BitVec 32)) → List Nat → List (BitVec 32) →
    List (List (BitVec 32) × List (BitVec 32))
  | [], _, _ => []
  | (rows, bs) :: ls, acts, xs =>
    let z := (rows.zip bs).map fun rb => unitSum rb.1 xs rb.2
    let a := z.map (activate (acts.headD 0))
    (z, a) :: forwardAll ls acts.tail a

/-- The surrogate's results, in OUT order (R348). -/
def surrogate (d : Region319) (ws xs : List (BitVec 32)) : List (BitVec 32) :=
  ((forwardAll (splitWeights (layerDims d) ws) d.acts xs).getLastD ([], [])).2

/-- act' of R349 at z with a = act(z). -/
def activate' (act : Nat) (z a : BitVec 32) : BitVec 32 :=
  match act with
  | 0 => 0x3F800000
  | 1 => if fltVal (.fin false 0 0) (val32 z) then 0x3F800000 else 0
  | _ => round32 (fadd (f32 0x3F800000) (val32 (round32 (fmul (val32 a) (val32 a)).1)).negate false).1

/-- round(x × y). -/
def mul32 (x y : BitVec 32) : BitVec 32 := round32 (fmul (val32 x) (val32 y)).1

/-- round(x − y). -/
def sub32 (x y : BitVec 32) : BitVec 32 := round32 (fadd (val32 x) (val32 y).negate false).1

/-- The d vectors of a sample, last layer first, by R349. -/
def deltas (layers : List (List (List (BitVec 32)) × List (BitVec 32))) (acts : List Nat)
    (za : List (List (BitVec 32) × List (BitVec 32))) (t : List (BitVec 32)) : List (List (BitVec 32)) :=
  let zip3 := (layers.zip acts).zip za
  let step (acc : List (List (BitVec 32)) × Option (List (List (BitVec 32)))) 
      (x : ((List (List (BitVec 32)) × List (BitVec 32)) × Nat) × (List (BitVec 32) × List (BitVec 32))) :
      List (List (BitVec 32)) × Option (List (List (BitVec 32))) :=
    let (z, a) := x.2
    let act := x.1.2
    match acc.2, acc.1 with
    | some next, dn :: _ =>
      let d := (List.range z.length).map fun i =>
        let s := (exactSum ((next.zip dn).map fun wd => (fmul (val32 (wd.1.getD i 0)) (val32 wd.2)).1)).1
        mul32 (activate' act (z.getD i 0) (a.getD i 0)) (round32 s)
      (d :: acc.1, some x.1.1.1)
    | _, _ =>
      let d := (List.range z.length).map fun o =>
        mul32 (sub32 (a.getD o 0) (t.getD o 0)) (activate' act (z.getD o 0) (a.getD o 0))
      (d :: acc.1, some x.1.1.1)
  (zip3.reverse.foldl step ([], none)).1

/-- A weight after a step: round(w − G × 2 × 2^−LREXP / (B × NOUT)), formed exactly and rounded once (R349). The exact
value is w − G·2^(1−LREXP)/(B·NOUT), a quotient by B·NOUT; of the zeros only −0 − (+0) is −0. -/
def stepWeight (d : Region319) (w g : BitVec 32) : BitVec 32 :=
  match val32 w, val32 g with
  | .fin nw mw ew, .fin ng mg eg =>
    let den := d.batch * d.nout
    let a : Dy := ⟨(FVal.dy (.fin nw mw ew)).m * den, ew⟩
    let b : Dy := ⟨-(FVal.dy (.fin ng mg eg)).m, eg + 1 - d.lrexp⟩
    let num := Dy.add a b
    if num.m = 0 then if w = 0x80000000 ∧ g = 0 then w else round32 (.fin false 0 0)
    else
      let (q, k, st) := divMag num.m.natAbs den 64
      BitVec.ofNat 32 (roundIeee 0 (.fin (decide (num.m < 0)) q (num.e + k)) st .rne false).code
  | x, y => round32 (fadd x y.negate false).1

/-- One SGD step over a batch of samples, each inputs then results: the new flat weights (R349). -/
def sgdStep (d : Region319) (ws : List (BitVec 32)) (samples : List (List (BitVec 32))) : List (BitVec 32) :=
  let layers := splitWeights (layerDims d) ws
  let runs := samples.map fun s =>
    let xs := s.take d.nin
    let za := forwardAll layers d.acts xs
    (xs :: za.map (·.2), deltas layers d.acts za (s.drop d.nin))
  let layer (l : Nat) (wb : List (List (BitVec 32)) × List (BitVec 32)) : List (BitVec 32) :=
    let ds := runs.map fun r => r.2.getD l []
    let as := runs.map fun r => r.1.getD l []
    let rows := ((List.range wb.1.length).map fun o =>
      let row := wb.1.getD o []
      (List.range row.length).map fun i =>
        let g := round32 (exactSum ((ds.zip as).map fun da => (fmul (val32 (da.1.getD o 0)) (val32 (da.2.getD i 0))).1)).1
        stepWeight d (row.getD i 0) g).flatten
    let bs := (List.range wb.2.length).map fun o =>
      let g := round32 (exactSum (ds.map fun dl => val32 (dl.getD o 0))).1
      stepWeight d (wb.2.getD o 0) g
    rows ++ bs
  (((List.range layers.length).zip layers).map fun lw => layer lw.1 lw.2).flatten

/-- The error of a sample: the largest round(|surrogate − true|), NaN if any is NaN (R349). -/
def sampleError (sur tru : List (BitVec 32)) : BitVec 32 :=
  let ds := (sur.zip tru).map fun st => (sub32 st.1 st.2) &&& 0x7FFFFFFF
  if ds.any fun x => (val32 x).isNan then 0x7FC00000
  else ds.foldl (fun m x => if fltVal (val32 m) (val32 x) then x else m) 0

/-! ### Records (R341, R342) -/

/-- The weights that the engine makes itself: (((5o + 3i) mod 16) − 7.5) × 2^−6, biases +0 (R342). -/
def ownWeights (d : Region319) : List (BitVec 32) :=
  ((layerDims d).map fun io =>
    ((List.range io.2).map fun o => (List.range io.1).map fun i =>
      let v : Int := 2 * (((5 * o + 3 * i) % 16 : Nat) : Int) - 15
      round32 ((⟨v, -7⟩ : Dy).val false)).flatten ++ List.replicate io.2 0).flatten

/-- An initialised record of a region (R342). -/
def freshRecord (gang : Nat) (n : BitVec 4) (ctx : BitVec 6) (d : Region319) (handle : Word) : FeRec :=
  { gang := gang, region := n, ctx := ctx, desc := d, state := 1, flags := d.flags, sexp := d.sexp, trip := d.trip,
    invoc := 0, sampled := 0, stepsDone := 0, ncap := 0, nval := 0, lasterr := 0, trips := 0, handle := handle,
    weights := d.weights.getD (ownWeights d), capture := [], vbuf := [], batch := none }

/-- The address of a region's record (R340). -/
def recordVa (s : State) (ctx : BitVec 6) (n : BitVec 4) : Nat :=
  (s.ctx ctx).fearea.toNat + 0x1000 + 0x20000 * n.toNat

/-- The first 0x28 bytes of a record, with BOUND as given (R341). -/
def recordHead (r : FeRec) (bound : Bool) : List Byte :=
  [BitVec.ofNat 8 r.state, r.flags.setWidth 8, BitVec.ofNat 8 r.sexp, if bound then 1 else 0] ++
  bvBytes 4 r.trip ++ leBytes 4 (r.invoc % 2 ^ 28) ++ leBytes 4 (r.sampled % 2 ^ 24) ++ leBytes 4 r.stepsDone ++
  leBytes 2 r.ncap ++ leBytes 2 r.nval ++ bvBytes 4 r.lasterr ++ leBytes 4 r.trips ++ bvBytes 8 r.handle

/-- Words as little-endian bytes. -/
def wordsBytes (ws : List (BitVec 32)) : List Byte := (ws.map fun w => bvBytes 4 w).flatten

/-- Little-endian bytes as 32-bit words. -/
def bytesWords : Nat → List Byte → List (BitVec 32)
  | 0, _ => []
  | n + 1, bs => BitVec.ofNat 32 (leVal (bs.take 4)) :: bytesWords n (bs.drop 4)

/-- Write a record to the FE area (R341): head, weights, capture buffer, validation buffer. -/
def writeRecord (c : CoreId) (r : FeRec) (bound : Bool) (s : State) : R State := do
  let va := recordVa s r.ctx r.region
  let s ← globalWrite c r.ctx (va + 0x100) (wordsBytes r.weights) false s
  let s ← globalWrite c r.ctx (va + 0x8000) (wordsBytes r.capture.flatten) false s
  let s ← globalWrite c r.ctx (va + 0x14000) (wordsBytes r.vbuf.flatten) false s
  globalWrite c r.ctx va (recordHead r bound) false s

/-- Put a sample at a place of a buffer; the places behind it keep what they hold (R341, log entry 45). -/
def putSample (buf : List (List (BitVec 32))) (i : Nat) (x : List (BitVec 32)) : List (List (BitVec 32)) :=
  buf.take i ++ [x] ++ buf.drop (i + 1)

/-- The step that a record has taken into its working store, completed (R347, R349): STEPSDONE counts it; the last one
moves to VALIDATE; a batch that is complete by then starts the next step. -/
def completeStep (r : FeRec) : FeRec :=
  match r.batch with
  | none => r
  | some b =>
    let ws := sgdStep r.desc r.weights b
    let done := r.stepsDone + 1
    if done = r.desc.steps then
      { r with weights := ws, batch := none, stepsDone := done, state := 3, nval := 0, lasterr := 0 }
    else if r.ncap = r.desc.batch then
      { r with weights := ws, batch := some (r.capture.take r.desc.batch), ncap := 0, stepsDone := done }
    else { r with weights := ws, batch := none, stepsDone := done }

/-- Release a bound record: any step in progress completes, and one that starts at its end (R347); the record is written with BOUND = 0; a failing write leaves
the FE area as it stands and is logged with SRC 4 (R343). -/
def releaseRecord (c : CoreId) (r : FeRec) (s : State) : State :=
  match writeRecord c (completeStep (completeStep r)) false s with
  | .ok s => s
  | .error _ => logError 4 0 0 r.ctx.toNat 0xFFFF s

/-- Release every record a gang has bound at its cluster (R343). -/
def releaseGang (num : Nat) (c : CoreId) (s : State) : State :=
  let k := clusterOf c
  let s := ((s.cluster k).fe.filter fun r => decide (r.gang = num)).foldl (fun s r => releaseRecord c r s) s
  s.updCluster k fun cl => { cl with fe := cl.fe.filter fun r => decide (r.gang ≠ num) }

end Sys2Proof.Machine
end

