-- ==== Sys2Proof/Machine/Kill.lean ====
section
/-!
DEFINITION. Unsubscribing a slot (R87), the end writes of a copy channel (R273, R403), and the kill of a node (R404).
-/
namespace Sys2Proof.Machine

/-! ### Standing-load slots (R81, R87, R88) -/

/-- The 8 bytes of a slot in the stash. -/
def slotWord (k : Core) (i : BitVec 4) : Word := BitVec.ofNat 64 (leVal (k.stash.bytes (vget i k.slots).sa.toNat 8))

/-- Rewrite the 8 bytes of a slot in one stash write, poisoned if the word pushed is (R83, R93). -/
def putSlotWord (c : CoreId) (i : BitVec 4) (w : Word) (s : State) (bad : Bool := false) : State :=
  stashRaw c (vget i (s.coreAt c).slots).sa.toNat (bvBytes 8 w) bad s

/-- Change a slot. -/
def updSlot (c : CoreId) (i : BitVec 4) (f : Slot → Slot) (s : State) : State :=
  s.updCore c fun k => { k with slots := vset i (f (vget i k.slots)) k.slots }

/-- Write a push into a slot: the sticky flags are ORed, VALUE and SEQ overwritten; OVR if the slot was not read; the
mark is cleared (R81, R83, R84). -/
def pushSlot (c : CoreId) (i : BitVec 4) (value : BitVec 32) (bad : Bool) (stores : Nat) (coal : Bool) (s : State) : State :=
  let w := slotWord (s.coreAt c) i
  let seq := w.extractLsb' 32 16 + BitVec.ofNat 16 stores
  let ovr := w.getLsbD 60 || !(vget i (s.coreAt c).slots).read
  let flags : BitVec 6 := w.extractLsb' 62 2 ++ BitVec.ofBool (w.getLsbD 61 || coal) ++ BitVec.ofBool ovr ++
    w.extractLsb' 58 2
  let w' : Word := flags ++ w.extractLsb' 48 10 ++ seq ++ value
  updSlot c i (fun l => { l with read := false }) (putSlotWord c i w' s bad)

/-- The value of a subscribed word at its home with its poison, window holders recalled (R59, R83, R93). -/
def subValue (u : Sub) (s : State) : State × BitVec 32 × Bool :=
  let (s, bs, bad) := homeRead u.word .lcl 4 false s
  (s, BitVec.ofNat 32 (leVal bs), bad)

/-- Deliver the pushes pending for a subscriber as one (R83). -/
def deliverPush (c : CoreId) (i : BitVec 4) (s : State) : State :=
  match s.subs.find? fun u => decide (u.core = c) && decide (u.slot = i) with
  | none => s
  | some u =>
    if u.pending = 0 then s
    else
      let (s, v, bad) := subValue u s
      let s := { s with subs := s.subs.map fun x =>
        if x.core = c ∧ x.slot = i then { x with pending := 0, coal := false, last := v } else x }
      pushSlot c i v bad u.pending u.coal s

/-- UNSTAND of a slot: pushes in flight are written, the home's entry is removed, ACTIVE is cleared (R87). -/
def unsubscribe (c : CoreId) (i : BitVec 4) (s : State) : State :=
  if (vget i (s.coreAt c).slots).active then
    let s := deliverPush c i s
    let s := { s with subs := s.subs.filter fun u => !(decide (u.core = c) && decide (u.slot = i)) }
    let w := slotWord (s.coreAt c) i
    updSlot c i (fun l => { l with active := false }) (putSlotWord c i (w &&& 0x7FFFFFFFFFFFFFFF) s)
  else s

/-- UNSTAND of every slot of a core (R48, R87). -/
def unsubscribeAll (c : CoreId) (s : State) : State :=
  (List.range 16).foldl (fun s i => unsubscribe c (BitVec.ofNat 4 i) s) s

/-! ### Copy channels -/

/-- Change a channel. -/
def updChan (c : CoreId) (n : BitVec 3) (f : Chan → Chan) (s : State) : State :=
  s.updCore c fun k => { k with chans := vset n (f (vget n k.chans)) k.chans }

/-- A channel's read: the stash of its core, or global memory at the home (R275). -/
def chanRead (c : CoreId) (ea : Word) (n : Nat) (s : State) (bypass : Bool := false) : R (State × List Byte × Bool) := do
  match ← decodeEA ea with
  | .stash a => stashReadMany c a n s
  | .global va => globalRead c (s.coreAt c).ctx va n s bypass

/-- A channel's write: the stash of its core, or global memory at the home (R275). -/
def chanWrite (c : CoreId) (ea : Word) (bs : List Byte) (bad : Bool) (s : State) : R State := do
  match ← decodeEA ea with
  | .stash a => (granuleParts a bs.length).foldlM (fun s p => stashWrite c (a + p.1) ((bs.drop p.1).take p.2) bad s) s
  | .global va => globalWrite c (s.coreAt c).ctx va bs bad s

/-- The ctl word with STATUS set and OWN = 0 (R140, R273). -/
def ctlDone (ctl : Word) (status : Byte) : Word :=
  (ctl &&& 0x7F00FFFFFFFFFFFF) ||| (status.setWidth 64 <<< 48)

/-- Write RESULT. -/
def writeResult (c : CoreId) (va : Word) (result : Word) (s : State) : R State :=
  chanWrite c (va + 0x78) (bvBytes 8 result) false s

/-- Write ctl with STATUS and OWN = 0 as one 8-byte write. -/
def writeCtl (c : CoreId) (va : Word) (status : Byte) (s : State) : R State := do
  let (s, bs, _) ← chanRead c (va + 8) 8 s
  chanWrite c (va + 8) (bvBytes 8 (ctlDone (BitVec.ofNat 64 (leVal bs)) status)) false s

/-- A write that a channel cannot make is left out. -/
def attempt (f : State → R State) (s : State) : State :=
  match f s with
  | .ok s' => s'
  | .error _ => s

/-- What a kill writes to a channel's current record: RESULT and ctl with OWN = 0; a record halted by COPY_XLATE keeps 0x10, any
other in progress or not yet begun takes COPY_RANGE. A record that has ended, or whose end writes failed, is not written
(R273, R403, R404). -/
def endRecordWrites (c : CoreId) (ch : Chan) (s : State) : State :=
  if ch.twait then s
  else match ch.state, ch.resume with
    | .walk, some (.writes _ _ _ _) => s
    | .walk, _ => attempt (writeCtl c ch.va cCopyRange) (attempt (writeResult c ch.va 0) s)
    | .halted, some (.record _) => attempt (writeCtl c ch.va cCopyXlate) s
    | .halted, some .read => attempt (writeCtl c ch.va cCopyXlate) s
    | _, _ => s

/-- End a channel's current record as a kill or CPS.START does, without an arrival (R403, R404); FENCEM's marker counts it
(R178). -/
def endRecord (c : CoreId) (n : BitVec 3) (s : State) : State :=
  let open_ (ch : Chan) : Bool := !ch.twait && (decide (ch.state = .walk) || (decide (ch.state = .halted) && ch.resume.isSome))
  updChan c n (fun ch => { ch with
      state := .idle, resume := none, wmark := 0, stopAt := false, twait := false,
      ended := if open_ ch then ch.ended + 1 else ch.ended })
    (endRecordWrites c (vget n (s.coreAt c).chans) s)

/-! ### Kill (R404) -/

/-- Empty every queue and FIFO of a core without running the entries. Its sampler requests complete with the stop of the contexts
(R404); every other request in flight completes, its element discarded. -/
def emptyQueues (k : Core) : Core :=
  { k with
    eng := { k.eng with
      vlq := { k.eng.vlq with entries := [], msgs := [], halted := false, skipTo := none },
      vaq := { k.eng.vaq with entries := [], msgs := [], halted := false, skipTo := none },
      vsq := { k.eng.vsq with entries := [], msgs := [], halted := false, skipTo := none },
      mxq := [], mxHalted := false, fifos := Vector.replicate 6 [] },
    xs := { k.xs with runs := [], active := false, halted := false },
    rg := { k.rg with boost := [], run := [], sup := false, status := .killed },
    pend := [], taken := [], fence := none, inv := none,
    reqs := (k.reqs.filter fun r => decide (r.eng ≠ .sampler)).map fun r => { r with nores := true } }

/-- The requests of a core that have completed leave it (R172, R404). -/
def dropDone (k : Core) : Core := { k with reqs := k.reqs.filter fun r => !(r.nores && r.result.isSome) }

/-- Kill one member: its sequencer stops, queues empty, channels end their records, windows write back, slots
unsubscribe (R404). -/
def killCore (c : CoreId) (s : State) : State :=
  let s := s.updCore c fun k => dropDone (emptyQueues k)
  let s := (List.range 8).foldl (fun s n => endRecord c (BitVec.ofNat 3 n) s) s
  let s := drainStores c s
  unsubscribeAll c (unmapAll c s)

/-- Set STATE and CODE of a boot mailbox, GO reading 0 (R395). -/
def setBoot (c : CoreId) (state : BitVec 8) (code : Byte) (s : State) : State :=
  s.updCore c fun k => { k with boot := { k.boot with state := state, code := code, go := false } }

/-- Kill the gang that runs a node; `code` goes to its error-log entry (R404). A gang that is not yet started starts no more. The
cores are free once their requests have completed (CORE_FINISH). -/
def killGang (g : Gang) (code : Cause) (core : Nat) (s : State) : State :=
  let s := g.members.foldl (fun s c => setBoot c 5 code (killCore c s)) s
  let k : Fin 32 := g.cluster.toFin
  let s := g.smp.foldl (fun s i => smpPut k i { smpGet s k i with run := 0 } s) s
  let s := match g.members with
    | c :: _ => releaseGang g.num c s
    | [] => s
  nodeFailed g.node 1 code core (updGang g.num (fun g => { g with state := .killed }) s)

/-- Kill the node that holds a core (R51, R405). A core without a gang only stops, and the entry names no node. -/
def killNodeOf (c : CoreId) (code : Cause) (s : State) : State :=
  match gangOf s c with
  | some g => killGang g code c.val s
  | none => logError 1 code 0 (s.coreAt c).ctx.toNat c.val (killCore c s)

end Sys2Proof.Machine
end

