-- ==== Sys2Proof/Machine/Operands.lean ====
section
/-!
DEFINITION. Operand access of the sequencer: registers and predicates with boost shadows (R38, R41), guards (R129),
declared registers (R49), the PC with the loop records that watch it (R34).
-/
namespace Sys2Proof.Machine

/-! ### Registers -/

/-- The shadow of a destination at one level (R38). -/
def shadowAt (boost : List Shadow) (dst : ShadowDst) (l : Nat) : Option Shadow :=
  boost.find? fun x => decide (x.dst = dst) && decide (x.lvl.toNat = l)

/-- The highest valid shadow of a destination at levels 1 to `l` (R38). -/
def shadowUpTo (boost : List Shadow) (dst : ShadowDst) : Nat → Option Shadow
  | 0 => none
  | l + 1 => match shadowAt boost dst (l + 1) with
    | some x => some x
    | none => shadowUpTo boost dst l

/-- A g register as an instruction at a boost level reads it: g0 is 0 (R12, R38, R144). -/
def readG (k : Core) (lvl : Nat) (r : Reg) : PReg :=
  if r = 0 then ⟨0, false⟩
  else match shadowUpTo k.rg.boost (.g r) lvl with
    | some x => ⟨x.val, x.bad⟩
    | none => vget r k.rg.g

/-- A predicate as an instruction at a boost level reads it: k0 is 1 (R12, R38, R144). -/
def readK (k : Core) (lvl : Nat) (t : BitVec 3) : PBit :=
  if t = 0 then ⟨true, false⟩
  else match shadowUpTo k.rg.boost (.k t) lvl with
    | some x => ⟨x.val.getLsbD 0, x.bad⟩
    | none => vget t k.rg.k

/-- An architected register of the current core. -/
def State.g (s : State) (r : Reg) : PReg := readG s.core 0 r

/-- An architected predicate of the current core. -/
def State.k (s : State) (t : BitVec 3) : PBit := readK s.core 0 t

/-- Write an architected register; a write to g0 is discarded (R144). -/
def State.setG (s : State) (r : Reg) (v : PReg) : State :=
  if r = 0 then s else s.updRg fun x => { x with g := vset r v x.g }

/-- Write an architected predicate; a write to k0 is discarded (R144). -/
def State.setK (s : State) (t : BitVec 3) (v : PBit) : State :=
  if t = 0 then s else s.updRg fun x => { x with k := vset t v x.k }

/-- Put a shadow: one entry for a destination and level, last in execution order (R38, R41). -/
def putShadow (x : Shadow) (s : State) : State :=
  s.updRg fun r => { r with boost := (r.boost.filter fun y => !(decide (y.dst = x.dst) && decide (y.lvl = x.lvl))) ++ [x] }

/-- Write a register at a boost level (R38, R144). -/
def writeG (bl : BitVec 2) (r : Reg) (v : PReg) (s : State) : State :=
  if bl = 0 then s.setG r v
  else if r = 0 then s
  else putShadow ⟨bl, .g r, v.val, v.bad, none, s.pc⟩ s

/-- Write a predicate at a boost level (R38, R144). -/
def writeK (bl : BitVec 2) (t : BitVec 3) (v : PBit) (s : State) : State :=
  if bl = 0 then s.setK t v
  else if t = 0 then s
  else putShadow ⟨bl, .k t, if v.val then 1 else 0, v.bad, none, s.pc⟩ s

/-- A register used as an address, a target or a loop field must not be poisoned (R94). -/
def clean (v : PReg) : R Word := if v.bad then raise cPoison 0 else .ok v.val

/-- A constant operand. -/
def constReg (w : Word) : PReg := ⟨w, false⟩

/-! ### Declared registers (R49) -/

/-- A register lies within the declaration: gi with i below GREGS, g30 and g31. -/
def regDeclared (d : Decl) (r : Reg) : Bool := decide (r.toNat < d.gregs) || decide (30 ≤ r.toNat)

/-- Every register that an instruction names lies within the declaration, or ILLEGAL_REG (R49, R127 step 3). Supervisor
code is not bound by the user image's declaration (log entry 11). -/
def checkRegs (s : State) (rs : List Reg) : R Unit :=
  need (s.core.rg.sup || rs.all (regDeclared s.core.decl)) cIllegalReg (zext64 s.pc)

/-! ### The PC and loop records (R34) -/

/-- The index register of a record after one automatic increment (R34). -/
def ixStep (r : LoopRec) (s : State) : State :=
  if r.ixen then let v := s.g r.ixreg
                 s.setG r.ixreg ⟨v.val + sext64 r.ixstep, v.bad⟩
  else s

/-- Replace the innermost record. -/
def setTop (r : LoopRec) (s : State) : State :=
  s.updRg fun x => { x with loops := match x.loops with
    | [] => []
    | _ :: rest => r :: rest }

/-- Pop the innermost record and go to its return address, which is no boundary of the record around it (R34, R44). -/
def popLoop (s : State) (ret : BitVec 32) : State :=
  s.updRg fun x => { x with loops := x.loops.tail, pc := ret.setWidth 16, bound := false }

/-- The epilogue is entered with iter = TRIP; an empty one ends at once, and `again` looks at the return address (R34). -/
def enterEpilogue (again : State → State) (r : LoopRec) (s : State) : State :=
  let s := (setTop { r with phase := .epilogue } s).updRg fun x => { x with bound := true }
  if r.estart = r.eend then again (popLoop s r.ret) else s

/-- What the innermost record does when the PC has reached an address, by fall-through or by a branch (R34): KSTART ends
the prologue, ESTART ends a kernel iteration or enters the epilogue, EEND ends the record, wherever the PC fell from. With TRIP 0
a fall-through to KSTART goes to ESTART from any part of the record. A return of a popped record counts as a fall-through for the
record around it (DESIGN CHOICE, log entry 12). -/
def watchLoop : Nat → Bool → State → State
  | 0, _, s => s
  | n + 1, fall, s =>
    match s.core.rg.loops with
    | [] => s
    | r :: _ =>
      let pc := s.pc.setWidth 32
      if r.phase ≠ .epilogue ∧ pc = r.estart then
        if r.iter < r.trip then
          let s := ixStep r s
          let r := { r with iter := r.iter + 1, phase := .kernel }
          if r.iter < r.trip then
            (setTop r s).updRg fun x => { x with pc := r.kstart.setWidth 16, bound := true }
          else enterEpilogue (watchLoop n true) r s
        else enterEpilogue (watchLoop n true) r s
      else if r.trip = 0 ∧ pc = r.kstart ∧ pc ≠ r.estart ∧ fall then
        watchLoop n true (s.updRg fun x => { x with pc := r.estart.setWidth 16 })
      else if r.phase = .prologue ∧ pc = r.kstart ∧ fall then
        (setTop { r with phase := .kernel } s).updRg fun x => { x with bound := true }
      else if pc = r.eend ∧ fall then
        watchLoop n true (popLoop s r.ret)
      else s

/-- Go to an address; the loop stack is frozen in supervisor mode (R34, R166). -/
def goTo (target : BitVec 16) (fall : Bool) (s : State) : State :=
  let s := s.updRg fun x => { x with pc := target, bound := false }
  if s.core.rg.sup then s else watchLoop 16 fall s

/-- Fall through to the instruction `len` bytes on. The PC has 16 bits (R12), so that supervisor code that ends at 0xFFFF goes on at
address 0 (DESIGN CHOICE, log entry 70). -/
def advance (len : Nat) (s : State) : State := goTo (s.pc + BitVec.ofNat 16 len) true s

/-! ### Boosted execution (R38 to R41) -/

/-- Discard all boost state (R39, R43). -/
def discardBoost (s : State) : State := s.updRg fun r => { r with boost := [] }

/-- Run an instruction at a boost level: its fault, if any, is recorded in its shadow entry with a free value (R41);
`body` computes the state after the write, before the PC advances. -/
def boosted (bl : BitVec 2) (dst : ShadowDst) (body : State → R State) (s : State) : R State :=
  if bl = 0 then body s
  else match body s with
    | .ok s' => .ok s'
    | .error .stall => wait
    | .error (.trap t) =>
      let (v, s) := (countTrap t s).drawWord
      .ok (putShadow ⟨bl, dst, v, false, some (t.cause, t.addr), s.pc⟩ s)

/-- Evaluate a guard at a boost level (R129); a poisoned guard predicate faults POISON_CONSUMED (R94). -/
def guardHolds (s : State) (lvl : Nat) (gd : Guard) : R Bool :=
  let p := readK s.core lvl gd.kg
  if p.bad then raise cPoison 0 else .ok (p.val != gd.kn)

/-- The common frame of a sequencer instruction: ILLEGAL_INSTR for a boost level in supervisor mode (R40), the register
check, the guard, the execution and the PC (R127). -/
def instruction (len : Nat) (bl : BitVec 2) (dst : ShadowDst) (regs : List Reg) (gd : Guard) (body : State → R State)
    (s : State) : R State := do
  need (!(decide (bl ≠ 0) && s.core.rg.sup)) cIllegalInstr (zext64 s.pc)
  checkRegs s regs
  let s' ← boosted bl dst (fun s => do
    if ← guardHolds s bl.toNat gd then body s else .ok s) s
  .ok (advance len s')

/-- An instruction that is neither guarded nor boosted. -/
def plain (len : Nat) (regs : List Reg) (body : State → R State) (s : State) : R State :=
  instruction len 0 (.g 0) regs ⟨0, false⟩ body s

end Sys2Proof.Machine
end

