-- ==== Sys2Proof/Machine/Ops.lean ====
section
/-!
DEFINITION. The shared operations of the sequencer: fetch (R126), taking a trap and returning from it (R401 to R403,
R206 to R210), pending engine faults (R402), barrier arrivals (R182), requests to the shared engines (R171 to R173), and
the conclusion of a step.
-/
namespace Sys2Proof.Machine

/-! ### Fetch (R126, R50) -/

/-- The trap handler that R375 prints, the runtime's at 0xE000: FIT_TRIP writes TCAUSE and TADDR, counts in NTRIP and returns; any
other cause ends the node. -/
def fitTrap : List Instr :=
  let k7 : Guard := ⟨7, false⟩
  [.sysw .sscr0 26, .sysw .sscr1 27, .addi 1 0 27, .sel k7 0 27 27, .sysw .sscr2 27,
   .sysr .trapcause 26, .andi 0xFF 26 27, .cmpi .ne 0x30 27 7, .br .none k7 13,
   .sysr .nodeArg 27, .st .d 4 27 26, .sysr .trapaddr 26, .st .d 5 27 26, .ld .d 6 27 26, .addi 1 26 26, .st .d 6 27 26,
   .sysr .sscr2 27, .cmpi .ne 0 27 7, .sysr .sscr0 26, .sysr .sscr1 27, .eret,
   .halt]

/-- The units of the handler of R375. -/
def fitTrapUnits : List Unit32 := fitTrap.flatMap fun i => (encodeControl i).getD []

/-- A unit of the supervisor code resident on a core. -/
def residentUnit (r : Resident) (a : Nat) : Unit32 :=
  let unknown : Unit32 := BitVec.ofNat 32 (leVal ((List.range 4).map fun i => Config.supervisorByte (a + i)))
  match r with
  | .fitTrap => fitTrapUnits.getD ((a - 0xE000) / 4) unknown
  | _ => unknown

/-- A unit of control memory: what has been written there, and from 0xE000 up the supervisor code that firmware has loaded,
which nothing overwrites (R50; log entry 60). -/
def controlUnit (k : Core) (a : Nat) : Unit32 :=
  if decide (0xE000 ≤ a) && decide (k.sup ≠ .none) then residentUnit k.sup a else k.cmem.u32 a

/-- Step 1 of R127 refuses an instruction on a core: an encoding that is none, or a stream that its class lacks (R13). -/
def decodeRefused (c : CoreId) : Instr → Bool
  | .reservedOpcode _ | .ill _ => true
  | .mrun _ _ _ => isS c
  | .xrun _ _ _ | .tokSig _ _ | .tokWaitt _ _ => !isS c
  | _ => false

/-- The instruction at the PC of the current core: ILLEGAL_INSTR for a last unit at 0x1_0000 or above, and PRIV for user-mode
units at 0xE000 or above, whose check comes after the decoding (R50, R126, R127). An encoding that is no instruction is
fetched as the row that faults it. -/
def fetch (s : State) : R Instr := do
  let pc := s.pc.toNat
  let unit_ := controlUnit s.core
  let u := unit_ pc
  let last := pc + 4 * (unitCount u - 1)
  need (decide (last < 0x10000)) cIllegalInstr (zext64 s.pc)
  let i := controlInstr u (unit_ (pc + 4)) (unit_ (pc + 8))
  need (s.core.rg.sup || decodeRefused s.me i || decide (last < 0xE000)) cPriv (zext64 s.pc)
  .ok i

/-! ### Taking a trap (R401) -/

/-- TRAPCAUSE as R206 lays it out. -/
def trapCauseWord (t : TrapInfo) : Word :=
  BitVec.ofNat 64 (t.cause.toNat + t.orig.toNat * 2 ^ 8 + t.code.toNat * 2 ^ 16 + t.src % 16 * 2 ^ 30)

/-- Take a trap (R401): TRAPPC, TRAPCAUSE, TRAPADDR and, for BOOST_DEFERRED, BOOSTINFO are written; the mode becomes
supervisor and PC = TRAPVEC; a CPS.STOP that was waiting has had no effect (R187), and a run is frozen (R169). A fault in
supervisor mode halts the core and kills the node (R51). -/
def takeTrap (t : TrapInfo) (s : State) : State :=
  if s.core.rg.sup then killNodeOf s.me t.cause s
  else
    let ret : Word := match t.ret with
      | some a => BitVec.ofNat 64 a
      | none => zext64 s.pc
    let s := s.updSys fun y =>
      { y with trappc := ret, trapcause := trapCauseWord t, trapaddr := t.addr, boostinfo := t.info.getD y.boostinfo }
    let s := s.upd fun k => { k with chans := k.chans.map fun ch => { ch with stopAt := false } }
    s.updRg fun x =>
      { x with sup := true, pc := s.core.sys.trapvec.setWidth 16, bound := false,
               boundAt := if x.bound then some x.pc else none,
               fellTo := if t.fall then t.ret.map (BitVec.ofNat 16) else none,
               run := x.run.map fun r => { r with live := false } }

/-- The end of a step: a completed operation, a trap, or a unit that waits without effect (R187). -/
def conclude (s : State) (r : R State) : Host.Outcome State Fault Refusal :=
  match r with
  | .ok s' => .next s'
  | .error .stall => .next s
  | .error (.trap t) => .next (takeTrap t (countTrap t s))

/-- A step that neither faults nor waits. -/
def settle (s : State) : Host.Outcome State Fault Refusal := .next s

/-! ### Engine faults (R402) -/

/-- The SRC of a unit (R206). -/
def FaultUnit.src : FaultUnit → Nat
  | .queue .vlq => 1
  | .queue .vaq => 2
  | .queue .vsq => 3
  | .mx => 4
  | .chan _ => 5
  | .xseq => 6
  | .sampler _ => 7
  | .ume => 8
  | .fe => 8

/-- A fault is taken before another: it was detected in an earlier core-clock cycle, or in the same one with a lower SRC (R402). -/
def EngFault.before (f x : EngFault) : Bool := decide (f.at_ < x.at_ ∨ (f.at_ = x.at_ ∧ f.unit_.src < x.unit_.src))

/-- Put a fault in its place among pending ones, in order of detection (R402). -/
def insertFault (f : EngFault) : List EngFault → List EngFault
  | [] => [f]
  | x :: xs => if f.before x then f :: x :: xs else x :: insertFault f xs

/-- Hand the faults that a gang holds for its members to them (R406). -/
def handPending (g : Gang) (s : State) : State :=
  let s := g.pending.foldl (fun s cf => s.updCore cf.1 fun k => { k with pend := insertFault cf.2 k.pend }) s
  updGang g.num (fun g => { g with pending := [] }) s

/-- DCC ticks: 650 in a microsecond (R6). -/
def ticksUs (n : Nat) : Nat := 650 * n

/-- Cancel the stop of a gang: every stopped member resumes, its words that waited on a stamp have lost it (R266), and the
request is withdrawn, to be retried no sooner than 100 µs later (R406, R187). -/
def cancelStop (g : Gang) (s : State) : State :=
  let s := handPending g s
  let s := g.members.foldl (fun s c => s.updCore c fun k =>
    if k.rg.status = .stopped then
      { k with rg := { k.rg with status := .running },
               eng := { k.eng with mxq := k.eng.mxq.map fun e => { e with stampLost := true } } }
    else k) s
  updGang g.num (fun g =>
    { g with state := .running, slots := [], retry := s.dcc + BitVec.ofNat 64 (ticksUs 100) }) s

/-- A core has executed HALT: it is halted, or its gang counts it as finished (R48). -/
def afterHalt (c : CoreId) (s : State) : Bool :=
  decide ((s.coreAt c).rg.status = .halted) ||
    match gangOf s c with
    | some g => g.done.contains c
    | none => false

/-- An engine fault becomes pending on a core (R402): it kills the node after HALT, and cancels a stop (R406). -/
def engineFault (c : CoreId) (u : FaultUnit) (cause : Cause) (addr : Word) (s : State) : State :=
  if afterHalt c s then killNodeOf c cause s
  else
    let s := s.updCore c fun k => { k with pend := insertFault ⟨u, cause, addr, s.cycle⟩ k.pend }
    match gangOf s c with
    | some g => if g.state = .stopping then cancelStop g s else s
    | none => s

/-- Let the unit of a delivered fault resume, as R400 and R403 state: queues, a halted matrix engine (its head without its
stamp, R265), a channel halted by COPY_XLATE, the transform sequencer. A unit of which a newer fault waits stays halted. -/
def resumeUnit (c : CoreId) (f : EngFault) (s : State) : State :=
  s.updCore c fun k =>
    if k.pend.any fun x => decide (x.unit_ = f.unit_) then k
    else match f.unit_ with
    | .queue .vlq => { k with eng := { k.eng with vlq := { k.eng.vlq with halted := false } } }
    | .queue .vaq => { k with eng := { k.eng with vaq := { k.eng.vaq with halted := false } } }
    | .queue .vsq => { k with eng := { k.eng with vsq := { k.eng.vsq with halted := false } } }
    | .mx =>
      if k.eng.mxHalted then
        { k with eng := { k.eng with
            mxHalted := false,
            mxq := match k.eng.mxq with
              | [] => []
              | e :: rest => { e with stampLost := true } :: rest } }
      else k
    | .chan n =>
      let ch := vget n k.chans
      if ch.state = .halted ∧ ch.resume.isSome then { k with chans := vset n { ch with state := .walk } k.chans } else k
    | .xseq => { k with xs := { k.xs with halted := false } }
    | .sampler _ => k
    | .ume => k
    | .fe => k

/-- Return from a trap (R210, R403): PC = TRAPPC, user mode, boost state and loop stack unfrozen, engines resumed. A run at
that address goes on from its index (R169). The innermost record watches the arrival as a jump, or as the fall-through that a trap
behind an instruction has put off (R34); a PC that stood at a kernel-iteration boundary when the trap was taken stands there again
(R44). -/
def returnFromTrap (s : State) : R State := do
  let t := s.core.sys.trappc
  need (decide (t.toNat % 4 = 0)) cAlign t
  need (decide (t.toNat < 0xE000)) cPriv t
  let s := s.core.taken.foldl (fun s f => resumeUnit s.me f s) s
  let s := s.upd fun k => { k with taken := [] }
  let pc := t.setWidth 16
  let fell := s.core.rg.fellTo
  let held := s.core.rg.boundAt
  let s := s.updRg fun x =>
    { x with sup := false, fellTo := none, boundAt := none, run := x.run.map fun r => { r with live := decide (r.pc = pc) } }
  let s := goTo pc (decide (fell = some pc)) s
  .ok (s.updRg fun x => { x with bound := x.bound || decide (held = some x.pc) })

/-- The next pending engine fault of the current core in user mode, delivered as a trap at the boundary (R402). -/
def takePending (s : State) : State :=
  match s.core.pend with
  | [] => s
  | f :: rest =>
    if s.core.rg.sup || decide (s.core.rg.status ≠ .running) then s
    else
      takeTrap { cause := f.cause, addr := f.addr, src := f.unit_.src }
        (s.upd fun k => { k with pend := rest, taken := k.taken ++ [f] })

/-! ### Barriers (R182) -/

/-- An arrival at a barrier of a core: none if it is not initialised. -/
def arrive (c : CoreId) (b : BitVec 6) (inc : Nat) (err : Bool) (status : Byte) (source : Nat) (s : State) :
    Option State :=
  let x := vget b (s.coreAt c).bars
  if !x.init then none
  else
    let n := x.arrived.toNat + inc
    let (n, err, status) := if 65535 < n then (65535, true, (0x08 : Byte)) else (n, err, status)
    let x := { x with arrived := BitVec.ofNat 16 n }
    let x := if err && !x.err then { x with err := true, estat := status, esrc := BitVec.ofNat 10 source } else x
    some (s.updCore c fun k => { k with bars := vset b x k.bars })

/-- Write the count word of a barrier. -/
def setCntw (c : CoreId) (b : BitVec 6) (n : BitVec 32) (s : State) : State :=
  s.updCore c fun k => { k with bars := vset b { vget b k.bars with cntw := n } k.bars }

/-- A barrier index lies within a core's declaration (R49). -/
def barDeclared (k : Core) (b : BitVec 6) : Bool := decide (b.toNat < k.decl.barriers)

/-- A barrier is declared and initialised. -/
def barReady (k : Core) (b : BitVec 6) : Bool := barDeclared k b && (vget b k.bars).init

/-! ### Requests (R171 to R173) -/

/-- The code base of R173 that TRAPADDR holds for an engine's objects. -/
def objectCode (e : EngineId) : Nat :=
  match e with
  | .sampler => 0x200
  | .ume => 0x300
  | .pix => 0x400
  | .fe => 0x500

/-- The engine's own object behind a gang-relative number, if it is assigned to the gang (R173): a sampler context of the
cluster, die × 64 + UME context, a PIX tree, an FE region. -/
def objectOf (s : State) (c : CoreId) (e : EngineId) (obj : Nat) : Option Nat :=
  match gangOf s c with
  | none => none
  | some g =>
    match e with
    | .pix => if obj < 8 ∧ g.pixmask.getLsbD obj then some obj else none
    | .sampler => g.smp[obj]?.map (·.toNat)
    | .ume => g.ume[obj]?.map fun i => (dieOf c).val * 64 + i.toNat
    | .fe => if obj < (s.coreAt c).decl.regions.length ∧ obj < 16 then some obj else none

/-- The checks of R173 on a request of the current core. -/
def checkObject (s : State) (e : EngineId) (obj : BitVec 6) : R Nat :=
  match objectOf s s.me e obj.toNat with
  | some t => .ok t
  | none => raise cBarrierBounds (BitVec.ofNat 64 (objectCode e + obj.toNat))

/-- The requests of a core that hold slots of an engine (R172). -/
def slotsTaken (k : Core) (e : EngineId) : Nat := (k.reqs.filter fun r => decide (r.eng = e)).length

/-- Issue a formed request: it waits for one of 16 slots and releases the core's earlier stores (R172, R76). -/
def issue (e : EngineId) (obj : BitVec 6) (target : Nat) (sub : BitVec 4) (nores : Bool) (a b : PReg) (s : State) :
    R State :=
  if 16 ≤ slotsTaken s.core e then wait
  else
    let s := drainStores s.me s
    let r : Req := ⟨e, obj, target, sub, a, b, nores, s.order, none⟩
    .ok { s.upd (fun k => { k with reqs := k.reqs ++ [r] }) with order := s.order + 1 }

/-- An element of a request: STATUS and VALUE (R172). -/
def element (status : Byte) (value : Nat) : Word :=
  if status = 0 then BitVec.ofNat 64 (value % 2 ^ 56) else status.setWidth 64 <<< 56

/-- Complete the request with an arrival number: a nores request frees its slot, another holds its element (R172). -/
def completeReq (c : CoreId) (order : Nat) (e : Word) (bad : Bool) (s : State) : State :=
  s.updCore c fun k =>
    let rs := k.reqs.map fun r => if r.order = order then { r with result := some (e, bad) } else r
    { k with reqs := rs.filter fun r => !(decide (r.order = order) && r.nores) }

/-- A request that yields no element and frees its slot (R139, R199). -/
def dropReq (c : CoreId) (order : Nat) (s : State) : State :=
  s.updCore c fun k => { k with reqs := k.reqs.filter fun r => decide (r.order ≠ order) }

/-- Every core by number. -/
def allCores : List CoreId := List.finRange 320

/-- The oldest request of a list of cores that satisfies a condition and is not complete. -/
def oldestReq (s : State) (cs : List CoreId) (p : CoreId → Req → Bool) : Option (CoreId × Req) :=
  let all := (cs.map fun c => (s.coreAt c).reqs.filterMap fun r =>
    if r.result.isNone && p c r then some (c, r) else none).flatten
  all.foldl (fun best x => match best with
    | none => some x
    | some y => if x.2.order < y.2.order then some x else best) none

/-- The cores of a cluster. -/
def coresOf (k : Fin 32) : List CoreId := (List.finRange 10).map (coreIn k)

/-- The status that a failing access gives a request: MEMFAULT, or POISON (R172), which one in flight at the loss of its port takes
too (R436). -/
def requestStatus (t : TrapInfo) : Byte := if t.cause = cPoison ∨ t.orig = cPoison then 0x07 else 0x05

end Sys2Proof.Machine
end

