-- ==== Sys2Proof/Machine/Memory.lean ====
section
/-!
DEFINITION. Loads, stores, atomics, standing loads and range commands of the sequencer (R155 to R159, R190 to R196), under
the memory rules R52 to R96.
-/
namespace Sys2Proof.Machine

/-! ### Loads (R155 to R159) -/

/-- The width of a load in bytes (R155). -/
def loadWidth : LoadSize → Nat
  | .b | .bs => 1
  | .h | .hs => 2
  | .w | .ws => 4
  | .d => 8

/-- The width of a store in bytes (R155). -/
def storeWidth : StoreSize → Nat
  | .b => 1
  | .h => 2
  | .w => 4
  | .d => 8

/-- The register value of loaded bytes: zero- or sign-extended (R155). -/
def loadExtend (sz : LoadSize) (v : Nat) : Word :=
  match sz with
  | .bs => sext64 (BitVec.ofNat 8 v)
  | .hs => sext64 (BitVec.ofNat 16 v)
  | .ws => sext64 (BitVec.ofNat 32 v)
  | _ => BitVec.ofNat 64 v

/-- Steps 1 and 2 of R157: the address decodes and is a multiple of the width. -/
def checkAddress (ea : Word) (w : Nat) : R EA := do
  let x ← decodeEA ea
  need (decide (ea.toNat % w = 0)) cAlign ea
  .ok x

/-- Count a load issued; a full load FIFO of 32 has retired its oldest (R177). -/
def countLoad (s : State) : State := s.upd fun k => { k with loadsOut := min 32 (k.loadsOut + 1) }

/-- The class of the page that a core's bytes at an address come from: of the granule or the page that a window mirrors, none
for the scratchpad. -/
def readClass (ea : Word) (s : State) : R (Option Region) := do
  let page (va : Nat) : R (Option Region) := do
    let (_, x) ← translate s.me s.core.ctx va .read s
    .ok (some x.region)
  match ← decodeEA ea with
  | .stash a =>
    if a < s.core.decl.stash then .ok none
    else match granFind s s.me (a / 64), winOfStash s.core a with
      | some g, _ => .ok (some g.region)
      | none, some (_, d) => match d.toGlobal a with
        | some va => page va
        | none => .ok none
      | none, none => .ok none
  | .global va =>
    match (winOfGlobal s.core va).bind fun w => granFind s s.me (w.2.2 / 64) with
    | some g => .ok (some g.region)
    | none => page va

/-- A boosted load of a HOST or HOST_WC page performs no access and records PROT, also where a window mirrors the page (R40). -/
def boostAllowed (bl : BitVec 2) (ea : Word) (s : State) : R Unit :=
  if bl = 0 then .ok ()
  else do
    let r ← faultAt ea (readClass ea s)
    need (decide (r ≠ some .host ∧ r ≠ some .hostWc)) cProt ea

/-- The loaded value of an effective address with every step of R157. -/
def loadValue (bl : BitVec 2) (sz : LoadSize) (ea : Word) (s : State) : R (State × PReg) := do
  let _ ← checkAddress ea (loadWidth sz)
  boostAllowed bl ea s
  let (s, bs, bad) ← coreRead s.me .seq ea (loadWidth sz) s
  .ok (countLoad s, ⟨loadExtend sz (leVal bs), bad⟩)

/-- g[rd] = the loaded value (R155, R156). -/
def loadBody (bl : BitVec 2) (sz : LoadSize) (ea : R Word) (rd : Reg) (s : State) : R State := do
  let ea ← ea
  let (s, v) ← loadValue bl sz ea s
  .ok (writeG bl rd v s)

/-- g[ra] + sext(off11) × width (R155). -/
def dispM (a : PReg) (off : BitVec 11) (w : Nat) : R Word := do
  let a ← clean a
  .ok (a + sext64 off * BitVec.ofNat 64 w)

/-- g[ra] + g[rb] + sext(imm16) (R156). -/
def dispX (a b : PReg) (imm : BitVec 16) : R Word := do
  let a ← clean a
  let b ← clean b
  .ok (a + b + sext64 imm)

/-- LD. -/
def execLd (sz : LoadSize) (off : BitVec 11) (ra rd : Reg) (s : State) : Host.Outcome State Fault Refusal :=
  conclude s (plain 4 [rd, ra] (fun s => loadBody 0 sz (dispM (s.g ra) off (loadWidth sz)) rd s) s)

/-- LDX. An acquire orders later accesses after this one, and every later access of the model follows it (R74). -/
def execLdx (sz : LoadSize) (_acq : Bool) (_scope : Scope) (gd : Guard) (bl : BitVec 2) (imm : BitVec 16)
    (rb ra rd : Reg) (s : State) : Host.Outcome State Fault Refusal :=
  conclude s (instruction 8 bl (.g rd) [rd, ra, rb] gd (fun s =>
    loadBody bl sz (dispX (readG s.core bl.toNat ra) (readG s.core bl.toNat rb) imm) rd s) s)

/-! ### Stores (R155 to R158) -/

/-- Store the low bytes of a register with every step of R157; a release waits for every earlier store (R74, R78). -/
def storeBody (sz : StoreSize) (rel : Option Scope) (ea : R Word) (d : PReg) (s : State) : R State := do
  let ea ← ea
  let _ ← checkAddress ea (storeWidth sz)
  let via : Via := match rel with
    | some sc => .release sc
    | none => .seq
  coreWrite s.me via ea (leBytes (storeWidth sz) d.val.toNat) d.bad s

/-- ST. -/
def execSt (sz : StoreSize) (off : BitVec 11) (ra rs : Reg) (s : State) : Host.Outcome State Fault Refusal :=
  conclude s (plain 4 [rs, ra] (fun s => storeBody sz none (dispM (s.g ra) off (storeWidth sz)) (s.g rs) s) s)

/-- STX: rd holds the data. -/
def execStx (sz : StoreSize) (rel : Bool) (scope : Scope) (gd : Guard) (imm : BitVec 16) (rb ra rd : Reg) (s : State) :
    Host.Outcome State Fault Refusal :=
  conclude s (instruction 8 0 (.g 0) [rd, ra, rb] gd
    (fun s => storeBody sz (if rel then some scope else none) (dispX (s.g ra) (s.g rb) imm) (s.g rd) s) s)

/-! ### Store and load completion -/

/-- STORE_ACKNOWLEDGEMENT: the store at a place of the FIFO of the current core becomes visible at its home, if no earlier
one must come first (R72, R78, R83). -/
def execStoreAcknowledgement (i : Nat) (s : State) : Host.Outcome State Fault Refusal :=
  match s.core.stores[i]? with
  | none => settle s
  | some p =>
    if (s.core.stores.take i).any fun q => storeBefore q p then settle s
    else settle (performStore s.me p (s.upd fun k => { k with stores := removeAt k.stores i }))

/-- LOAD_RETURN: the oldest load in flight has returned; its value was bound when it was issued (R72, log entry 7). -/
def execLoadReturn (s : State) : Host.Outcome State Fault Refusal :=
  settle (s.upd fun k => { k with loadsOut := k.loadsOut - 1 })

/-- Perform the buffered stores of the current core that a plain store to a location would follow (R72, R92, R192). -/
def drainBefore (x : Xl) (n : Nat) (s : State) : State :=
  let e := pendingStore s.me .seq x 0 (List.replicate n 0) false s
  drainWhere s.me (fun p => storeBefore p e) s

/-! ### Atomics (R67, R68, R190 to R192) -/

/-- The signed value of a w-byte number. -/
def signedAt (w v : Nat) : Int := if 2 ^ (8 * w - 1) ≤ v then (v : Int) - (2 ^ (8 * w) : Nat) else v

/-- The new value of an atomic, none for a CAS whose comparison fails (R191). -/
def atomNew (op : AtomOp) (w old v cmp : Nat) (ftz : Bool) : Option Nat :=
  match op with
  | .add => some ((old + v) % 2 ^ (8 * w))
  | .and => some (old &&& v)
  | .or => some (old ||| v)
  | .xor => some (old ^^^ v)
  | .min => some (if signedAt w old ≤ signedAt w v then old else v)
  | .max => some (if signedAt w v ≤ signedAt w old then old else v)
  | .minu => some (if old ≤ v then old else v)
  | .maxu => some (if v ≤ old then old else v)
  | .xchg => some v
  | .cas => if old = cmp then some v else none
  | .fadd => some ((roundIeee 0 (fadd (flushIn 0 old ftz) (flushIn 0 v ftz) false).1 false .rne ftz).code)

/-- The operands of an atomic: width, v and the compare value as registers, FTZ. -/
structure AtomArgs where
  op  : AtomOp
  w   : Nat
  v   : PReg
  cmp : PReg
  ftz : Bool
  deriving DecidableEq, Repr

/-- What an atomic does with old bytes: the new bytes if it writes, and their poison; g[rd] and its poison. -/
def AtomArgs.apply (a : AtomArgs) (bs : List Byte) (bad : Bool) : Option (List Byte × Bool) × PReg :=
  let old := leVal bs
  let m := 2 ^ (8 * a.w)
  let p := bad || a.v.bad || (decide (a.op = .cas) && a.cmp.bad)
  ((atomNew a.op a.w old (a.v.val.toNat % m) (a.cmp.val.toNat % m) a.ftz).map fun n => (leBytes a.w n, p),
   ⟨BitVec.ofNat 64 old, p⟩)

/-- An atomic in the stash of the current core; the write keeps R94's check on a window granule (R191). -/
def atomStash (a : AtomArgs) (sa : Nat) (s : State) : R (State × PReg) := do
  let (s, bs, bad) ← stashRead s.me sa a.w s
  stallOnMark s.me sa a.w s
  let (new, v) := a.apply bs bad
  let s := markSlots s.me sa a.w s
  match new with
  | none => .ok (s, v)
  | some (nb, p) => do
    let s ← stashWrite s.me sa nb p s
    .ok (s, v)

/-- An atomic in flight to a port when it is declared dead: g[rd] is poisoned, and whether the device applied it is free (R436). -/
def atomLost (a : AtomArgs) (x : Xl) (s : State) : State × PReg :=
  let (w, s) := s.drawWord
  let m := s.mem x.loc.space
  let s := match (a.apply (m.bytes x.loc.addr a.w) (m.poisoned x.loc.addr a.w)).1 with
    | some (nb, p) => if w.getLsbD 0 then s.updMem x.loc.space fun m => m.write x.loc.addr nb p else s
    | none => s
  let (v, s) := s.drawWord
  (s, ⟨if a.w = 8 then v else zext64 (v.extractLsb' 0 32), true⟩)

/-- The read-modify-write of an atomic at the home of a location. -/
def atomAt (a : AtomArgs) (x : Xl) (ea : Word) (s : State) : R (State × PReg) := do
  stallOnMark s.me ea.toNat a.w s
  let s := drainBefore x a.w s
  if requestLost s x.loc x.region then return atomLost a x s
  let (s, bs, bad) := homeRead x.loc x.region a.w false s
  let (new, v) := a.apply bs bad
  match new with
  | none => .ok (s, v)
  | some (nb, p) => do
    need (!(p && poisonRefused s s.core.ctx x)) cPoison ea
    let (s, ok) := homeWrite x.loc x.region x.comp nb p s
    .ok (if ok then s else setWerr s.me ea s, v)

/-- What R67's rows for a class fault: LOCAL and POOL_BI at SYSTEM scope, HOST but for PCIe AtomicOps, the other classes. -/
def atomClassOk (a : AtomArgs) (scope : Scope) (r : Region) : Bool :=
  match r with
  | .lcl | .poolBi => decide (scope ≠ .system)
  | .host => decide (scope = .system) && decide (a.op = .add ∨ a.op = .xchg ∨ a.op = .cas) && Config.atomicRouting
  | _ => false

/-- An atomic at the home of a global address: step 5 of R157, then R67 (R191). -/
def atomHome (a : AtomArgs) (scope : Scope) (va : Nat) (s : State) : R (State × PReg) := do
  let ea := BitVec.ofNat 64 va
  let (t, x) ← translate s.me s.core.ctx va .atomic s
  noteWalk (startedWalk s.me s t) do
    need (!(a.v.bad && poisonRefused t t.core.ctx x)) cPoison ea
    need (atomClassOk a scope x.region) cProt ea
  atomAt a x ea t

/-- Whether a scope is CORE, GANG or CLUSTER, at which window bytes are updated in the stash (R67). -/
def narrowScope : Scope → Bool
  | .core | .gang | .cluster => true
  | _ => false

/-- An atomic on bytes of the core's own window. In a write-intent window R67's row for it holds whatever the class of the page
(log entry 34): in the stash under ownership at a narrow scope, at the home after recalling the granule at DEVICE and POOL, a
fault at SYSTEM. In a read-intent window a narrow scope faults (R58), and the row of the class holds otherwise. Poisoned data
that the page bars comes before the places of R67 (R191). -/
def atomWindow (a : AtomArgs) (scope : Scope) (d : WinDesc) (sa va : Nat) (s : State) : R (State × PReg) := do
  let (t, _) ← stashReach s.me sa a.w (if d.writes then .atomic else .read) s
  let ea := BitVec.ofNat 64 va
  noteWalk (startedWalk s.me s t) do
    need (d.writes || !narrowScope scope) cProt ea
    granPoison s.me sa a.v.bad t
    need (!d.writes || decide (scope ≠ .system)) cProt ea
  let s := t
  if narrowScope scope then atomStash a sa s
  else if d.writes then do
    let (s, x) ← translate s.me s.core.ctx va .atomic s
    atomAt a x ea s
  else atomHome a scope va s

/-- Every step of an atomic (R191). -/
def atomBody (op : AtomOp) (dword : Bool) (ord : Order) (scope : Scope) (imm : BitVec 16) (rc rb ra rd : Reg)
    (s : State) : R State := do
  let base ← clean (s.g ra)
  let ea := base + sext64 imm
  let a : AtomArgs := ⟨op, if dword then 8 else 4, s.g rb, s.g rc, modeFtz s.core.rg.mode⟩
  let s := if ord = .plain then s else releaseAt scope s.me s
  let addr ← checkAddress ea a.w
  let (s, v) ← faultAt ea (match addr with
    | .stash sa =>
      match winOfStash s.core sa with
      | some (_, d) => atomWindow a scope d sa ((d.toGlobal sa).getD 0) s
      | none => do
        let (s, _) ← stashReach s.me sa a.w .atomic s
        need (decide (scope ≠ .pool ∧ scope ≠ .system)) cProt ea
        atomStash a sa s
    | .global va =>
      match winOfGlobal s.core va with
      | some (_, d, sa) => atomWindow a scope d sa va s
      | none => atomHome a scope va s)
  .ok (s.setG rd v)

/-- ATOM. -/
def execAtom (op : AtomOp) (dword : Bool) (ord : Order) (scope : Scope) (gd : Guard) (imm : BitVec 16)
    (rc rb ra rd : Reg) (s : State) : Host.Outcome State Fault Refusal :=
  conclude s (instruction 8 0 (.g 0) [rd, ra, rb, rc] gd (atomBody op dword ord scope imm rc rb ra rd) s)

/-! ### Standing loads (R81 to R84, R87, R193, R194) -/

/-- The home of a word has no free subscriber entry: 1,024 in a LOCAL word's slice, 16,384 in the pool agent (R82). A POOL_BI word,
whose line has an LLC home slice too (R71, R86), takes an entry of the pool agent only: DESIGN CHOICE, log entry 68. -/
def subsFull (s : State) (x : Loc) : Bool :=
  match x.space with
  | .pool _ => decide (16384 ≤ (s.subs.filter fun u => match u.word.space with
      | .pool _ => true
      | _ => false).length)
  | _ =>
    if s.subs.length < 1024 then false
    else decide (1024 ≤ (s.subs.filter fun u => decide (u.word.space = .hbm) &&
      decide (sliceOf u.word = sliceOf x)).length)

/-- The 8 bytes LDSTAND writes: ACTIVE or NOSUB, SEQ and flags 0, the word (R81, R82). -/
def freshSlot (active : Bool) (value : BitVec 32) : Word :=
  BitVec.ofNat 64 (value.toNat + (if active then 2 ^ 63 else 2 ^ 58))

/-- Subscribe a slot of a core to a word and write its 8 bytes (R81, R82, R84). -/
def subscribe (c : CoreId) (slot : BitVec 4) (va : Word) (sa : BitVec 20) (scope : Scope) (acq : Bool) (x : Loc)
    (r : Region) (s : State) : State :=
  let (s, bs, bad) := homeRead x r 4 false s
  let value := BitVec.ofNat 32 (leVal bs)
  let full := subsFull s x
  let s := stashRaw c sa.toNat (bvBytes 8 (freshSlot (!full) value)) bad s
  let s := updSlot c slot (fun _ => ⟨!full, va, sa, scope, acq, false⟩) s
  if full then s else { s with subs := s.subs ++ [⟨c, slot, x, 0, false, value⟩] }

/-- LDSTAND, check by check (R193). -/
def ldstandBody (slot : BitVec 4) (acq : Bool) (scope : Scope) (imm : BitVec 16) (rc rb ra : Reg) (s : State) :
    R State := do
  need (s.feature 0) cIllegalInstr (zext64 s.pc)
  let c ← clean (s.g rc)
  let ea ← dispX (s.g ra) (s.g rb) imm
  let sa := c + BitVec.ofNat 64 (8 * slot.toNat)
  need (decide (sa.toNat % 8 = 0)) cAlign sa
  let taken := ((List.range 16).zip s.core.slots.toList).any fun il =>
    decide (il.1 ≠ slot.toNat) && il.2.active && decide (il.2.sa.toNat = sa.toNat)
  need (decide (sa.toNat + 8 ≤ s.core.decl.stash) && !taken) cStashBounds sa
  match ← checkAddress ea 4 with
  | .stash _ => raise cProt ea
  | .global va => do
    let (t, x) ← translate s.me s.core.ctx va .read s
    noteWalk (startedWalk s.me s t) (need (decide (x.region = .lcl ∨ x.region = .poolBi)) cProt ea)
    let s := t
    stallOnMark s.me va 4 s
    let s := drainBefore x 4 (unsubscribe s.me slot s)
    .ok (countLoad (subscribe s.me slot ea (sa.setWidth 20) scope acq x.loc x.region s))

/-- LDSTAND. -/
def execLdstand (slot : BitVec 4) (acq : Bool) (scope : Scope) (gd : Guard) (imm : BitVec 16) (rc rb ra : Reg)
    (s : State) : Host.Outcome State Fault Refusal :=
  conclude s (instruction 8 0 (.g 0) [ra, rb, rc] gd (ldstandBody slot acq scope imm rc rb ra) s)

/-- UNSTAND (R87). -/
def execUnstand (slot : BitVec 4) (s : State) : Host.Outcome State Fault Refusal :=
  conclude s (plain 4 [] (fun s => .ok (unsubscribe s.me slot s)) s)

/-! ### Range flush and invalidate (R195, R196) -/

/-- The union of the rows lies in the canonical global space and its computation in signed 64 bits (R196). -/
def rangeOk (base rowlen count : Nat) (stride : Int) : Bool :=
  let last := ((count : Int) - 1) * stride
  let lo := (base : Int) + min 0 last
  let hi := (base : Int) + max 0 last + rowlen
  decide (count = 0) ||
    (decide (-(2 ^ 63 : Nat) ≤ last ∧ last < (2 ^ 63 : Nat) ∧ -(2 ^ 63 : Nat) ≤ lo ∧ hi < (2 ^ 63 : Nat)) &&
     (decide (rowlen = 0) || decide (0x100000 ≤ lo ∧ hi ≤ (2 ^ 52 : Nat))))

/-- The precise checks of RFLUSH and RINVAL, and the handing of the range to the die's cache walker (R196, R76). -/
def rangeBody (inval : Bool) (b : BitVec 6) (ga : Reg) (s : State) : R State := do
  let a ← clean (s.g ga)
  need (decide (a.toNat % 32 = 0)) cAlign a
  let (t, bs, bad) ← coreRead s.me .seq a 32 s
  let w (i : Nat) : Word := BitVec.ofNat 64 (leVal ((bs.drop (8 * i)).take 8))
  let base := bits (w 0) 51 0
  let rowlen := bits (w 1) 31 0
  let count := bits (w 1) 63 32
  let stride := s64 (w 2)
  noteWalk (startedWalk s.me s t) do
    need (!bad) cPoison a
    need (decide (bits (w 0) 63 52 = 0) && decide (w 3 = 0) && rangeOk base rowlen count stride) cCopyRange a
    need (barReady t.core b) cBarrierBounds (BitVec.ofNat 64 b.toNat)
  let s := t
  let d := dieOf s.me
  if 64 ≤ (s.die d).walker.length then wait
  else
    let s := drainStores s.me s
    .ok (s.updDie d fun x =>
      { x with walker := x.walker ++ [⟨s.me, s.core.ctx, inval, b, BitVec.ofNat 64 base, rowlen, count, stride⟩] })

/-- RFLUSH. -/
def execRflush (b : BitVec 6) (ga : Reg) (s : State) : Host.Outcome State Fault Refusal :=
  conclude s (plain 4 [ga] (rangeBody false b ga) s)

/-- RINVAL. -/
def execRinval (b : BitVec 6) (ga : Reg) (s : State) : Host.Outcome State Fault Refusal :=
  conclude s (plain 4 [ga] (rangeBody true b ga) s)

end Sys2Proof.Machine
end

