-- ==== Sys2Proof/Machine/Control.lean ====
section
/-!
DEFINITION. Control flow (R160 to R167), traps and their return (R209, R210), HALT, NOP and ILL (R211), mode and system
registers (R203 to R208, R458), counting and fencing (R177 to R179), and the delivery of a pending fault (R402).
-/
namespace Sys2Proof.Machine

/-! ### Branch targets (R163) -/

/-- The faults of a taken branch's target. -/
def checkTarget (t : Int) (s : State) : R (BitVec 16) := do
  need (decide (0 ≤ t ∧ t < 0x10000)) cIllegalInstr (wrap64 t)
  need (s.core.rg.sup || decide (t < 0xE000)) cPriv (wrap64 t)
  .ok (BitVec.ofInt 16 t)

/-- PC + offset × 4. -/
def relTarget {n : Nat} (off : BitVec n) (s : State) : Int := (s.pc.toNat : Int) + off.toInt * 4

/-- Discard boost state, which is frozen in supervisor mode (R43). -/
def dropBoost (s : State) : State := if s.core.rg.sup then s else discardBoost s

/-! ### Resolving branches (R39, R41, R160) -/

/-- Commit one level-1 register or predicate. -/
def commitOne (x : Shadow) (s : State) : State :=
  match x.dst with
  | .g r => s.setG r ⟨x.val, x.bad⟩
  | .k t => s.setK t ⟨x.val.getLsbD 0, x.bad⟩
  | .put _ => s

/-- Release the requests of a list of level-1 entries in program order (R39, R175): those with a slot leave the boost buffer; at the
first without one, the state as far as it has come, and that the commit stalls. -/
def releaseHeld : List Shadow → State → State × Bool
  | [], s => (s, true)
  | x :: xs, s =>
    match x.dst, x.fault with
    | .put p, none =>
      let t := (objectOf s s.me p.eng p.obj.toNat).getD p.obj.toNat
      match issue p.eng p.obj t p.sub p.nores p.a p.b s with
      | .ok s => releaseHeld xs (s.updRg fun r => { r with boost := r.boost.erase x })
      | .error _ => (s, false)
    | _, _ => releaseHeld xs s

/-- BOOSTINFO for the faulted instruction that is raised and the other faulted level-1 destinations (R207). -/
def boostInfo (first : Shadow) (others : List Shadow) : Word :=
  others.foldl (fun w x => match x.dst with
    | .g r => w ||| (1#64 <<< (32 + r.toNat))
    | .k t => w ||| (1#64 <<< (24 + t.toNat))
    | .put _ => w) (zext64 first.pc)

/-- Commit level 1, whose requests are released, and move the other levels down; the state before any BOOST_DEFERRED and
that trap, if there is one, returning to `target` (R39, R41). -/
def commitBoost (target : BitVec 16) (fall : Bool) (s : State) : State × Option TrapInfo :=
  let one := s.core.rg.boost.filter fun x => decide (x.lvl = 1)
  let rest := (s.core.rg.boost.filter fun x => decide (x.lvl ≠ 1)).map fun x => { x with lvl := x.lvl - 1 }
  let s := (one.filter fun x => x.fault.isNone).foldl (fun s x => commitOne x s) s
  let s := s.updRg fun r => { r with boost := rest }
  match one.filter fun x => x.fault.isSome with
  | [] => (s, none)
  | first :: others =>
    (s, first.fault.map fun ca =>
      { cause := cBoostDeferred, addr := ca.2, orig := ca.1, info := some (boostInfo first others),
        ret := some target.toNat, fall := fall })

/-- BR (R160): a hint resolves boost state; then the branch takes its direction. In supervisor mode boost state is frozen. While
a held request finds no slot the branch stalls, and those released stay released (R175). -/
def branchBody (hint : Hint) (gd : Guard) (off : BitVec 18) (s : State) : R State := do
  let taken ← guardHolds s 0 gd
  let target ← if taken then checkTarget (relTarget off s) s else .ok (s.pc + 4)
  let go (s : State) : State := goTo target (!taken) s
  if hint = .none ∨ s.core.rg.sup then .ok (go s)
  else if taken = decide (hint = .taken) then
    match releaseHeld (s.core.rg.boost.filter fun x => decide (x.lvl = 1)) s with
    | (s, false) => .ok s
    | (s, true) =>
      match commitBoost target (!taken) s with
      | (s', none) => .ok (go s')
      | (s', some t) => .ok (takeTrap t s')
  else .ok (go (discardBoost s))

/-- BR. -/
def execBr (hint : Hint) (gd : Guard) (off : BitVec 18) (s : State) : Host.Outcome State Fault Refusal :=
  conclude s (branchBody hint gd off s)

/-- J. -/
def execJ (off : BitVec 24) (s : State) : Host.Outcome State Fault Refusal :=
  conclude s (do
    let t ← checkTarget (relTarget off s) s
    .ok (goTo t false s))

/-- JL: g31 = PC + 4, architected even while g31 has shadows. -/
def execJl (off : BitVec 24) (s : State) : Host.Outcome State Fault Refusal :=
  conclude s (do
    let t ← checkTarget (relTarget off s) s
    .ok (goTo t false (s.setG 31 (constReg (zext64 s.pc + 4)))))

/-- JR: the target is read before the link is written; boost state is discarded (R162). -/
def execJr (ra rd : Reg) (s : State) : Host.Outcome State Fault Refusal :=
  conclude s (do
    checkRegs s [ra, rd]
    let t ← clean (s.g ra)
    need (decide (t.toNat % 4 = 0)) cAlign t
    let pc ← checkTarget (t.toNat : Int) s
    .ok (goTo pc false (dropBoost (s.setG rd (constReg (zext64 s.pc + 4))))))

/-! ### Loop records (R32 to R36, R164, R165) -/

/-- The fields of a loop record's bytes (R32). -/
def loopRecord (bs : List Byte) (ret : BitVec 32) : LoopRec :=
  let w (i : Nat) : BitVec 32 := BitVec.ofNat 32 (leVal ((bs.drop (4 * i)).take 4))
  { pstart := w 0, kstart := w 1, estart := w 2, eend := w 3, trip := w 4, ixstep := (w 5).extractLsb' 8 16,
    ixen := (w 5).getLsbD 5, ixreg := (w 5).extractLsb' 0 5, iter := 0, ret := ret, phase := .prologue }

/-- The reserved fields of a loop record are 0. -/
def loopReservedOk (bs : List Byte) : Bool :=
  let w5 : BitVec 32 := BitVec.ofNat 32 (leVal ((bs.drop 20).take 4))
  decide (w5.extractLsb' 24 8 = 0) && decide (w5.extractLsb' 6 2 = 0) && decide (leVal ((bs.drop 24).take 8) = 0)

/-- The offsets of a record are ordered multiples of 4 inside user control memory (R33). -/
def loopOffsetsOk (r : LoopRec) : Bool :=
  let ok (x : BitVec 32) : Bool := decide (x.toNat % 4 = 0)
  decide (r.pstart.toNat ≤ r.kstart.toNat ∧ r.kstart.toNat ≤ r.estart.toNat ∧ r.estart.toNat ≤ r.eend.toNat) &&
    ok r.pstart && ok r.kstart && ok r.estart && ok r.eend &&
    decide (r.pstart.toNat < 0xE000 ∧ r.kstart.toNat < 0xE000 ∧ r.estart.toNat ≤ 0xE000 ∧ r.eend.toNat ≤ 0xE000)

/-- LOOP (R164): the record is read and checked, boost state is discarded, and the record runs. -/
def loopBody (imm : BitVec 16) (ra : Reg) (s : State) : R State := do
  let pc := zext64 s.pc
  need (!s.core.rg.sup) cIllegalInstr pc
  let b ← clean (s.g ra)
  let a := b + sext64 imm
  need (decide (a.toNat % 32 = 0)) cAlign a
  let (s, bs, bad) ← faultAt a (coreRead s.me .seq a 32 s)
  need (!bad) cPoison a
  let r := loopRecord bs ((s.pc + 8).setWidth 32)
  need (loopOffsetsOk r && loopReservedOk bs && decide (s.core.rg.loops.length < 4)) cIllegalInstr pc
  need (!r.ixen || regDeclared s.core.decl r.ixreg) cIllegalReg pc
  need (!(decide (r.estart = r.kstart) && decide (r.trip ≠ 0))) cIllegalInstr pc
  let s := (discardBoost (countLoad s)).updRg fun x => { x with loops := r :: x.loops }
  .ok (goTo (r.pstart.setWidth 16) (decide (r.pstart = r.kstart)) s)

/-- LOOP: with a false guard it falls through. -/
def execLoop (gd : Guard) (imm : BitVec 16) (ra : Reg) (s : State) : Host.Outcome State Fault Refusal :=
  conclude s (do
    checkRegs s [ra]
    if ← guardHolds s 0 gd then loopBody imm ra s else .ok (advance 8 s))

/-- An entry belongs to a kernel iteration after k. -/
def tagAfter (k : Nat) : IterTag → Bool
  | .iter n => decide (k < n.toNat)
  | _ => false

/-- Remove the entries of a vector queue that belong to iterations after k, with the mask messages meant for them. -/
def discardQueue (k : Nat) (q : VQueue) : VQueue :=
  let keep := q.entries.filter fun e => !tagAfter k e.cap.tag
  let gone := (q.entries.filter fun e => tagAfter k e.cap.tag).map (·.voi)
  { q with entries := keep,
           msgs := q.msgs.filter fun m => match m with
             | .top v _ => !gone.contains v
             | .skip v _ => !gone.contains v }

/-- The discard of R36 steps 2 to 4: the queue entries and FIFO entries removed, counted in LDISC (R37). The dispatcher keeps the
shape that a removed VSHAPE has set for it (DESIGN CHOICE, log entry 38). -/
def discardAfter (k : Nat) (s : State) : State :=
  let e := s.core.eng
  let e' := { e with vlq := discardQueue k e.vlq, vaq := discardQueue k e.vaq, vsq := discardQueue k e.vsq,
                     fifos := e.fifos.map fun f => f.filter fun x => !tagAfter k x.tag }
  let size (e : Engines) : Nat := e.vlq.entries.length + e.vaq.entries.length + e.vsq.entries.length
  let held (e : Engines) : Nat := (e.fifos.toList.map (·.length)).foldl (· + ·) 0
  let q := size e - size e'
  let f := held e - held e'
  (s.updEng fun _ => e').updRg fun r => { r with ldisc := BitVec.ofNat 64 (f % 65536 * 65536 + q % 65536) }

/-- LEXIT k on the innermost record (R36). -/
def lexitApply (k : BitVec 32) (r : LoopRec) (s : State) : State :=
  if k.toNat < r.iter.toNat then
    let s := discardAfter k.toNat s
    let s :=
      if r.ixen then
        let v := s.g r.ixreg
        s.setG r.ixreg ⟨v.val - BitVec.ofNat 64 (r.iter.toNat - k.toNat - 1) * sext64 r.ixstep, v.bad⟩
      else s
    goTo (r.estart.setWidth 16) false (setTop { r with trip := k + 1, iter := k + 1 } s)
  else if (k.toNat : Int) < (r.trip.toNat : Int) - 1 then advance 4 (setTop { r with trip := k + 1 } s)
  else advance 4 s

/-- LEXIT (R165). -/
def lexitBody (imm : BitVec 14) (ra : Reg) (s : State) : R State := do
  checkRegs s [ra]
  match s.core.rg.sup, s.core.rg.loops with
  | false, r :: _ => do
    let a ← clean (s.g ra)
    let s := discardBoost s
    if r.estart.toNat ≤ s.pc.toNat ∧ s.pc.toNat < r.eend.toNat then .ok (advance 4 s)
    else .ok (lexitApply ((a + sext64 imm).setWidth 32) r s)
  | _, _ => raise cIllegalInstr (zext64 s.pc)

/-- LEXIT. -/
def execLexit (imm : BitVec 14) (ra : Reg) (s : State) : Host.Outcome State Fault Refusal :=
  conclude s (lexitBody imm ra s)

/-! ### Traps, ends (R209 to R211) -/

/-- TRAP raises TRAP_INSTR with CODE = imm14; the return PC is the next instruction (R209). -/
def execTrap (code : BitVec 14) (s : State) : Host.Outcome State Fault Refusal :=
  conclude s (.error (.trap { cause := cTrapInstr, addr := 0, code := code, ret := some ((s.pc + 4).toNat), fall := true }))

/-- ERET, supervisor only (R210). -/
def execEret (s : State) : Host.Outcome State Fault Refusal :=
  conclude s (do
    need s.core.rg.sup cPriv (zext64 s.pc)
    returnFromTrap s)

/-- HALT: boost state is discarded and the sequencer stops; its other actions wait for CORE_FINISH (R48). In supervisor
mode it ends the node as failed with the current TRAPCAUSE (R211). -/
def execHalt (s : State) : Host.Outcome State Fault Refusal :=
  if s.core.rg.sup then settle (killNodeOf s.me (s.core.sys.trapcause.setWidth 8) s)
  else settle ((discardBoost s).updRg fun r => { r with status := .halted })

/-- NOP. -/
def execNop (s : State) : Host.Outcome State Fault Refusal := settle (advance 4 s)

/-- ILL faults ILLEGAL_INSTR whatever bits [31:8] hold (R211). -/
def execIll (_x : BitVec 24) (s : State) : Host.Outcome State Fault Refusal :=
  conclude s (raise cIllegalInstr (zext64 s.pc))

/-- An encoding that is no instruction faults ILLEGAL_INSTR (R127 step 1). -/
def execReservedOpcode (_u : Unit32) (s : State) : Host.Outcome State Fault Refusal :=
  conclude s (raise cIllegalInstr (zext64 s.pc))

/-- PENDING_FAULT_TAKEN: the oldest pending engine fault is taken at the boundary (R402). -/
def execPendingFaultTaken (s : State) : Host.Outcome State Fault Refusal := settle (takePending s)

/-! ### Mode and system registers (R203 to R208) -/

/-- SETMODE: the selected fields of MODE and SRSEED (R203). SRSEED takes the value of a poisoned register (DESIGN CHOICE, log entry
61). -/
def execSetmode (fields : BitVec 4) (gd : Guard) (imm : BitVec 16) (ra : Reg) (s : State) :
    Host.Outcome State Fault Refusal :=
  conclude s (instruction 8 0 (.g 0) [ra] gd (fun s =>
    let sel {α : Type} (i : Nat) (x : α) : Option α := if fields.getLsbD i then some x else none
    let m := modeSet s.core.rg.mode (sel 0 (imm.extractLsb' 0 3)) (sel 1 (imm.getLsbD 3, imm.getLsbD 4))
      (sel 2 (imm.extractLsb' 5 2))
    let seed := (sel 3 (s.g ra).val).getD s.core.rg.srseed
    .ok (s.updRg fun r => { r with mode := m, srseed := seed })) s)

/-- A system register that user code may read (R205). -/
def userReads : SysReg → Bool
  | .coreId | .gangId | .ctxId | .nodeArg | .dcc | .mode | .srseed | .liter | .ldisc | .mxmiss | .werr => true
  | _ => false

/-- LITER (R37). -/
def literWord (r : SeqRegs) : Word :=
  match r.loops with
  | [] => 0
  | x :: _ => BitVec.ofNat 64 (r.loops.length * 2 ^ 32 + x.iter.toNat)

/-- The selected window's descriptor. -/
def selectedWin (k : Core) : WinDesc := vget k.sys.winsel k.wins

/-- What SYSR reads (R205). -/
def sysRead (s : State) : SysReg → Word
  | .coreId => BitVec.ofNat 64 s.me.val
  | .gangId => s.core.sys.gangId
  | .ctxId => s.core.sys.ctxId
  | .nodeArg => s.core.sys.nodeArg
  | .dcc => s.dcc
  | .mode => s.core.rg.mode
  | .srseed => s.core.rg.srseed
  | .liter => literWord s.core.rg
  | .ldisc => s.core.rg.ldisc
  | .mxmiss => s.core.sys.mxmiss
  | .werr => s.core.sys.werr
  | .trapvec => s.core.sys.trapvec
  | .trappc => s.core.sys.trappc
  | .trapcause => s.core.sys.trapcause
  | .trapaddr => s.core.sys.trapaddr
  | .boostinfo => s.core.sys.boostinfo
  | .sscr0 => s.core.sys.sscr[0]
  | .sscr1 => s.core.sys.sscr[1]
  | .sscr2 => s.core.sys.sscr[2]
  | .sscr3 => s.core.sys.sscr[3]
  | .relquery => s.core.sys.relquery
  | .winsel => zext64 s.core.sys.winsel
  | .windesc0 => (selectedWin s.core).w0
  | .windesc1 => (selectedWin s.core).w1
  | .windesc2 => (selectedWin s.core).w2
  | .windesc3 => (selectedWin s.core).w3
  | .engarea => s.core.sys.engarea

/-- What SYSR reads, and the state after it: ISSUED and ARRIVED are free while this round's tracking is undefined (R79). -/
def sysValue (s : State) (reg : SysReg) : State × Word :=
  if reg = .relquery ∧ s.core.sys.relfree = true then
    let (w, s) := s.drawWord
    (s, (sysRead s reg &&& 0xFFFFFFFF00000000) ||| zext64 (w.setWidth 32))
  else (s, sysRead s reg)

/-- SYSR. -/
def execSysr (reg : SysReg) (rd : Reg) (s : State) : Host.Outcome State Fault Refusal :=
  conclude s (do
    need (s.core.rg.sup || userReads reg) cPriv (zext64 s.pc)
    plain 4 [rd] (fun s =>
      let (s, w) := sysValue s reg
      .ok (s.setG rd (constReg w))) s)

/-- A RELQUERY write: ROUND and GATHER; a new round starts its counts at 0 (R79). -/
def relqueryWrite (old new : Word) : Word :=
  let counts : Word := if new.extractLsb' 60 4 = old.extractLsb' 60 4 then old &&& 0xFFFFFFFF else 0
  (new &&& 0xF800000000000000) ||| counts

/-- RELQUERY after a write: a change of GATHER while stores are outstanding leaves the tracking undefined for this round only (R79). -/
def relqueryPut (v : Word) (k : Core) : SysRegs :=
  let old := k.sys.relquery
  let sameRound := decide (v.extractLsb' 60 4 = old.extractLsb' 60 4)
  let flipped := decide (v.getLsbD 59 ≠ old.getLsbD 59) && !k.stores.isEmpty
  { k.sys with relquery := relqueryWrite old v, relfree := flipped || (sameRound && k.sys.relfree) }

/-- Replace the selected window's descriptor. -/
def putWin (d : WinDesc) (s : State) : State :=
  s.upd fun k => { k with wins := vset k.sys.winsel d k.wins }

/-- A write of WINDESC2: clearing VALID unmaps the window; setting it installs the window after the checks of R57. -/
def windesc2Write (v : Word) (s : State) : R State := do
  let d := { selectedWin s.core with w2 := v }
  need (!d.valid || windowOk s.core s.core.sys.winsel.toNat d) cStashBounds (BitVec.ofNat 64 d.stoff)
  let s := drainStores s.me s
  let s := if (selectedWin s.core).valid then unmapWindow s.me s.core.sys.winsel s else s
  .ok (putWin d s)

/-- A write of WINDESC0, 1 or 3, ignored while the window is VALID (R208). -/
def windescWrite (f : WinDesc → WinDesc) (s : State) : State :=
  if (selectedWin s.core).valid then s else putWin (f (selectedWin s.core)) s

/-- What SYSW writes (R205): read-only registers and fields are left. -/
def sysWrite (reg : SysReg) (v : Word) (s : State) : R State :=
  match reg with
  | .mode => .ok (s.updRg fun r => { r with mode := modeWrite r.mode v })
  | .srseed => .ok (s.updRg fun r => { r with srseed := v })
  | .werr => .ok (s.updSys fun y => { y with werr := y.werr &&& ~~~(v &&& 0x8000000000000000) })
  | .trapvec => .ok (s.updSys fun y =>
      { y with trapvec := if v.toNat % 4 = 0 ∧ 0xE000 ≤ v.toNat ∧ v.toNat ≤ 0xFFFC then v else y.trapvec })
  | .trappc => .ok (s.updSys fun y => { y with trappc := v })
  | .trapcause => .ok (s.updSys fun y => { y with trapcause := v &&& 0x3FFFFFFFF })
  | .trapaddr => .ok (s.updSys fun y => { y with trapaddr := v })
  | .sscr0 => .ok (s.updSys fun y => { y with sscr := y.sscr.set 0 v })
  | .sscr1 => .ok (s.updSys fun y => { y with sscr := y.sscr.set 1 v })
  | .sscr2 => .ok (s.updSys fun y => { y with sscr := y.sscr.set 2 v })
  | .sscr3 => .ok (s.updSys fun y => { y with sscr := y.sscr.set 3 v })
  | .relquery => .ok (s.upd fun k => { k with sys := relqueryPut v k })
  | .winsel => .ok (s.updSys fun y => { y with winsel := v.setWidth 4 })
  | .windesc0 => .ok (windescWrite (fun d => { d with w0 := v }) s)
  | .windesc1 => .ok (windescWrite (fun d => { d with w1 := v }) s)
  | .windesc2 => windesc2Write v s
  | .windesc3 => .ok (windescWrite (fun d => { d with w3 := v }) s)
  | .engarea => .ok (s.updSys fun y => { y with engarea := v })
  | .coreId | .gangId | .ctxId | .nodeArg | .dcc | .liter | .ldisc | .mxmiss | .boostinfo => .ok s

/-- SYSW: in user mode only MODE may be written (R51). A poisoned register's value is written, and its poison goes no further
(DESIGN CHOICE, log entry 61). -/
def execSysw (reg : SysReg) (ra : Reg) (s : State) : Host.Outcome State Fault Refusal :=
  conclude s (do
    need (s.core.rg.sup || decide (reg = .mode)) cPriv (zext64 s.pc)
    plain 4 [ra] (fun s => sysWrite reg (s.g ra).val s) s)

/-! ### Counting and fencing (R177 to R179) -/

/-- A channel state that counts as busy for WAIT (R177). -/
def chanActive (ch : Chan) : Bool := decide (ch.state = .walk) || decide (ch.state = .tail)

/-- WAIT's condition: every field but 63 bounds its count; st is 63 in gathered-count mode (R177). -/
def waitMetBy (k : Core) (mx cp st ld : BitVec 6) : Bool :=
  let ok (n : Nat) (f : BitVec 6) : Bool := decide (f = 63) || decide (n ≤ f.toNat)
  ok k.loadsOut ld && (gathering k || ok k.stores.length st) &&
    ok (k.chans.toList.filter chanActive).length cp && ok k.eng.mxq.length mx

/-- WAIT. -/
def execWait (mx cp st ld : BitVec 6) (s : State) : Host.Outcome State Fault Refusal :=
  conclude s (plain 4 [] (fun s => if waitMetBy s.core mx cp st ld then .ok s else wait) s)

/-- FENCEM: new markers in place of the old ones; it does not stall (R178). -/
def execFencem (mask : BitVec 6) (rel : Bool) (scope : Scope) (s : State) : Host.Outcome State Fault Refusal :=
  conclude s (plain 4 [] (fun s =>
    let k := s.core
    let chans := ((List.range 8).zip k.chans.toList).filterMap fun nc =>
      if nc.2.state = .walk then some (BitVec.ofNat 3 nc.1, nc.2.ended) else none
    .ok (s.upd fun k => { k with fence := some ⟨mask, k.rg.psn.toNat, k.storeNo, chans, if rel then some scope else none⟩ })) s)

/-- No entry of a list carries a push sequence number below a marker's. -/
def passed (psn : Nat) (caps : List Capture) : Bool := caps.all fun c => decide (psn ≤ c.psn)

/-- Every marker of a FENCEM has been reached (R178); engine stores are visible when their entries complete. A release at SYSTEM
scope also waits for the HOST_WC stores before it; in gathered-count mode it orders only issue (R79, R92). -/
def fenceReached (k : Core) (f : Fence) : Bool :=
  let off (i : Nat) : Bool := !f.mask.getLsbD i
  (off 0 || passed f.psn (k.eng.vlq.entries.map (·.cap))) && (off 1 || passed f.psn (k.eng.vaq.entries.map (·.cap))) &&
    (off 2 || passed f.psn (k.eng.vsq.entries.map (·.cap))) && (off 3 || passed f.psn (k.eng.mxq.map (·.cap))) &&
    (off 4 || f.chans.all fun nc => decide (nc.2 < (vget nc.1 k.chans).ended)) &&
    (off 5 || k.stores.all fun p => decide (f.store ≤ p.seqno)) &&
    (decide (f.rel ≠ some .system) || gathering k || k.stores.all fun p => decide (p.region ≠ .hostWc) || decide (f.store ≤ p.seqno))

/-- JOIN: waits for the markers of the latest FENCEM and consumes them (R179). -/
def execJoin (s : State) : Host.Outcome State Fault Refusal :=
  conclude s (plain 4 [] (fun s =>
    match s.core.fence with
    | none => .ok s
    | some f => if fenceReached s.core f then .ok (s.upd fun k => { k with fence := none }) else wait) s)

/-- MARK: every earlier sequencer store becomes visible before any later access (R73). -/
def execMark (s : State) : Host.Outcome State Fault Refusal :=
  conclude s (plain 4 [] (fun s => .ok (drainStores s.me s)) s)

end Sys2Proof.Machine
end

