-- ==== Sys2Proof/Machine/Launch.lean ====
section
/-!
DEFINITION. The overlay loader: checks on a kernel image (R317, R319, R320), what it loads (R318), the launch state (R14),
the boot mailboxes (R395), and the end of a core and of a gang (R48).
-/
namespace Sys2Proof.Machine

/-! ### Reading an image -/

/-- A step of the loader's check: a value, or the refusal code of R320. -/
abbrev Chk (α : Type) := Except Byte α

/-- Refuse with a code unless a condition holds. -/
def chk (ok : Bool) (code : Byte) : Chk Unit := if ok then .ok () else .error code

/-- Read bytes for the hub, granule by granule. -/
def hubBytes (ctx : BitVec 6) (va n : Nat) (s : State) : R (State × List Byte × Bool) :=
  (granulesOf va n).foldlM (fun acc g => do
    let (s, bs, bad) := acc
    let lo := max va (64 * g)
    let hi := min (va + n) (64 * g + 64)
    let (s, b, q) ← hubRead ctx lo (hi - lo) s
    .ok (s, bs ++ b, bad || q)) (s, [], false)

/-- Bytes of an image: code 0x0A if one is unmapped, may not be read or is poisoned. -/
def imageBytes (ctx : BitVec 6) (va n : Nat) (s : State) : Chk (State × List Byte) :=
  match hubBytes ctx va n s with
  | .ok (s, bs, false) => .ok (s, bs)
  | _ => .error 0x0A

/-- The little-endian field of n bytes at an offset. -/
def leAt (bs : List Byte) (off n : Nat) : Nat := leVal ((bs.drop off).take n)

/-- Bytes from an offset are 0. -/
def zeroAt (bs : List Byte) (off n : Nat) : Bool := ((bs.drop off).take n).all (· = 0)

/-- A kernel image as the loader holds it once it has passed its checks. -/
structure Image where
  entryM : Nat
  entryS : Nat
  gangM  : Nat
  gangS  : Nat
  cls    : Nat
  mboxes : Nat
  decl   : Decl
  sects  : List (List Byte)
  wins   : List (BitVec 32 × WinDesc)
  deriving DecidableEq, Repr

/-- The sizes of a section's unit and its limit in bytes; DATA is limited by STASH (R318). -/
def sectionLimits (stash : Nat) : List (Nat × Nat) :=
  [(4, 0xE000), (12, 12 * 4096), (24, 24 * 1024), (4, 4 * 4096), (4, 4 * 1024), (1, stash)]

/-- The offset and size of section i. -/
def sectionAt (h : List Byte) (i : Nat) : Nat × Nat := (leAt h (0x48 + 8 * i) 4, leAt h (0x4C + 8 * i) 4)

/-! ### The header (R317) -/

/-- An entry offset is legal: present exactly when the gang has cores of its class. -/
def entryOk (e n : Nat) : Bool := if n = 0 then decide (e = 0xFFFF) else decide (e % 4 = 0 ∧ e < 0xE000)

/-- CLASS agrees with GANGM and GANGS (R317). -/
def classOk (cls m n : Nat) : Bool :=
  decide (1 ≤ m + n ∧ m + n ≤ 10) &&
    (match cls with
     | 0 => decide (n = 0)
     | 1 => decide (m = 0)
     | 2 => decide (1 ≤ m ∧ 1 ≤ n)
     | _ => false)

/-- The producer, pushes and pops of a FIFO table entry. -/
def fifoAt (h : List Byte) (i : Nat) : Nat × Nat × Nat :=
  (leAt h (0x2C + 4 * i) 1, leAt h (0x2D + 4 * i) 1, leAt h (0x2E + 4 * i) 1)

/-- The values of the header that R317 and R315 bound. -/
def headerValues (h : List Byte) : Bool :=
  let b (i : Nat) : Nat := leAt h i 1
  entryOk (leAt h 0x18 2) (b 0x24) && entryOk (leAt h 0x1A 2) (b 0x25) &&
  decide (1 ≤ b 0x1C ∧ b 0x1C ≤ 32) && decide (b 0x1D ≤ 64) && decide (b 0x1E ≤ 16) &&
  decide (1 ≤ b 0x1F ∧ b 0x1F ≤ 32) && decide (leAt h 0x20 4 % 64 = 0 ∧ leAt h 0x20 4 ≤ 0x100000) &&
  classOk (b 0x26) (b 0x24) (b 0x25) && decide (b 0x27 ≤ 16) && decide (b 0x28 ≤ 16) &&
  (decide (b 0x27 ≠ 0) || decide (leAt h 0x78 4 = 0)) && (decide (b 0x28 ≠ 0) || decide (leAt h 0x7C 4 = 0)) &&
  (List.range 6).all fun i =>
    let (p, a, c) := fifoAt h i
    decide (p ≤ 2) && (decide (p ≠ 0) || decide (a = 0 ∧ c = 0))

/-- The reserved bytes of the header are 0. -/
def headerReserved (h : List Byte) : Bool :=
  zeroAt h 0x29 3 && zeroAt h 0x44 4 && zeroAt h 0x80 128 && (List.range 6).all fun i => zeroAt h (0x2F + 4 * i) 1

/-- The checks on the header alone, in the order of their codes, with the node's GANGM, GANGS and CLASS if there is a node. -/
def checkHeader (s : State) (h : List Byte) (node : Option (Nat × Nat × Nat)) : Chk Unit := do
  chk (decide (leAt h 0 4 = 0x4D49524B ∧ leAt h 4 2 = 1 ∧ leAt h 6 2 = 0x100)) 0x01
  chk (headerReserved h) 0x02
  let f : BitVec 128 := BitVec.ofNat 128 (leAt h 8 16)
  chk (f.getLsbD 127 && decide (f &&& ~~~s.ident.drvacc = 0)) 0x03
  chk (headerValues h) 0x04
  match node with
  | some x => chk (decide (x = (leAt h 0x24 1, leAt h 0x25 1, leAt h 0x26 1))) 0x05
  | none => .ok ()
  chk ((List.range 6).all fun i =>
    let (p, a, c) := fifoAt h i
    decide (a = c) && !(decide (4 ≤ i) && decide (p = 2))) 0x06
  chk (((List.range 6).zip (sectionLimits (leAt h 0x20 4))).all fun iu =>
    let (off, size) := sectionAt h iu.1
    decide (off % 8 = 0 ∧ size % iu.2.1 = 0 ∧ size ≤ iu.2.2)) 0x09

/-! ### Windows and regions (R319) -/

/-- A window-table entry: ARGOFF and the descriptor of R56. -/
def windowEntry (b : List Byte) : BitVec 32 × WinDesc :=
  (BitVec.ofNat 32 (leAt b 0 4),
   ⟨BitVec.ofNat 64 (leAt b 8 8), BitVec.ofNat 64 (leAt b 16 8), BitVec.ofNat 64 (leAt b 24 8), BitVec.ofNat 64 (leAt b 32 8)⟩)

/-- An IN or OUT entry is legal: a g register, or an aligned stash word below STASH (R319). -/
def placeOk (stash : Nat) (e : BitVec 32) : Bool :=
  if e.getLsbD 31 then
    decide (e.extractLsb' 20 11 = 0) && decide ((e.extractLsb' 0 20).toNat % 4 = 0 ∧ (e.extractLsb' 0 20).toNat < stash)
  else decide (e.toNat < 32)

/-- An F32 that is finite and not below 0. -/
def f32Ok (v : BitVec 32) : Bool :=
  match val32 v with
  | .fin neg m _ => !neg || decide (m = 0)
  | _ => false

/-- The region descriptor in 256 bytes, with the initial weights that WINIT names in DATA. -/
def regionOfBytes (b data : List Byte) : Region319 :=
  let u (i : Nat) : Nat := leAt b i 1
  let words (off n : Nat) : List (BitVec 32) := (List.range n).map fun i => BitVec.ofNat 32 (leAt b (off + 4 * i) 4)
  let d : Region319 :=
    { begin_ := BitVec.ofNat 16 (leAt b 0 2), end_ := BitVec.ofNat 16 (leAt b 2 2), nin := u 4, nout := u 5,
      widths := (List.range (u 6)).map fun l => u (8 + l), acts := (List.range (u 6)).map fun l => u (0xB + l),
      flags := BitVec.ofNat 2 (u 7), batch := leAt b 0xE 2, lrexp := u 0x10, sexp := u 0x11, vsamp := u 0x12,
      trip := BitVec.ofNat 32 (leAt b 0x14 4), valt := BitVec.ofNat 32 (leAt b 0x18 4), steps := leAt b 0x1C 2,
      weights := none, ins := words 0x24 (u 4), outs := words 0xA4 (u 5) }
  let w := leAt b 0x20 4
  { d with weights := if w = 0xFFFFFFFF then none else some (bytesWords (weightCount d) (data.drop w)) }

/-- The reserved bytes of a region descriptor are 0 (R319). -/
def regionReserved (b : List Byte) : Bool :=
  zeroAt b 0x13 1 && zeroAt b 0x1E 2 && zeroAt b 0xE4 28

/-- What a region descriptor must leave 0: the flags above bit 1, the layers that are absent, the entries beyond NIN and
NOUT (R319). -/
def regionRest (b : List Byte) : Bool :=
  let u (i : Nat) : Nat := leAt b i 1
  decide (u 7 ≤ 3) && zeroAt b (0x24 + 4 * u 4) (4 * (32 - u 4)) && zeroAt b (0xA4 + 4 * u 5) (4 * (16 - u 5)) &&
  (List.range 3).all fun l => decide (l < u 6) || decide (u (8 + l) = 0 ∧ u (0xB + l) = 0)

/-- The values of a region descriptor are legal; its weights lie within DATA. -/
def regionValues (b : List Byte) (stash data : Nat) (d : Region319) : Bool :=
  decide (d.begin_.toNat < d.end_.toNat) && decide (1 ≤ d.nin ∧ d.nin ≤ 32) && decide (1 ≤ d.nout ∧ d.nout ≤ 16) &&
  decide (1 ≤ d.widths.length ∧ d.widths.length ≤ 3) && (d.widths.all fun w => decide (1 ≤ w ∧ w ≤ 64)) &&
  decide (d.widths.getLast? = some d.nout) && (d.acts.all fun a => decide (a ≤ 2)) &&
  decide (4 ≤ d.batch ∧ d.batch ≤ 256) && decide (1 ≤ d.lrexp ∧ d.lrexp ≤ 16) && decide (d.sexp ≤ 15) &&
  decide (1 ≤ d.vsamp) && f32Ok d.trip && f32Ok d.valt && decide (1 ≤ d.steps) &&
  (decide (leAt b 0x20 4 = 0xFFFFFFFF) || decide (leAt b 0x20 4 + 4 * weightCount d ≤ data)) &&
  (d.ins ++ d.outs).all (placeOk stash) && regionRest b

/-- The control word at an offset of CSTREAM is an instruction. -/
def cstreamHolds (cs : List Byte) (off : Nat) (i : Instr) : Bool :=
  decide (off % 4 = 0 ∧ off + 4 ≤ cs.length) && decide (controlInstr (BitVec.ofNat 32 (leAt cs off 4)) 0 0 = i)

/-- The check of region n. -/
def checkRegion (n : Nat) (b cs data : List Byte) (stash : Nat) : Chk Region319 := do
  let d := regionOfBytes b data
  chk (regionReserved b) 0x02
  chk (regionValues b stash data.length d) 0x04
  chk (cstreamHolds cs d.begin_.toNat (.approxBegin (BitVec.ofNat 4 n)) &&
    cstreamHolds cs d.end_.toNat (.approxEnd (BitVec.ofNat 4 n))) 0x08
  .ok d

/-- Check and read an image under a context's page tables (R320); the checks are made in the order of their codes as far
as the image can be read (log entry 19). -/
def readImage (ctx : BitVec 6) (handle : Word) (node : Option (Nat × Nat × Nat)) (s : State) : Chk (State × Image) := do
  let va := handle.toNat
  chk (decide (va % 128 = 0)) 0x01
  [va, va + 255].forM fun a => match hubTranslate ctx a .read s with
    | .ok (_, x) => chk (decide (x.region = .lcl)) 0x01
    | .error _ => .error 0x0A
  let (s, h) ← imageBytes ctx va 256 s
  checkHeader s h node
  let (s, sects) ← (List.range 6).foldlM (fun acc i => do
    let (off, size) := sectionAt h i
    let (s, b) ← imageBytes ctx (va + off) size acc.1
    .ok (s, acc.2 ++ [b])) (s, [])
  let cs := sects.getD 0 []
  let data := sects.getD 5 []
  let stash := leAt h 0x20 4
  let (s, wins) ← (List.range (leAt h 0x27 1)).foldlM (fun acc i => do
    let (s, b) ← imageBytes ctx (va + leAt h 0x78 4 + 40 * i) 40 acc.1
    chk (zeroAt b 4 4) 0x02
    let w := windowEntry b
    chk w.2.valid 0x07
    .ok (s, acc.2 ++ [w])) (s, [])
  let (s, regs) ← (List.range (leAt h 0x28 1)).foldlM (fun acc i => do
    let (s, b) ← imageBytes ctx (va + leAt h 0x7C 4 + 256 * i) 256 acc.1
    let d ← checkRegion i b cs data stash
    .ok (s, acc.2 ++ [d])) (s, [])
  .ok (s, { entryM := leAt h 0x18 2, entryS := leAt h 0x1A 2, gangM := leAt h 0x24 1, gangS := leAt h 0x25 1,
            cls := leAt h 0x26 1, mboxes := leAt h 0x1E 1,
            decl := { gregs := leAt h 0x1C 1, barriers := leAt h 0x1D 1, mboxes := leAt h 0x1E 1, stash := stash,
                      slip := leAt h 0x1F 1,
                      fifo := Vector.ofFn fun (i : Fin 6) => BitVec.ofNat 8 (fifoAt h i.val).1, regions := regs },
            sects := sects, wins := wins })

/-- The windows of a member: BASE plus the argument word, each checked under R57 (R319). -/
def placeWindows (ctx : BitVec 6) (arg : Word) (img : Image) (k : Core) (s : State) : Chk (State × Vector WinDesc 16) := do
  let none16 : Vector WinDesc 16 := Vector.replicate 16 ⟨0, 0, 0, 0⟩
  let k := { k with decl := img.decl, wins := none16 }
  let (s, k) ← ((List.range img.wins.length).zip img.wins).foldlM (fun acc iw => do
    let (i, off, d) := iw
    let (s, d) ← if off = 0xFFFFFFFF then .ok (acc.1, d)
      else match hubBytes ctx (arg.toNat + off.toNat) 8 acc.1 with
        | .ok (s, bs, false) => (.ok (s, { d with w0 := d.w0 + BitVec.ofNat 64 (leVal bs) }) : Chk (State × WinDesc))
        | _ => .error 0x07
    chk (windowOk acc.2 i d) 0x07
    let wins := vset (BitVec.ofNat 4 i) d acc.2.wins
    .ok (s, { acc.2 with wins := wins })) (s, k)
  .ok (s, k.wins)

/-! ### Loading (R318) -/

/-- Cut bytes into words of n bytes. -/
def cutWords (w n : Nat) (bs : List Byte) : KMap (BitVec w) :=
  (List.range (bs.length / n)).map fun i => (i, BitVec.ofNat w (leAt bs (n * i) n))

/-- Words replace those at 0 and up; words beyond stay. -/
def overlay {α : Type} (new old : KMap α) : KMap α := new ++ old.filter fun kv => decide (new.length ≤ kv.1)

/-- A core's resident image is the one of a handle (R318). A handle is a virtual address (R317), so it names an image only with its
context, and one context never runs another's (R449; log entry 20). -/
def holdsImage (ctx : BitVec 6) (handle : Word) (k : Core) : Bool := decide (k.image = some (handle, ctx))

/-- The words of the user part of a core's instruction memories are 0: nothing of another context's image is left (R449). -/
def clearWords (k : Core) : Core :=
  { k with cmem := ⟨k.cmem.cells.filter fun c => decide (0xE000 ≤ c.1), k.cmem.bad.filter fun g => decide (0xE000 ≤ 64 * g)⟩,
           vmem := [], mmem := [], xmem := [] }

/-- Load the instruction memories of a core, unless its resident image is this one (R318); control memory from 0xE000 up is
never written (R50). The words of another context's image go first (R449; log entry 20). -/
def loadMemories (c : CoreId) (handle : Word) (ctx : BitVec 6) (img : Image) (k : Core) : Core :=
  if holdsImage ctx handle k then k
  else
    let k := if k.image.any fun i => decide (i.2 ≠ ctx) then clearWords k else k
    let sec (i : Nat) : List Byte := img.sects.getD i []
    { k with
      cmem := k.cmem.write 0 (sec 0) false,
      vmem := overlay (cutWords 96 12 (sec 1)) k.vmem,
      mmem := if isS c then k.mmem else overlay (cutWords 192 24 (sec 2)) k.mmem,
      xmem := if isS c then overlay (cutWords 32 4 (sec 3)) k.xmem else k.xmem,
      image := some (handle, ctx) }

/-- DATA at stash-local 0, and 0 in the declared bytes beyond it. -/
def loadData (data : List Byte) (stash : Nat) (m : Mem) : Mem :=
  let keep : Mem := ⟨m.cells.filter fun ab => decide (stash ≤ ab.1), m.bad.filter fun g => decide (stash ≤ 64 * g)⟩
  keep.write 0 data false

/-- A gang of a cluster uses a segment: one of its context and handle (R317, R318). -/
def segmentLive (k : Fin 32) (s : State) (x : Segment) : Bool :=
  s.sched.gangs.any fun g =>
    decide (g.cluster.toFin = k) && decide (g.state ≠ .saved) && decide (g.ctx = x.ctx ∧ g.image = x.handle)

/-- The segments of a cluster that a gang there uses. -/
def liveSegments (k : Fin 32) (s : State) : List Segment := (s.cluster k).segs.filter (segmentLive k s)

/-- The first place in the store of 1,024 words where n words fit among segments (DESIGN CHOICE, log entry 20). -/
def segmentPlace (segs : List Segment) (n : Nat) : Option Nat :=
  let starts := 0 :: segs.map fun x => x.first + x.len
  (sortBy (fun a b => decide (a ≤ b)) starts).find? fun a =>
    decide (a + n ≤ 1024) && segs.all fun x => decide (a + n ≤ x.first ∨ x.first + x.len ≤ a)

/-- The segment of a context's handle in a cluster's store. One that a refused gang has left unloaded is none. -/
def segmentOf (k : Fin 32) (ctx : BitVec 6) (handle : Word) (s : State) : Option Segment :=
  (s.cluster k).segs.find? fun x => decide (x.ctx = ctx ∧ x.handle = handle) && (x.loaded || segmentLive k s x)

/-- The store has a segment for `n` words of a context's handle: loaded, or reserved with room enough. -/
def segmentReady (k : Fin 32) (ctx : BitVec 6) (handle : Word) (n : Nat) (s : State) : Bool :=
  (segmentOf k ctx handle s).any fun x => x.loaded || decide (n ≤ x.len)

/-- The segments that stay when a context's handle gets a new one. -/
def otherSegments (k : Fin 32) (ctx : BitVec 6) (handle : Word) (s : State) : List Segment :=
  (liveSegments k s).filter fun x => decide (¬(x.ctx = ctx ∧ x.handle = handle))

/-- The store has the segment of a context's handle, or room for `n` words of it (R318, R391). -/
def segmentRoom (k : Fin 32) (ctx : BitVec 6) (handle : Word) (n : Nat) (s : State) : Bool :=
  segmentReady k ctx handle n s || (segmentPlace (otherSegments k ctx handle s) n).isSome

/-- Placement reserves the segment of a handle; gangs of equal handles share one (R318, R391). -/
def reserveSegment (k : Fin 32) (ctx : BitVec 6) (handle : Word) (n : Nat) (s : State) : State :=
  if segmentReady k ctx handle n s then s
  else match segmentPlace (otherSegments k ctx handle s) n with
    | none => s
    | some a => s.updCluster k fun cl => { cl with segs := otherSegments k ctx handle s ++ [⟨ctx, handle, a, n, false⟩] }

/-- The sampler program of an image is copied into its segment, once per cluster (R301, R318). -/
def loadSegment (k : Fin 32) (ctx : BitVec 6) (handle : Word) (words : List Byte) (s : State) : State :=
  match segmentOf k ctx handle s with
  | none => s
  | some x =>
    if x.loaded then s
    else s.updCluster k fun cl =>
      { cl with segs := cl.segs.map fun y => if y.ctx = ctx ∧ y.handle = handle then { y with len := min x.len (words.length / 4), loaded := true } else y,
                ucode := (cutWords 32 4 (words.take (4 * x.len))).foldl (fun m kw => kput m (x.first + kw.1) kw.2) cl.ucode }

/-! ### The launch state (R14) -/

/-- What a boot mailbox and an accepted image give a core. -/
structure Launch where
  core : CoreId
  box  : BootBox
  img  : Image
  wins : Vector WinDesc 16
  deriving DecidableEq, Repr

/-- The sequencer at a launch (R14). -/
def launchRegs (l : Launch) : SeqRegs :=
  let g := (SeqRegs.reset.g.set 1 (⟨l.box.argb, false⟩ : PReg)).set 30 (⟨BitVec.ofNat 64 l.img.decl.stash, false⟩ : PReg)
  { SeqRegs.reset with g := g, pc := BitVec.ofNat 16 (if isS l.core then l.img.entryS else l.img.entryM), srseed := l.box.seed }

/-- The registers that a launch sets (R14, R205); TRAPVEC and the scratch registers stay (R458). The counters and WERR of
an earlier gang do not stay (log entry 21). -/
def launchSys (l : Launch) (ctx : Ctx) (y : SysRegs) : SysRegs :=
  { y with gangId := l.box.gang, ctxId := ctx.tag.setWidth 64 ||| (l.box.part.setWidth 64 <<< 8), nodeArg := l.box.argb,
           mxmiss := 0, werr := 0, relquery := 0, relfree := false, winsel := 0, engarea := ctx.engarea }

/-- A core as the loader leaves it (R14, R318, R319), not yet started. -/
def launchCore (l : Launch) (ctx : Ctx) (k : Core) : Core :=
  let n := BitVec.setWidth 6 l.box.ctx
  let k := loadMemories l.core l.box.handle n l.img k
  { k with
    rg := launchRegs l, sys := launchSys l ctx k.sys, eng := Engines.launch, xs := XSeq.launch,
    bars := Vector.replicate 64 Barrier.reset, chans := Vector.replicate 8 Chan.idle,
    slots := Vector.replicate 16 Slot.none, wins := l.wins,
    stash := loadData (l.img.sects.getD 5 []) l.img.decl.stash k.stash,
    tags := k.tags.filter fun gt => decide (l.img.decl.stash ≤ 64 * gt.1),
    decl := l.img.decl, ctx := n, stores := [], loadsOut := 0, fence := none, reqs := [], pend := [], taken := [],
    inv := none }

/-- Check the image of one member (R320). -/
def checkMember (c : CoreId) (node : Option (Nat × Nat × Nat)) (s : State) : Chk (State × Launch) := do
  let k := s.coreAt c
  let ctx := BitVec.setWidth 6 k.boot.ctx
  chk (decide (k.boot.ctx.toNat < 64)) 0x0A
  let (s, img) ← readImage ctx k.boot.handle node s
  chk (decide ((if isS c then img.entryS else img.entryM) ≠ 0xFFFF)) 0x05
  let (s, wins) ← placeWindows ctx k.boot.argb img k s
  .ok (s, ⟨c, k.boot, img, wins⟩)

/-- Check every member; the first that is refused fails the gang, with its code. -/
def checkMembers (node : Option (Nat × Nat × Nat)) : List CoreId → State → Except (CoreId × Byte) (State × List Launch)
  | [], s => .ok (s, [])
  | c :: cs, s =>
    match checkMember c node s with
    | .error code => .error (c, code)
    | .ok (s, l) =>
      match checkMembers node cs s with
      | .error e => .error e
      | .ok (s, ls) => .ok (s, l :: ls)

/-! ### Start, refusal and end of a gang -/

/-- A fault that a gang holds for a member that has executed HALT: it kills the node (R402). -/
def fatalPending (g : Gang) : Option (CoreId × EngFault) := g.pending.find? fun cf => g.done.contains cf.1

/-- Start the sequencers of all members in one step (R16, R395, R409); a member that had finished before a save stays so.
A save slot is free from here on, and faults kept for the members are handed to them (R406, R409). -/
def startMembers (g : Gang) (s : State) : State :=
  let s := handPending g s
  let s := (g.members.filter fun c => !g.done.contains c).foldl (fun s c => setBoot c 2 0 (s.updCore c fun k =>
    { k with rg := { k.rg with status := .running } })) s
  let s := updGang g.num (fun x => { x with state := .running, start := s.dcc, slots := [], kept := [] }) s
  updNode g.node (fun n => { n with state := .running }) s

/-- Start a gang as it stands now, unless a fault it holds kills it. -/
def startGang (g : Gang) (s : State) : State :=
  match findGang s g.num with
  | none => s
  | some h => match fatalPending h with
    | some (c, f) => killGang h f.cause c.val s
    | none => startMembers h s

/-- A refusal fails the gang: no member starts (R320, R395). -/
def refuseGang (g : Gang) (c : CoreId) (code : Byte) (s : State) : State :=
  let s := g.members.foldl (fun s c => setBoot c 5 code s) s
  let s := match findNode s g.node with
    | some _ => nodeFailed g.node 0 code c.val s
    | none => logError 0 code 0 g.ctx.toNat c.val s
  freeGang g s

/-- Load a gang that is PLACED, and start it unless it waits for P0 (R395, R397). -/
def loadGang (g : Gang) (s : State) : State :=
  let node := (findNode s g.node).map fun n => (n.desc.gangm, n.desc.gangs, n.desc.cls)
  match checkMembers node g.members s with
  | .error (c, code) => refuseGang g c code s
  | .ok (s, ls) =>
    let ctx := s.ctx g.ctx
    let s := ls.foldl (fun s l => s.updCore l.core (launchCore l ctx)) s
    let s : State := match ls with
      | l :: _ => loadSegment g.cluster.toFin g.ctx l.box.handle (l.img.sects.getD 4 []) s
      | [] => s
    if g.stamped ∧ (s.cluster g.cluster.toFin).pstate ≠ 0 then updGang g.num (fun x => { x with state := .waitP0 }) s
    else startGang g s

/-- The free mailboxes of a cluster, lowest first. -/
def freeMailboxes (k : Fin 32) (s : State) : List Nat :=
  (List.range 16).filter fun i => (vget (BitVec.ofNat 4 i) (s.cluster k).mbox).gang.isNone

/-- Assign mailboxes of a cluster to a gang, mb0 upward (R17, R173). -/
def assignMailboxes (k : Fin 32) (num : Nat) (is : List Nat) (s : State) : State :=
  s.updCluster k fun cl =>
    { cl with mbox := ((List.range is.length).zip is).foldl (fun v ni =>
        vset (BitVec.ofNat 4 ni.2) (⟨some (num, BitVec.ofNat 4 ni.1), []⟩ : MBox) v) cl.mbox }

/-- The cores of a cluster whose boot mailboxes the host has given one gang number in bring-up mode (R395). -/
def bringupMembers (c : CoreId) (s : State) : List CoreId :=
  let box := (s.coreAt c).boot
  let mine := (coresOf (clusterOf c)).filter fun d =>
    let k := s.coreAt d
    k.boot.go && k.gang.isNone && decide (k.rg.status = .off) && k.inSvc &&
      decide (k.boot.gang.extractLsb' 32 32 = box.gang.extractLsb' 32 32) && decide (k.boot.ctx = box.ctx)
  let index (d : CoreId) : Nat := ((s.coreAt d).boot.gang.extractLsb' 8 4).toNat
  sortBy (fun a b => decide (index a ≤ index b)) mine

/-- GO in bring-up mode: once as many mailboxes as GANG_ID says carry GO, they are loaded as one gang without a node (R395;
log entry 22). The gang waits while its number is live, or mailboxes or the microcode store are short. -/
def bringup (c : CoreId) (s : State) : State :=
  let box := (s.coreAt c).boot
  let ms := bringupMembers c s
  let num := (box.gang.extractLsb' 32 32).toNat
  let k := clusterOf c
  let (need, words) := match readImage (BitVec.setWidth 6 box.ctx) box.handle none s with
    | .ok (_, img) => (img.mboxes, (img.sects.getD 4 []).length / 4)
    | .error _ => (0, 0)
  let free := freeMailboxes k s
  if ms.length < max 1 (box.gang.extractLsb' 0 4).toNat ∨ (findGang s num).isSome ∨ free.length < need ∨
      segmentRoom k (BitVec.setWidth 6 box.ctx) box.handle words s = false then s
  else
    let g : Gang :=
      { num := num, node := s.sched.nextId, ctx := BitVec.setWidth 6 box.ctx, members := ms, cluster := BitVec.ofNat 5 k.val,
        smp := [], ume := [], pixmask := 0, hostmb := false, stamped := false, image := box.handle, prio := 0,
        state := .placed, slots := [], pending := [], start := s.dcc, done := [], kept := [],
        mboxes := need, arg := box.argb, retry := 0 }
    let s := reserveSegment k g.ctx box.handle words s
    let s := s.updSched fun d => { d with gangs := d.gangs ++ [g], nextId := d.nextId + 1 }
    let s := ms.foldl (fun s d => setBoot d 1 0 (s.updCore d fun x => { x with gang := some num })) s
    loadGang g (assignMailboxes k num (free.take need) s)

/-- The driver has not accepted BASE (R418). -/
def baseOff (s : State) : Bool := !s.ident.drvacc.getLsbD 127

/-- BOOT_GO: the overlay loader acts on GO of a core's boot mailbox (R395): for the gang that the dispatcher has placed there,
or in bring-up mode for the gang the host has written. Outside that mode GO is ignored while BASE is not accepted (R418). -/
def execBootGo (core : CoreId) (s : State) : Host.Outcome State Fault Refusal :=
  if (s.coreAt core).boot.go = false ∨ baseOff s = true ∧ s.sched.bringup = false then settle s
  else match gangOf s core with
    | some g => settle (if g.state = .placed then loadGang g s else s)
    | none => settle (if s.sched.bringup then bringup core s else s)

/-- The cluster of a placed STAMPED gang reaches P0: its sequencers start (R397). A cluster where none waits for P0 moves only
with its power manager, one state a period. -/
def execP0Reached (cluster : BitVec 5) (s : State) : Host.Outcome State Fault Refusal :=
  match s.sched.gangs.filter fun g => decide (g.cluster = cluster) && decide (g.state = .waitP0) with
  | [] => settle s
  | gs => settle (gs.foldl (fun s g => startGang g s) (s.updCluster cluster.toFin fun k => { k with pstate := 0 }))

end Sys2Proof.Machine
end

