-- ==== Sys2Proof/Machine/Walker.lean ====
section
/-!
DEFINITION. The graph walker and the event table: submission (R379), ABORT (R385), graph headers (R380), node descriptors
(R381, R382, R384), registration of waits (R387, R388), host writes of events (R386), the kinds that use no core (R383).
-/
namespace Sys2Proof.Machine

/-! ### Submission and abort -/

/-- Replace the submission mailbox of a context. -/
def putSubmit (ctx : BitVec 6) (m : Submit) (s : State) : State :=
  s.updSched fun d => { d with submits := vset ctx m d.submits }

/-- Until PHASE reads READY the windows of the scheduler, the engines and the pool ignore writes (R415). -/
def whenReady (f : State → State) (s : State) : State := if s.ident.phase = 5 then f s else s

/-- A write of ROOT: appended, or dropped with OVF when 16 are queued, VALID = 0, or BASE is not accepted (R379, R418). -/
def submitRoot (ctx : BitVec 6) (root : Word) (s : State) : State :=
  let m := vget ctx s.sched.submits
  if s.feature 127 && (s.ctx ctx).valid && decide (m.roots.length < 16) then putSubmit ctx { m with roots := m.roots ++ [root] } s
  else putSubmit ctx { m with ovf := true } s

/-- SUBMIT_ROOT. -/
def execSubmitRoot (ctx : BitVec 6) (root : Word) (s : State) : Host.Outcome State Fault Refusal :=
  settle (whenReady (submitRoot ctx root) s)

/-- A node that holds cores: PLACED or RUNNING. -/
def nodeHolds (n : Node) : Bool := decide (n.state = .placed) || decide (n.state = .running)

/-- Forget the saved gang of a node: what it still holds is free, and its cores stay with whom they serve now. -/
def forgetSaved (n : Node) (s : State) : State :=
  match n.gang.bind (findGang s) with
  | some g => { freeGang g s with cores := s.cores }
  | none => s

/-- Discard a node that holds no cores: its waits are removed, a saved gang is forgotten, its gather list is free. -/
def discardNode (n : Node) (s : State) : State := dropNode n.id (freeList n (forgetSaved n s))

/-- A node has run before: it has a gang, or is a LOOP past its first run. -/
def hasRun (n : Node) : Bool := n.gang.isSome || decide (0 < n.run)

/-- A gang of a context that holds cores, with a node or in bring-up. -/
def gangHolds (ctx : BitVec 6) (g : Gang) : Bool :=
  decide (g.ctx = ctx) && decide (g.state ≠ .saved ∧ g.state ≠ .killed)

/-- ABORT of a context (R385): nodes without cores are discarded, with an entry for those that had run (log entry 29); every gang
of it is killed as by a fault with CODE 0, its submission FIFO is empty, and no more of its graphs is read. Events keep their
counts; MODELOK is cleared (R443). -/
def abortCtx (ctx : BitVec 6) (s : State) : State :=
  let mine (n : Node) : Bool := decide (n.ctx = ctx)
  let s' := (s.sched.nodes.filter fun n => mine n && !nodeHolds n).foldl (fun s n =>
    discardNode n (if hasRun n then logError 1 0 n.va n.ctx.toNat 0xFFFF s else s)) s
  let s' := (s'.sched.gangs.filter (gangHolds ctx)).foldl (fun s g => killGang g 0 0xFFFF s) s'
  let s' := s'.updSched fun d => { d with graphs := d.graphs.filter fun g => decide (g.ctx ≠ ctx) }
  let s' := { s' with ctxs := vset ctx { s'.ctx ctx with modelok := false } s'.ctxs }
  putSubmit ctx { (vget ctx s'.sched.submits) with roots := [] } s'

/-- A write of 1 to ABORT of a submission mailbox. -/
def execAbort (ctx : BitVec 6) (s : State) : Host.Outcome State Fault Refusal := settle (whenReady (abortCtx ctx) s)

/-! ### Graph headers (R380) -/

/-- The walker may read for a context: RUN is set, and the TDI is not in ERROR for a tagged context (R419, R425). -/
def walkerReads (ctx : BitVec 6) (s : State) : Bool :=
  s.sched.run && !(decide (s.ident.tdi = 3) && decide ((s.ctx ctx).tag ≠ 0))

/-- A graph of a context still has nodes to be read. -/
def reading_ (ctx : BitVec 6) (s : State) : Bool := s.sched.graphs.any fun g => decide (g.ctx = ctx) && decide (g.next < g.nnodes)

/-- A context's next root can be read: one is queued and the roots before it are read (R379). -/
def rootReady (ctx : BitVec 6) (s : State) : Bool :=
  walkerReads ctx s && !(vget ctx s.sched.submits).roots.isEmpty && !reading_ ctx s

/-- The context whose turn it is: the first from the round-robin pointer on that has a root to be read (R379). -/
def walkerTurn (s : State) : Option (BitVec 6) :=
  ((List.range 64).map fun i => s.sched.rr + BitVec.ofNat 6 i).find? fun c => rootReady c s

/-- The graph that a header describes, none if it is refused. -/
def readHeader (ctx : BitVec 6) (root : Word) (s : State) : Option Graph :=
  let c := s.ctx ctx
  match hubTranslate ctx root.toNat .read s, hubBytes ctx root.toNat 64 s with
  | .ok (_, x), .ok (_, h, bad) =>
    let nodes := leAt h 8 8
    let dev := leAt h 0x10 2
    let fev := leAt h 0x12 2
    if decide (root.toNat % 64 = 0) && (decide (x.region = .lcl) || decide (x.region = .host)) && !bad &&
        decide (1 ≤ leAt h 0 4 ∧ leAt h 0 4 ≤ 65535) && zeroAt h 4 4 && decide (nodes % 128 = 0) && ownsEvent c dev &&
        (decide (fev = 0xFFFF) || ownsEvent c fev) && decide (1 ≤ leAt h 0x14 4) && zeroAt h 0x18 40 then
      some { id := s.sched.nextId, ctx := ctx, nnodes := leAt h 0 4, nodes := BitVec.ofNat 64 nodes, doneev := dev,
             failev := if fev = 0xFFFF then none else some fev, donecnt := leAt h 0x14 4, next := 0, retired := false }
    else none
  | _, _ => none

/-- Forget graphs that have no node left to read or to run. -/
def dropGraphs (s : State) : State :=
  let live (g : Graph) : Bool :=
    decide (g.next < g.nnodes) || s.sched.nodes.any fun n => decide (n.graph = some g.id)
  s.updSched fun d => { d with graphs := d.graphs.filter live }

/-- The walker reads a queued header: a refused one is logged and consumed; a graph whose DONEEV has its count retires at
once (R380). -/
def execGraphHeaderRead (ctx : BitVec 6) (s : State) : Host.Outcome State Fault Refusal :=
  let m := vget ctx s.sched.submits
  match m.roots with
  | [] => settle s
  | root :: rest =>
    if walkerTurn s ≠ some ctx then settle s
    else
      let t := (putSubmit ctx { m with roots := rest } s).updSched fun d => { d with rr := ctx + 1 }
      match readHeader ctx root s with
      | none => settle (logError 2 0 0 ctx.toNat 0xFFFF t)
      | some g =>
        let t := t.updSched fun d => { d with graphs := d.graphs ++ [g], nextId := d.nextId + 1 }
        settle (retireGraphs g.doneev t)

/-! ### Node descriptors (R381, R382) -/

/-- A wait or signal entry: event and value; its upper bits must be 0 and the event the context's. -/
def evEntry (b : List Byte) (off : Nat) : Nat × Nat := (leAt b (off + 4) 2, leAt b off 4)

/-- A wait or signal entry is legal. -/
def evEntryOk (c : Ctx) (b : List Byte) (off : Nat) : Bool := zeroAt b (off + 6) 2 && ownsEvent c (leAt b (off + 4) 2)

/-- AUX is legal for a kind. -/
def auxOk (kind : Nat) (aux : Word) : Bool :=
  match kind with
  | 1 => decide (aux.extractLsb' 0 32 ≠ 0)
  | 2 => decide (aux.toNat % 4 = 0)
  | 3 => decide (aux.toNat < 2 ^ 11)
  | _ => decide (aux = 0)

/-- The 128 bytes break no line of R381; STAMPED needs its feature (R417). More cores of a class than a cluster has could never be
placed, which R18 rules out (DEDUCED, log entry 46). -/
def nodeDescOk (s : State) (c : Ctx) (b : List Byte) : Bool :=
  let u (i : Nat) : Nat := leAt b i 1
  let kernel := decide (u 0 ≤ 1)
  let flags := u 0x23
  decide (u 0 ≤ 4) &&
  (if kernel then classOk (u 1) (u 2) (u 3) && decide (u 2 ≤ 8 ∧ u 3 ≤ 2) else decide (u 1 = 0 ∧ u 2 = 0 ∧ u 3 = 0) && zeroAt b 8 8) &&
  decide (u 4 ≤ 7 ∧ u 5 ≤ 3 ∧ u 6 ≤ 4 ∧ u 7 ≤ 4 ∧ u 0x20 ≤ 64 ∧ u 0x21 ≤ 64 ∧ flags ≤ 7 ∧ u 0x24 ≤ 6) &&
  (if flags / 4 % 2 = 1 then decide (u 0x25 ≤ 3) else decide (u 0x25 = 0)) && zeroAt b 0x26 2 &&
  auxOk (u 0) (BitVec.ofNat 64 (leAt b 0x28 8)) && (decide (u 0x24 ≠ 0) || zeroAt b 0x30 8) && zeroAt b 0x38 8 &&
  ((List.range (u 6)).all fun i => evEntryOk c b (0x40 + 8 * i)) &&
  ((List.range (u 7)).all fun i => evEntryOk c b (0x60 + 8 * i)) &&
  (decide (flags / 2 % 2 = 0) || s.feature 4)

/-- A tile-operand descriptor keeps its reserved bits 0 (R195, R382). -/
def topOk (b : List Byte) : Bool := decide (leAt b 6 2 / 16 = 0) && decide (leAt b 0x18 8 < 32)

/-- The fields of a descriptor, with its tile operands. -/
def descOf (b : List Byte) (tops : List (BitVec 256)) : NodeDesc :=
  let u (i : Nat) : Nat := leAt b i 1
  let w (i : Nat) : Word := BitVec.ofNat 64 (leAt b i 8)
  { kind := u 0, cls := u 1, gangm := u 2, gangs := u 3, prio := u 4, eclass := u 5, image := w 8, arg := w 0x10,
    seed := w 0x18, nsmp := u 0x20, nume := u 0x21, pixmask := BitVec.ofNat 8 (u 0x22), flags := BitVec.ofNat 3 (u 0x23),
    die := u 0x25, aux := w 0x28, tops := tops, waits := (List.range (u 6)).map fun i => evEntry b (0x40 + 8 * i),
    sigs := (List.range (u 7)).map fun i => evEntry b (0x60 + 8 * i) }

/-- Read and check a node descriptor: none if it is malformed, cannot be read or holds a poisoned byte (R384). -/
def readDesc (ctx : BitVec 6) (va : Word) (s : State) : Option NodeDesc :=
  match hubBytes ctx va.toNat 128 s with
  | .ok (_, b, false) =>
    if !nodeDescOk s (s.ctx ctx) b then none
    else
      let ntop := leAt b 0x24 1
      if ntop = 0 then some (descOf b [])
      else match hubBytes ctx (leAt b 0x30 8) (32 * ntop) s with
        | .ok (_, t, false) =>
          let ts := (List.range ntop).map fun i => (t.drop (32 * i)).take 32
          if ts.all topOk then some (descOf b (ts.map fun x => BitVec.ofNat 256 (leVal x))) else none
        | _ => none
  | _ => none

/-! ### Waits (R387, R388) -/

/-- The entries that the wait pool and the spill ring can take. -/
def waitRoom (s : State) : Nat := (8192 - s.sched.waits.length) + (s.sched.spilln - s.sched.spill.length)

/-- The 16 bytes of a spilled wait in its ring: the rule gives their content but no layout, so they are free bytes
(R388; log entry 2). -/
def writeSpill (s : State) : State :=
  let a := s.sched.spillbase.toNat + 16 * (s.sched.spills.toNat % max 1 s.sched.spilln)
  let bs := (List.range 16).map fun i => Config.freeByte (s.free + i)
  { s.updMem .hbm (fun m => m.write a bs false) with free := s.free + 16 }

/-- Test and register a wait in one step: a met one enters no list; a full pool spills to the ring and sets SPILL. -/
def registerWait (w : Wait) (s : State) : State :=
  if waitMet s w then s
  else if s.sched.waits.length < 8192 then s.updSched fun d => { d with waits := d.waits ++ [w] }
  else
    let s := evPut w.ev { evGet s w.ev with spill := true } (writeSpill s)
    s.updSched fun d => { d with spill := d.spill ++ [w], spills := d.spills + 1 }

/-- A node enters the graph's flight: its waits are registered, and it is ELIGIBLE if none is left. -/
def enterNode (n : Node) (s : State) : State :=
  let s := s.updSched fun d => { d with nodes := d.nodes ++ [n], nextId := d.nextId + 1 }
  makeEligible (n.desc.waits.foldl (fun s et => registerWait ⟨n.id, et.1, et.2⟩ s) s)

/-- A descriptor that fills a node of no graph known yet. -/
def freshNode (s : State) (graph : Option Nat) (slot : Option (Nat × Nat)) (idx : Nat) (ctx : BitVec 6) (va : Word)
    (d : NodeDesc) : Node :=
  { id := s.sched.nextId, graph := graph, slot := slot, idx := idx, ctx := ctx, va := va, desc := d, state := .waiting,
    run := 0, order := 0, since := 0, gang := none, pred := none }

/-- A descriptor with no legal content, for a node that fails when it is read. -/
def NodeDesc.none : NodeDesc := descOf [] []

/-- The walker reads the next node of a graph: a malformed one is FAILED (R384); a retired graph has none left (R380); the
walker reads none while pool and ring are full, and waits while they have no room for its waits (R388). -/
def execNodeDescriptorRead (graph : Nat) (s : State) : Host.Outcome State Fault Refusal :=
  match s.sched.graphs.find? fun g => decide (g.id = graph) with
  | none => settle s
  | some g =>
    if !walkerReads g.ctx s || decide (g.nnodes ≤ g.next ∨ waitRoom s = 0) then settle s
    else
      let upd (f : Graph → Graph) (s : State) : State :=
        s.updSched fun d => { d with graphs := d.graphs.map fun h => if h.id = graph then f h else h }
      if g.retired then settle (dropGraphs (upd (fun h => { h with next := h.nnodes }) s))
      else
        let va := g.nodes + BitVec.ofNat 64 (128 * g.next)
        let s' := upd (fun h => { h with next := h.next + 1 }) s
        match readDesc g.ctx va s with
        | none =>
          let n := freshNode s' (some graph) none g.next g.ctx va NodeDesc.none
          settle (dropGraphs (nodeFailed n.id 2 0 0xFFFF (s'.updSched fun d =>
            { d with nodes := d.nodes ++ [n], nextId := d.nextId + 1 })))
        | some d =>
          if waitRoom s < (d.waits.filter fun et => !waitMet s ⟨0, et.1, et.2⟩).length then settle s
          else settle (enterNode (freshNode s' (some graph) none g.next g.ctx va d) s')

/-! ### Host writes of events (R386) -/

/-- HOSTVIS and VEC of an event entry from a write. -/
def eventFields (e : Nat) (value : Word) (s : State) : State :=
  evPut e { evGet s e with hostvis := value.getLsbD 62, vec := value.extractLsb' 48 11 } s

/-- A write with ADD = 0 sets COUNT and re-tests the waiters. Setting is no increment and sends no vector (log entry 24). -/
def eventSet (e : Nat) (value : Word) (s : State) : State :=
  dropGraphs (setEventCount e (value.extractLsb' 0 32) (eventFields e value s))

/-- EVENT_SET. -/
def execEventSet (e : BitVec 16) (value : Word) (s : State) : Host.Outcome State Fault Refusal :=
  settle (whenReady (eventSet e.toNat value) s)

/-- A write with ADD = 1 adds COUNT, saturating, and re-tests the waiters. -/
def eventAdd (e : Nat) (value : Word) (s : State) : State :=
  dropGraphs (signalEvent e (value.extractLsb' 0 32) (eventFields e value s))

/-- EVENT_ADD. -/
def execEventAdd (e : BitVec 16) (value : Word) (s : State) : Host.Outcome State Fault Refusal :=
  settle (whenReady (eventAdd e.toNat value) s)

/-! ### Kinds 2 to 4 (R383, R389) -/

/-- An ELIGIBLE node of a kind. -/
def eligibleOf (id kind : Nat) (s : State) : Option Node :=
  (findNode s id).bind fun n => if n.state = .eligible ∧ n.desc.kind = kind then some n else none

/-- A CONDITIONAL acts on the predicate that was read when its last wait was met: it makes SIG0 and SIG1, or SIG2 and SIG3; a
word that could not be read or was poisoned makes it FAILED (R389). -/
def execConditionalNode (node : Nat) (s : State) : Host.Outcome State Fault Refusal :=
  match eligibleOf node 2 s with
  | none => settle s
  | some n =>
    match n.pred with
    | none => settle s
    | some (.word w) =>
      settle (dropGraphs (dropNode node (makeSignals n (if w ≠ 0 then n.desc.sigs.take 2 else n.desc.sigs.drop 2) s)))
    | some (.failed code) => settle (dropGraphs (nodeFailed node 1 code 0xFFFF s))

/-- A HOST_SIGNAL node sends its vector, then makes its signals. -/
def execHostSignalNode (node : Nat) (s : State) : Host.Outcome State Fault Refusal :=
  match eligibleOf node 3 s with
  | none => settle s
  | some n => settle (dropGraphs (nodeDone node (raiseMsix (n.desc.aux.setWidth 11) s)))

/-- A JOIN node makes its signals. -/
def execJoinNode (node : Nat) (s : State) : Host.Outcome State Fault Refusal :=
  match eligibleOf node 4 s with
  | none => settle s
  | some _ => settle (dropGraphs (nodeDone node s))

end Sys2Proof.Machine
end

