-- ==== Sys2Proof/Machine/Placement.lean ====
section
/-!
DEFINITION. The dispatcher: the ready pool (R390), placement (R391, R392, R394), pre-emption requests (R393) and YIELD
(R47, R167), the batch coalescer (R396), the power manager (R397, R456).
-/
namespace Sys2Proof.Machine

/-! ### The ready pool (R384, R390) -/

/-- The partition of a context's nodes. -/
def partOf (s : State) (ctx : BitVec 6) : Part := vget (s.ctx ctx).part s.parts

/-- The nodes of a state in a partition. -/
def inPart (s : State) (p : BitVec 3) (st : NodeState) : List Node :=
  s.sched.nodes.filter fun n => decide ((s.ctx n.ctx).part = p) && decide (n.state = st)

/-- The ticks since a node entered READY. -/
def waited (s : State) (n : Node) : Nat := (s.dcc - n.since).toNat

/-- The effective priority of R390. -/
def effPrio (s : State) (n : Node) : Nat :=
  if n.desc.prio = 7 then 7 else min 6 (n.desc.prio + waited s n / ticksUs 2000)

/-- The rank order of R390. -/
def ranksFirst (s : State) (a b : Node) : Bool :=
  let x := effPrio s a
  let y := effPrio s b
  if x ≠ y then decide (y < x)
  else if a.since ≠ b.since then decide (a.since < b.since)
  else if a.ctx ≠ b.ctx then decide (a.ctx < b.ctx)
  else decide (a.idx ≤ b.idx)

/-- The nodes in READY, first in rank first. -/
def readyRanked (s : State) : List Node :=
  sortBy (ranksFirst s) (s.sched.nodes.filter fun n => decide (n.state = .ready))

/-! ### What a node needs (R391) -/

/-- The mailboxes and the sampler words that an image's header declares, as the dispatcher sees them. An image whose header cannot
be read, or declares more than a cluster has, needs none: the loader refuses it (R320). -/
def imageNeeds (n : Node) (s : State) : Nat × Nat :=
  let within (most x : Nat) : Nat := if most < x then 0 else x
  match hubBytes n.ctx n.desc.image.toNat 0x70 s with
  | .ok (_, h, false) => (within 16 (leAt h 0x1E 1), within 1024 (leAt h 0x6C 4 / 4))
  | _ => (0, 0)

/-- A core is free for a new gang. -/
def coreFree (s : State) (c : CoreId) : Bool :=
  (s.coreAt c).inSvc && (s.coreAt c).gang.isNone && decide ((s.coreAt c).rg.status = .off)

/-- The free sampler contexts of a cluster. -/
def freeSmp (k : Fin 32) (s : State) : List (BitVec 6) :=
  ((List.range 64).map (BitVec.ofNat 6)).filter fun i => (smpGet s k i).gang.isNone

/-- The free UME block contexts of a die. -/
def freeUme (d : Fin 4) (s : State) : List (BitVec 6) :=
  ((List.range 64).map (BitVec.ofNat 6)).filter fun i => (umeGet s d i).gang.isNone

/-- The die of a cluster. -/
def dieOfCluster (k : Fin 32) : Fin 4 := ⟨k.val / 8, by omega⟩

/-- A cluster lies in the node's partition and on its die (R391). -/
def clusterFor (s : State) (n : Node) (k : Fin 32) : Bool :=
  (partOf s n.ctx).clmask.getLsbD k.val &&
    (!n.desc.flags.getLsbD 2 || decide ((dieOfCluster k).val = n.desc.die))

/-- The die's BUDGET allows the node's class and its STAMPED flag (R397). -/
def budgetFor (s : State) (n : Node) (k : Fin 32) : Bool :=
  let b := (s.die (dieOfCluster k)).budget
  let t (c : Nat) : BitVec 32 := s.power.thresh.toList.getD (c - 1) 0
  (decide (n.desc.eclass = 0) || decide (t n.desc.eclass ≤ b)) && (!n.desc.flags.getLsbD 1 || decide (t 3 ≤ b))

/-- The image of a node is resident in a core (R318, R391). -/
def residentIn (s : State) (n : Node) (c : CoreId) : Bool := holdsImage n.ctx n.desc.image (s.coreAt c)

/-- Of a class's free cores the first in R391's order: resident ones first, each group in ascending number. -/
def takeCores (s : State) (n : Node) (k : Fin 32) (wantS : Bool) (count : Nat) : Option (List CoreId) :=
  let free := (coresOf k).filter fun c => decide (isS c = wantS) && coreFree s c
  let order := (free.filter (residentIn s n)) ++ free.filter fun c => !residentIn s n c
  if order.length < count then none else some (sortBy (fun a b => decide (a ≤ b)) (order.take count))

/-- The members that a node would get in a cluster, in index order, or none if something of R391 is not free there. A saved
gang takes its own cores (R392); one that is out of service is not waited for, as the gang is FAILED then (R450). -/
def membersFor (s : State) (n : Node) (k : Fin 32) : Option (List CoreId) :=
  let (mb, words) := imageNeeds n s
  if !clusterFor s n k || !budgetFor s n k || decide ((freeMailboxes k s).length < mb) ||
      decide ((freeSmp k s).length < n.desc.nsmp) then none
  else if !segmentRoom k n.ctx n.desc.image words s then none
  else match n.gang.bind (findGang s) with
    | some g => if g.cluster.toFin = k ∧ (g.members.all fun c => coreFree s c || !(s.coreAt c).inSvc) then some g.members else none
    | none =>
      if (freeUme (dieOfCluster k) s).length < n.desc.nume then none
      else match takeCores s n k false n.desc.gangm, takeCores s n k true n.desc.gangs with
        | some ms, some ss => some (ms ++ ss)
        | _, _ => none

/-- A cluster could hold a node with no gang resident (R390). -/
def couldHold (s : State) (n : Node) (k : Fin 32) : Bool :=
  let cs := (coresOf k).filter fun c => (s.coreAt c).inSvc
  let (mb, words) := imageNeeds n s
  clusterFor s n k && decide (n.desc.gangm ≤ (cs.filter fun c => !isS c).length) &&
    decide (n.desc.gangs ≤ (cs.filter isS).length) && decide (mb ≤ 16) && decide (n.desc.nsmp ≤ 64) &&
    decide (n.desc.nume ≤ 64) && decide (words ≤ 1024)

/-! ### Tile operands (R382, R391, R435) -/

/-- The rows of a tile operand: first byte and length. -/
def topRows (t : BitVec 256) : List (Int × Nat) :=
  let base := ((t.extractLsb' 0 52).toNat : Int)
  let stride := (t.extractLsb' 128 64).toInt
  (List.range (t.extractLsb' 96 32).toNat).map fun (i : Nat) => (base + (i : Int) * stride, (t.extractLsb' 64 32).toNat)

/-- Two operands of one context share a byte; an empty row has none. -/
def topsOverlap (a b : BitVec 256) : Bool :=
  (topRows a).any fun x => (topRows b).any fun y => decide (0 < x.2 ∧ 0 < y.2 ∧ x.1 < y.1 + y.2 ∧ y.1 < x.1 + x.2)

/-- The die of the most recent node whose write-intent operand overlaps one of a node's operands (R391). -/
def writerDie (s : State) (n : Node) : Option Nat :=
  (s.sched.writers.find? fun w => decide (w.2.1 = n.ctx) && w.2.2.any fun a => n.desc.tops.any (topsOverlap a)).map (·.1)

/-- An address of a context lies in a pool window that is not OK (R435, R437). -/
def lostAt (s : State) (ctx : BitVec 6) (va : Nat) : Bool :=
  match walk ctx va s with
  | .error _ => false
  | .ok (_, leaf, size) =>
    let off := if size = 3 then va % 2 ^ 30 else va % 2 ^ 19
    match physical s (regionOf (pteClass leaf)) (pteAddr leaf + off) 0 with
    | .error (.trap t) => decide (t.cause = cPoolLost)
    | _ => false

/-- A node is paused: a tile operand overlaps a window that is not OK. Windows and pages are whole units of 512 KiB. -/
def pausedNode (s : State) (n : Node) : Bool :=
  n.desc.tops.any fun t => (topRows t).any fun r =>
    decide (0 ≤ r.1) && decide (0 < r.2) &&
      (List.range ((r.1.toNat + r.2 - 1) / 2 ^ 19 - r.1.toNat / 2 ^ 19 + 1)).any fun i =>
        lostAt s n.ctx (max r.1.toNat ((r.1.toNat / 2 ^ 19 + i) * 2 ^ 19))

/-! ### Placement (R390 to R392, R395) -/

/-- Every cluster by number. -/
def allClusters : List (Fin 32) := List.finRange 32

/-- R391's preference: more resident cores, then the writer's die, then the lower number. -/
def prefers (s : State) (n : Node) (a b : Fin 32) : Bool :=
  let res (k : Fin 32) : Nat := ((coresOf k).filter (residentIn s n)).length
  let near (k : Fin 32) : Bool := decide (writerDie s n = some (dieOfCluster k).val)
  if res a ≠ res b then decide (res b < res a)
  else if near a ≠ near b then near a
  else decide (a ≤ b)

/-- The cluster and members for a node, among clusters that are not barred. -/
def choosePlace (s : State) (n : Node) (barred : List (Fin 32)) : Option (Fin 32 × List CoreId) :=
  let fits := allClusters.filterMap fun k =>
    if barred.contains k then none else (membersFor s n k).map fun ms => (k, ms)
  (sortBy (fun a b => prefers s n a.1 b.1) fits).head?

/-- A saved gang one of whose cores is out of service fails when it would be restored (R450). -/
def gangBroken (s : State) (n : Node) : Bool :=
  match n.gang.bind (findGang s) with
  | some g => !(g.members.all fun c => (s.coreAt c).inSvc)
  | none => false

/-- The nodes that are first in rank in their partitions and have gone unplaced for 1 ms; paused nodes do not count (R390, R435). -/
def dueHolds (s : State) : List Node → List (BitVec 3) → List Nat
  | [], _ => []
  | n :: ns, seen =>
    let part := (s.ctx n.ctx).part
    if pausedNode s n || seen.contains part then dueHolds s ns seen
    else if ticksUs 1000 ≤ waited s n then n.id :: dueHolds s ns (part :: seen) else dueHolds s ns (part :: seen)

/-- Holds that are due begin; each lasts until its node is placed or gone (R390). -/
def noteHolds (s : State) : State :=
  match (dueHolds s (readyRanked s) []).filter fun i => !s.sched.holds.contains i with
  | [] => s
  | new => s.updSched fun d => { d with holds := d.holds ++ new }

/-- A node waits for a ready-pool entry: it is ELIGIBLE of kind 0 or 1, or saved (R384). -/
def wantsEntry (n : Node) : Bool := (decide (n.state = .eligible) && decide (n.desc.kind ≤ 1)) || decide (n.state = .saved)

/-- A node takes a ready-pool entry when the pool and its partition's share have room; nodes of a partition enter in order of
eligibility (R384, R390). -/
def execNodeEnterReady (node : Nat) (s : State) : Host.Outcome State Fault Refusal :=
  match findNode s node with
  | none => settle s
  | some n =>
    let p := (s.ctx n.ctx).part
    let pool := (s.sched.nodes.filter fun x => decide (x.state = .ready)).length
    let first := s.sched.nodes.all fun x =>
      !(wantsEntry x && decide ((s.ctx x.ctx).part = p)) || decide (n.order ≤ x.order)
    if wantsEntry n && first && decide (pool < 4096) && decide ((inPart s p .ready).length < (partOf s n.ctx).rpshare.toNat) then
      settle (updNode node (fun n => { n with state := .ready, since := s.dcc }) (noteHolds s))
    else settle s

/-- The first node in rank order that can be placed, with its place. A node whose hold has begun bars lower-ranked ones from the
clusters that could hold it; paused nodes do not count (R390, R435). -/
def pickNode (s : State) : List Node → List (Fin 32) → Option (Node × Fin 32 × List CoreId)
  | [], _ => none
  | n :: ns, barred =>
    if pausedNode s n then pickNode s ns barred
    else match choosePlace s n barred with
      | some p => some (n, p)
      | none => pickNode s ns (if s.sched.holds.contains n.id then barred ++ allClusters.filter (couldHold s n) else barred)

/-- The next gang number: it skips 0 and live numbers (R392). -/
def nextNumber (s : State) : Nat :=
  let live (n : Nat) : Bool := decide (n = 0) || s.sched.gangs.any fun g => decide (g.num = n)
  (((List.range (s.sched.gangs.length + 2)).map fun i => (s.sched.nextGang + i) % 2 ^ 32).find? fun n => !live n).getD 1

/-- The argument base of a node's present run (R383). -/
def runArg (n : Node) : Word :=
  if n.desc.kind = 1 then n.desc.arg + BitVec.ofNat 64 n.run * (n.desc.aux.extractLsb' 32 32).signExtend 64 else n.desc.arg

/-- GANG_ID of a member (R205). -/
def gangIdWord (num index size : Nat) : Word := BitVec.ofNat 64 (num * 2 ^ 32 + index * 2 ^ 8 + size)

/-- Every tree of PIXMASK is installed with the context's owner tag (R391). -/
def treesOk (s : State) (n : Node) : Bool :=
  (List.range 8).all fun i =>
    let t := vget (BitVec.ofNat 3 i) s.trees
    !n.desc.pixmask.getLsbD i || (t.installed && decide (t.tag = (s.ctx n.ctx).tag))

/-- Give a gang sampler contexts of its cluster. What an earlier gang left in them is gone (R449; log entry 21). -/
def grantSmp (k : Fin 32) (num : Nat) (is : List (BitVec 6)) (s : State) : State :=
  is.foldl (fun s i => smpPut k i { SmpCtx.reset with gang := some num } s) s

/-- A node is PLACED: its hold ends (R384, R390). -/
def placed (id : Nat) (s : State) : State :=
  updNode id (fun n => { n with state := .placed }) (s.updSched fun d => { d with holds := d.holds.filter fun h => decide (h ≠ id) })

/-- Reserve everything for a new gang in one step, and write its boot mailboxes (R391, R392, R395). -/
def placeNew (n : Node) (k : Fin 32) (ms : List CoreId) (s : State) : State :=
  let num := nextNumber s
  let d := dieOfCluster k
  let smp := (freeSmp k s).take n.desc.nsmp
  let ume := (freeUme d s).take n.desc.nume
  let (mb, words) := imageNeeds n s
  let c := s.ctx n.ctx
  let g : Gang :=
    { num := num, node := n.id, ctx := n.ctx, members := ms, cluster := BitVec.ofNat 5 k.val, smp := smp, ume := ume,
      pixmask := n.desc.pixmask, hostmb := n.desc.flags.getLsbD 0, stamped := n.desc.flags.getLsbD 1, image := n.desc.image,
      prio := n.desc.prio, state := .placed, slots := [], pending := [], start := s.dcc, done := [], kept := [], mboxes := mb,
      arg := runArg n, retry := 0 }
  let box (i : Nat) (b : BootBox) : BootBox :=
    { b with handle := n.desc.image, argb := g.arg, seed := n.desc.seed, gang := gangIdWord num i ms.length, part := c.part,
             ctx := n.ctx.setWidth 8, go := true, state := 1, code := 0 }
  let s := ((List.range ms.length).zip ms).foldl (fun s im => s.updCore im.2 fun x =>
    { x with gang := some num, boot := box im.1 x.boot }) s
  let s := assignMailboxes k num ((freeMailboxes k s).take mb) (grantSmp k num smp (reserveSegment k n.ctx n.desc.image words s))
  let s := ume.foldl (fun s i => umePut d i { (default : UmeCtx) with gang := some num } s) s
  let s := s.updSched fun x =>
    { x with gangs := x.gangs ++ [g], nextGang := (num + 1) % 2 ^ 32,
             writers := (d.val, n.ctx, n.desc.tops.filter fun t => t.getLsbD 192) :: x.writers }
  placed n.id (updNode n.id (fun n => { n with gang := some num }) s)

/-- Reserve a saved gang's own cores again, with mailboxes, sampler contexts and the segment of its image (R173, R391, R392). -/
def placeSaved (n : Node) (g : Gang) (k : Fin 32) (s : State) : State :=
  let smp := (freeSmp k s).take n.desc.nsmp
  let s := g.members.foldl (fun s c => s.updCore c fun x => { x with gang := some g.num }) s
  let s := reserveSegment k n.ctx n.desc.image (imageNeeds n s).2 s
  let s := assignMailboxes k g.num ((freeMailboxes k s).take g.mboxes) (grantSmp k g.num smp s)
  placed n.id (updGang g.num (fun g => { g with state := .placed, smp := smp }) s)

/-- A READY node is FAILED; the saved gang it may have is forgotten (R391, R450). -/
def failReady (n : Node) (code : Cause) (s : State) : State :=
  dropGraphs (nodeFailed n.id 1 code 0xFFFF (forgetSaved n s))

/-- NODE_PLACEMENT: the dispatcher places the first placeable node in rank order, all or nothing. A node whose trees are not
installed, or whose saved gang has lost a core, is FAILED (R391, R450). The prefetch of R394 has no effect. -/
def execNodePlacement (s : State) : Host.Outcome State Fault Refusal :=
  if !s.sched.run then settle s
  else
    let s := noteHolds s
    match pickNode s (readyRanked s) [] with
    | none => settle s
    | some (n, k, ms) =>
      if gangBroken s n then settle (failReady n cSramUe s)
      else if !treesOk s n then settle (failReady n 0 s)
      else match n.gang.bind (findGang s) with
        | some g => settle (placeSaved n g k s)
        | none => settle (placeNew n k ms s)

/-- PLACEMENT_HOLD: from 1 ms on, a partition's first-ranked node holds back lower-ranked ones in the clusters that could
hold it, until it is placed (R390). -/
def execPlacementHold (part : BitVec 3) (s : State) : Host.Outcome State Fault Refusal :=
  let mine := (readyRanked s).filter fun n => decide ((s.ctx n.ctx).part = part)
  settle (s.updSched fun d => { d with holds := d.holds ++ (dueHolds s mine []).filter fun i => !d.holds.contains i })

/-! ### Pre-emption requests (R393, R406) -/

/-- The state as it would be without some gangs: their cores, mailboxes and sampler contexts are free; UME contexts stay
assigned (R173). -/
def without (gs : List Gang) (s : State) : State :=
  gs.foldl (fun s g =>
    let keep := s.dies
    { freeGang g s with dies := keep }) s

/-- A node could be placed in a cluster without some gangs. -/
def placeableWithout (s : State) (n : Node) (k : Fin 32) (gs : List Gang) : Bool := (membersFor (without gs s) n k).isSome

/-- The save slots that no gang holds (R406). -/
def freeSlots (s : State) : List Nat :=
  (List.range s.sched.saven).filter fun i => s.sched.gangs.all fun g => !g.slots.contains i

/-- Request the pre-emption of gangs: each gets a save slot for each member, or nothing is requested (R406). -/
def requestStops (gs : List Gang) (s : State) : State :=
  if (freeSlots s).length < (gs.map fun g => g.members.length).sum then s
  else gs.foldl (fun s g =>
    let slots := (freeSlots s).take g.members.length
    updGang g.num (fun g => { g with state := .stopping, slots := slots }) s) s

/-- The gangs of a cluster that a node may pre-empt: running, eff at least PRIO + 2, lowest PRIO first and then latest
start; a withdrawn request is not repeated within 100 µs (R187, R393). A gang that is stopping already counts, so that
no other is asked in its place (log entry 50). -/
def victims (s : State) (n : Node) (k : Fin 32) : List Gang :=
  let ok (g : Gang) : Bool :=
    decide (g.cluster.toFin = k) && decide (g.state = .running ∨ g.state = .stopping) && (findNode s g.node).isSome &&
      decide (g.prio + 2 ≤ effPrio s n) && decide (g.retry ≤ s.dcc)
  sortBy (fun a b => if a.prio ≠ b.prio then decide (a.prio < b.prio) else decide (b.start ≤ a.start)) (s.sched.gangs.filter ok)

/-- The shortest list of victims, in their order, without which a node is placeable. -/
def enoughVictims (s : State) (n : Node) (k : Fin 32) : List Gang → List Gang → Option (List Gang)
  | taken, [] => if placeableWithout s n k taken then some taken else none
  | taken, g :: gs => if placeableWithout s n k taken then some taken else enoughVictims s n k (taken ++ [g]) gs

/-- PREEMPT_REQUEST: for a READY node unplaced for 1 ms, the gangs of the first cluster in which that makes it placeable are
asked to stop, but for those that stop already (R393). -/
def execPreemptRequest (node : Nat) (s : State) : Host.Outcome State Fault Refusal :=
  match findNode s node with
  | none => settle s
  | some n =>
    if !s.sched.run || decide (n.state ≠ .ready) || decide (waited s n < ticksUs 1000) || pausedNode s n then settle s
    else match allClusters.findSome? fun k => enoughVictims s n k [] (victims s n k) with
      | some gs => settle (requestStops (gs.filter fun g => decide (g.state = .running)) s)
      | none => settle s

/-- PREEMPT_WITHDRAW: a request that some member has not met in time is withdrawn; the stopped members resume, and the gang is not
asked again within 100 µs (R187). -/
def execPreemptWithdraw (gang : Nat) (s : State) : Host.Outcome State Fault Refusal :=
  match findGang s gang with
  | none => settle s
  | some g =>
    let late := g.members.any fun c => !g.done.contains c && decide ((s.coreAt c).rg.status ≠ .stopped)
    settle (if decide (g.state = .stopping) && late then cancelStop g s else s)

/-- A core stands at a pre-emption point (R44): in user mode, with no boost entry, no run and no KVC in progress, outside loop
records or at a kernel-iteration boundary. A run that a trap has frozen and left is not in progress. -/
def atPoint (s : State) (c : CoreId) : Bool :=
  let k := s.coreAt c
  !k.rg.sup && k.rg.boost.isEmpty && (k.rg.run.all fun r => !r.live) && (k.rg.loops.isEmpty || k.rg.bound) &&
    (s.cluster (clusterOf c)).kvc.all fun x => decide (x.core ≠ c)

/-- A sequencer stops at its pre-emption point; an open invocation is abandoned (R45, R350). -/
def stopCore (c : CoreId) (s : State) : State :=
  s.updCore c fun k => { k with rg := { k.rg with status := .stopped }, inv := none, chans := k.chans.map fun ch => { ch with stopAt := false } }

/-- A READY node could use a gang's cores at the same or a higher priority (R47, R393). -/
def yieldWanted (s : State) (g : Gang) : Bool :=
  s.sched.run && (findNode s g.node).isSome && (readyRanked s).any fun n => decide (g.prio ≤ effPrio s n) && !pausedNode s n &&
    placeableWithout s n g.cluster.toFin [g]

/-- YIELD: boost state is discarded; outside loop records the gang is pre-empted here if the ready pool wants its cores,
with the PC behind YIELD; otherwise, and in supervisor mode, a NOP (R47, R167). -/
def execYield (s : State) : Host.Outcome State Fault Refusal :=
  let inside := s.core.rg.sup || !s.core.rg.loops.isEmpty
  let s := advance 4 (dropBoost s)
  if inside then settle s
  else match gangOf s s.me with
    | none => settle s
    | some g =>
      if g.state = .running ∧ yieldWanted s g = true then
        let s := requestStops [g] s
        let stopping := match findGang s g.num with
          | some h => decide (h.state = .stopping)
          | none => false
        settle (if stopping && atPoint s s.me && s.core.pend.isEmpty then stopCore s.me s else s)
      else settle s

/-! ### The batch coalescer (R396) -/

/-- A slot is active and its values are legal; with an illegal one it does nothing (log entry 23). -/
def coalActive (c : Coal) : Bool :=
  c.en && decide (1 ≤ c.b.toNat ∧ c.b.toNat ≤ 256) && decide (1 ≤ c.t.toNat) && decide (1 ≤ c.log2n.toNat ∧ c.log2n.toNat ≤ 12)

/-- COALESCER_TAIL_POLL: the tail is read; requests it shows for the first time arrive now. A tail that cannot be read shows
none. -/
def execCoalescerTailPoll (slot : BitVec 10) (s : State) : Host.Outcome State Fault Refusal :=
  match kget? s.coal slot.toNat with
  | none => settle s
  | some c =>
    if !coalActive c then settle s
    else match hubRead (Config.coalContext slot.toNat) c.tailva.toNat 4 s with
      | .ok (s, bs, false) =>
        let new := (BitVec.ofNat 32 (leVal bs) - c.head - BitVec.ofNat 32 c.arrivals.length).toNat
        settle { s with coal := kput s.coal slot.toNat { c with arrivals := c.arrivals ++ List.replicate new s.dcc } }
      | _ => settle s

/-- The bytes of a gather list: count, stamp, the entries' VAs. -/
def gatherBytes (c : Coal) (n : Nat) (dcc : Word) : List Byte :=
  let stamp : BitVec 32 := if c.deadline = 0 then 0 else dcc.setWidth 32 + c.deadline.setWidth 32
  leBytes 4 n ++ bvBytes 4 stamp ++
    ((List.range n).map fun i => leBytes 8 (c.ring.toNat + 64 * ((c.head.toNat + i) % 2 ^ c.log2n.toNat))).flatten

/-- Write bytes for the hub, granule by granule. -/
def hubPut (ctx : BitVec 6) (va : Nat) (bs : List Byte) (s : State) (bad : Bool := false) : R State :=
  (granulesOf va bs.length).foldlM (fun s g =>
    let lo := max va (64 * g)
    let hi := min (va + bs.length) (64 * g + 64)
    hubWrite ctx lo ((bs.drop (lo - va)).take (hi - lo)) bad s) s

/-- Hand the walker a copy of the template with the gather list as its argument; a template that is no KERNEL without waits
is malformed. -/
def emitNode (slot l : Nat) (c : Coal) (list : Word) (s : State) : State :=
  let ctx := Config.coalContext slot
  let d := readDesc ctx c.tmpl s
  let ok := match d with
    | some d => decide (d.kind = 0) && d.waits.isEmpty
    | none => false
  let n := freshNode s none (some (slot, l)) 0 ctx c.tmpl { (d.getD NodeDesc.none) with arg := list }
  if ok then enterNode n s
  else nodeFailed n.id 2 0 0xFFFF (s.updSched fun x => { x with nodes := x.nodes ++ [n], nextId := x.nextId + 1 })

/-- COALESCER_EMIT: with a list free and B requests pending, or the oldest waiting T, the list is written, HEAD advances and the
walker gets its node. A list that cannot be written is not emitted. -/
def execCoalescerEmit (slot : BitVec 10) (s : State) : Host.Outcome State Fault Refusal :=
  match kget? s.coal slot.toNat with
  | none => settle s
  | some c =>
    let ctx := Config.coalContext slot.toNat
    let due := decide (c.b.toNat ≤ c.arrivals.length) ||
      match c.arrivals with
      | a :: _ => decide (ticksUs c.t.toNat ≤ (s.dcc - a).toNat)
      | [] => false
    match (List.range 4).find? fun l => !c.busy.getLsbD l with
    | none => settle s
    | some l =>
      if !coalActive c || !due || !walkerReads ctx s then settle s
      else
        let n := min c.b.toNat c.arrivals.length
        let list := c.glist + BitVec.ofNat 64 (2056 * l)
        match hubPut ctx list.toNat (gatherBytes c n s.dcc) s with
        | .error _ => settle s
        | .ok s =>
          let c' := { c with head := c.head + BitVec.ofNat 32 n, arrivals := c.arrivals.drop n, busy := c.busy ||| (1#4 <<< l) }
          settle (emitNode slot.toNat l c list { s with coal := kput s.coal slot.toNat c' })

/-! ### The power manager (R397, R456) -/

/-- BUDGET of a die before and after the thermal reduction: an eighth of its value for each whole °C above THROTTLE. -/
def budgetOf (s : State) (temp : Byte) : Nat :=
  let b := (min s.power.cap.toNat Config.powerlim.toNat - 200) * 16 / 4
  let excess := temp.toNat - s.power.throttle.toNat
  b * (8 - excess) / 8

/-- A cluster holds a STAMPED gang (R397). -/
def holdsStamped (s : State) (k : Fin 32) : Bool :=
  s.sched.gangs.any fun g => decide (g.cluster.toFin = k) && g.stamped && decide (g.state ≠ .saved)

/-- Step the P-state of every cluster of a die that holds no STAMPED gang. -/
def stepClusters (d : Fin 4) (f : BitVec 3 → BitVec 3) (s : State) : State :=
  (allClusters.filter fun k => decide (dieOfCluster k = d) && !holdsStamped s k).foldl
    (fun s k => s.updCluster k fun c => { c with pstate := f c.pstate }) s

/-- BUDGET_PUBLISH: every 50 µs a die publishes its BUDGET and steps its clusters down one P-state if its measured power
exceeds it, up one if it stays below 15/16 of it (R397, R456). ENERGY adds up 1/16 W over 50 µs. -/
def execBudgetPublish (die : BitVec 2) (s : State) : Host.Outcome State Fault Refusal :=
  let d : Fin 4 := die.toFin
  let n := (s.die d).periods
  let temp := Config.hottest n die
  let b := budgetOf s temp
  let p := Config.measuredPower n die
  let s := s.updDie d fun x =>
    { x with budget := BitVec.ofNat 32 b, temp := temp, periods := n + 1, energy := x.energy + p }
  if b < p then
    let lower (q : BitVec 3) : BitVec 3 := if q = 7 then q else q + 1
    let t := stepClusters d lower s
    settle (if t.clusters = s.clusters then t else t.updDie d fun x => { x with stepdn := x.stepdn + 1 })
  else if 16 * p < 15 * b then settle (stepClusters d (fun q => if q = 0 then q else q - 1) s)
  else settle s

end Sys2Proof.Machine
end

