-- ==== Sys2Proof/Machine/Crypto.lean ====
section
/-!
DEFINITION. The published algorithms of the copy records: CRC-32C (R283) and AES-256-GCM (R285, FIPS 197 and SP 800-38D).
Their constants are those of the published standards (PRESUMED, log entry 10).
-/
namespace Sys2Proof.Machine

/-! ### CRC-32C -/

/-- One bit of the reflected CRC. -/
def crcBit (c : BitVec 32) : BitVec 32 := if c.getLsbD 0 then (c >>> 1) ^^^ 0x82F63B78 else c >>> 1

/-- One byte. -/
def crcByte (c : BitVec 32) (b : Byte) : BitVec 32 :=
  (List.range 8).foldl (fun c _ => crcBit c) (c ^^^ b.setWidth 32)

/-- CRC-32C of bytes: initial and final XOR of all ones (R283). -/
def crc32c (bs : List Byte) : BitVec 32 := bs.foldl crcByte 0xFFFFFFFF ^^^ 0xFFFFFFFF

/-! ### AES-256 -/

/-- Multiplication by x in GF(2^8). -/
def xtime (a : Byte) : Byte := if a.getLsbD 7 then (a <<< 1) ^^^ 0x1B else a <<< 1

/-- Multiplication in GF(2^8): the bits of `b` from the top down. -/
def gfMul (a b : Byte) : Byte :=
  (List.range 8).foldl (fun r i => (if b.getLsbD (7 - i) then xtime r ^^^ a else xtime r)) 0

/-- The inverse in GF(2^8), a^254; 0 for 0. -/
def gfInv (a : Byte) : Byte := (List.range 253).foldl (fun r _ => gfMul r a) a

/-- The substitution of a byte. -/
def sboxOf (a : Byte) : Byte :=
  let b := gfInv a
  b ^^^ b.rotateLeft 1 ^^^ b.rotateLeft 2 ^^^ b.rotateLeft 3 ^^^ b.rotateLeft 4 ^^^ 0x63

/-- The substitution box. -/
def sbox : Array Byte := ((List.range 256).map fun i => sboxOf (BitVec.ofNat 8 i)).toArray

/-- Substitute a byte. -/
def subByte (t : Array Byte) (a : Byte) : Byte := t.getD a.toNat 0

/-- The key schedule: words so far, newest first, for indices up to 59. -/
def expandStep (t : Array Byte) (ws : List (List Byte)) (i : Nat) : List (List Byte) :=
  let prev := ws.getD 0 []
  let back := ws.getD 7 []
  let f : List Byte :=
    if i % 8 = 0 then
      let r := (prev.drop 1 ++ prev.take 1).map (subByte t)
      let rc : Byte := (1 : Byte) <<< (i / 8 - 1)
      (r.getD 0 0 ^^^ rc) :: r.drop 1
    else if i % 8 = 4 then prev.map (subByte t)
    else prev
  List.zipWith (· ^^^ ·) back f :: ws

/-- The 15 round keys of a 256-bit key, 16 bytes each. -/
def roundKeys (t : Array Byte) (key : List Byte) : List (List Byte) :=
  let w0 := ((List.range 8).map fun i => (key.drop (4 * i)).take 4).reverse
  let ws := ((List.range 52).foldl (fun ws i => expandStep t ws (i + 8)) w0).reverse
  (List.range 15).map fun r => ((List.range 4).map fun i => ws.getD (4 * r + i) []).flatten

/-- Bytes combined by exclusive or. -/
def xorBytes (a b : List Byte) : List Byte := List.zipWith (· ^^^ ·) a b

/-- ShiftRows on a block in column order. -/
def shiftRows (b : List Byte) : List Byte := (List.range 16).map fun i => b.getD ((i + 4 * (i % 4)) % 16) 0

/-- MixColumns on one column. -/
def mixColumn (c : List Byte) : List Byte :=
  (List.range 4).map fun i =>
    let g (k : Nat) : Byte := c.getD ((i + k) % 4) 0
    xtime (g 0) ^^^ (xtime (g 1) ^^^ g 1) ^^^ g 2 ^^^ g 3

/-- MixColumns. -/
def mixColumns (b : List Byte) : List Byte := ((List.range 4).map fun i => mixColumn ((b.drop (4 * i)).take 4)).flatten

/-- Encrypt a block with expanded keys. -/
def aesBlock (t : Array Byte) (ks : List (List Byte)) (b : List Byte) : List Byte :=
  let s := xorBytes b (ks.getD 0 [])
  let s := (List.range 13).foldl (fun s r => xorBytes (mixColumns (shiftRows (s.map (subByte t)))) (ks.getD (r + 1) [])) s
  xorBytes (shiftRows (s.map (subByte t))) (ks.getD 14 [])

/-! ### GCM -/

/-- Multiplication of GHASH: bit 127 of a block is its first bit. -/
def ghashMul (x y : BitVec 128) : BitVec 128 :=
  ((List.range 128).foldl (fun (zv : BitVec 128 × BitVec 128) i =>
    let z := if x.getLsbD (127 - i) then zv.1 ^^^ zv.2 else zv.1
    let v := if zv.2.getLsbD 0 then (zv.2 >>> 1) ^^^ 0xE1000000000000000000000000000000 else zv.2 >>> 1
    (z, v)) (0, y)).1

/-- The blocks of 16 bytes of a message, the last padded with zeros. -/
def blocks16 (bs : List Byte) : List (List Byte) :=
  (List.range ((bs.length + 15) / 16)).map fun i =>
    let b := (bs.drop (16 * i)).take 16
    b ++ List.replicate (16 - b.length) 0

/-- GHASH of additional data and ciphertext. -/
def ghash (h : BitVec 128) (aad ct : List Byte) : BitVec 128 :=
  let y := (blocks16 aad ++ blocks16 ct).foldl (fun y b => ghashMul (y ^^^ BitVec.ofNat 128 (beVal b)) h) 0
  ghashMul (y ^^^ BitVec.ofNat 128 (8 * aad.length * 2 ^ 64 + 8 * ct.length)) h

/-- The counter mode of AES-256-GCM under a 96-bit IV: plaintext to ciphertext and back. -/
def gcmCrypt (key iv bs : List Byte) : List Byte :=
  let t := sbox
  let ks := roundKeys t key
  (((List.range ((bs.length + 15) / 16)).zip (blocks16 bs)).map fun ib =>
    xorBytes (aesBlock t ks (iv ++ beBytes 4 (ib.1 + 2))) ib.2).flatten.take bs.length

/-- The tag of AES-256-GCM for additional data and ciphertext. -/
def gcmTag (key iv aad ct : List Byte) : List Byte :=
  let t := sbox
  let ks := roundKeys t key
  let h := BitVec.ofNat 128 (beVal (aesBlock t ks (List.replicate 16 0)))
  xorBytes (aesBlock t ks (iv ++ beBytes 4 1)) (beBytes 16 (ghash h aad ct).toNat)

/-- The plaintext of AES-256-GCM under a 96-bit IV, and the tag that the ciphertext must carry. -/
def gcmOpen (key iv ct : List Byte) : List Byte × List Byte := (gcmCrypt key iv ct, gcmTag key iv [] ct)

end Sys2Proof.Machine
end

