-- ==== Sys2Proof/Machine/Copy.lean ====
section
/-!
DEFINITION. Copy channels: the walk of a chain, the checks of a record, its moves in destination order and its end
(R140, R141, R188, R271 to R287, R448).
-/
namespace Sys2Proof.Machine

def cOk : Byte := 0x00

/-- How the bytes of a record ended: a status with its RESULT, or COPY_XLATE at an address with what a resumption repeats. -/
inductive CopyEnd where
  | done (status : Byte) (result : Word) | xlate (addr : Word) (again : ChanResume)
  deriving DecidableEq, Repr

/-! ### Well-formed records (R141, R276) -/

/-- What a kind uses: extents, source strides and destination strides as masks over 0 to 3, bits of AUX and of +0x70,
and whether it has a source (R276). -/
structure FieldUse where
  ext  : Nat
  srcs : Nat
  dsts : Nat
  aux  : Nat
  x70  : Nat
  src  : Bool
  deriving DecidableEq, Repr

/-- The table of R276. -/
def fieldUse (kind : Nat) : FieldUse :=
  let all := 2 ^ 64 - 1
  match kind with
  | 0 => ⟨1, 0, 0, 0, 0, true⟩
  | 1 => ⟨15, 15, 15, 0xFF03, all, true⟩
  | 2 => ⟨3, 2, 2, 0, all, true⟩
  | 3 => ⟨3, 2, 2, 0, all, true⟩
  | 4 => ⟨3, 2, 2, 0, 2 ^ 39 - 1, true⟩
  | 5 => ⟨3, 2, 2, 0, 0, true⟩
  | 6 => ⟨3, 0, 0, 0, 0, true⟩
  | 7 => ⟨11, 0, 0, 0xFF, all, true⟩
  | 8 => ⟨3, 0, 2, 0, all, false⟩
  | _ => ⟨0, 0, 0, 0, all, false⟩

/-- Fields outside a mask are 0. -/
def unusedZero {w : Nat} (mask : Nat) (xs : List (BitVec w)) : Bool :=
  ((List.range xs.length).zip xs).all fun ix => mask.testBit ix.1 || decide (ix.2 = 0)

/-- A record is well formed (R141): its next field, reserved bits, RTYPE, PAD, and every field that its kind does not use. A kind
outside the table is reserved and ends COPY_RANGE (R142). -/
def recordOk (r : CopyRec) : Bool :=
  let u := fieldUse r.kind
  let rtype := (fld r.ctl 18 2).toNat
  decide (r.next.toNat % 128 = 0) && decide (r.kind ≤ 9) && decide (fld r.ctl 56 7 = 0) && decide (fld r.ctl 20 4 = 0) &&
    (if r.kind = 5 then decide (rtype ≠ 3) else decide (rtype = 0)) && (decide (r.kind = 1) || !r.ctl.getLsbD 17) &&
    unusedZero u.ext [r.e0, r.e1, r.e2, r.e3] && unusedZero u.srcs [r.s0, r.s1, r.s2, r.s3] &&
    unusedZero u.dsts [r.d0, r.d1, r.d2, r.d3] && decide ((fld r.ctl 0 16).toNat &&& u.aux = (fld r.ctl 0 16).toNat) &&
    decide (r.kindAux.toNat &&& u.x70 = r.kindAux.toNat) && (u.src || decide (r.src = 0))

/-! ### The address check (R275) -/

/-- A number fits signed 64 bits. -/
def fits64 (x : Int) : Bool := decide (-(2 ^ 63 : Nat) ≤ x ∧ x < (2 ^ 63 : Nat))

/-- The bounds of a region, or none when the arithmetic overflows. -/
def regionSpan (base : Int) (dims : List (Nat × Int)) (elem : Nat) : Option (Int × Int) :=
  let step (lh : Option (Int × Int)) (d : Nat × Int) : Option (Int × Int) :=
    match lh with
    | none => none
    | some (lo, hi) =>
      let t := ((d.1 : Int) - 1) * d.2
      let (lo, hi) := if t < 0 then (lo + t, hi) else (lo, hi + t)
      if fits64 t && fits64 lo && fits64 hi then some (lo, hi) else none
  match dims.foldl step (if fits64 base then some (base, base) else none) with
  | none => none
  | some (lo, hi) => if fits64 (hi + elem - 1) then some (lo, hi + elem - 1) else none

/-- The last bytes of the granules of a stash-local region are declared or in a mapped window. -/
def stashRegionOk (k : Core) (lo hi : Nat) : Bool :=
  (granulesOf lo (hi + 1 - lo)).all fun g =>
    let a := min hi (64 * g + 63)
    decide (a < k.decl.stash) || (winOfStash k a).isSome

/-- A region lies wholly in one range of R52, its stash bytes declared or mapped. -/
def regionOk (k : Core) (base : Int) (dims : List (Nat × Int)) (elem : Nat) : Bool :=
  match regionSpan base dims elem with
  | none => false
  | some (lo, hi) =>
    decide (0x100000 ≤ lo ∧ hi < (2 ^ 52 : Nat)) ||
      (decide (0 ≤ lo ∧ hi < 0x100000) && stashRegionOk k lo.toNat hi.toNat)

/-- The page and location behind a global address, as a check that changes nothing. -/
def peekXl (s : State) (c : CoreId) (va : Nat) : Option Xl :=
  match leafFor c (s.coreAt c).ctx va s with
  | .error _ => none
  | .ok (_, leaf, size) =>
    let r := regionOf (pteClass leaf)
    let off := if size = 3 then va % 2 ^ 30 else va % 2 ^ 19
    match physical s r (pteAddr leaf + off) 0 with
    | .ok x => some ⟨x, r, pteOwner leaf, pteComp leaf⟩
    | .error _ => none

/-- A destination byte is refused before any byte moves: it lies in a read-intent window of the core, in a WIDEN6 view
(R64, R275), or, for REDUCE, where R67 faults an atomic of DEVICE scope. -/
def destByteRefused (s : State) (c : CoreId) (reduce : Bool) (a : Nat) : Bool :=
  if a < 0x100000 then
    match winOfStash (s.coreAt c) a with
    | some (_, d) => decide ((s.coreAt c).decl.stash ≤ a) && !d.writes
    | none => false
  else match peekXl s c a with
    | none => false
    | some x => inWiden6 s x.loc || (reduce && decide (x.region ≠ .lcl ∧ x.region ≠ .poolBi))

/-- Some row of a destination is refused; a row is checked once for each granule it touches. -/
def destRefused (s : State) (c : CoreId) (reduce : Bool) (rows : List (Int × Nat)) : Bool :=
  rows.any fun an => (granulesOf an.1.toNat an.2).any fun g => destByteRefused s c reduce (max an.1.toNat (64 * g))

/-! ### Moves (R274) -/

/-- The format tag that source bytes carry, with the device address of the first; bytes whose tags differ count as untagged
(R64). -/
def sourceTag (s : State) (c : CoreId) (a n : Nat) : GranTag :=
  let at_ (g : Nat) : GranTag :=
    let b := max a (64 * g)
    if a < 0x100000 then { stashTag (s.coreAt c) g with home := (stashTag (s.coreAt c) g).home + b % 64 }
    else match peekXl s c b with
      | some x => lineGranTag s x.loc
      | none => .plain
  match (granulesOf a n).map at_ with
  | [] => .plain
  | t :: rest => if rest.all fun u => decide (u.fmt = t.fmt ∧ u.win = t.win) then t else .plain

/-- The bytes of a piece with their poison and tag. -/
def pieceData (c : CoreId) (bypass : Bool) (p : Piece) (s : State) : R (State × List Byte × Bool × GranTag) :=
  match p.src with
  | none => .ok (s, p.lit, false, .plain)
  | some a => do
    let (s, bs, bad) ← chanRead c (BitVec.ofNat 64 a) p.n s bypass
    .ok (s, bs, bad, sourceTag s c a p.n)

/-- A destination's tag follows the bytes into a stash granule, which counts its elements from its own first byte (R64, R65). -/
def tagPiece (c : CoreId) (a : Nat) (t : GranTag) (s : State) : State :=
  if a < 0x100000 ∧ t.fmt ≠ 0xF then setTag c (a / 64) { t with home := t.home - a % 64 } s else s

/-- The write of a piece: by the channel, or into the stash of each target, whatever the bytes are used for (R280). -/
def putPiece (c : CoreId) (targets : Option (List CoreId)) (dst : Nat) (bs : List Byte) (bad : Bool) (t : GranTag) (s : State) :
    R State :=
  match targets with
  | none => do
    let s ← chanWrite c (BitVec.ofNat 64 dst) bs bad s
    .ok (tagPiece c dst t s)
  | some cs => .ok (cs.foldl (fun s k => tagPiece k dst t (stashRaw k dst bs bad s)) s)

/-- A write of a channel meets a compressed block whose metadata cannot be read (R95): the offset of the write's first byte in
that block. -/
def pieceBlocked (s : State) (c : CoreId) (a n : Nat) : Option Nat :=
  if a < 0x100000 then none
  else match peekXl s c a with
    | some x => if badBlockHit s x.loc x.comp n then some (x.loc.addr % 1024) else none
    | none => none

/-- How a failing access ends a record at a watermark: POOL_LOST and poison by status, anything else by COPY_XLATE
(R271, R275, R286). -/
def copyStop (e : Stop) (wm : Nat) : CopyEnd :=
  match e with
  | .stall => .xlate 0 (.record wm)
  | .trap t =>
    if t.cause = cPoolLost then .done cPoolLost (BitVec.ofNat 64 wm)
    else if t.cause = cPoison then .done cCopyPoison (BitVec.ofNat 64 wm)
    else .xlate t.addr (.record wm)

/-- The bytes at the start of a poisoned piece that are clean: those before the next source granule, if theirs is (R286). -/
def cleanPrefix (c : CoreId) (bypass : Bool) (p : Piece) (s : State) : Nat :=
  match p.src with
  | none => 0
  | some a =>
    let k := 64 - a % 64
    if p.n ≤ k then 0
    else match chanRead c (BitVec.ofNat 64 a) k s bypass with
      | .ok (_, _, false) => k
      | _ => 0

/-- A record ends with COPY_POISON at a watermark (R286), or at the first byte of the block that refused a write (R95), counted
back in destination order. -/
def poisonEnd (wm : Nat) (blocked : Option Nat) : CopyEnd := .done cCopyPoison (BitVec.ofNat 64 (wm - blocked.getD 0))

/-- One move of a record whose elements have `elem` bytes. Poisoned source bytes are written with their poison, whole elements, and
end the record with COPY_POISON at the end of the last clean element before them (R93, R274, R286). -/
def movePiece (c : CoreId) (bypass : Bool) (targets : Option (List CoreId)) (p : Piece) (wm : Nat) (s : State) (elem : Nat := 1) :
    State × Option CopyEnd :=
  match pieceData c bypass p s with
  | .error e => (countStop e s, some (copyStop e wm))
  | .ok (s, bs, bad, t) =>
    let blocked := if targets.isNone then pieceBlocked s c p.dst p.n else none
    let k := if bad then cleanPrefix c bypass p s / elem * elem else 0
    let put : R State := do
      let s ← if k = 0 then .ok s else putPiece c targets p.dst (bs.take k) false t s
      putPiece c targets (p.dst + k) (bs.drop k) bad t s
    match put with
    | .error e => (countStop e s, some (if bad then poisonEnd wm none else copyStop e wm))
    | .ok s => (s, if blocked.isSome then some (poisonEnd wm blocked) else if bad then some (poisonEnd (wm + k) none) else none)

/-- The watermark at which a record that ends early stands: that of its RESULT where bytes were poisoned (R286). -/
def endMark (e : CopyEnd) (wm : Nat) : Nat :=
  match e with
  | .done status result => if status = cCopyPoison then result.toNat else wm
  | .xlate _ _ => wm

/-- Make moves in order; WMARK rises with each (R274), and stands at RESULT when poison ends them (R286). -/
def movePieces (c : CoreId) (n : BitVec 3) (move : Piece → Nat → State → State × Option CopyEnd) :
    List Piece → Nat → State → State × Option CopyEnd
  | [], _, s => (s, none)
  | p :: ps, wm, s =>
    match move p wm s with
    | (s, some e) => (updChan c n (fun ch => { ch with wmark := endMark e wm }) s, some e)
    | (s, none) => movePieces c n move ps (wm + p.n) (updChan c n (fun ch => { ch with wmark := wm + p.n }) s)

/-- The moves of a record from its watermark on, ending OK with a RESULT. -/
def runPieces (c : CoreId) (n : BitVec 3) (done : Option Nat) (move : Piece → Nat → State → State × Option CopyEnd)
    (ps : List Piece) (result : Word) (s : State) : State × CopyEnd :=
  let d := done.getD 0
  match movePieces c n move (skipPieces d ps) d s with
  | (s, some e) => (s, e)
  | (s, none) => (s, .done cOk result)

/-! ### The end of a record (R271 to R273, R403) -/

/-- The barrier that a record arrives on: a declared, initialised barrier of the issuing core or of a core of its gang
(R17, R141, R182). -/
def barTarget (s : State) (c : CoreId) (r : CopyRec) : Option (CoreId × BitVec 6) :=
  let b := fld r.ctl 34 6
  let n := (fld r.ctl 24 10).toNat
  let t : Option CoreId := if n = 0x3FF then some c else if h : n < 320 then (if sameGang s c ⟨n, h⟩ then some ⟨n, h⟩ else none) else none
  match t with
  | some t => if barReady (s.coreAt t) b then some (t, b) else none
  | none => none

/-- The record's arrival; MASKPACK writes CNTW first (R273, R278). -/
def recordArrival (c : CoreId) (r : CopyRec) (status : Byte) (result : Word) (s : State) : State :=
  match barTarget s c r with
  | none => s
  | some (t, b) =>
    let s := if r.kind = 2 ∧ status = 0 then setCntw t b (result.setWidth 32) s else s
    (arrive t b 1 (decide (status ≠ 0)) status c.val s).getD s

/-- The CPS.STOP at which the sequencer of a core is blocked completes, with the stop itself (R187, R189). -/
def completeStop (c : CoreId) (s : State) : State :=
  let t := advance 4 { s with focus := { s.focus with core := c } }
  { t with focus := s.focus }

/-- Where the channel goes after a completed record: it halts on an error, stops if CPS.STOP waits, which completes, walks on, or
waits in TAIL for a next field (R189, R271, R273). -/
def afterRecord (c : CoreId) (n : BitVec 3) (r : CopyRec) (status : Byte) (s : State) : State :=
  let stops := decide (status = 0) && (vget n (s.coreAt c).chans).stopAt
  (if stops then completeStop c else id) <| updChan c n (fun ch =>
    let ch := { ch with status := status, resume := none, ended := ch.ended + 1, stopAt := false }
    if status ≠ 0 then { ch with state := .halted }
    else if stops then { ch with state := .stopped, wmark := 0 }
    else if r.next = 0 then { ch with state := .tail, twait := true, reread := 0, wmark := 0 }
    else { ch with state := .walk, va := r.next, wmark := 0 }) s

/-- The channel halts with COPY_XLATE and traps its core; ctl and the arrival are deferred (R271, R403). -/
def chanXlate (c : CoreId) (n : BitVec 3) (addr : Word) (again : ChanResume) (s : State) : State :=
  engineFault c (.chan n) cCopyXlate addr
    (updChan c n (fun ch => { ch with state := .halted, status := cCopyXlate, resume := some again }) s)

/-- The address at which an end write failed. -/
def stopAddr (e : Stop) (va : Word) : Word :=
  match e with
  | .trap t => t.addr
  | .stall => va

/-- The end writes of a record from the given one on, then its arrival; one that fails is a COPY_XLATE (R273). -/
def endWrites (c : CoreId) (n : BitVec 3) (r : CopyRec) (from_ : Nat) (status : Byte) (result : Word) (s : State) : State :=
  let va := (vget n (s.coreAt c).chans).va
  match (if from_ = 0 then writeResult c va result s else .ok s) with
  | .error e => chanXlate c n (stopAddr e (va + 0x78)) (.writes r 0 status result) s
  | .ok s =>
    match chanWrite c (va + 8) (bvBytes 8 (ctlDone r.ctl status)) false s with
    | .error e => chanXlate c n (stopAddr e (va + 8)) (.writes r 1 status result) s
    | .ok s => afterRecord c n r status (recordArrival c r status result s)

/-- End a record: an illegal barrier turns OK into BARRIER_BOUNDS (R141, R182). -/
def endCopy (c : CoreId) (n : BitVec 3) (r : CopyRec) (e : CopyEnd) (s : State) : State :=
  match e with
  | .xlate addr again => chanXlate c n addr again (attempt (writeResult c (vget n (s.coreAt c).chans).va addr) s)
  | .done status result =>
    let bad := decide (status = 0) && (barTarget s c r).isNone
    endWrites c n r 0 (if bad then cBarrierBounds else status) (if bad then 0 else result) s

/-- Run a record on a channel of the current core that walks: from its start, or from WMARK. A channel that repeats the end writes
of a record does not run it. -/
def runRecord (n : BitVec 3) (r : CopyRec) (body : CoreId → BitVec 3 → CopyRec → Option Nat → State → State × CopyEnd)
    (s : State) : Host.Outcome State Fault Refusal :=
  let c := s.me
  let ch := vget n s.core.chans
  if ch.state ≠ .walk then settle s
  else match ch.resume with
    | some (.writes x f status result) => settle (endWrites c n x f status result s)
    | some (.record d) => let (s, e) := body c n r (some d) s
                          settle (endCopy c n r e s)
    | _ =>
      let s := updChan c n (fun ch => { ch with wmark := 0, resume := none }) s
      if recordOk r then let (s, e) := body c n r none s
                         settle (endCopy c n r e s)
      else settle (endCopy c n r (.done cCopyRange 0) s)

/-- COPY_RANGE before any byte moves. -/
def rangeEnd (s : State) : State × CopyEnd := (s, .done cCopyRange 0)

/-- A record that moves nothing completes (R275). -/
def emptyEnd (s : State) : State × CopyEnd := (s, .done cOk 0)

/-- The reads bypass the LLC (R91, R140). -/
def bypasses (r : CopyRec) : Bool := r.ctl.getLsbD 16

/-! ### LINEAR and TENSOR (R277) -/

def linearBody (c : CoreId) (n : BitVec 3) (r : CopyRec) (done : Option Nat) (s : State) : State × CopyEnd :=
  let k := s.coreAt c
  let e := r.e0.toNat
  if e = 0 then emptyEnd s
  else if done.isNone && !(regionOk k r.src.toInt [] e && regionOk k r.dst.toInt [] e &&
      !destRefused s c false [(r.dst.toInt, e)]) then rangeEnd s
  else runPieces c n done (movePiece c (bypasses r) none) (cutRow (some r.src.toInt) (fun _ => 0) r.dst.toInt e) 0 s

/-- LINEAR copies e0 bytes. -/
def execLinear (n : BitVec 3) (r : CopyRec) (s : State) : Host.Outcome State Fault Refusal := runRecord n r linearBody s

/-- The first in-bounds index of a dimension and how many there are. -/
def inBounds (t : TDim) : Int × Int :=
  let lo := max 0 (-t.st)
  let hi := if t.b = 0 then (t.e : Int) - 1 else min ((t.e : Int) - 1) ((t.b : Int) - t.st - 1)
  (lo, hi - lo + 1)

/-- The source region over the elements in bounds passes R275; there is none when no element is in bounds. -/
def tensorSrcOk (k : Core) (r : CopyRec) (ts : List TDim) (esz : Nat) : Bool :=
  let rs := ts.map inBounds
  if rs.any fun x => decide (x.2 ≤ 0) then true
  else
    let base := (ts.zip rs).foldl (fun a tx => a + (tx.1.st + tx.2.1) * tx.1.s) r.src.toInt
    regionOk k base ((ts.zip rs).map fun tx => (tx.2.2.toNat, tx.1.s)) esz

/-- The body of a TENSOR record. An empty extent is tested first: with it a record that also breaks the PAD = 0 rule of R277
ends OK as R275 says of an extent of 0 (DESIGN CHOICE, log entry 58). -/
def tensorBody (c : CoreId) (n : BitVec 3) (r : CopyRec) (done : Option Nat) (s : State) : State × CopyEnd :=
  let k := s.coreAt c
  let ts := tensorDims r
  let esz := tensorSize r
  if ts.any fun t => decide (t.e = 0) then emptyEnd s
  else
    let ps := (tensorIdx ts).map (tensorPiece r ts esz)
    let ok := (r.ctl.getLsbD 17 || ts.all fun t => decide (0 ≤ t.st ∧ t.b = 0)) &&
      regionOk k r.dst.toInt (ts.map fun t => (t.e, t.d)) esz && tensorSrcOk k r ts esz &&
      !destRefused s c false (ps.map fun p => ((p.dst : Int), p.n))
    if done.isNone && !ok then rangeEnd s else runPieces c n done (fun p wm s => movePiece c (bypasses r) none p wm s esz) ps 0 s

/-- TENSOR copies a window of up to four dimensions. -/
def execTensor (n : BitVec 3) (r : CopyRec) (s : State) : Host.Outcome State Fault Refusal := runRecord n r tensorBody s

/-! ### MASKPACK and SCATTER (R278, R279) -/

/-- A list read before any byte moves fails: the record is read again after ERET, or repeats from its watermark. -/
def listStop (e : Stop) (done : Option Nat) : CopyEnd :=
  match copyStop e (done.getD 0), done with
  | .xlate addr _, none => .xlate addr .read
  | x, _ => x

def maskpackBody (c : CoreId) (n : BitVec 3) (r : CopyRec) (done : Option Nat) (s : State) : State × CopyEnd :=
  let k := s.coreAt c
  let e0 := r.e0.toNat
  let e1 := r.e1.toNat
  if e0 = 0 ∨ e1 = 0 then emptyEnd s
  else if done.isNone && !(regionOk k r.src.toInt [(e1, r.s1.toInt)] e0 && regionOk k r.dst.toInt [(e1, r.d1.toInt)] e0 &&
      regionOk k r.kindAux.toInt [] ((e1 + 7) / 8) && !destRefused s c false (dstRows r e0)) then rangeEnd s
  else match chanRead c r.kindAux ((e1 + 7) / 8) s (bypasses r) with
    | .error e => (countStop e s, listStop e done)
    | .ok (s, mask, bad) =>
      if bad then (s, .done cCopyPoison (BitVec.ofNat 64 (done.getD 0)))
      else
        let kept := keptRows r mask
        let ps := (((List.range kept.length).zip kept).map fun pi =>
          cutRow (some (srcRow r pi.2)) (fun _ => 0) (dstRow r pi.1) e0).flatten
        runPieces c n done (movePiece c (bypasses r) none) ps (BitVec.ofNat 64 kept.length) s

/-- MASKPACK packs the rows whose mask bit is 1; RESULT and CNTW are their count. -/
def execMaskpack (n : BitVec 3) (r : CopyRec) (s : State) : Host.Outcome State Fault Refusal := runRecord n r maskpackBody s

def scatterBody (c : CoreId) (n : BitVec 3) (r : CopyRec) (done : Option Nat) (s : State) : State × CopyEnd :=
  let k := s.coreAt c
  let e0 := r.e0.toNat
  let e1 := r.e1.toNat
  if e0 = 0 ∨ e1 = 0 then emptyEnd s
  else if done.isNone && !(regionOk k r.src.toInt [(e1, r.s1.toInt)] e0 && regionOk k r.kindAux.toInt [] (4 * e1)) then rangeEnd s
  else match chanRead c r.kindAux (4 * e1) s (bypasses r) with
    | .error e => (countStop e s, listStop e done)
    | .ok (s, bs, bad) =>
      if bad then (s, .done cCopyPoison (BitVec.ofNat 64 (done.getD 0)))
      else
        let used := usedRows r bs
        let at_ (x : Nat × Nat) : Int := dstRow r x.2
        let ok := used.all (fun x => fits64 (x.2 * r.d1.toInt) && regionOk k (at_ x) [] e0) &&
          !destRefused s c false (used.map fun x => (at_ x, e0))
        if done.isNone && !ok then rangeEnd s
        else runPieces c n done (movePiece c (bypasses r) none)
          ((used.map fun x => cutRow (some (srcRow r x.1)) (fun _ => 0) (at_ x) e0).flatten) 0 s

/-- SCATTER copies row i to the place its index names. -/
def execScatter (n : BitVec 3) (r : CopyRec) (s : State) : Host.Outcome State Fault Refusal := runRecord n r scatterBody s

/-! ### MULTICAST (R280) -/

/-- The target core of a slot: a member of the gang in the issuing core's cluster. -/
def multicastCore (s : State) (c : CoreId) (slot : Nat) : Option CoreId :=
  if h : slot < 10 then
    let t := coreIn (clusterOf c) ⟨slot, h⟩
    match gangOf s c with
    | some g => if g.members.contains t then some t else none
    | none => none
  else none

/-- The body of a MULTICAST record. The receivers get their arrivals when the bytes have all moved; a record that ends with
COPY_POISON or POOL_LOST makes none at them, and a slot that is named twice is a target twice, with two arrivals (DESIGN CHOICE,
log entry 58). -/
def multicastBody (c : CoreId) (n : BitVec 3) (r : CopyRec) (done : Option Nat) (s : State) : State × CopyEnd :=
  let e0 := r.e0.toNat
  let e1 := r.e1.toNat
  let slots := multicastSlots r
  let ts := slots.filterMap (multicastCore s c)
  let b : BitVec 6 := fld r.kindAux 32 6
  let rx := r.kindAux.getLsbD 38
  let empty := decide (e0 = 0 ∨ e1 = 0)
  let inside (t : CoreId) : Bool := empty ||
    match regionSpan r.dst.toInt [(e1, r.d1.toInt)] e0 with
    | none => false
    | some (lo, hi) => decide (0 ≤ lo ∧ hi < (s.coreAt t).decl.stash)
  let ok := decide (ts.length = slots.length) && ts.all inside && (!rx || ts.all fun t => barDeclared (s.coreAt t) b) &&
    (empty || regionOk (s.coreAt c) r.src.toInt [(e1, r.s1.toInt)] e0)
  if done.isNone && !ok then rangeEnd s
  else
    let ps := if empty then []
      else ((List.range e1).map fun i => cutRow (some (srcRow r i)) (fun _ => 0) (dstRow r i) e0).flatten
    match runPieces c n done (movePiece c (bypasses r) (some ts)) ps 0 s with
    | (s, .done 0 w) =>
      if rx then
        ts.foldl (fun se t => match arrive t b 1 false 0 c.val se.1 with
          | some s => (s, se.2)
          | none => (se.1, .done cBarrierBounds 0)) (s, .done cOk w)
      else (s, .done cOk w)
    | x => x

/-- MULTICAST writes its rows into the stash of each target, and arrives there with RXARR = 1. -/
def execMulticast (n : BitVec 3) (r : CopyRec) (s : State) : Host.Outcome State Fault Refusal := runRecord n r multicastBody s

/-! ### REDUCE (R281) -/

/-- The sum of two elements: F32, BF16 or I32. -/
def reduceSum (rtype a b : Nat) : Nat :=
  match rtype with
  | 0 => (roundIeee 0 (exactSum [decodeNum 0 a, decodeNum 0 b]).1 false .rne false).code
  | 1 => (roundIeee 1 (exactSum [decodeNum 1 a, decodeNum 1 b]).1 false .rne false).code
  | _ => (a + b) % 2 ^ 32

/-- One element update. -/
def reducePiece (c : CoreId) (r : CopyRec) (p : Piece) (wm : Nat) (s : State) : State × Option CopyEnd :=
  match pieceData c (bypasses r) p s with
  | .error e => (countStop e s, some (copyStop e wm))
  | .ok (s, bs, bad, _) =>
    match chanRead c (BitVec.ofNat 64 p.dst) p.n s with
    | .error e => (countStop e s, some (copyStop e wm))
    | .ok (s, old, obad) =>
      let sum := leBytes p.n (reduceSum (fld r.ctl 18 2).toNat (leVal old) (leVal bs))
      let blocked := pieceBlocked s c p.dst p.n
      match putPiece c none p.dst sum (bad || obad) .plain s with
      | .error e => (countStop e s, some (if bad then poisonEnd wm none else copyStop e wm))
      | .ok s => (s, if bad || blocked.isSome then some (poisonEnd wm blocked) else none)

def reduceBody (c : CoreId) (n : BitVec 3) (r : CopyRec) (done : Option Nat) (s : State) : State × CopyEnd :=
  let k := s.coreAt c
  let w := if fld r.ctl 18 2 = 1 then 2 else 4
  let e0 := r.e0.toNat
  let e1 := r.e1.toNat
  if e0 = 0 ∨ e1 = 0 then emptyEnd s
  else if done.isNone && !(decide (r.dst.toNat % w = 0) && decide (r.d1.toInt % w = 0) &&
      regionOk k r.src.toInt [(e1, r.s1.toInt)] (e0 * w) && regionOk k r.dst.toInt [(e1, r.d1.toInt)] (e0 * w) &&
      !destRefused s c true (dstRows r (e0 * w))) then rangeEnd s
  else
    let ps := ((List.range e1).map fun i => (List.range e0).map fun e =>
      (⟨some (srcRow r i + (e * w : Nat)).toNat, [], (dstRow r i + (e * w : Nat)).toNat, w⟩ : Piece)).flatten
    runPieces c n done (reducePiece c r) ps 0 s

/-- REDUCE adds each source element into its destination element, indivisibly. -/
def execReduce (n : BitVec 3) (r : CopyRec) (s : State) : Host.Outcome State Fault Refusal := runRecord n r reduceBody s

/-! ### FILL and NOTE (R282) -/

def fillBody (c : CoreId) (n : BitVec 3) (r : CopyRec) (done : Option Nat) (s : State) : State × CopyEnd :=
  let e0 := r.e0.toNat
  let e1 := r.e1.toNat
  if e0 = 0 ∨ e1 = 0 then emptyEnd s
  else if done.isNone && !(regionOk (s.coreAt c) r.dst.toInt [(e1, r.d1.toInt)] e0 && !destRefused s c false (dstRows r e0)) then
    rangeEnd s
  else
    let ps := ((List.range e1).map fun i => cutRow none (fun b => fld r.kindAux (8 * (b % 8)) 8) (dstRow r i) e0).flatten
    runPieces c n done (movePiece c false none) ps 0 s

/-- FILL repeats its pattern in each row. -/
def execFill (n : BitVec 3) (r : CopyRec) (s : State) : Host.Outcome State Fault Refusal := runRecord n r fillBody s

def noteBody (c : CoreId) (n : BitVec 3) (r : CopyRec) (done : Option Nat) (s : State) : State × CopyEnd :=
  if done.isNone && !(decide (r.dst.toNat % 8 = 0) && regionOk (s.coreAt c) r.dst.toInt [] 8 &&
      !destRefused s c false [(r.dst.toInt, 8)]) then rangeEnd s
  else runPieces c n done (movePiece c false none) [⟨none, bvBytes 8 r.kindAux, r.dst.toNat, 8⟩] 0 s

/-- NOTE stores its 8-byte value. -/
def execNote (n : BitVec 3) (r : CopyRec) (s : State) : Host.Outcome State Fault Refusal := runRecord n r noteBody s

/-! ### EXPAND (R283, R284) -/

/-- Run tokens until 4,096 bits: the plane and the bytes left, or none when a run passes the end or the bytes run out. -/
def runTokens : List Byte → Nat → Nat → Option (Nat × List Byte)
  | [], pos, acc => if pos = 4096 then some (acc, []) else none
  | t :: ts, pos, acc =>
    if pos = 4096 then some (acc, t :: ts)
    else if t.toNat < 0x80 then
      (if pos + t.toNat + 1 ≤ 4096 then runTokens ts (pos + t.toNat + 1) (acc + 2 ^ (pos + t.toNat)) else none)
    else if pos + (t.toNat - 0x7F) ≤ 4096 then runTokens ts (pos + (t.toNat - 0x7F)) acc else none

/-- One plane record: bit k of the plane is bit k of the number. -/
def planeOf (bs : List Byte) : Option (Nat × List Byte) :=
  match bs with
  | [] => none
  | m :: rest =>
    match m.toNat with
    | 0 => some (0, rest)
    | 1 => if 512 ≤ rest.length then some (leVal (rest.take 512), rest.drop 512) else none
    | 2 => runTokens rest 0 0
    | _ => none

/-- The planes from `p` down to 0, highest first, which must consume the payload. -/
def planesOf : Nat → List Byte → Option (List Nat)
  | 0, bs => if bs.isEmpty then some [] else none
  | p + 1, bs =>
    match planeOf bs with
    | none => none
    | some (x, rest) => (planesOf p rest).map (x :: ·)

/-- The 4,096 bytes of a payload. -/
def expandBytes (payload : List Byte) : Option (List Byte) :=
  (planesOf 8 payload).map fun ps =>
    (List.range 4096).map fun i => BitVec.ofNat 8 (ps.foldl (fun v p => 2 * v + if p.testBit i then 1 else 0) 0)

/-- Write a range cut at granules, as one release of staged bytes that stand at offset `wm` of the destination; a write that
R95 refuses is the last, and gives how the record ends. -/
def putRange (c : CoreId) (wm dst : Nat) (bs : List Byte) (s : State) : R (State × Option CopyEnd) :=
  (cutRow none (fun i => bs.getD i 0) dst bs.length).foldlM (fun acc p =>
    match acc.2 with
    | some e => .ok (acc.1, some e)
    | none => do
      let blocked := pieceBlocked acc.1 c p.dst p.n
      let s ← putPiece c none p.dst p.lit false .plain acc.1
      .ok (s, if blocked.isSome then some (poisonEnd (wm + (p.dst - dst)) blocked) else none)) (s, none)

/-- The chunks of an EXPAND record from chunk `k` at source offset `off` on: `left` remain. Chunks below `done` bytes are
only stepped over. -/
def expandChunks (c : CoreId) (n : BitVec 3) (r : CopyRec) (done : Nat) :
    Nat → Nat → Nat → State → State × CopyEnd
  | 0, k, _, s => (s, .done cOk (BitVec.ofNat 64 k))
  | left + 1, k, off, s =>
    let wm := max done (4096 * k)
    let src := r.src.toNat + off
    let failed := (s, CopyEnd.done cDecodeFail (BitVec.ofNat 64 k))
    if r.e1.toNat < off + 8 then failed
    else match chanRead c (BitVec.ofNat 64 src) 8 s (bypasses r) with
      | .error e => (countStop e s, copyStop e wm)
      | .ok (s, h, bad) =>
        let len := leVal (h.take 2)
        if bad then (s, .done cCopyPoison (BitVec.ofNat 64 wm))
        else if 4096 * (k + 1) ≤ done then expandChunks c n r done left (k + 1) (off + 8 + len) s
        else if leVal ((h.drop 2).take 2) ≠ 0 ∨ r.e1.toNat < off + 8 + len then failed
        else match chanRead c (BitVec.ofNat 64 (src + 8)) len s (bypasses r) with
          | .error e => (countStop e s, copyStop e wm)
          | .ok (s, pay, bad) =>
            if bad then (s, .done cCopyPoison (BitVec.ofNat 64 wm))
            else match expandBytes pay with
              | none => failed
              | some out =>
                if (crc32c out).toNat ≠ leVal (h.drop 4) then (s, .done cCrcFail (BitVec.ofNat 64 k))
                else match putRange c (4096 * k) (r.dst.toNat + 4096 * k) out s with
                  | .error e => (countStop e s, copyStop e wm)
                  | .ok (s, some e) => (s, e)
                  | .ok (s, none) => expandChunks c n r done left (k + 1) (off + 8 + len)
                      (updChan c n (fun ch => { ch with wmark := 4096 * (k + 1) }) s)

/-- The body of an EXPAND record. A source limit e1 of 0 beside output bytes is no empty extent: the stream of chunk 0 would pass
src + e1, which is DECODE_FAIL at chunk 0 (DESIGN CHOICE, log entry 58). -/
def expandBody (c : CoreId) (n : BitVec 3) (r : CopyRec) (done : Option Nat) (s : State) : State × CopyEnd :=
  let k := s.coreAt c
  let e0 := r.e0.toNat
  if e0 = 0 then emptyEnd s
  else if done.isNone && !(decide (e0 % 4096 = 0) && decide (r.e1 ≠ 0) && regionOk k r.src.toInt [] r.e1.toNat &&
      regionOk k r.dst.toInt [] e0 && !destRefused s c false [(r.dst.toInt, e0)]) then
    (if e0 % 4096 = 0 ∧ r.e1 = 0 then (s, .done cDecodeFail 0) else rangeEnd s)
  else expandChunks c n r (done.getD 0) (e0 / 4096) 0 0 s

/-- EXPAND decodes a stream of chunks, each released once its CRC is checked. -/
def execExpand (n : BitVec 3) (r : CopyRec) (s : State) : Host.Outcome State Fault Refusal := runRecord n r expandBody s

/-! ### DECRYPT (R285, R448) -/

/-- The page of a global address lacks an owner tag. -/
def lacksTag (s : State) (c : CoreId) (tag : Byte) (va : Nat) : Bool :=
  match leafFor c (s.coreAt c).ctx va s with
  | .ok (_, leaf, _) => decide (pteOwner leaf ≠ tag)
  | .error _ => true

/-- The first destination page without an owner tag, as the address the record meets it at: also a page that a mapped window
mirrors; the scratchpad has none. -/
def pageWithout (s : State) (c : CoreId) (tag : Byte) (dst n : Nat) : Option Nat :=
  if dst < 0x100000 then
    ((granulesOf dst n).map fun g => max dst (64 * g)).find? fun a =>
      match winOfStash (s.coreAt c) a with
      | some (_, d) => decide ((s.coreAt c).decl.stash ≤ a) && (d.toGlobal a).any (lacksTag s c tag)
      | none => false
  else ((List.range ((dst + n - 1) / 2 ^ 19 - dst / 2 ^ 19 + 1)).map fun i => max dst ((dst / 2 ^ 19 + i) * 2 ^ 19)).find?
    (lacksTag s c tag)

/-- The chunks of a DECRYPT record from chunk `k` on: `left` remain. -/
def decryptChunks (c : CoreId) (n : BitVec 3) (r : CopyRec) (key : List Byte) :
    Nat → Nat → State → State × CopyEnd
  | 0, k, s => (s, .done cOk (BitVec.ofNat 64 k))
  | left + 1, k, s =>
    let e1 := r.e1.toNat
    let wm := e1 * k
    let len := min e1 (r.e0.toNat - wm)
    match chanRead c (BitVec.ofNat 64 (r.src.toNat + k * (e1 + 16))) (len + 16) s (bypasses r) with
    | .error e => (countStop e s, copyStop e wm)
    | .ok (s, bs, bad) =>
      if bad then (s, .done cCopyPoison (BitVec.ofNat 64 wm))
      else
        let iv := beBytes 4 r.e3.toNat ++ beBytes 8 (r.kindAux.toNat + k)
        let (pt, tag) := gcmOpen key iv (bs.take len)
        if tag ≠ bs.drop len then (s, .done cTagFail (BitVec.ofNat 64 k))
        else match putRange c wm (r.dst.toNat + wm) pt s with
          | .error e => (countStop e s, copyStop e wm)
          | .ok (s, some e) => (s, e)
          | .ok (s, none) => decryptChunks c n r key left (k + 1)
              (updChan c n (fun ch => { ch with wmark := wm + len }) s)

/-- The index of the slot that a DECRYPT record names, if it is a key slot. -/
def keySlotOf (r : CopyRec) : Option (BitVec 6) :=
  let a := (fld r.ctl 0 8).toNat
  if a < 64 then some (BitVec.ofNat 6 a) else none

/-- Steps 1 to 3 of R448 refuse a DECRYPT record: confcopy, the slot and its tag, the counter range. -/
def decryptRefused (s : State) (k : Core) (slot : KeySlot) (r : CopyRec) (chunks : Nat) : Bool :=
  !s.feature 9 || decide (slot.state ≠ 2) || decide (slot.tag ≠ (s.ctx k.ctx).tag) ||
    decide (2 ^ 64 ≤ r.kindAux.toNat + chunks - 1)

/-- The body of a DECRYPT record. An extent e0 of 0 moves nothing: the record ends OK after steps 1 to 3 of R448, e1 unread and no
counter used (DESIGN CHOICE, log entry 58). -/
def decryptBody (c : CoreId) (n : BitVec 3) (r : CopyRec) (done : Option Nat) (s : State) : State × CopyEnd :=
  let k := s.coreAt c
  let e0 := r.e0.toNat
  let e1 := r.e1.toNat
  let chunks := if e1 = 0 then 0 else (e0 + e1 - 1) / e1
  match keySlotOf r with
  | none => rangeEnd s
  | some i =>
    let slot := vget i s.sec.keys
    let key := bvBytes 32 slot.key
    if e0 = 0 then (if decryptRefused s k slot r 0 then rangeEnd s else emptyEnd s)
    else match done with
      | some d => if e1 = 0 then rangeEnd s else decryptChunks c n r key (chunks - d / e1) (d / e1) s
      | none =>
        if !(decide (16 ≤ e1 ∧ e1 ≤ 65536 ∧ e1 % 16 = 0) && regionOk k r.src.toInt [] (e0 + 16 * chunks) &&
            regionOk k r.dst.toInt [] e0 && !destRefused s c false [(r.dst.toInt, e0)]) then rangeEnd s
        else if decryptRefused s k slot r chunks then rangeEnd s
        else match pageWithout s c slot.tag r.dst.toNat e0 with
          | some a => (s, .xlate (BitVec.ofNat 64 a) .read)
          | none =>
            if r.kindAux ≤ slot.lastctr then (s, .done cGcmReplay 0)
            else
              let last := BitVec.ofNat 64 (r.kindAux.toNat + chunks - 1)
              let s := { s with sec := { s.sec with keys := vset i { slot with lastctr := last } s.sec.keys } }
              decryptChunks c n r key chunks 0 s

/-- DECRYPT opens AES-256-GCM chunks with an armed key slot, each released once its tag is checked. -/
def execDecrypt (n : BitVec 3) (r : CopyRec) (s : State) : Host.Outcome State Fault Refusal := runRecord n r decryptBody s

/-! ### The walk (R188, R273) -/

/-- Count a re-read of TAIL without progress; after 2^16 the channel goes to IDLE_TAIL (R273). -/
def countReread (c : CoreId) (n : BitVec 3) (s : State) : State :=
  updChan c n (fun ch =>
    if 2 ^ 16 ≤ ch.reread + 1 then { ch with state := .idleTail, reread := 0, twait := false }
    else { ch with reread := ch.reread + 1 }) s

/-- A channel's read of its record, or of its next field, that fails: COPY_XLATE to be resumed by reading again, or an end
by status that writes what it can and arrives nowhere. A record that has ended already is not written again (R273, R403; log
entry 17). -/
def readFails (c : CoreId) (n : BitVec 3) (e : Stop) (s : State) : State :=
  let s := countStop e s
  let ch := vget n (s.coreAt c).chans
  let write (f : State → R State) (s : State) : State := if ch.twait then s else attempt f s
  match copyStop e 0 with
  | .xlate _ _ =>
    chanXlate c n ch.va (ch.resume.getD .read) (write (writeResult c ch.va ch.va) s)
  | .done status result =>
    let s := write (writeCtl c ch.va status) (write (writeResult c ch.va result) s)
    updChan c n (fun ch => { ch with state := .halted, status := status, resume := none,
                                     ended := if ch.twait then ch.ended else ch.ended + 1, twait := false, stopAt := false }) s

/-- A re-read in TAIL: the ctl of the record at the current VA, or the next field of the record just completed. A next field that
is no multiple of 128 halts the channel with COPY_RANGE; there is no record to write and no arrival (DESIGN CHOICE, log entry
58). -/
def execChannelTailReread (n : BitVec 3) (s : State) : Host.Outcome State Fault Refusal :=
  let c := s.me
  let ch := vget n s.core.chans
  if ch.state ≠ .tail then settle s
  else match chanRead c (if ch.twait then ch.va else ch.va + 8) 8 s with
    | .error e => settle (readFails c n e s)
    | .ok (s, bs, bad) =>
      let w := BitVec.ofNat 64 (leVal bs)
      if bad then settle (readFails c n (.trap { cause := cPoison, addr := ch.va }) s)
      else if ch.twait then
        if w = 0 then settle (countReread c n s)
        else if w.toNat % 128 ≠ 0 then
          settle (updChan c n (fun ch => { ch with state := .halted, status := cCopyRange, twait := false }) s)
        else settle (updChan c n (fun ch => { ch with state := .walk, va := w, twait := false, reread := 0, wmark := 0 }) s)
      else if w.getLsbD 63 then settle (updChan c n (fun ch => { ch with state := .walk, reread := 0 }) s)
      else settle (countReread c n s)

/-- What a channel in WALK does with its record: it reads ctl, waits in TAIL while OWN is 0, and otherwise reads the record and
runs it. A reserved KIND ends the record with COPY_RANGE (R141, R273). -/
def chanRecord (c : CoreId) (n : BitVec 3) (s : State) : State × Option Instr :=
  let ch := vget n (s.coreAt c).chans
  let fresh := decide (ch.resume = none) || decide (ch.resume = some .read)
  let poisoned (s : State) : State := readFails c n (.trap { cause := cPoison, addr := ch.va }) s
  match chanRead c (ch.va + 8) 8 s with
  | .error e => (readFails c n e s, none)
  | .ok (s, w, bad) =>
    if bad then (poisoned s, none)
    else if fresh && !(BitVec.ofNat 64 (leVal w)).getLsbD 63 then
      (updChan c n (fun ch => { ch with state := .tail, twait := false, reread := 0, resume := none }) s, none)
    else match chanRead c ch.va 128 s with
      | .error e => (readFails c n e s, none)
      | .ok (s, bs, bad) =>
        let r := recFields (BitVec.ofNat 1024 (leVal bs))
        if bad then (poisoned s, none)
        else match copyInstr n r with
          | .ok i => (s, some i)
          | .error _ => (endCopy c n r (.done cCopyRange 0) s, none)

/-- What a channel does next: the re-reads of TAIL, the end writes that a COPY_XLATE interrupted, or its record. -/
def chanWork (c : CoreId) (n : BitVec 3) (s : State) : State × Option Instr :=
  let ch := vget n (s.coreAt c).chans
  match ch.state with
  | .tail => (s, some (.channelTailReread n))
  | .walk =>
    match ch.resume with
    | some (.writes r f status result) => (endWrites c n r f status result s, none)
    | _ =>
      if ch.twait then (updChan c n (fun ch => { ch with state := .tail, resume := none }) s, none)
      else chanRecord c n s
  | _ => (s, none)

end Sys2Proof.Machine
end

