-- ==== Sys2Proof/Machine/Sync.lean ====
section
/-!
DEFINITION. Barriers, mailboxes, events and tokens (R180 to R187), copy-channel commands (R188, R189), and the requests to
the shared engines with their results (R171 to R175, R197 to R199, R202).
-/
namespace Sys2Proof.Machine

/-! ### Barriers (R180 to R183) -/

/-- BARRIER_BOUNDS with the barrier index (R400). -/
def barFault {α : Type} (b : BitVec 6) : R α := raise cBarrierBounds (BitVec.ofNat 64 b.toNat)

/-- The index lies within the core's declaration (R49). -/
def needBar (k : Core) (b : BitVec 6) : R Unit := if barDeclared k b then .ok () else barFault b

/-- BAR.INIT. -/
def execBarInit (b : BitVec 6) (ga : Reg) (s : State) : Host.Outcome State Fault Refusal :=
  conclude s (plain 4 [ga] (fun s => do
    needBar s.core b
    let e := (s.g ga).val.extractLsb' 0 16
    if e = 0 then barFault b
    else .ok (s.upd fun k => { k with bars := vset b { Barrier.reset with expect := e, init := true } k.bars })) s)

/-- The increment of an arrival: 1, or g[gb][15:0] when N = 1. -/
def increment (n : Bool) (gb : Reg) (s : State) : Nat := if n then bits (s.g gb).val 15 0 else 1

/-- An arrival of the sequencer at a barrier of a core; it releases at DEVICE scope (R77, R182). -/
def seqArrive (c : CoreId) (b : BitVec 6) (inc : Nat) (s : State) : R State :=
  match arrive c b inc false 0 s.me.val (releaseStores s.me s) with
  | some s => .ok s
  | none => barFault b

/-- BAR.ARRIVE. -/
def execBarArrive (b : BitVec 6) (n : Bool) (gb : Reg) (s : State) : Host.Outcome State Fault Refusal :=
  conclude s (plain 4 [gb] (fun s => do
    needBar s.core b
    seqArrive s.me b (increment n gb s) s) s)

/-- A core number that exists. -/
def coreOf (n : Nat) : Option CoreId := if h : n < 320 then some ⟨n, h⟩ else none

/-- BAR.ARRIVER: the target must be a core of the gang, and the index within its declaration (R17, R182). -/
def arriverBody (b : BitVec 6) (n : Bool) (gb ga : Reg) (s : State) : R State := do
  let t ← clean (s.g ga)
  match coreOf (bits t 9 0) with
  | none => barFault b
  | some c =>
    if sameGang s s.me c then do
      needBar (s.coreAt c) b
      seqArrive c b (increment n gb s) s
    else barFault b

def execBarArriver (b : BitVec 6) (n : Bool) (gb ga : Reg) (s : State) : Host.Outcome State Fault Refusal :=
  conclude s (plain 4 [ga, gb] (arriverBody b n gb ga) s)

/-- What BAR.WAIT reads (R183). -/
def barWaitWord (x : Barrier) : Word :=
  BitVec.ofNat 64 (x.cntw.toNat + x.esrc.toNat * 2 ^ 32 + x.estat.toNat * 2 ^ 48 + (if x.err then 2 ^ 63 else 0))

/-- BAR.WAIT: waits for EXPECT arrivals, takes them and toggles PHASE, as one step. -/
def barWaitBody (b : BitVec 6) (ga : Reg) (s : State) : R State := do
  needBar s.core b
  let x := vget b s.core.bars
  if !x.init then barFault b
  else if x.arrived.toNat < x.expect.toNat then wait
  else
    let x' := { x with arrived := x.arrived - x.expect, phase := !x.phase, err := false, estat := 0, esrc := 0 }
    .ok ((s.upd fun k => { k with bars := vset b x' k.bars }).setG ga (constReg (barWaitWord x)))

def execBarWait (b : BitVec 6) (ga : Reg) (s : State) : Host.Outcome State Fault Refusal :=
  conclude s (plain 4 [ga] (barWaitBody b ga) s)

/-- What BAR.CNT reads; 0 if INIT is 0 (R183). -/
def barCntWord (x : Barrier) : Word :=
  if x.init then BitVec.ofNat 64 (x.cntw.toNat + x.arrived.toNat * 2 ^ 32 + x.expect.toNat * 2 ^ 48) else 0

/-- BAR.CNT. -/
def execBarCnt (b : BitVec 6) (ga : Reg) (s : State) : Host.Outcome State Fault Refusal :=
  conclude s (plain 4 [ga] (fun s => do
    needBar s.core b
    .ok (s.setG ga (constReg (barCntWord (vget b s.core.bars))))) s)

/-! ### Mailboxes (R184) -/

/-- The cluster's mailbox that is mb<m> of the current core's gang, if it is assigned (R17). -/
def mailboxOf (s : State) (m : BitVec 4) : Option (BitVec 4 × MBox) :=
  match s.core.gang with
  | none => none
  | some g =>
    (((List.range 16).zip (s.cluster (clusterOf s.me)).mbox.toList).find? fun x =>
      decide (x.2.gang = some (g, m))).map fun x => (BitVec.ofNat 4 x.1, x.2)

/-- The mailbox, or BARRIER_BOUNDS with its code (R173). -/
def needMailbox (s : State) (m : BitVec 4) : R (BitVec 4 × MBox) :=
  match mailboxOf s m with
  | some x => .ok x
  | none => raise cBarrierBounds (BitVec.ofNat 64 (0x100 + m.toNat))

/-- Replace the entries of a mailbox of the current core's cluster. -/
def putMailbox (i : BitVec 4) (x : MBox) (s : State) : State :=
  s.updCluster (clusterOf s.me) fun k => { k with mbox := vset i x k.mbox }

/-- The gang's mailboxes are visible to the host (R381). -/
def hostMailboxes (s : State) : Bool :=
  match gangOf s s.me with
  | some g => g.hostmb
  | none => false

/-- MBX.SEND: waits for room, then appends and releases at GANG scope. -/
def mbxSendBody (m : BitVec 4) (gb ga : Reg) (s : State) : R State := do
  let (i, x) ← needMailbox s m
  let a := s.g ga
  let b := s.g gb
  need (!((a.bad || b.bad) && hostMailboxes s)) cPoison 0
  if 8 ≤ x.fifo.length then wait
  else .ok (putMailbox i { x with fifo := x.fifo ++ [(b.val ++ a.val, a.bad || b.bad)] } (releaseStores s.me s))

def execMbxSend (m : BitVec 4) (gb ga : Reg) (s : State) : Host.Outcome State Fault Refusal :=
  conclude s (plain 4 [ga, gb] (mbxSendBody m gb ga) s)

/-- MBX.RECV: waits for an entry and removes the oldest. -/
def mbxRecvBody (m : BitVec 4) (gb ga : Reg) (s : State) : R State := do
  let (i, x) ← needMailbox s m
  match x.fifo with
  | [] => wait
  | (e, bad) :: rest =>
    .ok (((putMailbox i { x with fifo := rest } s).setG ga ⟨e.extractLsb' 0 64, bad⟩).setG gb ⟨e.extractLsb' 64 64, bad⟩)

def execMbxRecv (m : BitVec 4) (gb ga : Reg) (s : State) : Host.Outcome State Fault Refusal :=
  conclude s (plain 4 [ga, gb] (mbxRecvBody m gb ga) s)

/-- MBX.POLL: the entries held. -/
def execMbxPoll (m : BitVec 4) (ga : Reg) (s : State) : Host.Outcome State Fault Refusal :=
  conclude s (plain 4 [ga] (fun s => do
    let (_, x) ← needMailbox s m
    .ok (s.setG ga (constReg (BitVec.ofNat 64 x.fifo.length)))) s)

/-! ### Events (R185) -/

/-- An event that the context owns, or PROT with the event number. -/
def needEvent (s : State) (e : Nat) : R Unit := need (ownsEvent (s.ctx s.core.ctx) e) cProt (BitVec.ofNat 64 e)

/-- EVT.SIGNAL: a saturating increment; release at DEVICE scope. -/
def execEvtSignal (gb ga : Reg) (s : State) : Host.Outcome State Fault Refusal :=
  conclude s (plain 4 [ga, gb] (fun s => do
    let a ← clean (s.g ga)
    let b ← clean (s.g gb)
    needEvent s (bits a 15 0)
    .ok (signalEvent (bits a 15 0) (b.extractLsb' 0 32) (releaseStores s.me s))) s)

/-- EVT.READ. -/
def execEvtRead (gb ga : Reg) (s : State) : Host.Outcome State Fault Refusal :=
  conclude s (plain 4 [ga, gb] (fun s => do
    let b ← clean (s.g gb)
    needEvent s (bits b 15 0)
    .ok (s.setG ga (constReg (BitVec.ofNat 64 (evCount s (bits b 15 0)))))) s)

/-! ### Tokens (R186) -/

/-- TOK and XRUN are legal on S cores only (R13). -/
def needS (s : State) : R Unit := need (isS s.me) cIllegalInstr (zext64 s.pc)

/-- Replace a token count. -/
def putToken (t : BitVec 3) (n : BitVec 16) (s : State) : State :=
  s.upd fun k => { k with xs := { k.xs with tk := vset t n k.xs.tk } }

/-- TOK.SIG: waits until the count has room; releases earlier stores to the transform sequencer. -/
def execTokSig (t : BitVec 3) (ga : Reg) (s : State) : Host.Outcome State Fault Refusal :=
  conclude s (do
    needS s
    plain 4 [ga] (fun s =>
      let n := bits (s.g ga).val 15 0
      let x := (vget t s.core.xs.tk).toNat
      if 65535 < x + n then wait else .ok (putToken t (BitVec.ofNat 16 (x + n)) (drainStores s.me s))) s)

/-- TOK.WAITT: waits until the count reaches n, and takes n. -/
def execTokWaitt (t : BitVec 3) (ga : Reg) (s : State) : Host.Outcome State Fault Refusal :=
  conclude s (do
    needS s
    plain 4 [ga] (fun s =>
      let n := bits (s.g ga).val 15 0
      let x := (vget t s.core.xs.tk).toNat
      if x < n then wait else .ok (putToken t (BitVec.ofNat 16 (x - n)) s)) s)

/-! ### Copy channels (R188, R189) -/

/-- The code of a channel state (R188). -/
def chanCode : ChanState → Nat
  | .idle => 0
  | .walk => 1
  | .tail => 2
  | .idleTail => 3
  | .stopped => 4
  | .halted => 5

/-- CPS.START: waits while the channel walks; a record halted by COPY_XLATE ends as a kill ends it (R189). -/
def cpsStartBody (c : BitVec 3) (ga : Reg) (s : State) : R State := do
  let h ← clean (s.g ga)
  need (decide (h.toNat % 128 = 0)) cAlign h
  let ch := vget c s.core.chans
  if ch.state = .walk then wait
  else
    let s := drainStores s.me s
    let s := if ch.state = .halted then endRecord s.me c s else s
    let walk := decide (h ≠ 0)
    .ok (updChan s.me c (fun ch =>
      { ch with state := if walk then .walk else .idle, head := if walk then h else ch.head,
                va := if walk then h else ch.va, wmark := 0, twait := false, reread := 0, stopAt := false,
                resume := none }) s)

def execCpsStart (c : BitVec 3) (ga : Reg) (s : State) : Host.Outcome State Fault Refusal :=
  conclude s (plain 4 [ga] (cpsStartBody c ga) s)

/-- What CPS.STAT reads (R188). -/
def chanStat (ch : Chan) : Word :=
  BitVec.ofNat 64 (chanCode ch.state * 2 ^ 60 + ch.status.toNat * 2 ^ 52 + bits ch.va 51 0)

/-- CPS.STAT. -/
def execCpsStat (c : BitVec 3) (ga : Reg) (s : State) : Host.Outcome State Fault Refusal :=
  conclude s (plain 4 [ga] (fun s => .ok (s.setG ga (constReg (chanStat (vget c s.core.chans))))) s)

/-- CPS.WMARK: 0 outside WALK. -/
def execCpsWmark (c : BitVec 3) (ga : Reg) (s : State) : Host.Outcome State Fault Refusal :=
  conclude s (plain 4 [ga] (fun s =>
    let ch := vget c s.core.chans
    .ok (s.setG ga (constReg (if ch.state = .walk then BitVec.ofNat 64 ch.wmark else 0)))) s)

/-- CPS.STOP: in WALK the current record completes first, at whose end the channel stops; TAIL stops at once (R189). -/
def execCpsStop (c : BitVec 3) (s : State) : Host.Outcome State Fault Refusal :=
  let ch := vget c s.core.chans
  if ch.state = .walk then settle (updChan s.me c (fun ch => { ch with stopAt := true }) s)
  else conclude s (plain 4 [] (fun s => .ok (updChan s.me c (fun ch =>
    { ch with state := if ch.state = .tail then .stopped else ch.state, stopAt := false }) s)) s)

/-! ### Requests (R171 to R175) -/

/-- The DRVACC bit that an engine's requests need (R417); the sampler needs none. -/
def engineFeature (s : State) (e : EngineId) : Bool :=
  match e with
  | .pix => s.feature 3
  | .ume => s.feature 2
  | .fe => s.feature 1
  | .sampler => true

/-- Requests of an engine that is not accepted are ILLEGAL_INSTR (R417). -/
def needEngine (s : State) (e : EngineId) : R Unit := need (engineFeature s e) cIllegalInstr (zext64 s.pc)

/-- Issue a page-1 request: object in the instruction, arguments in g[ga] and g[gb] (R171). -/
def pageRequest (e : EngineId) (sub : Nat) (obj : BitVec 6) (nores : Bool) (ga gb : Reg) (s : State) : R State :=
  plain 4 [ga, gb] (fun s => do
    needEngine s e
    let t ← checkObject s e obj
    issue e obj t (BitVec.ofNat 4 sub) nores (s.g ga) (s.g gb) s) s

/-- PIX.LOOKUP. -/
def execPixLookup (tree : BitVec 3) (nores : Bool) (gb ga : Reg) (s : State) : Host.Outcome State Fault Refusal :=
  conclude s (pageRequest .pix 0 (tree.setWidth 6) nores ga gb s)

/-- PIX.INSERT. -/
def execPixInsert (tree : BitVec 3) (nores : Bool) (ga : Reg) (s : State) : Host.Outcome State Fault Refusal :=
  conclude s (pageRequest .pix 1 (tree.setWidth 6) nores ga 0 s)

/-- PIX.REF. -/
def execPixRef (tree : BitVec 3) (nores : Bool) (ga : Reg) (s : State) : Host.Outcome State Fault Refusal :=
  conclude s (pageRequest .pix 2 (tree.setWidth 6) nores ga 0 s)

/-- PIX.UNREF. -/
def execPixUnref (tree : BitVec 3) (nores : Bool) (ga : Reg) (s : State) : Host.Outcome State Fault Refusal :=
  conclude s (pageRequest .pix 3 (tree.setWidth 6) nores ga 0 s)

/-- PIX.EVICT. -/
def execPixEvict (tree : BitVec 3) (nores : Bool) (gb ga : Reg) (s : State) : Host.Outcome State Fault Refusal :=
  conclude s (pageRequest .pix 4 (tree.setWidth 6) nores ga gb s)

/-- UME.CFG. -/
def execUmeCfg (ctx : BitVec 6) (nores : Bool) (ga : Reg) (s : State) : Host.Outcome State Fault Refusal :=
  conclude s (pageRequest .ume 0 ctx nores ga 0 s)

/-- UME.POST. -/
def execUmePost (ctx : BitVec 6) (nores : Bool) (gb ga : Reg) (s : State) : Host.Outcome State Fault Refusal :=
  conclude s (pageRequest .ume 1 ctx nores ga gb s)

/-- UME.ROUND. -/
def execUmeRound (ctx : BitVec 6) (nores : Bool) (ga : Reg) (s : State) : Host.Outcome State Fault Refusal :=
  conclude s (pageRequest .ume 2 ctx nores ga 0 s)

/-- UME.DIRTY. -/
def execUmeDirty (ctx : BitVec 6) (nores : Bool) (gb ga : Reg) (s : State) : Host.Outcome State Fault Refusal :=
  conclude s (pageRequest .ume 3 ctx nores ga gb s)

/-- UME.RESET. -/
def execUmeReset (ctx : BitVec 6) (nores : Bool) (s : State) : Host.Outcome State Fault Refusal :=
  conclude s (pageRequest .ume 4 ctx nores 0 0 s)

/-- SMPR: starts a sampler context (R199). -/
def execSmpr (ctx : BitVec 6) (nores : Bool) (ga : Reg) (s : State) : Host.Outcome State Fault Refusal :=
  conclude s (pageRequest .sampler 0 ctx nores ga 0 s)

/-- FITC.INV. -/
def execFitcInv (region : BitVec 4) (nores : Bool) (s : State) : Host.Outcome State Fault Refusal :=
  conclude s (pageRequest .fe 0 (region.setWidth 6) nores 0 0 s)

/-- FITC.STAT. -/
def execFitcStat (region : BitVec 4) (nores : Bool) (s : State) : Host.Outcome State Fault Refusal :=
  conclude s (pageRequest .fe 1 (region.setWidth 6) nores 0 0 s)

/-- FITC.SETT. -/
def execFitcSett (region : BitVec 4) (nores : Bool) (gb ga : Reg) (s : State) : Host.Outcome State Fault Refusal :=
  conclude s (pageRequest .fe 2 (region.setWidth 6) nores ga gb s)

/-- The argument of a PUT: g[ga][57:0] (R171). -/
def putArg (a : PReg) : PReg := ⟨a.val &&& 0x3FFFFFFFFFFFFFF, a.bad⟩

/-- The requests held in the boost buffer, a faulted one included (R42, R175). -/
def heldPuts (k : Core) : Nat := (k.rg.boost.filter fun x => match x.dst with
  | .put _ => true
  | _ => false).length

/-- A boosted PUT: its checks are made at once, a fault of theirs is recorded with it, and it is held (R175). -/
def putBoosted (eng : EngineId) (sub : BitVec 4) (nores : Bool) (gb ga : Reg) (s : State) : R State := do
  need (!s.core.rg.sup) cIllegalInstr (zext64 s.pc)
  checkRegs s [ga, gb]
  needEngine s eng
  need (decide (heldPuts s.core < 4)) cIllegalInstr (zext64 s.pc)
  let a := readG s.core 1 ga
  let p : HeldPut := ⟨eng, sub, nores, a.val.extractLsb' 58 6, putArg a, readG s.core 1 gb⟩
  let fault : Option (Cause × Word) := match (do
      let _ ← clean a
      let _ ← checkObject s eng p.obj : R Unit) with
    | .error (.trap t) => some (t.cause, t.addr)
    | _ => none
  let x : Shadow := ⟨1, .put p, 0, false, fault, s.pc⟩
  .ok (advance 4 (s.updRg fun r => { r with boost := r.boost ++ [x] }))

/-- A PUT that is not boosted (R171). -/
def putNow (eng : EngineId) (sub : BitVec 4) (nores : Bool) (gb ga : Reg) (s : State) : R State :=
  plain 4 [ga, gb] (fun s => do
    needEngine s eng
    let a := s.g ga
    let w ← clean a
    let obj := w.extractLsb' 58 6
    let t ← checkObject s eng obj
    issue eng obj t sub nores (putArg a) (s.g gb) s) s

/-- PUT. -/
def execPut (eng : EngineId) (sub : BitVec 4) (nores boost : Bool) (gb ga : Reg) (s : State) :
    Host.Outcome State Fault Refusal :=
  conclude s (if boost then putBoosted eng sub nores gb ga s else putNow eng sub nores gb ga s)

/-- The number that names an engine in PUT and GET (R131). -/
def engineNumber : EngineId → Nat
  | .pix => 0
  | .ume => 1
  | .sampler => 2
  | .fe => 3

/-- GET: pops the oldest result element of an engine, waiting for it (R174). -/
def getBody (eng : EngineId) (ga : Reg) (s : State) : R State :=
  match s.core.reqs.find? fun r => decide (r.eng = eng) && !r.nores with
  | none => raise cIllegalInstr (BitVec.ofNat 64 (0x600 + engineNumber eng))
  | some r =>
    match r.result with
    | none => wait
    | some (e, bad) =>
      .ok ((s.upd fun k => { k with reqs := k.reqs.filter fun x => decide (x.order ≠ r.order) }).setG ga ⟨e, bad⟩)

def execGet (eng : EngineId) (ga : Reg) (s : State) : Host.Outcome State Fault Refusal :=
  conclude s (plain 4 [ga] (getBody eng ga) s)

end Sys2Proof.Machine
end

