-- ==== Sys2Proof/Machine/Fitting.lean ====
section
/-!
DEFINITION. Approximable regions (R201, R344 to R347, R351), the fitting engine's binding (R343), its requests (R352) and
its SGD step (R349).
-/
namespace Sys2Proof.Machine

/-! ### Binding (R343) -/

/-- What a gang gets when it uses a region: its record, OFF because FEAREA = 0, BUSY, or a record it cannot reach. -/
inductive Bound where
  | record (r : FeRec) | off | busy | fail
  deriving DecidableEq, Repr

/-- The record of a region bound by a gang at a cluster. -/
def findRecord (s : State) (k : Fin 32) (gang : Nat) (n : BitVec 4) : Option FeRec :=
  (s.cluster k).fe.find? fun r => decide (r.gang = gang) && decide (r.region = n)

/-- Replace a bound record. -/
def putRecord (k : Fin 32) (r : FeRec) (s : State) : State :=
  s.updCluster k fun cl => { cl with fe := cl.fe.map fun x => if x.gang = r.gang ∧ x.region = r.region then r else x }

/-- Cut a list into samples of n words. -/
def chunksOf (n : Nat) : Nat → List (BitVec 32) → List (List (BitVec 32))
  | 0, _ => []
  | k + 1, xs => xs.take n :: chunksOf n k (xs.drop n)

/-- Bytes that are not poisoned, as words. -/
def readWords (c : CoreId) (ctx : BitVec 6) (va n : Nat) (s : State) : R (State × List (BitVec 32)) := do
  if n = 0 then .ok (s, [])
  else
    let (s, bs, bad) ← globalRead c ctx va (4 * n) s
    need (!bad) cPoison (BitVec.ofNat 64 va)
    .ok (s, bytesWords n bs)

/-- Read a record as it stands in the FE area, with weights and buffers (R341). -/
def loadRecord (c : CoreId) (gang : Nat) (n : BitVec 4) (d : Region319) (handle : Word) (hd : List Byte) (s : State) :
    R (State × FeRec) := do
  let ctx := (s.coreAt c).ctx
  let va := recordVa s ctx n
  let f (i k : Nat) : Nat := leVal ((hd.drop i).take k)
  let (s, ws) ← readWords c ctx (va + 0x100) (weightCount d) s
  let (s, cap) ← readWords c ctx (va + 0x8000) (f 0x14 2 * (d.nin + d.nout)) s
  let (s, vb) ← readWords c ctx (va + 0x14000) (f 0x16 2 * (d.nin + d.nout)) s
  .ok (s, { gang := gang, region := n, ctx := ctx, desc := d, state := f 0 1, flags := BitVec.ofNat 2 (f 1 1),
            sexp := f 2 1, trip := BitVec.ofNat 32 (f 4 4), invoc := f 8 4, sampled := f 0xC 4, stepsDone := f 0x10 4,
            ncap := f 0x14 2, nval := f 0x16 2, lasterr := BitVec.ofNat 32 (f 0x18 4), trips := f 0x1C 4,
            handle := handle, weights := ws, capture := chunksOf (d.nin + d.nout) (f 0x14 2) cap,
            vbuf := chunksOf (d.nin + d.nout) (f 0x16 2) vb, batch := none })

/-- A part of a record that lies on one page can be used: mapped for an update, with the context's owner tag, and none of its
granules poisoned (R343). -/
def recordPart (c : CoreId) (ctx : BitVec 6) (acc : State) (va n : Nat) : R State := do
  let (s, x) ← translate c ctx va .atomic acc
  need (decide (x.owner = (s.ctx ctx).tag)) cProt (BitVec.ofNat 64 va)
  let lo := x.loc.addr
  need (!(s.mem x.loc.space).bad.any fun g => decide (lo ≤ 64 * g ∧ 64 * g < lo + n)) cPoison (BitVec.ofNat 64 va)
  .ok s

/-- Every part of a region's record can be used: its 128 KiB lie on at most two pages (R340, R343, R410). -/
def recordUsable (c : CoreId) (ctx : BitVec 6) (va : Nat) (s : State) : R State := do
  let cut := (va / 2 ^ 19 + 1) * 2 ^ 19
  if va + 0x20000 ≤ cut then recordPart c ctx s va 0x20000
  else recordPart c ctx (← recordPart c ctx s va (cut - va)) cut (va + 0x20000 - cut)

/-- The atomic step on BOUND: none if another engine holds the record, of which only the header is then read; the whole record must be
usable otherwise (R343). -/
def tryBind (c : CoreId) (gang : Nat) (n : BitVec 4) (d : Region319) (handle : Word) (s : State) :
    R (State × Option FeRec) := do
  let ctx := (s.coreAt c).ctx
  let va := recordVa s ctx n
  let s ← recordPart c ctx s va 0x28
  let (s, hd, bad) ← globalRead c ctx va 0x28 s
  need (!bad) cPoison (BitVec.ofNat 64 va)
  if hd.getD 3 0 = 1 then .ok (s, none)
  else do
    let s ← recordUsable c ctx va s
    let fresh := decide (leVal ((hd.drop 0x20).take 8) ≠ handle.toNat) || decide (6 < (hd.getD 0 0).toNat)
    let (s, r) ← if fresh then .ok (s, freshRecord gang n ctx d handle) else loadRecord c gang n d handle hd s
    let s ← globalWrite c ctx (va + 3) [1] false s
    .ok (s, some r)

/-- Bind a region for the gang of a core (R343). -/
def bindRegion (c : CoreId) (n : BitVec 4) (s : State) : State × Bound :=
  let k := s.coreAt c
  match k.gang, k.decl.regions[n.toNat]?, k.image with
  | some g, some d, some (handle, _) =>
    if (s.ctx k.ctx).fearea = 0 then (s, .off)
    else match findRecord s (clusterOf c) g n with
      | some r => (s, .record r)
      | none =>
        match tryBind c g n d handle s with
        | .ok (s, some r) => (s.updCluster (clusterOf c) fun cl => { cl with fe := cl.fe ++ [r] }, .record r)
        | .ok (s, none) => (s, .busy)
        | .error _ => (s, .fail)
  | _, _, _ => (s, .off)

/-! ### Inputs and results (R319, R345) -/

/-- Read an IN or OUT location: g register bits [31:0], or a stash-local word, with its poison. -/
def readPlace (s : State) (e : BitVec 32) : BitVec 32 × Bool :=
  if e.getLsbD 31 then
    let a := (e.extractLsb' 0 20).toNat
    (s.core.stash.u32 a, s.core.stash.poisoned a 4)
  else let v := s.g (e.extractLsb' 0 5)
       (v.val.extractLsb' 0 32, v.bad)

/-- Write a result location: zero-extended into a g register, or a stash-local word. -/
def writePlace (e v : BitVec 32) (s : State) : State :=
  if e.getLsbD 31 then stashPut s.me (e.extractLsb' 0 20).toNat (bvBytes 4 v) false s
  else s.setG (e.extractLsb' 0 5) (constReg (zext64 v))

/-- The values of a table, and whether all are clean: not poisoned, NaN or infinite (R345). -/
def readPlaces (s : State) (es : List (BitVec 32)) : List (BitVec 32) × Bool :=
  let vs := es.map (readPlace s)
  (vs.map (·.1), vs.all fun v => !v.2 && match val32 v.1 with
    | .fin _ _ _ => true
    | _ => false)

/-! ### APPROX.BEGIN (R201, R346) -/

/-- The checks of both APPROX instructions: the feature and the declaration. -/
def checkApprox (n : BitVec 4) (s : State) : R Unit := do
  need (s.feature 1) cIllegalInstr (zext64 s.pc)
  let _ ← checkObject s .fe (n.setWidth 6)
  .ok ()

/-- Set the open invocation. -/
def setInv (i : Option Invocation) (s : State) : State := s.upd fun k => { k with inv := i }

/-- The g registers that IN or OUT entries name lie within the declaration, or ILLEGAL_REG (R49; log entry 62). -/
def checkPlaces (s : State) (es : List (BitVec 32)) : R Unit :=
  checkRegs s ((es.filter fun e => !e.getLsbD 31).map fun e => e.extractLsb' 0 5)

/-- BEGIN in a region with a record: the true code runs, or the surrogate serves. In VALIDATE and in a sampled invocation of
SERVE the surrogate is evaluated here, for END to compare (R346). -/
def beginRecord (n : BitVec 4) (r : FeRec) (s : State) : R State := do
  checkPlaces s r.desc.ins
  let (ins, clean) := readPlaces s r.desc.ins
  let sur (on : Bool) : List (BitVec 32) := if on then surrogate r.desc r.weights ins else []
  let opened (sampled : Bool) (s : State) : State :=
    advance 4 (setInv (some ⟨n, r.state, sampled, clean, ins, sur (sampled || decide (r.state = 3))⟩) s)
  if r.state = 4 then
    let invoc := (r.invoc + 1) % 2 ^ 28
    let s := putRecord (clusterOf s.me) { r with invoc := invoc } s
    if clean ∧ invoc % 2 ^ r.sexp ≠ 0 then do
      checkPlaces s r.desc.outs
      let t ← checkTarget ((r.desc.end_.toNat + 4 : Nat) : Int) s
      let s := (r.desc.outs.zip (surrogate r.desc r.weights ins)).foldl (fun s ev => writePlace ev.1 ev.2 s) s
      .ok (goTo t false (setInv none s))
    else .ok (opened true s)
  else if r.state = 5 then .ok (opened false (putRecord (clusterOf s.me) { r with invoc := (r.invoc + 1) % 2 ^ 28 } s))
  else .ok (opened false s)

/-- APPROX.BEGIN: another open invocation is abandoned; a region without a record is OFF (R201, R343). -/
def execApproxBegin (region : BitVec 4) (s : State) : Host.Outcome State Fault Refusal :=
  conclude s (do
    checkApprox region s
    let s := drainStores s.me s
    match bindRegion s.me region s with
    | (s, .record r) => beginRecord region r s
    | (s, _) => .ok (advance 4 (setInv (some ⟨region, 0, false, false, [], []⟩) s)))

/-! ### APPROX.END (R346, R347, R351) -/

/-- Append a clean sample in OBSERVE or TRAIN; the buffer keeps its samples when NCAP restarts, until new ones take their
places (log entry 45); a full buffer starts a step when none is in progress (R347). -/
def captureSample (r : FeRec) (x : List (BitVec 32)) : FeRec :=
  if r.desc.batch ≤ r.ncap ∨ (r.batch.isSome ∧ r.stepsDone + 1 = r.desc.steps) then r
  else
    let r := { r with capture := putSample r.capture r.ncap x, ncap := r.ncap + 1 }
    if r.ncap < r.desc.batch then r
    else
      let r := if r.state = 1 then { r with state := 2, stepsDone := 0 } else r
      if r.batch.isSome then r else { r with batch := some (r.capture.take r.desc.batch), ncap := 0 }

/-- The larger of two errors; NaN counts as larger than every number (R349). -/
def maxError (a b : BitVec 32) : BitVec 32 :=
  if (val32 a).isNan then a else if (val32 b).isNan || fltVal (val32 a) (val32 b) then b else a

/-- Take a validation sample; the VSAMP-th decides between SERVE and TRAIN (R347). -/
def validateSample (r : FeRec) (x : List (BitVec 32)) (e : BitVec 32) : FeRec :=
  let r := { r with vbuf := putSample r.vbuf r.nval x, nval := r.nval + 1, lasterr := maxError r.lasterr e }
  if r.nval < r.desc.vsamp then r
  else if fltVal (val32 r.lasterr) (val32 r.desc.valt) then { r with state := 4, invoc := 0, sampled := 0 }
  else { r with state := 2, stepsDone := 0, ncap := 0 }

/-- Signal EVT[N] if it names an event of the context (R340, R351; log entry 14). -/
def signalTrip (n : BitVec 4) (s : State) : State :=
  let ctx := s.core.ctx
  match globalRead s.me ctx ((s.ctx ctx).fearea.toNat + 2 * n.toNat) 2 s with
  | .ok (s, bs, _) =>
    let e := leVal bs
    if e ≠ 0xFFFF ∧ ownsEvent (s.ctx ctx) e then signalEvent e 1 s else s
  | .error _ => s

/-- The record after a trip: FALLBACK, or INVALID with its weights discarded (R351). -/
def tripRecord (r : FeRec) (e : BitVec 32) : FeRec :=
  let r := { r with trips := (r.trips + 1) % 2 ^ 32, sampled := (r.sampled + 1) % 2 ^ 24, lasterr := e }
  if r.flags.getLsbD 0 then { r with state := 6, weights := [] } else { r with state := 5 }

/-- The error trips the region (R351). -/
def trips (r : FeRec) (e : BitVec 32) : Bool := (val32 e).isNan || fltVal (val32 r.trip) (val32 e)

/-- A sampled SERVE invocation ends: it trips, or only SAMPLED and LASTERR change (R351). -/
def endSampled (n : BitVec 4) (r : FeRec) (e : BitVec 32) (s : State) : State :=
  let k := clusterOf s.me
  if trips r e then
    let s := signalTrip n (putRecord k (tripRecord r e) s)
    if r.flags.getLsbD 1 then
      takeTrap { cause := cFitTrip, addr := BitVec.ofNat 64 (n.toNat * 2 ^ 32 + e.toNat), src := 8,
                 ret := some ((s.pc + 4).toNat), fall := true } s
    else advance 4 s
  else advance 4 (putRecord k { r with sampled := (r.sampled + 1) % 2 ^ 24, lasterr := e } s)

/-- END of the open invocation in a region whose state is still the one it began in (R346, R347). Only a clean invocation
is captured or used for validation; a sampled one with clean inputs is compared, whatever its results (R345, R351, log
entry 45). -/
def endRecordInv (i : Invocation) (r : FeRec) (s : State) : State :=
  let (outs, ok) := readPlaces s r.desc.outs
  let k := clusterOf s.me
  let x := i.ins ++ outs
  let clean := i.clean && ok
  let same := decide (i.state = r.state) || (decide (i.state = 1 ∨ i.state = 2) && decide (r.state = 1 ∨ r.state = 2))
  if !same then advance 4 s
  else if r.state = 1 ∨ r.state = 2 then
    if clean then advance 4 (putRecord k (captureSample r x) s) else advance 4 s
  else
    let e := sampleError i.sur outs
    if r.state = 3 then if clean then advance 4 (putRecord k (validateSample r x e) s) else advance 4 s
    else if r.state = 4 ∧ i.sampled ∧ i.clean then endSampled i.region r e s
    else advance 4 s

/-- APPROX.END: NOP unless the open invocation is of this region (R201). -/
def execApproxEnd (region : BitVec 4) (s : State) : Host.Outcome State Fault Refusal :=
  conclude s (do
    checkApprox region s
    match s.core.inv with
    | none => .ok (advance 4 s)
    | some i =>
      if i.region ≠ region then .ok (advance 4 s)
      else
        let s := setInv none (drainStores s.me s)
        match s.core.gang.bind fun g => findRecord s (clusterOf s.me) g region with
        | none => .ok (advance 4 s)
        | some r => do
          checkPlaces s r.desc.outs
          .ok (endRecordInv i r s))

/-! ### Requests and steps of the engine (R349, R352) -/

/-- The oldest FE request of a sub-operation in the focused cluster. -/
def feRequest (sub : Nat) (s : State) : Option (CoreId × Req) :=
  let k : Fin 32 := s.focus.fe.toFin
  oldestReq s (coresOf k) fun _ r => decide (r.eng = .fe) && decide (r.sub.toNat = sub)

/-- Perform a request: with FEAREA = 0 it ends as `off` states; an unbound record gives BUSY or MEMFAULT (R343, R352). -/
def feServe (sub : Nat) (off : Word) (act : CoreId → Req → FeRec → State → State × Word) (s : State) : State :=
  match feRequest sub s with
  | none => s
  | some (c, q) =>
    match bindRegion c (q.obj.setWidth 4) s with
    | (s, .off) => completeReq c q.order off false s
    | (s, .busy) => completeReq c q.order (element 0x06 0) false s
    | (s, .fail) => completeReq c q.order (element 0x05 0) false s
    | (s, .record r) => let (s, e) := act c q r s
                        completeReq c q.order e false s

/-- FE_INV_REQUEST: after any step in progress, the region becomes INVALID, unless it is OFF (R347, R352). -/
def execFeInvRequest (s : State) : Host.Outcome State Fault Refusal :=
  settle (feServe 0 (element 0 0) (fun c _ r s =>
    let r := completeStep (completeStep r)
    let r := if r.state = 0 then r else { r with state := 6, weights := [] }
    (putRecord (clusterOf c) r s, element 0 0)) s)

/-- The VALUE of STAT (R202). -/
def feStatValue (r : FeRec) : Nat := r.state + r.invoc % 2 ^ 28 * 2 ^ 4 + r.sampled % 2 ^ 24 * 2 ^ 32

/-- FE_STAT_REQUEST: the record is written to the FE area, then the element is yielded (R352). -/
def execFeStatRequest (s : State) : Host.Outcome State Fault Refusal :=
  settle (feServe 1 (element 0 0) (fun c _ r s =>
    match writeRecord c r true s with
    | .ok s => (s, element 0 (feStatValue r))
    | .error (.trap t) => (countTrap t s, element (requestStatus t) 0)
    | .error .stall => (s, element 0x05 0)) s)

/-- The arguments of a SETT are legal: a finite threshold not below 0, b[63:6] = 0 (R202). -/
def settOk (a b : Word) : Bool :=
  (match val32 (a.extractLsb' 0 32) with
   | .fin neg m _ => !neg || decide (m = 0)
   | _ => false) && decide (b.extractLsb' 6 58 = 0)

/-- A SETT on a record: thresholds replaced; FALLBACK moves to OBSERVE with its counters cleared but TRIPS (R347). -/
def settRecord (r : FeRec) (a b : Word) : FeRec :=
  let r := { r with trip := a.extractLsb' 0 32, sexp := bits b 3 0, flags := b.extractLsb' 4 2 }
  if r.state = 5 then
    { r with state := 1, invoc := 0, sampled := 0, stepsDone := 0, ncap := 0, nval := 0, lasterr := 0 }
  else r

/-- FE_SETT_REQUEST. -/
def execFeSettRequest (s : State) : Host.Outcome State Fault Refusal :=
  settle (feServe 2 (element 0x03 0) (fun c q r s =>
    if q.a.bad || q.b.bad then (s, element 0x07 0)
    else if r.state = 6 || !settOk q.a.val q.b.val then (s, element 0x03 0)
    else (putRecord (clusterOf c) (settRecord r q.a.val q.b.val) s, element 0 0)) s)

/-- FE_SGD_STEP: the step in progress on a bound region of a cluster completes (R349). -/
def execFeSgdStep (cluster : BitVec 5) (ctx : BitVec 6) (region : BitVec 4) (s : State) :
    Host.Outcome State Fault Refusal :=
  let k : Fin 32 := cluster.toFin
  settle (s.updCluster k fun cl =>
    { cl with fe := cl.fe.map fun r => if r.ctx = ctx ∧ r.region = region then completeStep r else r })

end Sys2Proof.Machine
end

