-- ==== Sys2Proof/Machine/Serving.lean ====
section
/-!
DEFINITION. The serving engines: the commit unit (R200, R322 to R325), the unmasking engine (R333 to R337), the cache
walker (R90, R196).
-/
namespace Sys2Proof.Machine

/-! ### KVC and the commit unit (R200, R324, R325) -/

/-- KVC: the barrier is checked, earlier stores are released, the commit is handed to the cluster's unit. -/
def execKvc (b : BitVec 6) (gb ga : Reg) (s : State) : Host.Outcome State Fault Refusal :=
  conclude s (plain 4 [ga, gb] (fun s => do
    let d ← clean (s.g ga)
    let a ← clean (s.g gb)
    if !barReady s.core b then barFault b
    else
      let s := drainStores s.me s
      .ok (s.updCluster (clusterOf s.me) fun k => { k with kvc := k.kvc ++ [⟨s.me, d, a.extractLsb' 0 32, b, s.core.ctx, s.core.gang⟩] })) s)

/-- How a commit ends: its status, the LEN for CNTW, and the state. -/
structure CommitEnd where
  status : Byte
  len    : Nat
  st     : State
  deriving DecidableEq, Repr

/-- The status of a failing access of the commit unit. -/
def commitFault (len : Nat) (s : State) : CommitEnd := ⟨0x05, len, s⟩

/-- The ids of positions LEN to LEN + a − 1, and whether one is poisoned. -/
def commitIds (c : CoreId) (ctx : BitVec 6) (tokva len a : Nat) (s : State) : R (State × List (BitVec 32) × Bool) :=
  (List.range a).foldlM (fun acc i => do
    let (s, ids, bad) := acc
    let (s, bs, q) ← globalRead c ctx (tokva + 4 * (len + i)) 4 s
    .ok (s, ids ++ [BitVec.ofNat 32 (leVal bs)], bad || q)) (s, [], false)

/-- Steps 5 and 6 of R324: TENT, GEN and STOPPED as plain writes, then LEN. -/
def commitWrite (c : CoreId) (ctx : BitVec 6) (d newlen gen flags : Nat) (s : State) : R State := do
  let s ← globalWrite c ctx (d + 0x10) (leBytes 4 0) false s
  let s ← globalWrite c ctx (d + 0x24) (leBytes 4 (gen + 1)) false s
  let s ← globalWrite c ctx (d + 0x20) (leBytes 4 flags) false s
  globalWrite c ctx d (leBytes 4 newlen) false s

/-- The commit on a descriptor whose bytes are read (R324 steps 2 to 6). -/
def commitOn (c : CoreId) (ctx : BitVec 6) (d a : Nat) (bs : List Byte) (bad : Bool) (s : State) : CommitEnd :=
  let f (i k : Nat) : Nat := leVal ((bs.drop i).take k)
  let len := f 0 4
  let flags := f 0x20 4
  if 16 ≤ flags ∨ f 0x28 24 ≠ 0 ∨ 5 < flags % 8 ∨ f 4 4 < len + f 0x10 4 ∨ flags / 8 % 2 = 1 then ⟨0x03, len, s⟩
  else if f 0x10 4 < a then ⟨0x04, len, s⟩
  else
    match commitIds c ctx (f 0x18 8) len a s with
    | .error _ => commitFault len s
    | .ok (s, ids, q) =>
      if bad || q then ⟨0x07, len, s⟩
      else
        let stop := f 0x14 4
        let hit := (List.range a).find? fun i => decide (stop ≠ 0xFFFFFFFF) && decide ((ids.getD i 0).toNat = stop)
        let newlen := match hit with
          | some i => len + i + 1
          | none => len + a
        match commitWrite c ctx d newlen (f 0x24 4) (if hit.isSome then flags + 8 else flags) s with
        | .ok s => ⟨0, newlen, s⟩
        | .error _ => commitFault len s

/-- The commit of R324 on the descriptor at d of a context with accepted count a. -/
def commit (c : CoreId) (ctx : BitVec 6) (d : Word) (a : Nat) (s : State) : CommitEnd :=
  if d.toNat % 64 ≠ 0 ∨ d.toNat < 0x100000 ∨ 2 ^ 52 ≤ d.toNat then commitFault 0 s
  else match translate c ctx d.toNat .read s with
    | .error _ => commitFault 0 s
    | .ok (s, x) =>
      if x.region ≠ .lcl ∧ x.region ≠ .poolBi then commitFault 0 s
      else match globalRead c ctx d.toNat 64 s with
        | .error _ => commitFault 0 s
        | .ok (s, bs, bad) => commitOn c ctx d.toNat a bs bad s

/-- KVC_COMMIT: a cluster's unit performs its oldest commit under the context that issued it, writes CNTW and arrives; the arrival is
dropped with the gang that has ended meanwhile (R324 step 7; log entry 63). -/
def execKvcCommit (cluster : BitVec 5) (s : State) : Host.Outcome State Fault Refusal :=
  let k : Fin 32 := cluster.toFin
  match (s.cluster k).kvc with
  | [] => settle s
  | x :: rest =>
    let s := s.updCluster k fun cl => { cl with kvc := rest }
    let e := commit x.core x.ctx x.desc x.acc.toNat s
    if (s.coreAt x.core).gang ≠ x.gang then settle e.st else
    let s := setCntw x.core x.bar (BitVec.ofNat 32 e.len) e.st
    settle ((arrive x.core x.bar 1 (decide (e.status ≠ 0)) e.status x.core.val s).getD s)

/-! ### The unmasking engine (R333 to R337) -/

/-- The oldest request of a sub-operation on the focused UME context. -/
def umeRequest (sub : Nat) (s : State) : Option (CoreId × Req) :=
  oldestReq s allCores fun _ r =>
    decide (r.eng = .ume) && decide (r.target = s.focus.ume.toNat) && decide (r.sub.toNat = sub)

/-- The die and context number of a UME target. -/
def umeIndex (t : Nat) : Fin 4 × BitVec 6 := (⟨t / 64 % 4, by omega⟩, BitVec.ofNat 6 (t % 64))

/-- What a UME request answers: STATUS and VALUE, with the context and state it leaves. -/
structure UmeEnd where
  status : Byte
  value  : Nat
  ctx    : UmeCtx
  st     : State
  deriving DecidableEq, Repr

/-- Perform a request on a context: a failing access ends it with MEMFAULT, a poisoned input with POISON, and nothing
changes (R172). -/
def umeServe (sub : Nat) (act : CoreId → Req → UmeCtx → State → R UmeEnd) (s : State) : State :=
  match umeRequest sub s with
  | none => s
  | some (c, q) =>
    let (d, i) := umeIndex q.target
    let x := umeGet s d i
    match act c q x s with
    | .ok e => completeReq c q.order (element e.status e.value) false (umePut d i e.ctx e.st)
    | .error (.trap t) => completeReq c q.order (element (requestStatus t) 0) false (countTrap t s)
    | .error .stall => s

/-- An address argument that is not poisoned. -/
def umeAddr (r : PReg) : R Nat := if r.bad then raise cPoison 0 else .ok r.val.toNat

/-- The bytes of the masked bitmap (R333). -/
def mapBytes (len : Nat) (masked : List Nat) : List Byte :=
  (List.range ((len + 7) / 8)).map fun b =>
    BitVec.ofNat 8 ((List.range 8).foldl (fun v i => if masked.contains (8 * b + i) then v + 2 ^ i else v) 0)

/-- A configuration block, if it is legal (R333). -/
def umeBlock (bs : List Byte) (ctx : BitVec 6) : Option UmeCfg :=
  let f (i k : Nat) : Nat := leVal ((bs.drop i).take k)
  let c : UmeCfg :=
    { len := f 0 2, groups := f 2 1, kind := f 3 1, q := f 4 2, w := f 6 1, rper := f 7 1,
      thr := BitVec.ofNat 32 (f 8 4), cdg := f 0xC 1, bdg := f 0xD 1, tokva := BitVec.ofNat 64 (f 0x10 8),
      mapva := BitVec.ofNat 64 (f 0x18 8), ctx := ctx }
  let qok : Bool := match c.kind with
    | 0 => decide (1 ≤ c.q ∧ c.q ≤ 256)
    | 1 => decide (1 ≤ c.q ∧ c.q ≤ 4096)
    | _ => decide (c.q = 0)
  let finite : Bool := match val32 c.thr with
    | .fin _ _ _ => true
    | _ => false
  let tok : Bool := if c.kind = 2 then finite else decide (c.thr = 0)
  if 1 ≤ c.len ∧ c.len ≤ 4096 ∧ 1 ≤ c.groups ∧ c.groups ≤ 64 ∧ c.kind ≤ 2 ∧ c.w ≤ 15 ∧ c.cdg < c.groups ∧
      c.bdg < c.groups ∧ f 0xE 2 = 0 ∧ f 0x20 32 = 0 ∧ qok ∧ tok then some c else none

/-- Every (position, group) pair of a context. -/
def everyEntry (c : UmeCfg) : List (Nat × Nat) :=
  ((List.range c.groups).map fun g => (List.range c.len).map fun x => (x, g)).flatten

/-- A request on a context that is not configured gives BADOBJ (R198). -/
def umeBad (x : UmeCtx) (s : State) : UmeEnd := ⟨0x03, 0, x, s⟩

/-- CFG (R333). -/
def umeCfgAct (c : CoreId) (q : Req) (x : UmeCtx) (s : State) : R UmeEnd := do
  let ctx := (s.coreAt c).ctx
  let a ← umeAddr q.a
  let (s, bs, bad) ← globalRead c ctx a 64 s
  need (!bad) cPoison 0
  match umeBlock bs ctx with
  | none => .ok (umeBad x s)
  | some cfg => do
    let all := List.range cfg.len
    let s ← globalWrite c ctx cfg.mapva.toNat (mapBytes cfg.len all) false s
    .ok ⟨0, 0, { x with cfg := some cfg, masked := all, round := 0, posted := none, dirty := everyEntry cfg }, s⟩

/-- UME_CFG_REQUEST. -/
def execUmeCfgRequest (s : State) : Host.Outcome State Fault Refusal := settle (umeServe 0 umeCfgAct s)

/-- A poison-free word at an address. -/
def umeWord (c : CoreId) (ctx : BitVec 6) (va : Nat) (s : State) : R (State × BitVec 32) := do
  let (s, bs, bad) ← globalRead c ctx va 4 s
  need (!bad) cPoison 0
  .ok (s, BitVec.ofNat 32 (leVal bs))

/-- POST: the confidences and ids of the masked positions (R334). -/
def umePostAct (c : CoreId) (q : Req) (x : UmeCtx) (s : State) : R UmeEnd := do
  match x.cfg with
  | none => .ok (umeBad x s)
  | some cfg => do
    let a ← umeAddr q.a
    let b ← umeAddr q.b
    let (s, ps) ← x.masked.foldlM (fun acc p => do
      let (s, ps) := acc
      let (s, v) ← umeWord c cfg.ctx (a + 4 * p) s
      let (s, i) ← umeWord c cfg.ctx (b + 4 * p) s
      .ok (s, ps ++ [(p, v, i)])) (s, ([] : List (Nat × BitVec 32 × BitVec 32)))
    .ok ⟨0, x.masked.length, { x with posted := some ps }, s⟩

/-- UME_POST_REQUEST. -/
def execUmePostRequest (s : State) : Host.Outcome State Fault Refusal := settle (umeServe 1 umePostAct s)

/-- A confidence for ranking: NaN counts as −∞ (R335). -/
def confidence (v : BitVec 32) : FVal := match val32 v with
  | .nan => .inf true
  | x => x

/-- Insert into a ranking: larger first, equal ones behind those of lower position (R335). -/
def rankInsert (x : Nat × BitVec 32 × BitVec 32) : List (Nat × BitVec 32 × BitVec 32) →
    List (Nat × BitVec 32 × BitVec 32)
  | [] => [x]
  | y :: ys => if fltVal (confidence y.2.1) (confidence x.2.1) then x :: y :: ys else y :: rankInsert x ys

/-- How many positions ROUND commits (R335). -/
def roundCount (c : UmeCfg) (ps : List (Nat × BitVec 32 × BitVec 32)) : Nat :=
  let m := ps.length
  if m = 0 then 0
  else match c.kind with
    | 0 => max 1 ((c.q * m + 255) / 256)
    | 1 => min c.q m
    | _ => max 1 (ps.filter fun p => !fltVal (confidence p.2.1) (val32 c.thr)).length

/-- Add entries to a dirty map. -/
def addDirty (d es : List (Nat × Nat)) : List (Nat × Nat) :=
  es.foldl (fun d e => if d.contains e then d else d ++ [e]) d

/-- The dirty entries of a round: committed positions, their bands, and a full refresh every RPER rounds (R336). -/
def roundDirty (c : UmeCfg) (ps : List Nat) (r : Nat) : List (Nat × Nat) :=
  if c.rper ≠ 0 ∧ r % c.rper = 0 then everyEntry c
  else (ps.map fun p =>
    ((List.range c.groups).filter (c.cdg ≤ ·)).map (fun g => (p, g)) ++
    (((List.range c.len).filter fun x => decide (x ≠ p ∧ p ≤ x + c.w ∧ x ≤ p + c.w)).map fun x =>
      ((List.range c.groups).filter (c.bdg ≤ ·)).map fun g => (x, g)).flatten).flatten

/-- ROUND (R335, R336). -/
def umeRoundAct (c : CoreId) (q : Req) (x : UmeCtx) (s : State) : R UmeEnd := do
  match x.cfg, x.posted with
  | some cfg, some ps => do
    let a ← umeAddr q.a
    let n := roundCount cfg ps
    let win := (ps.foldl (fun l p => rankInsert p l) []).take n
    let pos := (List.range cfg.len).filter fun p => win.any fun w => decide (w.1 = p)
    let s ← win.foldlM (fun s w => globalWrite c cfg.ctx (cfg.tokva.toNat + 4 * w.1) (bvBytes 4 w.2.2) false s) s
    let s ← if pos.isEmpty then .ok s else globalWrite c cfg.ctx a ((pos.map fun p => leBytes 2 p).flatten) false s
    let masked := x.masked.filter fun p => !pos.contains p
    let s ← globalWrite c cfg.ctx cfg.mapva.toNat (mapBytes cfg.len masked) false s
    let r := x.round + 1
    .ok ⟨0, n, { x with masked := masked, round := r, posted := none, dirty := addDirty x.dirty (roundDirty cfg pos r) }, s⟩
  | _, _ => .ok (umeBad x s)

/-- UME_ROUND_REQUEST. -/
def execUmeRoundRequest (s : State) : Host.Outcome State Fault Refusal := settle (umeServe 2 umeRoundAct s)

/-- DIRTY (R337): the positions of a group into the issuing core's scratchpad, then the arrival with its count. -/
def umeDirtyAct (c : CoreId) (q : Req) (x : UmeCtx) (s : State) : R UmeEnd := do
  match x.cfg with
  | none => .ok (umeBad x s)
  | some cfg => do
    let a ← umeAddr q.a
    let b ← umeAddr q.b
    let g := b % 64
    let bar := BitVec.ofNat 6 (b / 256)
    if a % 64 ≠ 0 ∨ cfg.groups ≤ g ∨ !barReady (s.coreAt c) bar then .ok (umeBad x s)
    else
      let xs := (List.range cfg.len).filter fun p => x.dirty.contains (p, g)
      let n := (xs.length + 95) / 96 * 96
      if (s.coreAt c).decl.stash < a + 2 * n then raise cStashBounds 0
      else
        let bytes := ((xs ++ List.replicate (n - xs.length) 0xFFFF).map fun p => leBytes 2 p).flatten
        let s := if xs.isEmpty then s else stashPut c a bytes false s
        let s := setCntw c bar (BitVec.ofNat 32 xs.length) s
        let s := (arrive c bar 1 false 0 c.val s).getD s
        .ok ⟨0, xs.length, { x with dirty := x.dirty.filter fun e => decide (e.2 ≠ g) }, s⟩

/-- UME_DIRTY_REQUEST. -/
def execUmeDirtyRequest (s : State) : Host.Outcome State Fault Refusal := settle (umeServe 3 umeDirtyAct s)

/-- UME_RESET_REQUEST: the context becomes unconfigured (R333). -/
def execUmeResetRequest (s : State) : Host.Outcome State Fault Refusal :=
  settle (umeServe 4 (fun _ _ x s =>
    if x.cfg.isNone then .ok (umeBad x s) else .ok ⟨0, 0, { (default : UmeCtx) with gang := x.gang }, s⟩) s)

/-! ### The cache walker (R90, R196) -/

/-- Clean, and for RINVAL drop, the LLC's copy of the line of a location; drop its tag, and its filter entry where no
window granule and no subscribed word needs it (R90, R66, R86). -/
def walkLine (inval : Bool) (x : Loc) (s : State) : State :=
  let line := x.addr / 128
  match x.space with
  | .hbm => if inval then llcDrop x s else s
  | .host => s
  | .pool p =>
    let s := match llcFind s p line with
      | none => s
      | some l => if inval then llcDrop x s else llcStore { l with dirty := false } (llcWriteBack l s)
    let held := lineSubscribed s (p, line) ||
      s.grans.any fun g => decide (g.home.space = .pool p) && decide (g.home.addr / 128 = line)
    if inval && !held then { s with pool := { s.pool with filter := s.pool.filter.filter (· ≠ (p, line)) } } else s

/-- Write back the dirty bytes of a core's granule in the 64-byte block of a location; it stays valid (R90, R60, log
entry 37). -/
def walkGranules (c : CoreId) (x : Loc) (s : State) : State :=
  let hit (g : Gran) : Bool :=
    decide (g.core = c) && decide (g.home.space = x.space) && decide (g.home.addr / 64 = x.addr / 64)
  let s' := (s.grans.filter hit).foldl (fun s g => granWriteBack g s) s
  { s' with grans := s'.grans.map fun g => if hit g then { g with dirty := 0 } else g }

/-- The translation that a cache walker makes of an address: a page that is unmapped, or carries another owner tag, is an
error; a HOST page holds nothing cached, but the issuing core's windows may mirror it, so it has its place and no error (R90);
no permission is asked for (R54, R196). -/
def walkerLoc (r : WalkRange) (va : Nat) (s : State) : R (State × Loc) := do
  let ea := BitVec.ofNat 64 va
  let (t, leaf, size) ← leafFor r.core r.ctx va s
  noteWalk (startedWalk r.core s t) (need (decide (pteOwner leaf = 0) || decide (pteOwner leaf = (s.ctx r.ctx).tag)) cProt ea)
  let s := t
  let a := pteAddr leaf + if size = 3 then va % 2 ^ 30 else va % 2 ^ 19
  match regionOf (pteClass leaf) with
  | .host | .hostWc => .ok (s, ⟨.host, a⟩)
  | c => .ok (s, ← physical s c a ea)

/-- Walk one 64-byte block of a range and the line it lies in: the state, and the first error status so far (R196). -/
def walkVa (r : WalkRange) (acc : State × Byte) (va : Nat) : State × Byte :=
  let (s, st) := acc
  match walkerLoc r va s with
  | .ok (s, x) => (walkLine r.inval x (walkGranules r.core x s), st)
  | .error (.trap t) => (countTrap t s, if st = 0 then t.cause else st)
  | .error .stall => (s, st)

/-- The 64-byte blocks of row i of a range, each by its first byte in the row. -/
def rowBlocks (r : WalkRange) (i : Nat) : List Nat :=
  if r.rowlen = 0 then []
  else
    let base := ((r.base.toNat : Int) + (i : Nat) * r.stride).toNat
    (List.range ((base + r.rowlen - 1) / 64 - base / 64 + 1)).map fun j => max base ((base / 64 + j) * 64)

/-- CACHE_WALKER_RANGE: a die's walker performs its oldest range on every die, then arrives on the barrier (R90, R196). -/
def execCacheWalkerRange (die : BitVec 2) (s : State) : Host.Outcome State Fault Refusal :=
  let d : Fin 4 := die.toFin
  match (s.die d).walker with
  | [] => settle s
  | r :: rest =>
    let s := s.updDie d fun x => { x with walker := rest }
    let (s, st) := (List.range r.count).foldl (fun acc i => (rowBlocks r i).foldl (walkVa r) acc) (s, 0)
    settle ((arrive r.core r.bar 1 (decide (st ≠ 0)) st r.core.val s).getD s)

end Sys2Proof.Machine
end

