-- ==== Sys2Proof/Machine/Pix.lean ====
section
/-!
DEFINITION. The prefix index (R326 to R329): installation of a tree, and the five requests as the PIX performs them.
-/
namespace Sys2Proof.Machine

/-! ### Operations that keep earlier effects when they fail (R328) -/

/-- An operation whose failure keeps the state it reached. -/
abbrev PixM (α : Type) := ExceptT TrapInfo (StateM State) α

/-- Lift an operation that answers a state. -/
def pixLift {α : Type} (f : State → R (State × α)) : PixM α := fun s =>
  match f s with
  | .ok (s', a) => (.ok a, s')
  | .error (.trap t) => (.error t, countTrap t s)
  | .error .stall => (.error { cause := cXlate, addr := 0 }, s)

/-- The tree and the requester of a PIX operation. -/
structure PixEnv where
  tree : Tree
  core : CoreId
  ctx  : BitVec 6
  deriving DecidableEq, Repr

/-- A number of `n` bytes at an address; poison ends the request (R172). -/
def pixNum (e : PixEnv) (va n : Nat) : PixM Nat := do
  let (bs, bad) ← pixLift fun s => globalRead e.core e.ctx va n s
  if bad then throw { cause := cPoison, addr := 0 } else pure (leVal bs)

/-- Write a number of `n` bytes. -/
def pixPut (e : PixEnv) (va n v : Nat) : PixM Unit :=
  pixLift fun s => (globalWrite e.core e.ctx va (leBytes n v) false s).map fun s => (s, ())

/-- The address of a node (R327). -/
def nodeVa (e : PixEnv) (i : Nat) : Nat := e.tree.nodebase.toNat + 128 * i

/-- A 4-byte field of a node. -/
def nodeField (e : PixEnv) (i off : Nat) : PixM Nat := pixNum e (nodeVa e i + off) 4

/-- The handle of a node, through HSLOT (R327). -/
def nodeHandle (e : PixEnv) (i : Nat) : PixM Nat := do
  let h ← nodeField e i 0x40
  pixNum e (e.tree.htab.toNat + 8 * h) 8

/-- Stamp a node with the clock. -/
def stampNode (e : PixEnv) (i : Nat) : PixM Unit := pixPut e (nodeVa e i + 0x48) 8 e.tree.clock.toNat

/-- The child of a node, from a sibling on, whose TOK equals a group. -/
def matchSib (e : PixEnv) (tok : Nat) : Nat → Nat → PixM (Option Nat)
  | 0, _ => pure none
  | n + 1, i =>
    if i = 0 then pure none
    else do
      let t ← pixNum e (nodeVa e i) 64
      if t = tok then pure (some i)
      else do
        let sib ← nodeField e i 0x54
        matchSib e tok n sib

/-- The child of a node that matches a group. -/
def matchChild (e : PixEnv) (i tok : Nat) : PixM (Option Nat) := do
  let c ← nodeField e i 0x50
  matchSib e tok e.tree.nmax c

/-- A request descriptor (R197): n, the VA of the ids, the VA of the handles. -/
def pixDesc (e : PixEnv) (a : Nat) : PixM (Nat × Nat × Nat) := do
  let d ← pixNum e a 24
  pure (d % 2 ^ 32, d / 2 ^ 64 % 2 ^ 64, d / 2 ^ 128 % 2 ^ 64)

/-- A node index that a request may name (R328). -/
def nodeLegal (e : PixEnv) (i : Nat) : PixM Bool :=
  if i = 0 ∨ e.tree.nmax ≤ i then pure false
  else do
    let v ← nodeField e i 0x5C
    pure (decide (v % 2 = 1))

/-- An argument register that is not poisoned. -/
def pixArg (r : PReg) : PixM Nat := if r.bad then throw { cause := cPoison, addr := 0 } else pure r.val.toNat

/-! ### LOOKUP -/

/-- Follow the groups of a request from a node: the deepest node matched and its depth. Each matched node's handle is
written at b and the node is stamped. -/
def lookupFrom (e : PixEnv) (ids b : Nat) : Nat → Nat → Nat → PixM (Nat × Nat)
  | 0, i, depth => pure (i, depth)
  | n + 1, i, depth => do
    let tok ← pixNum e (ids + 64 * depth) 64
    match ← matchChild e i tok with
    | none => pure (i, depth)
    | some c => do
      let h ← nodeHandle e c
      pixPut e (b + 8 * depth) 8 h
      stampNode e c
      lookupFrom e ids b n c (depth + 1)

/-- LOOKUP (R328): STATUS and VALUE. -/
def pixLookup (e : PixEnv) (q : Req) : PixM (Byte × Nat) := do
  let a ← pixArg q.a
  let b ← pixArg q.b
  let (n, ids, _) ← pixDesc e a
  let (i, depth) ← lookupFrom e ids b (n / 16) 0 0
  if depth = 0 then pure (0, 0)
  else do
    let r ← nodeField e i 0x44
    pixPut e (nodeVa e i + 0x44) 4 (r + 1)
    pure (0, i * 2 ^ 32 + 16 * depth)

/-! ### INSERT -/

/-- The matched path of an insertion, root side first: nothing is written. -/
def insertWalk (e : PixEnv) (ids : Nat) : Nat → Nat → Nat → PixM (List Nat)
  | 0, _, _ => pure []
  | n + 1, i, depth => do
    let tok ← pixNum e (ids + 64 * depth) 64
    match ← matchChild e i tok with
    | none => pure []
    | some c => do
      let rest ← insertWalk e ids n c (depth + 1)
      pure (c :: rest)

/-- The free nodes of a tree (R326, R327). -/
def freeNodes (e : PixEnv) : PixM (List Nat) :=
  ((List.range e.tree.nmax).filter (0 < ·)).foldlM (fun l i => do
    let v ← nodeField e i 0x5C
    pure (if v % 2 = 1 then l else l ++ [i])) []

/-- Choose `n` of the free nodes: which ones the spec leaves open (log entry 2). -/
def chooseNodes : Nat → List Nat → PixM (List Nat)
  | 0, _ => pure []
  | n + 1, free => do
    let w ← (fun s => let (w, s) := s.drawWord
                      (.ok w, s) : PixM Word)
    let i := w.toNat % free.length
    let rest ← chooseNodes n (removeAt free i)
    pure (free.getD i 0 :: rest)

/-- The bytes of a new node whose parent is `p` and next sibling `sib` (R327). -/
def nodeBytes (e : PixEnv) (i tok p sib : Nat) : List Byte :=
  leBytes 64 tok ++ leBytes 4 i ++ leBytes 4 0 ++ leBytes 8 e.tree.clock.toNat ++ leBytes 4 0 ++ leBytes 4 sib ++
    leBytes 4 p ++ leBytes 4 1 ++ leBytes 32 0

/-- Create the nodes of the groups that were not matched, each the first child of the one before it (where a new child
stands among its siblings is the model's choice, log entry 2). -/
def insertNodes (e : PixEnv) (ids hs : Nat) : List Nat → Nat → Nat → PixM Nat
  | [], p, _ => pure p
  | i :: rest, p, depth => do
    let tok ← pixNum e (ids + 64 * depth) 64
    let h ← pixNum e (hs + 8 * depth) 8
    let sib ← nodeField e p 0x50
    pixLift fun s => (globalWrite e.core e.ctx (nodeVa e i) (nodeBytes e i tok p sib) false s).map fun s => (s, ())
    pixPut e (e.tree.htab.toNat + 8 * i) 8 h
    pixPut e (nodeVa e p + 0x50) 4 i
    insertNodes e ids hs rest i (depth + 1)

/-- Run an operation; when it fails, the state is what `kept` makes of the one before it. -/
def undoing {α : Type} (kept : State → State) (f : PixM α) : PixM α := fun s =>
  match f s with
  | (.ok a, s') => (.ok a, s')
  | (.error t, _) => (.error t, kept s)

/-- Overwrite the entries of a handle list whose groups the tree already had. -/
def overwriteList (e : PixEnv) (hs : Nat) (path : List Nat) : PixM Unit :=
  ((List.range path.length).zip path).forM fun di => do
    let h ← nodeHandle e di.2
    pixPut e (hs + 8 * di.1) 8 h

/-- INSERT (R328): nodes are created, then the list is overwritten, then the deepest node counted and the path stamped. When an
access fails the tree's changes are undone; entries already overwritten stay. -/
def pixInsert (e : PixEnv) (q : Req) : PixM (Byte × Nat) := do
  let a ← pixArg q.a
  let (n, ids, hs) ← pixDesc e a
  if n % 16 ≠ 0 ∨ n < 16 then pure (0x03, 0)
  else do
    let g := n / 16
    let path ← insertWalk e ids g 0 0
    let k := g - path.length
    let free ← if k = 0 then pure [] else freeNodes e
    if free.length < k then pure (0x02, 0)
    else do
      let new ← chooseNodes k free
      let create := insertNodes e ids hs new (path.getLastD 0) path.length
      let kept (s : State) : State :=
        match create s with
        | (.error _, _) => s
        | (.ok _, _) => (overwriteList e hs path s).2
      undoing kept do
        let leaf ← create
        overwriteList e hs path
        let r ← nodeField e leaf 0x44
        pixPut e (nodeVa e leaf + 0x44) 4 (r + 1)
        path.forM (stampNode e)
        pure (0, leaf)

/-! ### REF, UNREF -/

/-- REF (R328): a count at its maximum gives FULL. -/
def pixRef (e : PixEnv) (q : Req) : PixM (Byte × Nat) := do
  let i := (← pixArg q.a) % 2 ^ 20
  if !(← nodeLegal e i) then pure (0x03, 0)
  else do
    let r ← nodeField e i 0x44
    if r = 2 ^ 32 - 1 then pure (0x02, 0)
    else do
      pixPut e (nodeVa e i + 0x44) 4 (r + 1)
      stampNode e i
      pure (0, r + 1)

/-- UNREF (R328). -/
def pixUnref (e : PixEnv) (q : Req) : PixM (Byte × Nat) := do
  let i := (← pixArg q.a) % 2 ^ 20
  if !(← nodeLegal e i) then pure (0x03, 0)
  else do
    let r ← nodeField e i 0x44
    if r = 0 then pure (0x04, 0)
    else do
      pixPut e (nodeVa e i + 0x44) 4 (r - 1)
      pure (0, r - 1)

/-! ### EVICT -/

/-- The eligible node with the least LRU, ties to the lower index (R328). -/
def evictPick (e : PixEnv) : PixM (Option Nat) := do
  let best ← ((List.range e.tree.nmax).filter (0 < ·)).foldlM (fun (b : Option (Nat × Nat)) i => do
    let v ← nodeField e i 0x5C
    if v % 2 = 0 then pure b
    else do
      let c ← nodeField e i 0x50
      let r ← nodeField e i 0x44
      if c ≠ 0 ∨ r ≠ 0 then pure b
      else do
        let l ← pixNum e (nodeVa e i + 0x48) 8
        match b with
        | none => pure (some (l, i))
        | some (l', _) => pure (if l < l' then some (l, i) else b)) none
  pure (best.map (·.2))

/-- Unlink a node from a sibling list. -/
def unlinkSib (e : PixEnv) (i sib : Nat) : Nat → Nat → PixM Unit
  | 0, _ => pure ()
  | n + 1, j =>
    if j = 0 then pure ()
    else do
      let nx ← nodeField e j 0x54
      if nx = i then pixPut e (nodeVa e j + 0x54) 4 sib else unlinkSib e i sib n nx

/-- Free a node: it leaves its parent's children and is no longer valid. -/
def freeNode (e : PixEnv) (i : Nat) : PixM Unit := do
  let p ← nodeField e i 0x58
  let sib ← nodeField e i 0x54
  let first ← nodeField e p 0x50
  if first = i then pixPut e (nodeVa e p + 0x50) 4 sib else unlinkSib e i sib e.tree.nmax first
  pixPut e (nodeVa e i + 0x5C) 4 0

/-- Free nodes one by one, each after its handle is written at b: the state, the handles written, and the failure that ended
the loop, if any. -/
def evictLoop (e : PixEnv) (b : Nat) : Nat → List Nat → State → State × List Nat × Option TrapInfo
  | 0, hs, s => (s, hs, none)
  | n + 1, hs, s =>
    match evictPick e s with
    | (.error t, s) => (s, hs, some t)
    | (.ok none, s) => (s, hs, none)
    | (.ok (some i), s) =>
      let write : PixM Nat := do
        let h ← nodeHandle e i
        pixPut e (b + 8 * hs.length) 8 h
        pure h
      match write s with
      | (.error t, s) => (s, hs, some t)
      | (.ok h, s) =>
        match freeNode e i s with
        | (.error t, s) => (s, hs ++ [h], some t)
        | (.ok _, s) => evictLoop e b n (hs ++ [h]) s

/-- EVICT (R328): when an access fails the tree's changes are undone; handles written at b stay. -/
def pixEvict (e : PixEnv) (q : Req) : PixM (Byte × Nat) := do
  let a := (← pixArg q.a) % 2 ^ 32
  let b ← pixArg q.b
  fun s =>
    match evictLoop e b (min a e.tree.nmax) [] s with
    | (s', hs, none) => (.ok (0, hs.length), s')
    | (_, hs, some t) =>
      (.error t, (((List.range hs.length).zip hs).forM (fun dh => pixPut e (b + 8 * dh.1) 8 dh.2) s).2)

/-! ### Requests -/

/-- Set a tree's clock. -/
def setClock (t : BitVec 3) (w : Word) (s : State) : State :=
  { s with trees := vset t { vget t s.trees with clock := w } s.trees }

/-- Perform the oldest request of a sub-operation on the focused tree. A tree that is not installed, or whose owner tag
is not the requester's, gives BADOBJ (R326). Every other request advances the clock, but an INSERT that finds the tree
full changes nothing; of a request that meets poison only the clock stays (R172, R328). -/
def pixServe (sub : Nat) (act : PixEnv → Req → PixM (Byte × Nat)) (s : State) : State :=
  let t := s.focus.tree
  match oldestReq s allCores fun _ r =>
      decide (r.eng = .pix) && decide (r.target = t.toNat) && decide (r.sub.toNat = sub) with
  | none => s
  | some (c, q) =>
    let tr := vget t s.trees
    let ctx := (s.coreAt c).ctx
    if !tr.installed || decide (tr.tag ≠ (s.ctx ctx).tag) then completeReq c q.order (element 0x03 0) false s
    else
      let tr := { tr with clock := tr.clock + 1 }
      let s' := setClock t tr.clock s
      match act ⟨tr, c, ctx⟩ q s' with
      | (.ok (st, v), s2) =>
        let s2 := if st = 0x02 ∧ sub = 1 then s else s2
        completeReq c q.order (element st v) false s2
      | (.error e, s2) =>
        let s2 := if requestStatus e = 0x07 then s' else s2
        completeReq c q.order (element (requestStatus e) 0) false s2

/-- PIX_LOOKUP_REQUEST. -/
def execPixLookupRequest (s : State) : Host.Outcome State Fault Refusal := settle (pixServe 0 pixLookup s)

/-- PIX_INSERT_REQUEST. -/
def execPixInsertRequest (s : State) : Host.Outcome State Fault Refusal := settle (pixServe 1 pixInsert s)

/-- PIX_REF_REQUEST. -/
def execPixRefRequest (s : State) : Host.Outcome State Fault Refusal := settle (pixServe 2 pixRef s)

/-- PIX_UNREF_REQUEST. -/
def execPixUnrefRequest (s : State) : Host.Outcome State Fault Refusal := settle (pixServe 3 pixUnref s)

/-- PIX_EVICT_REQUEST. -/
def execPixEvictRequest (s : State) : Host.Outcome State Fault Refusal := settle (pixServe 4 pixEvict s)

/-! ### Installation (R326) -/

/-- The fields of a tree control block. -/
def treeOf (b : BitVec 256) : Tree :=
  { nodebase := b.extractLsb' 0 64, htab := b.extractLsb' 64 64, nmax := (b.extractLsb' 128 32).toNat,
    tag := b.extractLsb' 160 8, installed := false, clock := 0 }

/-- A block is legal (R326). -/
def treeLegal (b : BitVec 256) : Bool :=
  let t := treeOf b
  decide (t.nodebase.toNat % 4096 = 0) && decide (t.htab.toNat % 8 = 0) && decide (2 ≤ t.nmax ∧ t.nmax ≤ 2 ^ 20) &&
    decide (b.extractLsb' 168 88 = 0)

/-- The lowest valid context with an owner tag, whose tables translate the tree's addresses (log entry 15). -/
def ctxOfTag (s : State) (tag : Byte) : Option (BitVec 6) :=
  ((List.range 64).map (BitVec.ofNat 6)).find? fun i => (s.ctx i).valid && decide ((s.ctx i).tag = tag)

/-- Zero the root and mark every other node free. -/
def clearNodes (ctx : BitVec 6) (t : Tree) (s : State) : R State := do
  let (_, x) ← hubTranslate ctx t.nodebase.toNat .write s
  need (decide (x.region = .lcl)) cProt t.nodebase
  let s ← hubWrite ctx t.nodebase.toNat (List.replicate 128 0) false s
  ((List.range t.nmax).filter (0 < ·)).foldlM
    (fun s i => hubWrite ctx (t.nodebase.toNat + 128 * i + 0x5C) (leBytes 4 0) false s) s

/-- Install a tree from its block; the old tree is discarded. A block with an illegal value, or whose nodes cannot be
written, leaves the tree not installed (log entry 15). -/
def installTree (i : BitVec 3) (b : BitVec 256) (s : State) : State :=
  let t := treeOf b
  let off := { s with trees := vset i t s.trees }
  if !treeLegal b then off
  else match ctxOfTag s t.tag with
    | none => off
    | some ctx => match clearNodes ctx t s with
      | .error _ => off
      | .ok s => { s with trees := vset i { t with installed := true } s.trees }

/-- TREE_INSTALL. -/
def execTreeInstall (tree : BitVec 3) (block : BitVec 256) (s : State) : Host.Outcome State Fault Refusal :=
  settle (if s.ident.phase = 5 then installTree tree block s else s)

end Sys2Proof.Machine
end

