-- ==== Sys2Proof/Machine/Words.lean ====
section
/-!
DEFINITION. Vector words: classes (R20), the operands, aux bits and types of each word (R220, R238, R246), the registers it
names (R22, R23, R49), and the checks that VRUN makes (R137, R214, R215, R218).
-/
namespace Sys2Proof.Machine

/-! ### Type groups (R220) -/

def tFL (t : Nat) : Bool := decide (t ≤ 2)
def tSF (t : Nat) : Bool := decide (3 ≤ t ∧ t ≤ 6)
def tIN (t : Nat) : Bool := decide (9 ≤ t ∧ t ≠ 11)
def tBY (t : Nat) : Bool := decide (t ≠ 7 ∧ t ≠ 8)

/-- How a word uses a descriptor: not at all; a v register; a v register or a FIFO its class allows (R25); the m register
of VCMP; the index register of VLDX and VSTX. -/
inductive Use where
  | none | reg | regFifo | mreg | index
  deriving DecidableEq, Repr

/-- How a word uses X (R220). -/
inductive XUse where
  | none | read | write
  deriving DecidableEq, Repr

/-- A row of the tables of R220 and R238: descriptors, X, the aux bits it may set, its types. -/
structure VForm where
  d : Use
  a : Use
  b : Use
  x : XUse
  aux : Nat
  ty : Nat → Bool

/-- The aux bits that name X. -/
def xBits : Nat := 0x1F

/-- The form of a compute word by op8 (R220). -/
def computeForm (op8 : Nat) : VForm :=
  let ar (t : Nat) : Bool := tFL t || tSF t || tIN t
  let rk (t : Nat) : Bool := tFL t || tIN t || decide (t = 3 ∨ t = 4)
  match op8 with
  | 0x00 | 0x01 | 0x02 | 0x04 | 0x05 => ⟨.regFifo, .regFifo, .regFifo, .none, 0, ar⟩
  | 0x03 | 0x24 => ⟨.regFifo, .regFifo, .regFifo, .read, xBits, ar⟩
  | 0x06 | 0x07 => ⟨.regFifo, .regFifo, .none, .none, 0, ar⟩
  | 0x08 | 0x09 | 0x0A => ⟨.regFifo, .regFifo, .regFifo, .none, 0, tBY⟩
  | 0x0B | 0x1F => ⟨.regFifo, .regFifo, .none, .none, 0, tBY⟩
  | 0x0C | 0x0D | 0x0E => ⟨.regFifo, .regFifo, .regFifo, .none, 0, tIN⟩
  | 0x0F => ⟨.mreg, .regFifo, .regFifo, .none, 0xF, ar⟩
  | 0x10 => ⟨.regFifo, .regFifo, .regFifo, .none, 7, tBY⟩
  | 0x11 => ⟨.regFifo, .regFifo, .none, .none, 0xF, fun _ => true⟩
  | 0x12 | 0x13 | 0x14 | 0x15 | 0x16 | 0x17 => ⟨.regFifo, .regFifo, .none, .none, 0, tFL⟩
  | 0x18 => ⟨.regFifo, .regFifo, .none, .none, 0, fun t => tFL t || tIN t⟩
  | 0x19 => ⟨.reg, .regFifo, .none, .write, xBits, rk⟩
  | 0x1A => ⟨.regFifo, .regFifo, .none, .none, 1, fun t => tFL t || tIN t⟩
  | 0x1B => ⟨.reg, .regFifo, .none, .write, 0xFFF, rk⟩
  | 0x1C => ⟨.regFifo, .regFifo, .reg, .none, 0xFFF, fun t => decide (t = 10)⟩
  | 0x1D | 0x1E => ⟨.reg, .reg, .none, .none, 3, fun t => tBY t && decide (t ≠ 6 ∧ t ≠ 11)⟩
  | 0x20 => ⟨.regFifo, .regFifo, .none, .none, 0, tIN⟩
  | 0x21 => ⟨.regFifo, .regFifo, .none, .none, 0x3FFF, tIN⟩
  | 0x22 => ⟨.regFifo, .regFifo, .regFifo, .none, 0x7F, tIN⟩
  | 0x23 => ⟨.regFifo, .none, .none, .none, 0xFFFFFFFF, tIN⟩
  | 0x25 => ⟨.regFifo, .regFifo, .regFifo, .read, xBits, fun t => [9, 10, 3, 4].contains t⟩
  | _ => ⟨.regFifo, .regFifo, .regFifo, .none, 0, tFL⟩

/-- The aux bits of base, stride and offset (R135). -/
def memAux (stride : Bool) : Nat := if stride then 0x3FFFFFFFFF else 0x3FFFFFFC1F

/-- The form of a load or store word by op8 (R238). -/
def memForm (op8 : Nat) : VForm :=
  let ty : Nat → Bool := fun _ => true
  match op8 with
  | 0x40 => ⟨.regFifo, .none, .none, .none, memAux true, ty⟩
  | 0x41 => ⟨.regFifo, .index, .none, .none, memAux true, ty⟩
  | 0x42 | 0x43 => ⟨.regFifo, .none, .none, .none, memAux false, ty⟩
  | 0x80 => ⟨.none, .regFifo, .none, .none, memAux true, ty⟩
  | 0x81 => ⟨.none, .regFifo, .index, .none, memAux true, ty⟩
  | _ => ⟨.none, .regFifo, .none, .none, memAux false, ty⟩

/-- The aux bits of a vector-control word (R246). -/
def controlAux (op8 : Nat) : Nat :=
  match op8 with
  | 0xC0 => 0x1FFF | 0xC1 => 7 | 0xC4 => 0xFF | 0xC5 => 0xFFFF | 0xC6 => 0x7FFF | _ => 0

/-- The form of a word. -/
def formOf (op8 : Nat) : VForm :=
  if op8 < 0x40 then computeForm op8
  else if op8 < 0xC0 then memForm op8
  else ⟨.none, .none, .none, .none, controlAux op8, fun t => decide (t = 0)⟩

/-- The op8 and fields of an entry's word. -/
def wordOf (i : Instr) : Nat × VWord :=
  match vectorParts i with
  | some (op, w) => (op.toNat, w)
  | none => (0xC7, ⟨0, ⟨0, 0, false, 0⟩, ⟨0, 0, false, 0⟩, ⟨0, 0, false, 0⟩, false, false, 0, 0⟩)

/-- A number of bits of aux, counted from its bit 0 (word bit 58). -/
def auxBits (w : VWord) (lo n : Nat) : Nat := w.aux.toNat / 2 ^ lo % 2 ^ n

/-- The register X (R220). -/
def xReg (w : VWord) : Nat := auxBits w 0 5

/-- The step that a step code stands for; 4 is broadcast (R215). -/
def stepOf (d : Desc) : Nat :=
  match d.step.toNat with
  | 0 => 1 | 1 => 2 | 2 => 4 | 3 => 8 | _ => 0

/-- A word's number of registers in a group or table (R236, R237). -/
def groupSize (op8 : Nat) (w : VWord) : Nat :=
  if op8 = 0x1C then auxBits w 0 3 + 1 else if op8 = 0x1D ∨ op8 = 0x1E then auxBits w 0 2 + 2 else 1

/-! ### Registers named -/

/-- The v, m and a registers that a word reads and writes, for R23: v at 0, m at 32, a at 40. -/
structure RegUse where
  reads  : List Nat
  writes : List Nat
  deriving DecidableEq, Repr

/-- The registers of a descriptor. -/
def descRegs (u : Use) (d : Desc) (n : Nat) : List Nat :=
  match u with
  | .none => []
  | .mreg => [32 + d.index.toNat]
  | _ => if d.kind then [] else (List.range n).map (d.index.toNat + ·)

/-- What a vector word reads and writes (R23, R216). -/
def vectorUse (op8 : Nat) (w : VWord) : RegUse :=
  if op8 = 0xC1 then ⟨[32 + auxBits w 0 3], []⟩
  else
    let f := formOf op8
    let n := groupSize op8 w
    let zip := decide (op8 = 0x1D ∨ op8 = 0x1E)
    { reads := descRegs f.a w.a (if zip then n else 1) ++ descRegs f.b w.b n ++
        (if f.x = .read then [xReg w] else []) ++ (if op8 = 0x10 then [32 + auxBits w 0 3] else []),
      writes := descRegs f.d w.d (if zip then n else 1) ++ (if f.x = .write then [xReg w] else []) }

/-- The g registers that a word names: base and stride of loads and stores, the seed register of VMODE, the core register
of VSIGNAL (R22). -/
def namedRegs (op8 : Nat) (w : VWord) : List Reg :=
  let r (lo : Nat) : Reg := BitVec.ofNat 5 (auxBits w lo 5)
  if op8 = 0xC5 ∧ auxBits w 3 1 = 1 then [r 11]
  else if op8 = 0xC6 ∧ auxBits w 14 1 = 1 then [r 9]
  else if 0x40 ≤ op8 ∧ op8 < 0xC0 then [r 0, r 5]
  else []

/-! ### The checks of VRUN -/

/-- A kind-0 operand's rows lie in the register (R215). -/
def rowsFit (sh : Shape) (d : Desc) : Bool :=
  decide (d.step.toNat = 4) || decide (d.step.toNat < 4 ∧ d.offset.toNat + (sh.rows - 1) * stepOf d ≤ 31)

/-- A descriptor that names nothing. -/
def zeroDesc (d : Desc) : Bool := decide (d = ⟨0, 0, false, 0⟩)

/-- A descriptor as its use allows; `fifo` tells which FIFO indices it may name (R25, R215). The rows of an index register
are bounded as those of every other operand (R239; log entry 31). -/
def descOk (sh : Shape) (u : Use) (dest : Bool) (fifo : Nat → Bool) (d : Desc) : Bool :=
  match u with
  | .none => zeroDesc d
  | .mreg => decide (d.index.toNat < 8) && !d.kind && decide (d.offset = 0) && decide (d.step = 0)
  | .index => !d.kind && decide (d.step = 0) && rowsFit sh d
  | .reg => !d.kind && rowsFit sh d && !(dest && decide (d.step.toNat = 4))
  | .regFifo =>
    if d.kind then fifo d.index.toNat && decide (d.offset = 0) && decide (d.step = 0)
    else rowsFit sh d && !(dest && decide (d.step.toNat = 4))

/-- Whether the size of a type fits the shape (R214). -/
def sizeFits (sh : Shape) (t : Nat) : Bool :=
  decide (sh.cols * halfBytes t ≤ 128) && !(decide (halfBytes t = 1) && decide (sh.cols % 2 = 1))

/-- The conditions that single compute words add (R224, R228, R230, R231, R234 to R237). -/
def computeExtra (op8 : Nat) (w : VWord) (sh : Shape) : Bool :=
  let t := w.type.toNat
  match op8 with
  | 0x0F => let c := auxBits w 0 4
            decide (c < 8) && (decide (c ≠ 6) || decide (t ≤ 6)) && (decide (c ≠ 7) || tIN t)
  | 0x11 => sizeFits sh (auxBits w 0 4)
  | 0x19 => decide (w.d.index.toNat ≠ xReg w)
  | 0x1B => decide (1 ≤ auxBits w 5 7 ∧ auxBits w 5 7 ≤ 64 ∧ auxBits w 5 7 ≤ sh.cols ∧ w.d.index.toNat ≠ xReg w)
  | 0x1C => decide (w.b.index.toNat + groupSize op8 w ≤ 32)
  | 0x1D | 0x1E => decide (auxBits w 0 2 ≠ 3 ∧ w.d.index.toNat + groupSize op8 w ≤ 32 ∧
      w.a.index.toNat + groupSize op8 w ≤ 32)
  | 0x21 => decide (1 ≤ auxBits w 6 7 ∧ auxBits w 0 6 + auxBits w 6 7 ≤ widthOf t)
  | 0x22 => decide (auxBits w 0 6 < widthOf t)
  | 0x25 => decide (sh.cols % 4 = 0)
  | _ => true

/-- The conditions that single vector-control words add (R246, R247, R250, R251). -/
def controlExtra (op8 : Nat) (w : VWord) : Bool :=
  match op8 with
  | 0xC0 => decide (1 ≤ auxBits w 5 8 ∧ auxBits w 5 8 ≤ 128)
  | 0xC4 => decide (auxBits w 0 8 ≠ 0)
  | 0xC5 =>
    let sel (i : Nat) : Bool := decide (auxBits w i 1 = 1)
    decide (auxBits w 0 4 ≠ 0) && decide (auxBits w 4 3 < 6) && (sel 0 || decide (auxBits w 4 3 = 0)) &&
      (sel 1 || decide (auxBits w 7 2 = 0)) && (sel 2 || decide (auxBits w 9 2 = 0)) &&
      (sel 3 || decide (auxBits w 11 5 = 0))
  | 0xC6 => decide (auxBits w 6 3 ≠ 0) && (decide (auxBits w 14 1 = 1) || decide (auxBits w 9 5 = 0))
  | _ => true

/-- The FIFOs that a descriptor of a class may name: a load's D an lf whose declared producer is LOADER, a compute word's
sources an lf and its D an sf, a store's source an sf (R25). One that the header declares unused is named beyond the
declaration (R49, R317; log entry 30). -/
def fifoFor (d : Decl) (op8 : Nat) (dest : Bool) (i : Nat) : Bool :=
  let producer := d.fifo.toList.getD i 0
  if op8 < 0x40 then (if dest then decide (i = 4 ∨ i = 5) else decide (i < 4)) && decide (producer ≠ 0)
  else if op8 < 0x80 then dest && decide (i < 4) && decide (producer = 1)
  else decide (i = 4 ∨ i = 5) && decide (producer ≠ 0)

/-- The types that a word names are offered by the accepted features (R417 bit 6). -/
def taperOk (s : State) (op8 : Nat) (w : VWord) : Bool :=
  let tap (t : Nat) : Bool := decide (t = 7 ∨ t = 8)
  s.feature 6 || !(tap w.type.toNat || (decide (op8 = 0x11) && tap (auxBits w 0 4)))

/-- The common fields (R218): [13:12], sat and pm. -/
def commonOk (op8 : Nat) (w : VWord) : Bool :=
  let t := w.type.toNat
  let float := decide (op8 < 0x40) && (decide (op8 = 0x11) || isFloat t)
  (decide (w.rnd = 0) || float) && (!w.sat || (decide (op8 < 0x40) && !isFloat t)) &&
    (!w.pm || decide (op8 < 0xC0 ∧ op8 ≠ 0x43))

/-- A vector word is legal at a shape (R137). -/
def vectorLegal (s : State) (op8 : Nat) (w : VWord) (sh : Shape) : Bool :=
  let f := formOf op8
  let d := s.core.decl
  f.ty w.type.toNat && decide (w.aux.toNat &&& f.aux = w.aux.toNat) && commonOk op8 w && taperOk s op8 w &&
    descOk sh f.d true (fifoFor d op8 true) w.d && descOk sh f.a false (fifoFor d op8 false) w.a &&
    descOk sh f.b false (fifoFor d op8 false) w.b && (decide (0xC0 ≤ op8) || sizeFits sh w.type.toNat) &&
    (if op8 < 0x40 then computeExtra op8 w sh else controlExtra op8 w)

/-- The shape after a word (R213, R247). -/
def shapeAfter (op8 : Nat) (w : VWord) (sh : Shape) : Shape :=
  if op8 = 0xC0 then ⟨auxBits w 0 5 + 1, auxBits w 5 8⟩ else sh

/-- The checks of R49 and R94 on the registers a word names, and of R49 on VSIGNAL's barrier; `i` is TRAPADDR (R169). -/
def checkNamed (s : State) (i : Nat) (rs : List Reg) : R Unit := do
  need (s.core.rg.sup || rs.all (regDeclared s.core.decl)) cIllegalReg (BitVec.ofNat 64 i)
  need (rs.all fun r => !(s.g r).bad) cPoison (BitVec.ofNat 64 i)

/-- Word i of vector-word memory, decoded and checked (R137, R169): the word and the shape after it. -/
def checkVector (s : State) (i : Nat) (sh : Shape) : R Shape := do
  let at_ := BitVec.ofNat 64 i
  match decodeVector (kget 0 s.core.vmem i) with
  | .error _ => raise cIllegalInstr at_
  | .ok word => do
    let (op8, w) := wordOf word
    need (vectorLegal s op8 w sh) cIllegalInstr at_
    checkNamed s i (namedRegs op8 w)
    need (decide (op8 ≠ 0xC6) || decide (auxBits w 0 6 < s.core.decl.barriers)) cBarrierBounds at_
    .ok (shapeAfter op8 w sh)

end Sys2Proof.Machine
end

