-- ==== Sys2Proof/Machine/Queue.lean ====
section
/-!
DEFINITION. The queues of a core: which entry may begin (R21 to R29), its operands (R215, R216), what it writes (R30), and how
it ends or faults (R219).
-/
namespace Sys2Proof.Machine

/-! ### The queues -/

/-- A vector queue. -/
def Engines.queue (e : Engines) (q : VQ) : VQueue :=
  match q with
  | .vlq => e.vlq
  | .vaq => e.vaq
  | .vsq => e.vsq

/-- Replace a vector queue. -/
def Engines.setQueue (e : Engines) (q : VQ) (x : VQueue) : Engines :=
  match q with
  | .vlq => { e with vlq := x }
  | .vaq => { e with vaq := x }
  | .vsq => { e with vsq := x }

/-- The three vector queues. -/
def allQueues : List VQ := [.vlq, .vaq, .vsq]

/-- Update the focused vector queue of the current core. -/
def State.updQueue (s : State) (f : VQueue → VQueue) : State :=
  s.updEng fun e => e.setQueue s.focus.vq (f (e.queue s.focus.vq))

/-- The focused vector queue of the current core. -/
def State.queue (s : State) : VQueue := s.core.eng.queue s.focus.vq

/-- The registers that a matrix word reads and writes (R23). -/
def matrixUse (i : Instr) : RegUse :=
  let a (w : MWord) : List Nat := [40 + w.acc.toNat]
  match i with
  | .mma w => ⟨a w, a w⟩
  | .mzero w => ⟨[], a w⟩
  | .mlda w => ⟨[], a w⟩
  | .msta w => ⟨a w, []⟩
  | .madda w => ⟨a w, a w⟩
  | .mbias w => ⟨a w, a w⟩
  | .mxfr w => ⟨a w, if w.aaddr.getLsbD 5 then [] else [(w.aaddr.extractLsb' 0 5).toNat]⟩
  | _ => ⟨[], []⟩

/-- The registers of a vector queue's entry; only VAQ's copy of a mask word reads its register (R29). -/
def entryUse (q : VQ) (e : VEntry) : RegUse :=
  let (op8, w) := wordOf e.word
  if 0xC0 ≤ op8 ∧ q ≠ .vaq then ⟨[], []⟩ else vectorUse op8 w

/-- What the entries pushed before a push sequence number use. -/
def earlierUses (k : Core) (psn : Nat) : List RegUse :=
  (allQueues.map fun q => ((k.eng.queue q).entries.filter fun e => decide (e.cap.psn < psn)).map (entryUse q)).flatten ++
    (k.eng.mxq.filter fun e => decide (e.cap.psn < psn)).map fun e => matrixUse e.word

/-- A later word must wait for an earlier one (R23): read after write, write after read, write after write. -/
def conflicts (early late : RegUse) : Bool :=
  (late.reads.any early.writes.contains) ||
    late.writes.any fun r => early.reads.contains r || early.writes.contains r

/-- No earlier entry stands against a word (R23). -/
def hazardFree (k : Core) (psn : Nat) (u : RegUse) : Bool := (earlierUses k psn).all fun e => !conflicts e u

/-- Slip (R24): each other queue has finished its entries with an index of n − S or less. -/
def slipOk (k : Core) (q : VQ) (e : VEntry) : Bool :=
  allQueues.all fun q' => decide (q' = q) ||
    match (k.eng.queue q').entries with
    | [] => true
    | f :: _ => decide (e.voi < f.voi + k.decl.slip)

/-- An entry is skipped (R31). -/
def skipped (q : VQueue) (e : VEntry) : Bool :=
  match q.skipTo with
  | some n => decide (e.voi ≤ n)
  | none => false

/-- The top mask of a queue (R28). -/
def topMask (q : VQueue) : BitVec 4096 := q.masks.headD (BitVec.allOnes 4096)

/-! ### FIFOs (R26) -/

/-- A FIFO's entries, oldest first. -/
def fifoGet (e : Engines) (i : Nat) : List FifoEntry := e.fifos.toList.getD i []

/-- Replace a FIFO's entries. -/
def fifoSet (i : Nat) (l : List FifoEntry) (e : Engines) : Engines :=
  if h : i < 6 then { e with fifos := e.fifos.set i l h } else e

/-- Push an entry; a full FIFO waits. -/
def fifoPush (i : Nat) (x : FifoEntry) (e : Engines) : R Engines :=
  if 4 ≤ (fifoGet e i).length then wait else .ok (fifoSet i (fifoGet e i ++ [x]) e)

/-- Pop the oldest entry, whose element size and R must agree (R216); an empty FIFO waits. -/
def fifoPop (i half rows idx : Nat) (e : Engines) : R (Engines × FifoEntry) :=
  match fifoGet e i with
  | [] => wait
  | x :: rest => do
    need (decide (x.half = half ∧ x.rows.length = rows)) cIllegalInstr (BitVec.ofNat 64 idx)
    .ok (fifoSet i rest e, x)

/-! ### Rows and elements -/

/-- A row of a v register. -/
def vRow (e : Engines) (r row : Nat) : Row := kget ⟨0, false⟩ e.v (32 * (r % 32) + row % 32)

/-- Replace a row of a v register. -/
def setVRow (r row : Nat) (x : Row) (e : Engines) : Engines :=
  { e with v := kset ⟨0, false⟩ e.v (32 * (r % 32) + row % 32) x }

/-- The register row of operand row i (R215). -/
def descRow (d : Desc) (i : Nat) : Nat := d.offset.toNat + i * stepOf d

/-- The rows of a register operand. -/
def regRows (e : Engines) (d : Desc) (r rows : Nat) : List Row := (List.range rows).map fun i => vRow e r (descRow d i)

/-- The code of element c of a row, `half` half-bytes wide (R214). -/
def elemAt (half : Nat) (b : BitVec 512) (c : Nat) : Nat := b.toNat / 2 ^ (4 * half * c) % 2 ^ (4 * half)

/-- Whether bit e of a mask is set. -/
def enabled (m : BitVec 4096) (e : Nat) : Bool := m.getLsbD e

/-- A row with the enabled elements of a list written (R216, R30): element c of row i is number `base + c`. -/
def putElems (half base : Nat) (en : BitVec 4096) (vals : List Nat) (old : BitVec 512) : BitVec 512 :=
  ((List.range vals.length).zip vals).foldl (fun b cv =>
    if enabled en (base + cv.1) then
      let sh := 4 * half * cv.1
      (b &&& ~~~(BitVec.ofNat 512 ((2 ^ (4 * half) - 1) * 2 ^ sh))) ||| BitVec.ofNat 512 (cv.2 % 2 ^ (4 * half) * 2 ^ sh)
    else b) old

/-- Whether a row of elements has an enabled one. -/
def anyEnabled (base n : Nat) (en : BitVec 4096) : Bool := (List.range n).any fun c => enabled en (base + c)

/-- Whether every element of a row is enabled. -/
def allEnabled (base n : Nat) (en : BitVec 4096) : Bool := (List.range n).all fun c => enabled en (base + c)

/-- A block of results: one list of element codes with its poison for each operand row. -/
abbrev Block := List (List Nat × Bool)

/-- Write a block into a register's rows. A written row takes the poison of its sources; a clean write keeps the old poison
unless it writes all 64 bytes (R93). -/
def putBlock (half cols : Nat) (en : BitVec 4096) (b : Block) (r : Nat) (rowOf : Nat → Nat) (e : Engines) : Engines :=
  ((List.range b.length).zip b).foldl (fun e ir =>
    let base := ir.1 * cols
    if anyEnabled base cols en then
      let old := vRow e r (rowOf ir.1)
      let whole := decide (cols * half = 128) && allEnabled base cols en
      setVRow r (rowOf ir.1) ⟨putElems half base en ir.2.1 old.bits, ir.2.2 || (old.bad && !whole)⟩ e
    else e) e

/-- A block as a FIFO entry: bytes beyond the elements written are 0 (R216, R30). -/
def fifoBlock (half cols : Nat) (en : BitVec 4096) (b : Block) (tag : IterTag) : FifoEntry :=
  { rows := ((List.range b.length).zip b).map fun ir => ⟨putElems half (ir.1 * cols) en ir.2.1 0, ir.2.2⟩,
    en := en &&& BitVec.ofNat 4096 (2 ^ (b.length * cols) - 1), half := half, tag := tag }

/-- The entry that a skipped or wholly masked word pushes (R30). -/
def emptyEntry (half rows : Nat) (tag : IterTag) : FifoEntry := ⟨List.replicate rows ⟨0, false⟩, 0, half, tag⟩

/-- Write a block to D: a register under its descriptor, or a FIFO. -/
def putDest (d : Desc) (half cols : Nat) (en : BitVec 4096) (b : Block) (tag : IterTag) (e : Engines) : R Engines :=
  if d.kind then fifoPush d.index.toNat (fifoBlock half cols en b tag) e
  else .ok (putBlock half cols en b d.index.toNat (descRow d) e)

/-- The rows of a source operand: a FIFO operand is popped. -/
def source (u : Use) (d : Desc) (half rows idx : Nat) (e : Engines) : R (Engines × List Row × BitVec 4096) :=
  match u with
  | .none => .ok (e, [], BitVec.allOnes 4096)
  | _ =>
    if d.kind then do
      let (e, x) ← fifoPop d.index.toNat half rows idx e
      .ok (e, x.rows, x.en)
    else .ok (e, regRows e d d.index.toNat rows, BitVec.allOnes 4096)

/-! ### Running an entry -/

/-- The message of VAQ for a vector-control word (R29). -/
def findMsg (q : VQueue) (voi : Nat) : Option MaskMsg :=
  q.msgs.find? fun m => match m with
    | .top v _ => decide (v = voi)
    | .skip v _ => decide (v = voi)

/-- An entry may begin: its queue is not halted, slip and hazards allow it (R23, R24, R219). -/
def mayBegin (k : Core) (q : VQ) (e : VEntry) : Bool :=
  !(k.eng.queue q).halted && slipOk k q e && hazardFree k e.cap.psn (entryUse q e)

/-- Remove the head entry of the focused queue. -/
def dropHead (s : State) : State := s.updQueue fun q => { q with entries := q.entries.tail }

/-- Halt the focused queue at its head and record the engine fault (R219, R402). -/
def queueFault (t : TrapInfo) (s : State) : State :=
  engineFault s.me (.queue s.focus.vq) t.cause t.addr ((countTrap t s).updQueue fun q => { q with halted := true })

/-- Run a vector word as the head of the focused queue. A queue whose head is another word, or may not begin, waits. An
entry that faults has had no effect (R219). -/
def runEntry (i : Instr) (body : VEntry → State → R State) (s : State) : Host.Outcome State Fault Refusal :=
  match s.queue.entries with
  | [] => settle s
  | e :: _ =>
    if e.word = i ∧ mayBegin s.core s.focus.vq e = true then
      match body e s with
      | .ok s' => settle (dropHead s')
      | .error .stall => settle s
      | .error (.trap t) => settle (queueFault t s)
    else settle s

/-- What a compute word works on: its operands' rows, the enabled elements, and the engines after its pops. -/
structure VIn where
  w   : VWord
  op  : Nat
  cap : Capture
  sh  : Shape
  en  : BitVec 4096
  a   : List Row
  b   : List Row
  x   : List Row
  eng : Engines

/-- What a compute word gives: blocks for D (one for each register of a group) at an element size and number of columns,
an optional block for X with its own enables, an optional m register, and its flags. -/
structure VOut where
  half : Nat
  cols : Nat
  d    : List Block := []
  x    : Option (Nat × Nat × BitVec 4096 × Block) := none
  m    : Option (Nat × BitVec 4096) := none
  inv  : Bool := false
  ovf  : Bool := false

/-- The element size of D (R214, R231). -/
def destHalf (op8 : Nat) (w : VWord) : Nat := if op8 = 0x25 then 8 else halfBytes w.type.toNat

/-- The row of X for operand row i: D's offset and step, or row i when D is a FIFO (R220). -/
def xRow (w : VWord) (i : Nat) : Nat := if w.d.kind then i else descRow w.d i

/-- Write what a compute word gives. -/
def putOut (v : VIn) (o : VOut) : R Engines := do
  let e ← match o.d with
    | [b] => putDest v.w.d o.half o.cols v.en b v.cap.tag v.eng
    | bs => .ok (((List.range bs.length).zip bs).foldl
        (fun e qb => putBlock o.half o.cols v.en qb.2 (v.w.d.index.toNat + qb.1) (descRow v.w.d) e) v.eng)
  let e := match o.x with
    | none => e
    | some (half, cols, en, b) => putBlock half cols en b (xReg v.w) (xRow v.w) e
  match o.m with
  | none => .ok e
  | some (r, bits) => .ok { e with m := vset (BitVec.ofNat 3 r) bits e.m }

/-- A compute word as an entry (R30): FIFO operands are popped, first for A, then for B; a skipped or wholly masked word
pushes an empty entry and writes nothing else. -/
def computeBody (f : VIn → R VOut) (e : VEntry) (s : State) : R State := do
  let (op8, w) := wordOf e.word
  let sh := e.shape
  let q := s.queue
  let form := computeForm op8
  let ha := if op8 = 0x11 then halfBytes (auxBits w 0 4) else halfBytes w.type.toNat
  let (eng, a, _) ← source form.a w.a ha sh.rows e.cap.idx s.core.eng
  let (eng, b, _) ← source form.b w.b (halfBytes w.type.toNat) sh.rows e.cap.idx eng
  if skipped q e || (w.pm && decide (topMask q = 0)) then
    if w.d.kind ∧ form.d = .regFifo then do
      let eng ← fifoPush w.d.index.toNat (emptyEntry (destHalf op8 w) sh.rows e.cap.tag) eng
      .ok (s.updEng fun _ => eng)
    else .ok (s.updEng fun _ => eng)
  else do
    let en := if w.pm then topMask q else BitVec.allOnes 4096
    let x := if form.x = .read then (List.range sh.rows).map fun i => vRow eng (xReg w) (xRow w i) else []
    let v : VIn := ⟨w, op8, e.cap, sh, en, a, b, x, eng⟩
    let o ← f v
    let eng ← putOut v o
    .ok (orFlags s.me o.inv o.ovf (s.updEng fun _ => eng))

end Sys2Proof.Machine
end

