-- ==== Sys2Proof/Machine/Vector.lean ====
section
/-!
DEFINITION. The compute words (R220 to R237): what each element or row becomes, and one step for each word.
-/
namespace Sys2Proof.Machine

/-! ### Shared computations -/

/-- The type of a word. -/
def VIn.t (v : VIn) : Nat := v.w.type.toNat

/-- The rounding that [13:12] selects (R121): SR and RNA act as RNE. -/
def selRnd (w : VWord) (mode : BitVec 7) : Rnd :=
  match w.rnd.toNat with
  | 1 => .rne
  | 2 => .rtz
  | 3 => .rdn
  | _ => match modeRnd mode with
    | 1 => .rtz
    | 2 => .rup
    | 3 => .rdn
    | _ => .rne

/-- The rounding of a word. -/
def VIn.rnd (v : VIn) : Rnd := selRnd v.w v.cap.mode

/-- The word rounds down. -/
def VIn.down (v : VIn) : Bool := decide (v.rnd = .rdn)

/-- Set INV beside a result. -/
def Conv.orInv (c : Conv) (inv : Bool) : Conv :=
  match c with
  | .ok k i o => .ok k (i || inv) o
  | .trap => .trap

/-- A result without flags. -/
def plainCode (c : Nat) : Conv := .ok c false false

/-- Bits [7:6] of a 6-bit element are written 0 (R106). -/
def keepWidth (t c : Nat) : Nat := if t = 5 ∨ t = 8 then c % 64 else c % 2 ^ widthOf t

/-- An exact value in the word's float type (R121): IEEE rounding for FL, R115 under OVP for SF. -/
def VIn.out (v : VIn) (x : FVal) (inv : Bool) : Conv :=
  let m := v.cap.mode
  (if v.t ≤ 2 then roundIeee v.t x false v.rnd (modeFtz m)
   else convertFloat 16 x false v.t v.rnd (modeOvp m) (modeFtz m) (modeTiny0 m)).orInv inv

/-- An element's value as arithmetic takes it: FL subnormals are flushed under FTZ (R118, R221). -/
def VIn.val (v : VIn) (c : Nat) : FVal := flushIn v.t c (modeFtz v.cap.mode)

/-- An element's code as comparisons, minima and maxima take it: FL subnormals are zeros of their sign under FTZ, since R118 exempts
none of these words. -/
def VIn.code (v : VIn) (c : Nat) : Nat :=
  let sb := (fmtOf v.t).signBit
  if isFloat v.t && (v.val c).isZero then c / sb % 2 * sb else c

/-- An integer result: modulo 2^w, or clamped with sat (R122). -/
def VIn.int (v : VIn) (x : Int) : Conv := narrow v.t x v.w.sat

/-- The rows of the operands at operand row i. -/
def rowAt (rs : List Row) (i : Nat) : Row := rs.getD i ⟨0, false⟩

/-- One cell of a result: code, INV, OVF; CONVERT_TRAP names the element (R115, R400). -/
def cellOf (en : BitVec 4096) (e : Nat) (f : Unit → Conv) : R (Nat × Bool × Bool) :=
  if enabled en e then
    match f () with
    | .ok c i o => .ok (c, i, o)
    | .trap => raise cConvertTrap (BitVec.ofNat 64 e)
  else .ok (0, false, false)

/-- A block from a function of row, column and element number, with `bad` the poison of a row. -/
def gridOf (rows cols : Nat) (en : BitVec 4096) (f : Nat → Nat → Nat → Conv) (bad : Nat → Bool) :
    R (Block × Bool × Bool) := do
  let g ← (List.range rows).mapM fun i => (List.range cols).mapM fun c => cellOf en (i * cols + c) fun _ => f i c (i * cols + c)
  .ok (((List.range rows).zip g).map fun ir => (ir.2.map (·.1), bad ir.1),
       g.any fun r => r.any fun x => x.2.1, g.any fun r => r.any fun x => x.2.2)

/-- The poison of operand row i: that of every source row it draws on (R219). -/
def VIn.badRow (v : VIn) (i : Nat) : Bool := (rowAt v.a i).bad || (rowAt v.b i).bad || (rowAt v.x i).bad

/-- An element-wise word: `f` takes the element number and the codes of a, b and x. -/
def elementwise (v : VIn) (ha : Nat) (f : Nat → Nat → Nat → Nat → Conv) : R VOut := do
  let h := halfBytes v.t
  let (b, i, o) ← gridOf v.sh.rows v.sh.cols v.en (fun i c e =>
    f e (elemAt ha (rowAt v.a i).bits c) (elemAt h (rowAt v.b i).bits c) (elemAt h (rowAt v.x i).bits c)) v.badRow
  .ok { half := h, cols := v.sh.cols, d := [b], inv := i, ovf := o }

/-- An element-wise word whose source has the word's type. -/
def each (v : VIn) (f : Nat → Nat → Nat → Nat → Conv) : R VOut := elementwise v (halfBytes v.t) f

/-- A signalling NaN among codes sets INV (R114, R221). -/
def snans (t : Nat) (cs : List Nat) : Bool := cs.any (isSNaN t)

/-! ### Arithmetic (R221) -/

/-- VADD, VSUB, VMUL on two elements. -/
def arith2 (op : Nat) (v : VIn) (_ a b _ : Nat) : Conv :=
  if isFloat v.t then
    let x := v.val a
    let y := v.val b
    let (r, bad) := match op with
      | 0 => fadd x y v.down
      | 1 => fadd x y.negate v.down
      | _ => fmul x y
    v.out r (bad || snans v.t [a, b])
  else
    let x := intOf v.t a
    let y := intOf v.t b
    v.int (match op with
      | 0 => x + y
      | 1 => x - y
      | _ => x * y)

/-- VMAD: a × b + x, rounded once. -/
def arith3 (v : VIn) (_ a b x : Nat) : Conv :=
  if isFloat v.t then
    let (p, i) := fmul (v.val a) (v.val b)
    let (r, j) := fadd p (v.val x) v.down
    v.out r (i || j || snans v.t [a, b, x])
  else v.int (intOf v.t a * intOf v.t b + intOf v.t x)

/-- VABS and VNEG: only the sign bit of a number changes (R221). -/
def absNeg (neg : Bool) (v : VIn) (_ a _ _ : Nat) : Conv :=
  if isFloat v.t then
    if (decodeNum v.t a).isNan then v.out .nan (isSNaN v.t a)
    else
      let sb := (fmtOf v.t).signBit
      let m := a % sb
      plainCode (if neg ∧ a % (2 * sb) < sb then m + sb else m)
  else if isSigned v.t then v.int (if neg then -intOf v.t a else (intOf v.t a).natAbs)
  else v.int (if neg then -(a : Int) else a)

/-- a < b with −0 below +0 (R222). -/
def fltTotal (a b : FVal) : Bool := fltVal a b || (a.isZero && b.isZero && a.neg && !b.neg)

/-- One of two codes, exactly: the lesser or the greater (R222). -/
def pick2 (mx : Bool) (t a b : Nat) : Nat :=
  let x := decodeNum t a
  let y := decodeNum t b
  if mx then (if fltTotal x y then b else a) else if fltTotal y x then b else a

/-- VMIN and VMAX. -/
def minMax (mx : Bool) (v : VIn) (_ a b _ : Nat) : Conv :=
  if (decodeNum v.t a).isNan || (decodeNum v.t b).isNan then v.out .nan (snans v.t [a, b])
  else plainCode (keepWidth v.t (pick2 mx v.t (v.code a) (v.code b)))

/-- VCLAMP: min(max(a, b), x). -/
def clamp (v : VIn) (_ a b x : Nat) : Conv :=
  if [a, b, x].any fun c => (decodeNum v.t c).isNan then v.out .nan (snans v.t [a, b, x])
  else plainCode (keepWidth v.t (pick2 false v.t (pick2 true v.t (v.code a) (v.code b)) (v.code x)))

/-- VADD. -/
def execVadd (w : VWord) (s : State) : Host.Outcome State Fault Refusal :=
  runEntry (.vadd w) (computeBody fun v => each v (arith2 0 v)) s

/-- VSUB. -/
def execVsub (w : VWord) (s : State) : Host.Outcome State Fault Refusal :=
  runEntry (.vsub w) (computeBody fun v => each v (arith2 1 v)) s

/-- VMUL. -/
def execVmul (w : VWord) (s : State) : Host.Outcome State Fault Refusal :=
  runEntry (.vmul w) (computeBody fun v => each v (arith2 2 v)) s

/-- VMAD. -/
def execVmad (w : VWord) (s : State) : Host.Outcome State Fault Refusal :=
  runEntry (.vmad w) (computeBody fun v => each v (arith3 v)) s

/-- VMIN. -/
def execVmin (w : VWord) (s : State) : Host.Outcome State Fault Refusal :=
  runEntry (.vmin w) (computeBody fun v => each v (minMax false v)) s

/-- VMAX. -/
def execVmax (w : VWord) (s : State) : Host.Outcome State Fault Refusal :=
  runEntry (.vmax w) (computeBody fun v => each v (minMax true v)) s

/-- VABS. -/
def execVabs (w : VWord) (s : State) : Host.Outcome State Fault Refusal :=
  runEntry (.vabs w) (computeBody fun v => each v (absNeg false v)) s

/-- VNEG. -/
def execVneg (w : VWord) (s : State) : Host.Outcome State Fault Refusal :=
  runEntry (.vneg w) (computeBody fun v => each v (absNeg true v)) s

/-- VCLAMP. -/
def execVclamp (w : VWord) (s : State) : Host.Outcome State Fault Refusal :=
  runEntry (.vclamp w) (computeBody fun v => each v (clamp v)) s

/-! ### Bitwise words, shifts and fields (R226 to R229) -/

/-- VAND, VOR, VXOR. -/
def bitwise (op : Nat) (v : VIn) (_ a b _ : Nat) : Conv :=
  plainCode (keepWidth v.t (match op with
    | 0 => a &&& b
    | 1 => a ||| b
    | _ => a ^^^ b))

/-- VAND. -/
def execVand (w : VWord) (s : State) : Host.Outcome State Fault Refusal :=
  runEntry (.vand w) (computeBody fun v => each v (bitwise 0 v)) s

/-- VOR. -/
def execVor (w : VWord) (s : State) : Host.Outcome State Fault Refusal :=
  runEntry (.vor w) (computeBody fun v => each v (bitwise 1 v)) s

/-- VXOR. -/
def execVxor (w : VWord) (s : State) : Host.Outcome State Fault Refusal :=
  runEntry (.vxor w) (computeBody fun v => each v (bitwise 2 v)) s

/-- VNOT. -/
def execVnot (w : VWord) (s : State) : Host.Outcome State Fault Refusal :=
  runEntry (.vnot w) (computeBody fun v => each v fun _ a _ _ =>
    plainCode (keepWidth v.t (2 ^ widthOf v.t - 1 - a))) s

/-- VMOV. -/
def execVmov (w : VWord) (s : State) : Host.Outcome State Fault Refusal :=
  runEntry (.vmov w) (computeBody fun v => each v fun _ a _ _ => plainCode (keepWidth v.t a)) s

/-- VSEL: the m register is read when the word begins (R225); a signalling NaN in either operand sets INV (R114). -/
def execVsel (w : VWord) (s : State) : Host.Outcome State Fault Refusal :=
  runEntry (.vsel w) (computeBody fun v => each v fun e a b _ =>
    let m := vget (BitVec.ofNat 3 (auxBits v.w 0 3)) v.eng.m
    (plainCode (keepWidth v.t (if enabled m e then a else b))).orInv (snans v.t [a, b])) s

/-- VSHL (R227). -/
def shiftLeft (v : VIn) (_ a u _ : Nat) : Conv :=
  let w := widthOf v.t
  v.int (intOf v.t a * (2 ^ min u w : Nat))

/-- VSHR (R227). -/
def shiftRight (v : VIn) (_ a u _ : Nat) : Conv := plainCode (if u < widthOf v.t then a / 2 ^ u else 0)

/-- VSAR (R227). -/
def shiftArith (v : VIn) (_ a u _ : Nat) : Conv :=
  let w := widthOf v.t
  if isSigned v.t then plainCode (intCode v.t (intOf v.t a / (2 ^ min u w : Nat)))
  else plainCode (if u < w then a / 2 ^ u else 0)

/-- VSHL. -/
def execVshl (w : VWord) (s : State) : Host.Outcome State Fault Refusal :=
  runEntry (.vshl w) (computeBody fun v => each v (shiftLeft v)) s

/-- VSHR. -/
def execVshr (w : VWord) (s : State) : Host.Outcome State Fault Refusal :=
  runEntry (.vshr w) (computeBody fun v => each v (shiftRight v)) s

/-- VSAR. -/
def execVsar (w : VWord) (s : State) : Host.Outcome State Fault Refusal :=
  runEntry (.vsar w) (computeBody fun v => each v (shiftArith v)) s

/-- The one bits of a number below 2^n. -/
def onesOf (n x : Nat) : Nat := (List.range n).foldl (fun k i => if x.testBit i then k + 1 else k) 0

/-- VPOPC (R227). -/
def execVpopc (w : VWord) (s : State) : Host.Outcome State Fault Refusal :=
  runEntry (.vpopc w) (computeBody fun v => each v fun _ a _ _ => plainCode (onesOf (widthOf v.t) a)) s

/-- VBFX (R228): bits [P + W − 1 : P], sign-extended when SX is 1 and W is below the width. -/
def fieldOf (v : VIn) (_ a _ _ : Nat) : Conv :=
  let p := auxBits v.w 0 6
  let n := auxBits v.w 6 7
  let w := widthOf v.t
  let f := a / 2 ^ p % 2 ^ n
  plainCode (if auxBits v.w 13 1 = 1 ∧ n < w ∧ 2 ^ (n - 1) ≤ f then f + 2 ^ w - 2 ^ n else f)

/-- VBFX. -/
def execVbfx (w : VWord) (s : State) : Host.Outcome State Fault Refusal :=
  runEntry (.vbfx w) (computeBody fun v => each v (fieldOf v)) s

/-- VFSH (R228). -/
def funnel (v : VIn) (_ a b _ : Nat) : Conv :=
  let w := widthOf v.t
  let n := auxBits v.w 0 6
  plainCode (if auxBits v.w 6 1 = 0 then (b * 2 ^ w + a) / 2 ^ n % 2 ^ w else (a * 2 ^ w + b) * 2 ^ n / 2 ^ w % 2 ^ w)

/-- VFSH. -/
def execVfsh (w : VWord) (s : State) : Host.Outcome State Fault Refusal :=
  runEntry (.vfsh w) (computeBody fun v => each v (funnel v)) s

/-- VIOTA (R229): start + e. -/
def execViota (w : VWord) (s : State) : Host.Outcome State Fault Refusal :=
  runEntry (.viota w) (computeBody fun v => each v fun e _ _ _ =>
    v.int ((v.w.aux.extractLsb' 0 32).toInt + (e : Int))) s

/-! ### Comparison, conversion, special functions (R223, R224, R230) -/

/-- The condition of VCMP and its INV (R224). -/
def vcond (t cond a b : Nat) : Bool × Bool :=
  let x := decodeNum t a
  let y := decodeNum t b
  let nan := x.isNan || y.isNan
  let sn := snans t [a, b]
  match cond with
  | 0 => (feqVal x y, sn)
  | 1 => (!feqVal x y, sn)
  | 2 => (fltVal x y, nan)
  | 3 => (!nan && !fltVal y x, nan)
  | 4 => (fltVal y x, nan)
  | 5 => (!nan && !fltVal x y, nan)
  | 6 => (nan, sn)
  | _ => (decide (a &&& b ≠ 0), false)

/-- VCMP: bits of m[D.index] whose elements are enabled are written. -/
def compareWords (v : VIn) : R VOut :=
  let h := halfBytes v.t
  let r := v.w.d.index.toNat
  let old := vget (BitVec.ofNat 3 r) v.eng.m
  let one (i c : Nat) : Bool × Bool :=
    let take (r : Row) : Nat := keepWidth v.t (elemAt h r.bits c)
    vcond v.t (auxBits v.w 0 4) (v.code (take (rowAt v.a i))) (v.code (take (rowAt v.b i)))
  let es := (List.range v.sh.rows).flatMap fun i => (List.range v.sh.cols).map fun c => (i * v.sh.cols + c, i, c)
  let live := es.filter fun x => enabled v.en x.1
  let m := live.foldl (fun m x =>
    let bit := BitVec.ofNat 4096 (2 ^ x.1)
    if (one x.2.1 x.2.2).1 then m ||| bit else m &&& ~~~bit) old
  .ok { half := h, cols := v.sh.cols, m := some (r, m), inv := live.any fun x => (one x.2.1 x.2.2).2 }

/-- VCMP. -/
def execVcmp (w : VWord) (s : State) : Host.Outcome State Fault Refusal :=
  runEntry (.vcmp w) (computeBody compareWords) s

/-- VCVT on one element (R230). A signalling NaN of an F32, BF16 or F16 source sets INV, whatever the target (R114: DEDUCED, log
entry 39). -/
def vcvtCell (v : VIn) (e a _ _ : Nat) : Conv :=
  let src := auxBits v.w 0 4
  let m := v.cap.mode
  (convert src a v.t (rndOf (modeRnd m) v.cap.seed v.cap.psn e) v.w.rnd.toNat v.w.sat (modeFtz m) (modeTiny0 m)).orInv
    (isSNaN src a)

/-- VCVT. -/
def execVcvt (w : VWord) (s : State) : Host.Outcome State Fault Refusal :=
  runEntry (.vcvt w) (computeBody fun v => elementwise v (halfBytes (auxBits v.w 0 4)) (vcvtCell v)) s

/-- A special function on one element (R223). -/
def specialCell (fn : Nat) (v : VIn) (_ a _ _ : Nat) : Conv :=
  (specialConv fn v.t (v.val a) v.rnd (modeFtz v.cap.mode) a).orInv (isSNaN v.t a)

/-- VRCP. -/
def execVrcp (w : VWord) (s : State) : Host.Outcome State Fault Refusal :=
  runEntry (.vrcp w) (computeBody fun v => each v (specialCell 0 v)) s

/-- VRSQ. -/
def execVrsq (w : VWord) (s : State) : Host.Outcome State Fault Refusal :=
  runEntry (.vrsq w) (computeBody fun v => each v (specialCell 1 v)) s

/-- VEXP2. -/
def execVexp2 (w : VWord) (s : State) : Host.Outcome State Fault Refusal :=
  runEntry (.vexp2 w) (computeBody fun v => each v (specialCell 2 v)) s

/-- VLOG2. -/
def execVlog2 (w : VWord) (s : State) : Host.Outcome State Fault Refusal :=
  runEntry (.vlog2 w) (computeBody fun v => each v (specialCell 3 v)) s

/-- VTANH. -/
def execVtanh (w : VWord) (s : State) : Host.Outcome State Fault Refusal :=
  runEntry (.vtanh w) (computeBody fun v => each v (specialCell 4 v)) s

/-- VERF. -/
def execVerf (w : VWord) (s : State) : Host.Outcome State Fault Refusal :=
  runEntry (.verf w) (computeBody fun v => each v (specialCell 5 v)) s

/-- An integer within ±1000: a greater shift of a finite value overflows or underflows alike in every FL type. -/
def clampShift (b : Int) : Int := max (-1000) (min 1000 b)

/-- VSCALE on one element (R223): a × 2^b with b signed at the element width. -/
def scaleCell (v : VIn) (_ a b _ : Nat) : Conv :=
  let n := clampShift (intOf (if v.t = 0 then 14 else 12) b)
  let x := match v.val a with
    | .fin s m e => if m = 0 then .fin s m e else .fin s m (e + n)
    | x => x
  v.out x (isSNaN v.t a)

/-- VSCALE. -/
def execVscale (w : VWord) (s : State) : Host.Outcome State Fault Refusal :=
  runEntry (.vscale w) (computeBody fun v => each v (scaleCell v)) s

/-! ### VDOT4 (R231) -/

/-- One 32-bit element of VDOT4 from its four products and x, an F32 input that FTZ flushes (R118, R231). -/
def dot4Cell (v : VIn) (as bs : List Nat) (x : Nat) : Conv :=
  if isFloat v.t then
    let ops := (as ++ bs).map (decodeNum v.t)
    let ps := (as.zip bs).map fun ab => fmul (decodeNum v.t ab.1) (decodeNum v.t ab.2)
    let (s, j) := exactSum (ps.map (·.1)) v.down
    if (ops.any FVal.isNan) || ps.any (·.2) || j then (roundIeee 0 .nan false v.rnd (modeFtz v.cap.mode)).orInv true
    else
      let (r, k) := fadd s (flushIn 0 x (modeFtz v.cap.mode)) v.down
      let inf := match s with
        | .inf _ => !r.isNan
        | _ => false
      match (roundIeee 0 r false v.rnd (modeFtz v.cap.mode)).orInv k with
      | .ok c i o => .ok c i (o || inf)
      | .trap => .trap
  else
    let s := (as.zip bs).foldl (fun (n : Int) ab => n + intOf v.t ab.1 * intOf v.t ab.2) 0
    narrow 14 (s + intOf 14 x) v.w.sat

/-- VDOT4: D and X hold 32-bit elements at shape (R, C/4). -/
def dot4 (v : VIn) : R VOut := do
  let cols := v.sh.cols / 4
  let four (r : Row) (j : Nat) : List Nat := (List.range 4).map fun q => elemAt 2 r.bits (4 * j + q)
  let (b, i, o) ← gridOf v.sh.rows cols v.en
    (fun i j _ => dot4Cell v (four (rowAt v.a i) j) (four (rowAt v.b i) j) (elemAt 8 (rowAt v.x i).bits j)) v.badRow
  .ok { half := 8, cols := cols, d := [b], inv := i, ovf := o }

/-- VDOT4. -/
def execVdot4 (w : VWord) (s : State) : Host.Outcome State Fault Refusal := runEntry (.vdot4 w) (computeBody dot4) s

/-! ### Reductions and ranking (R232 to R235) -/

/-- The enabled elements of row i, with their columns, as FTZ leaves them (R118). -/
def VIn.live (v : VIn) (i : Nat) : List (Nat × Nat) :=
  ((List.range v.sh.cols).filter fun c => enabled v.en (i * v.sh.cols + c)).map fun c =>
    (c, v.code (keepWidth v.t (elemAt (halfBytes v.t) (rowAt v.a i).bits c)))

/-- The sum of elements (R232). -/
def sumOf (v : VIn) (cs : List Nat) : Conv :=
  if isFloat v.t then
    let (r, bad) := exactSum (cs.map v.val) v.down
    v.out r (bad || snans v.t cs)
  else v.int (cs.foldl (fun (n : Int) c => n + intOf v.t c) 0)

/-- The maximum of elements, exactly (R222, R232). -/
def maxOf (v : VIn) (cs : List Nat) : Conv :=
  if cs.any fun c => (decodeNum v.t c).isNan then v.out .nan (snans v.t cs)
  else match cs with
    | [] => plainCode (if isFloat v.t then infCode v.t true else intCode v.t (intMin v.t))
    | c :: rest => plainCode (rest.foldl (fun a b => pick2 true v.t a b) c)

/-- A word that gives every enabled element a function of the row's live elements and its column. -/
def rowWise (v : VIn) (f : List (Nat × Nat) → Nat → Conv) : R VOut := do
  let (b, i, o) ← gridOf v.sh.rows v.sh.cols v.en (fun i c _ => f (v.live i) c) v.badRow
  .ok { half := halfBytes v.t, cols := v.sh.cols, d := [b], inv := i, ovf := o }

/-- VSUMR. -/
def execVsumr (w : VWord) (s : State) : Host.Outcome State Fault Refusal :=
  runEntry (.vsumr w) (computeBody fun v => rowWise v fun l _ => sumOf v (l.map (·.2))) s

/-- VSCAN. -/
def execVscan (w : VWord) (s : State) : Host.Outcome State Fault Refusal :=
  runEntry (.vscan w) (computeBody fun v => rowWise v fun l j =>
    let cs := (l.filter fun x => decide (x.1 ≤ j)).map (·.2)
    if auxBits v.w 0 1 = 0 then sumOf v cs else maxOf v cs) s

/-- x is ranked before y (R233): numbers before NaNs, the larger first, +0 before −0; y stands in a lower column. -/
def outranks (t : Nat) (x y : Nat) : Bool :=
  let a := decodeNum t x
  let b := decodeNum t y
  if a.isNan then false else b.isNan || fltTotal b a

/-- Insert into a ranking behind those of lower column that it does not outrank. -/
def rankIn (t : Nat) (x : Nat × Nat) : List (Nat × Nat) → List (Nat × Nat)
  | [] => [x]
  | y :: ys => if outranks t x.2 y.2 then x :: y :: ys else y :: rankIn t x ys

/-- The enabled elements of a row in rank order (R233). -/
def ranked (t : Nat) (l : List (Nat × Nat)) : List (Nat × Nat) := l.foldl (fun r x => rankIn t x r) []

/-- A ranked value as it is written: the canonical NaN for a NaN. -/
def rankedCode (t c : Nat) : Nat := if (decodeNum t c).isNan then nanCode t else c

/-- A signalling NaN among the live elements of a block. -/
def liveSNaN (v : VIn) : Bool := (List.range v.sh.rows).any fun i => snans v.t ((v.live i).map (·.2))

/-- VMAXR (R234). -/
def maxRow (v : VIn) : R VOut :=
  let first (i : Nat) : Nat × Nat := (ranked v.t (v.live i)).headD (0, 0)
  let cols := v.sh.cols
  let d : Block := (List.range v.sh.rows).map fun i =>
    ((List.range cols).map fun _ => rankedCode v.t (first i).2, (rowAt v.a i).bad)
  let x : Block := (List.range v.sh.rows).map fun i => ([(first i).1], (rowAt v.a i).bad)
  let xen := (List.range v.sh.rows).foldl (fun m i =>
    if enabled v.en (i * cols) then m ||| BitVec.ofNat 4096 (2 ^ i) else m) 0
  .ok { half := halfBytes v.t, cols := cols, d := [d], x := some (2, 1, xen, x), inv := liveSNaN v }

/-- VMAXR. -/
def execVmaxr (w : VWord) (s : State) : Host.Outcome State Fault Refusal := runEntry (.vmaxr w) (computeBody maxRow) s

/-- VTOPK (R235). -/
def topK (v : VIn) : R VOut :=
  let k := auxBits v.w 5 7
  let cols := v.sh.cols
  let r (i : Nat) : List (Nat × Nat) := (ranked v.t (v.live i)).take k
  let d : Block := (List.range v.sh.rows).map fun i =>
    let l := r i
    ((List.range cols).map fun j => (l.map (·.1)).getD j 0xFF, (rowAt v.a i).bad)
  let x : Block := (List.range v.sh.rows).map fun i =>
    let l := r i
    ((List.range cols).map fun j => (l.map fun c => rankedCode v.t c.2).getD j 0, (rowAt v.a i).bad)
  .ok { half := 2, cols := cols, d := [d], x := some (halfBytes v.t, cols, v.en, x), inv := liveSNaN v }

/-- VTOPK. -/
def execVtopk (w : VWord) (s : State) : Host.Outcome State Fault Refusal := runEntry (.vtopk w) (computeBody topK) s

/-! ### Tables and interleaves (R236, R237) -/

/-- VTBL: byte t of the concatenated table rows, or the fill. -/
def tableWords (v : VIn) : R VOut := do
  let n := groupSize 0x1C v.w
  let hi := auxBits v.w 3 1
  let fill := auxBits v.w 4 8
  let tabs (i : Nat) : List Row := (List.range n).map fun q => vRow v.eng (v.w.b.index.toNat + q) (descRow v.w.b i)
  let (b, _, _) ← gridOf v.sh.rows v.sh.cols v.en (fun i c _ =>
    let t := 256 * hi + elemAt 2 (rowAt v.a i).bits c
    plainCode (if t < 64 * n then elemAt 2 (rowAt (tabs i) (t / 64)).bits (t % 64) else fill))
    (fun i => (rowAt v.a i).bad || (tabs i).any (·.bad))
  .ok { half := 2, cols := v.sh.cols, d := [b] }

/-- VTBL. -/
def execVtbl (w : VWord) (s : State) : Host.Outcome State Fault Refusal := runEntry (.vtbl w) (computeBody tableWords) s

/-- VZIP and VUNZIP on groups of n registers; a signalling NaN among the elements moved sets INV (R114, R237). -/
def zipWords (zip : Bool) (v : VIn) : R VOut :=
  let n := groupSize 0x1D v.w
  let h := halfBytes v.t
  let cols := v.sh.cols
  let count := v.sh.rows * cols
  let row (q i : Nat) : Row := vRow v.eng (v.w.a.index.toNat + q) (descRow v.w.a i)
  let elem (q e : Nat) : Nat := keepWidth v.t (elemAt h (row q (e / cols)).bits (e % cols))
  let bad := (List.range n).any fun q => (List.range v.sh.rows).any fun i => (row q i).bad
  let get (p e : Nat) : Nat :=
    if zip then let k := p * count + e
                elem (k % n) (k / n)
    else let k := n * e + p
         elem (k / count) (k % count)
  .ok { half := h, cols := cols, d := (List.range n).map fun p => (List.range v.sh.rows).map fun i =>
          ((List.range cols).map fun c => get p (i * cols + c), bad),
        inv := (List.range count).any fun e => enabled v.en e && snans v.t ((List.range n).map fun p => get p e) }

/-- VZIP. -/
def execVzip (w : VWord) (s : State) : Host.Outcome State Fault Refusal := runEntry (.vzip w) (computeBody (zipWords true)) s

/-- VUNZIP. -/
def execVunzip (w : VWord) (s : State) : Host.Outcome State Fault Refusal :=
  runEntry (.vunzip w) (computeBody (zipWords false)) s

end Sys2Proof.Machine
end

