-- ==== Sys2Proof/Machine/VMemory.lean ====
section
/-!
DEFINITION. Vector loads and stores (R238 to R244), vector-control words (R246 to R252).
-/
namespace Sys2Proof.Machine

/-! ### Addresses (R239) -/

/-- base + sext(off28) of a load or store. -/
def memBase (w : VWord) (cap : Capture) : Word := cap.r1 + sext64 (w.aux.extractLsb' 10 28)

/-- The address of row i, if it has one, and whether its index is poisoned: `ix` is the index row of VLDX and VSTX. -/
def rowAddr (op8 : Nat) (w : VWord) (cap : Capture) (ix : Row) (i : Nat) : Option (Word × Bool) :=
  let b := memBase w cap
  match op8 with
  | 0x40 | 0x80 => some (b + BitVec.ofNat 64 i * cap.r2, false)
  | 0x41 | 0x81 =>
    let x := elemAt 4 ix.bits i
    if x = 0xFFFF then none else some (b + BitVec.ofNat 64 x * cap.r2, ix.bad)
  | _ => some (b, false)

/-- The index row of VLDX and VSTX. -/
def indexRow (e : Engines) (d : Desc) : Row := vRow e d.index.toNat d.offset.toNat

/-- The bytes of a row that an access of element size `half` touches, with the elements they hold: one byte for two 4-bit
elements (R239). -/
def accesses (half cols base : Nat) (en : BitVec 4096) : List (Nat × Nat) :=
  if half = 1 then
    ((List.range (cols / 2)).filter fun c => enabled en (base + 2 * c) || enabled en (base + 2 * c + 1)).map fun c => (c, 1)
  else ((List.range cols).filter fun c => enabled en (base + c)).map fun c => (c * half / 2, half / 2)

/-- The checks of R240 before the location is reached: decoding, then alignment. -/
def checkElem (ea : Word) (n : Nat) : R Unit := do
  let _ ← decodeEA ea
  need (decide (ea.toNat % n = 0)) cAlign ea

/-! ### VLD, VLDX, VLDB (R240, R241) -/

/-- Read the bytes of one row into an image of 64 bytes. -/
def loadRow (half cols base : Nat) (en : BitVec 4096) (addr : Word) (badIx : Bool) (s : State) : R (State × Nat × Bool) :=
  (accesses half cols base en).foldlM (fun acc bn => do
    let (s, v, bad) := acc
    let ea := addr + BitVec.ofNat 64 bn.1
    checkElem ea bn.2
    let (s, bs, q) ← coreRead s.me .engine ea bn.2 s
    need (!badIx) cPoison ea
    .ok (s, v + leVal bs * 2 ^ (8 * bn.1), bad || q)) (s, 0, false)

/-- The element codes of a row image; bits [7:6] of a 6-bit element are not taken (R106). -/
def rowCodes (t cols v : Nat) : List Nat :=
  let half := halfBytes t
  (List.range cols).map fun c => keepWidth t (v / 2 ^ (4 * half * c) % 2 ^ (4 * half))

/-- A load word that runs: every row is read, then D is written. -/
def loadRows (op8 : Nat) (w : VWord) (e : VEntry) (en : BitVec 4096) (s : State) : R State := do
  let half := halfBytes w.type.toNat
  let sh := e.shape
  let ix := indexRow s.core.eng w.a
  let (s, rows) ← (List.range sh.rows).foldlM (fun acc i => do
    let (s, rows) := acc
    match rowAddr op8 w e.cap ix i with
    | none => .ok (s, rows ++ [(rowCodes w.type.toNat sh.cols 0, false)])
    | some (a, q) => do
      let (s, v, bad) ← loadRow half sh.cols (i * sh.cols) en a q s
      .ok (s, rows ++ [(rowCodes w.type.toNat sh.cols v, bad)])) (s, ([] : Block))
  let eng ← putDest w.d half sh.cols en rows e.cap.tag s.core.eng
  .ok (s.updEng fun _ => eng)

/-- A load word as an entry (R30): a skipped or wholly masked one pushes an empty entry to its FIFO. -/
def loadEntry (run : Nat → VWord → VEntry → BitVec 4096 → State → R State) (e : VEntry) (s : State) : R State := do
  let (op8, w) := wordOf e.word
  let q := s.queue
  if skipped q e || (w.pm && decide (topMask q = 0)) then
    if w.d.kind then do
      let eng ← fifoPush w.d.index.toNat (emptyEntry (halfBytes w.type.toNat) e.shape.rows e.cap.tag) s.core.eng
      .ok (s.updEng fun _ => eng)
    else .ok s
  else
    if w.d.kind ∧ 4 ≤ (fifoGet s.core.eng w.d.index.toNat).length then wait
    else run op8 w e (if w.pm then topMask q else BitVec.allOnes 4096) s

/-- VLD. -/
def execVld (w : VWord) (s : State) : Host.Outcome State Fault Refusal := runEntry (.vld w) (loadEntry loadRows) s

/-- VLDX. -/
def execVldx (w : VWord) (s : State) : Host.Outcome State Fault Refusal := runEntry (.vldx w) (loadEntry loadRows) s

/-- VLDB. -/
def execVldb (w : VWord) (s : State) : Host.Outcome State Fault Refusal := runEntry (.vldb w) (loadEntry loadRows) s

/-! ### VLDZ (R242) -/

/-- Spread the packed bytes of a record over the bytes whose mask bit is 1. -/
def unpackBytes (m : Nat) : Nat → List Byte → List Byte
  | 0, _ => []
  | n + 1, bs =>
    if m % 2 = 1 then bs.headD 0 :: unpackBytes (m / 2) n bs.tail else 0 :: unpackBytes (m / 2) n bs

/-- Read one record at an address: the row image, its poison, and the address of the next record. -/
def readRecord (a : Word) (s : State) : R (State × Nat × Bool × Word) := do
  let (s, mb, p) ← coreReadMany s.me .engine a 8 s
  let m := leVal mb
  let n := onesOf 64 m
  let (s, bs, q) ← if n = 0 then .ok (s, [], false) else coreReadMany s.me .engine (a + 8) n s
  .ok (s, leVal (unpackBytes m 64 bs), p || q, a + 8 + BitVec.ofNat 64 n)

/-- A zero-suppressed load. -/
def loadZero (_ : Nat) (w : VWord) (e : VEntry) (en : BitVec 4096) (s : State) : R State := do
  let half := halfBytes w.type.toNat
  let sh := e.shape
  let (s, _, rows) ← (List.range sh.rows).foldlM (fun acc _ => do
    let (s, a, rows) := acc
    let (s, v, bad, a) ← readRecord a s
    .ok (s, a, rows ++ [(rowCodes w.type.toNat sh.cols v, bad)])) (s, memBase w e.cap, ([] : Block))
  let eng ← putDest w.d half sh.cols en rows e.cap.tag s.core.eng
  .ok (s.updEng fun _ => eng)

/-- VLDZ. -/
def execVldz (w : VWord) (s : State) : Host.Outcome State Fault Refusal := runEntry (.vldz w) (loadEntry loadZero) s

/-! ### VST, VSTX, VSTZ (R240 to R242) -/

/-- The bytes of a row that a store carries: a disabled element of an sf entry carries 0 (R239), and bits [7:6] of a 6-bit element
are written 0 (R106). -/
def storeImage (t cols base : Nat) (en : BitVec 4096) (fifo : Bool) (r : Row) : BitVec 512 :=
  let half := halfBytes t
  let img := if fifo then putElems half base en ((List.range cols).map (elemAt half r.bits)) 0 else r.bits
  if t = 5 ∨ t = 8 then img &&& BitVec.ofNat 512 (0x3F * ((2 ^ 512 - 1) / 255)) else img

/-- Join accesses of neighbouring bytes that lie in one 64-byte granule into one write. -/
def joinAccesses (addr : Nat) : List (Nat × Nat) → List (Nat × Nat)
  | [] => []
  | (b, n) :: rest =>
    match joinAccesses addr rest with
    | (b', n') :: more =>
      if b + n = b' ∧ (addr + b) / 64 = (addr + b') / 64 then (b, n + n') :: more else (b, n) :: (b', n') :: more
    | [] => [(b, n)]

/-- Store the enabled elements of one row: each is checked in order, then the bytes are written, a whole granule at once (R93, R240). -/
def storeRow (half cols base : Nat) (en : BitVec 4096) (img : BitVec 512) (bad : Bool) (addr : Word) (badIx : Bool)
    (s : State) : R State := do
  let acc := accesses half cols base en
  let s ← acc.foldlM (fun s bn => do
    let ea := addr + BitVec.ofNat 64 bn.1
    checkElem ea bn.2
    let (s, _) ← coreCheckWrite s.me ea bn.2 bad s
    need (!badIx) cPoison ea
    .ok s) s
  (joinAccesses addr.toNat acc).foldlM (fun s bn =>
    coreWrite s.me .engine (addr + BitVec.ofNat 64 bn.1) (leBytes bn.2 (img.toNat / 2 ^ (8 * bn.1))) bad s) s

/-- A store word that runs: rows in order. -/
def storeRows (op8 : Nat) (w : VWord) (e : VEntry) (en : BitVec 4096) (rows : List Row) (s : State) : R State :=
  let half := halfBytes w.type.toNat
  let ix := indexRow s.core.eng w.b
  ((List.range e.shape.rows).zip rows).foldlM (fun s ir =>
    match rowAddr op8 w e.cap ix ir.1 with
    | none => .ok s
    | some (a, q) =>
      let base := ir.1 * e.shape.cols
      storeRow half e.shape.cols base en (storeImage w.type.toNat e.shape.cols base en w.a.kind ir.2) ir.2.bad a q s) s

/-- A store word as an entry (R30): its FIFO entry is popped whether or not it runs. -/
def storeEntry (run : Nat → VWord → VEntry → BitVec 4096 → List Row → State → R State) (e : VEntry) (s : State) :
    R State := do
  let (op8, w) := wordOf e.word
  let q := s.queue
  let (eng, rows, fen) ← source .regFifo w.a (halfBytes w.type.toNat) e.shape.rows e.cap.idx s.core.eng
  let s := s.updEng fun _ => eng
  if skipped q e || (w.pm && decide (topMask q = 0)) then .ok s
  else run op8 w e ((if w.pm then topMask q else BitVec.allOnes 4096) &&& fen) rows s

/-- VST. -/
def execVst (w : VWord) (s : State) : Host.Outcome State Fault Refusal := runEntry (.vst w) (storeEntry storeRows) s

/-- VSTX. -/
def execVstx (w : VWord) (s : State) : Host.Outcome State Fault Refusal := runEntry (.vstx w) (storeEntry storeRows) s

/-- The record of a row image (R242). -/
def packRecord (img : BitVec 512) : List Byte :=
  let bs := bvBytes 64 img
  let m := ((List.range 64).zip bs).foldl (fun m ib => if ib.2 = 0 then m else m + 2 ^ ib.1) 0
  leBytes 8 m ++ bs.filter fun b => decide (b ≠ 0)

/-- A zero-suppressed store. -/
def storeZero (_ : Nat) (w : VWord) (e : VEntry) (en : BitVec 4096) (rows : List Row) (s : State) : R State := do
  let cols := e.shape.cols
  let (s, _) ← ((List.range e.shape.rows).zip rows).foldlM (fun acc ir => do
    let (s, a) := acc
    let rec_ := packRecord (storeImage w.type.toNat cols (ir.1 * cols) en true ir.2)
    let s ← coreWriteMany s.me .engine a rec_ ir.2.bad s
    .ok (s, a + BitVec.ofNat 64 rec_.length)) (s, memBase w e.cap)
  .ok s

/-- VSTZ. -/
def execVstz (w : VWord) (s : State) : Host.Outcome State Fault Refusal := runEntry (.vstz w) (storeEntry storeZero) s

/-! ### Vector-control words -/

/-- VSHAPE: each queue takes the shape at its copy's position; the words after it carry it from the dispatcher (R213). -/
def execVshape (w : VWord) (s : State) : Host.Outcome State Fault Refusal :=
  runEntry (.vshape w) (fun _ s => .ok (s.updQueue fun q => { q with shape := shapeAfter 0xC0 w q.shape })) s

/-- VAQ forwards a message to the copies in VLQ and VSQ (R29). -/
def forwardMsg (m : MaskMsg) (s : State) : State :=
  s.updEng fun e => { e with vlq := { e.vlq with msgs := e.vlq.msgs ++ [m] }, vsq := { e.vsq with msgs := e.vsq.msgs ++ [m] } }

/-- Take a message. -/
def takeMsg (voi : Nat) (s : State) : State :=
  s.updQueue fun q => { q with msgs := q.msgs.filter fun m => match m with
    | .top v _ => decide (v ≠ voi)
    | .skip v _ => decide (v ≠ voi) }

/-- A mask-stack word (R28, R29): VAQ evaluates it and forwards the new top; the copies in VLQ and VSQ wait for it. `eval`
gives VAQ's new stack, `apply` a copy's from the top it receives. -/
def maskBody (eval : VQueue → Option (List (BitVec 4096))) (copy : BitVec 4096 → List (BitVec 4096) → List (BitVec 4096))
    (e : VEntry) (s : State) : R State :=
  let q := s.queue
  if skipped q e then .ok s
  else if s.focus.vq = .vaq then
    match eval q with
    | none => raise cIllegalInstr (BitVec.ofNat 64 e.cap.idx)
    | some ms => .ok (forwardMsg (.top e.voi (ms.headD (BitVec.allOnes 4096)))
        (s.updQueue fun q => { q with masks := ms }))
  else match findMsg q e.voi with
    | some (.top _ m) => .ok (takeMsg e.voi (s.updQueue fun q => { q with masks := copy m q.masks }))
    | _ => wait

/-- VMPUSH: top AND m; a ninth level is illegal. -/
def pushMask (m : BitVec 4096) (q : VQueue) : Option (List (BitVec 4096)) :=
  if 8 ≤ q.masks.length then none else some ((topMask q &&& m) :: q.masks)

/-- VMINV: parent AND NOT top. -/
def invertMask (q : VQueue) : Option (List (BitVec 4096)) :=
  match q.masks with
  | [] => none
  | t :: rest => some ((rest.headD (BitVec.allOnes 4096) &&& ~~~t) :: rest)

/-- VMPOP. -/
def popMask (q : VQueue) : Option (List (BitVec 4096)) :=
  match q.masks with
  | [] => none
  | _ :: rest => some rest

/-- VMPUSH. -/
def execVmpush (w : VWord) (s : State) : Host.Outcome State Fault Refusal :=
  runEntry (.vmpush w) (fun e s =>
    maskBody (pushMask (vget (BitVec.ofNat 3 (auxBits w 0 3)) s.core.eng.m)) (fun t l => t :: l) e s) s

/-- VMINV. -/
def execVminv (w : VWord) (s : State) : Host.Outcome State Fault Refusal :=
  runEntry (.vminv w) (maskBody invertMask (fun t l => t :: l.tail)) s

/-- VMPOP. -/
def execVmpop (w : VWord) (s : State) : Host.Outcome State Fault Refusal :=
  runEntry (.vmpop w) (maskBody popMask (fun _ l => l.tail)) s

/-- VSKIP (R31): if the top is all zero where VAQ's copy stands, the next n words in vector order are skipped. -/
def skipBody (w : VWord) (e : VEntry) (s : State) : R State :=
  let q := s.queue
  let set (yes : Bool) (s : State) : State :=
    if yes then s.updQueue fun q => { q with skipTo := some (e.voi + auxBits w 0 8) } else s
  if skipped q e then .ok s
  else if s.focus.vq = .vaq then
    let yes := decide (topMask q = 0)
    .ok (forwardMsg (.skip e.voi yes) (set yes s))
  else match findMsg q e.voi with
    | some (.skip _ yes) => .ok (takeMsg e.voi (set yes s))
    | _ => wait

/-- VSKIP. -/
def execVskip (w : VWord) (s : State) : Host.Outcome State Fault Refusal := runEntry (.vskip w) (skipBody w) s

/-- VMODE: the mode changed at push; the queue copies have no effect (R119, R250). -/
def execVmode (w : VWord) (s : State) : Host.Outcome State Fault Refusal := runEntry (.vmode w) (fun _ s => .ok s) s

/-- The bit of a queue in VSIGNAL's mask (R246). -/
def queueBit (q : VQ) : Nat :=
  match q with
  | .vlq => 0
  | .vaq => 1
  | .vsq => 2

/-- VSIGNAL (R251): each selected queue's copy arrives, at this core's barrier or at that of the captured core. -/
def signalBody (w : VWord) (e : VEntry) (s : State) : R State :=
  let b := BitVec.ofNat 6 (auxBits w 0 6)
  if skipped s.queue e || decide (auxBits w (6 + queueBit s.focus.vq) 1 = 0) then .ok s
  else
    let target := if auxBits w 14 1 = 1 then coreOf (bits e.cap.r1 9 0) else some s.me
    match target with
    | none => barFault b
    | some c =>
      if sameGang s s.me c && barDeclared (s.coreAt c) b then
        match arrive c b 1 false 0 s.me.val s with
        | some s => .ok s
        | none => barFault b
      else barFault b

/-- VSIGNAL. -/
def execVsignal (w : VWord) (s : State) : Host.Outcome State Fault Refusal := runEntry (.vsignal w) (signalBody w) s

/-- VNOP. -/
def execVnop (w : VWord) (s : State) : Host.Outcome State Fault Refusal := runEntry (.vnop w) (fun _ s => .ok s) s

end Sys2Proof.Machine
end

