-- ==== Sys2Proof/Machine/Runs.lean ====
section
/-!
DEFINITION. Engine runs (R169, R170): the checks of MRUN (R138, R255), what the dispatcher captures (R22, R35, R119), pushes
under R20 and R21, and XRUN.
-/
namespace Sys2Proof.Machine

/-! ### The checks of MRUN (R138, R254, R255, R262) -/

/-- A matrix operand format: 0x1 to 0xB, or TAG. -/
def matFmt (f : Nat) : Bool := decide (1 ≤ f ∧ f ≤ 11 ∨ f = 15)

/-- The class of an operand format: float, integer, or unknown for TAG. -/
def matClass (f : Nat) : Option Bool := if f = 15 then none else some (decide (f ≤ 8))

/-- The formats of MADDA and MBIAS sources. -/
def addFmt (f : Nat) : Bool := [0, 1, 2, 9, 12, 14].contains f

/-- An address field: bits [31:20] zero, a multiple of 64. -/
def addrOk (a : BitVec 32) : Bool := decide (a.toNat < 2 ^ 20 ∧ a.toNat % 64 = 0)

/-- A pitch field. -/
def pitchOk (p : BitVec 16) : Bool := decide (p.toNat % 64 = 0)

/-- The flags [22:18] are 0. -/
def noFlags (w : MWord) : Bool := !w.gscale && !w.btr && !w.nsel && !w.sparse && !w.gather

/-- The size of a 96-element row of a target format in bytes, rounded up to 64 (R255). -/
def rowSize64 (f : Nat) : Nat := (96 * halfBytes f / 2 + 63) / 64 * 64

/-- The transfer fields of MXFR (R262). -/
def mxfrOk (d : Decl) (a : BitVec 32) : Bool :=
  let f (lo n : Nat) : Nat := (a.toNat >>> lo) % 2 ^ n
  decide (f 27 5 = 0 ∧ f 19 3 ≤ 5 ∧ f 13 6 < 32 ∧ f 6 7 + f 13 6 + 1 ≤ 96 ∧ f 22 5 + f 13 6 + 1 ≤ 32) &&
    (decide (f 5 1 = 0) || (decide (f 22 5 = 0 ∧ f 0 5 ≤ 3) && decide (d.fifo.toList.getD (f 0 5) 0 = 2)))

/-- A matrix word's fields as its opcode's row of R255 allows them. -/
def matrixLegal (s : State) (i : Instr) : Bool :=
  match i with
  | .mma w =>
    let a := w.afmt.toNat
    let b := w.bfmt.toNat
    matFmt a && matFmt b && (match matClass a, matClass b with
      | some x, some y => x == y
      | _, _ => true) && decide (w.kg ≠ 0) && (w.sparse || !w.nsel) &&
      decide ((w.aaddr.extractLsb' 0 20).toNat % 64 = 0) && (w.gather || decide (w.aaddr.toNat < 2 ^ 20)) &&
      addrOk w.baddr && pitchOk w.apitch && pitchOk w.bpitch &&
      (if w.sparse || w.gscale then addrOk w.xaddr else decide (w.xaddr = 0)) &&
      (s.feature 5 || !w.sparse) && (s.feature 6 || !([7, 8].contains a || [7, 8].contains b))
  | .mzero w => noFlags w && decide (w.afmt = 0 ∧ w.bfmt = 0 ∧ w.kg = 0 ∧ w.aaddr = 0 ∧ w.apitch = 0 ∧ w.bpitch = 0 ∧
      w.baddr = 0 ∧ w.xaddr = 0)
  | .mlda w => noFlags w && decide ((w.afmt = 0 ∨ w.afmt = 14) ∧ w.bfmt = 0 ∧ w.kg = 0 ∧ w.bpitch = 0 ∧ w.baddr = 0 ∧
      w.xaddr = 0) && addrOk w.aaddr && pitchOk w.apitch
  | .msta w => noFlags w && decide (w.afmt ≠ 15 ∧ (w.bfmt = 0 ∨ w.bfmt = 14) ∧ w.kg.toNat < 16 ∧ w.bpitch = 0 ∧
      w.baddr = 0 ∧ rowSize64 w.afmt.toNat ≤ w.apitch.toNat) && addrOk w.aaddr && pitchOk w.apitch &&
      (if w.kg.getLsbD 3 then addrOk w.xaddr else decide (w.xaddr = 0)) &&
      (s.feature 6 || decide (w.afmt ≠ 7 ∧ w.afmt ≠ 8))
  | .madda w => noFlags w && addFmt w.afmt.toNat && decide (w.bfmt = 0 ∧ w.kg = 0 ∧ w.bpitch = 0 ∧ w.baddr = 0 ∧
      w.xaddr = 0) && addrOk w.aaddr && pitchOk w.apitch
  | .mbias w => noFlags w && addFmt w.bfmt.toNat && decide (w.afmt = 0 ∧ w.kg = 0 ∧ w.aaddr = 0 ∧ w.apitch = 0 ∧
      w.bpitch = 0 ∧ w.xaddr = 0) && addrOk w.baddr
  | .mxfr w => noFlags w && decide ((w.afmt = 0 ∨ w.afmt = 14) ∧ w.bfmt = 0 ∧ w.kg = 0 ∧ w.apitch = 0 ∧ w.bpitch = 0 ∧
      w.baddr = 0 ∧ w.xaddr = 0) && mxfrOk s.core.decl w.aaddr
  | .msync w => noFlags w && decide (w.acc = 0 ∧ w.afmt = 0 ∧ w.bfmt = 0 ∧ w.kg = 0 ∧ w.aaddr = 0 ∧ w.apitch = 0 ∧
      w.bpitch = 0 ∧ w.baddr = 0 ∧ w.xaddr = 0)
  | _ => false

/-- The fields of a matrix word. -/
def mwordOf (i : Instr) : MWord :=
  match matrixParts i with
  | some (_, w) => w
  | none => ⟨0, 0, 0, 0, 0, 0, 0, false, false, false, false, false, false, 0, 0, 0⟩

/-- Word i of matrix-word memory, decoded and checked; a stamp needs the feature of R417 bit 4. -/
def checkMatrix (s : State) (i : Nat) : R Unit := do
  let at_ := BitVec.ofNat 64 i
  match decodeMatrix (kget 0 s.core.mmem i) with
  | .error _ => raise cIllegalInstr at_
  | .ok word => need (matrixLegal s word && (s.feature 4 || decide ((mwordOf word).stamp = 0))) cIllegalInstr at_

/-! ### Pushes (R20 to R22) -/

/-- The iteration tag of a word pushed now (R35). -/
def tagNow (k : Core) : IterTag :=
  match k.rg.loops with
  | [] => .prologue
  | r :: _ => match r.phase with
    | .prologue => .prologue
    | .kernel => .iter r.iter
    | .epilogue => .epilogue

/-- What the dispatcher attaches to a word (R22). -/
def captureNow (s : State) (i : Nat) (rs : List Reg) : Capture :=
  let g (n : Nat) : Word := match rs[n]? with
    | some r => (s.g r).val
    | none => 0
  { idx := i, r1 := g 0, r2 := g 1, mode := modeCapture s.core.rg.mode, seed := s.core.rg.srseed,
    psn := s.core.rg.psn.toNat, tag := tagNow s.core }

/-- The queues that a word goes to by its class (R20). -/
def queuesOf (op8 : Nat) : List VQ :=
  if op8 < 0x40 then [.vaq] else if op8 < 0x80 then [.vlq] else if op8 < 0xC0 then [.vsq] else allQueues

/-- VMODE changes the mode state at push (R119, R250). -/
def vmodePush (w : VWord) (s : State) : State :=
  let sel (i : Nat) : Bool := decide (auxBits w i 1 = 1)
  s.updRg fun r =>
    { r with
      mode := modeSet r.mode (if sel 0 then some (BitVec.ofNat 3 (auxBits w 4 3)) else none)
        (if sel 1 then some (decide (auxBits w 7 1 = 1), decide (auxBits w 8 1 = 1)) else none)
        (if sel 2 then some (BitVec.ofNat 2 (auxBits w 9 2)) else none),
      srseed := if sel 3 then (s.g (BitVec.ofNat 5 (auxBits w 11 5))).val else r.srseed }

/-- Push vector word i: none if a queue it goes to is full (R21). -/
def pushVector (i : Nat) (s : State) : Option State :=
  match decodeVector (kget 0 s.core.vmem i) with
  | .error _ => none
  | .ok word =>
    let (op8, w) := wordOf word
    let qs := queuesOf op8
    if qs.any fun q => decide (32 ≤ (s.core.eng.queue q).entries.length) then none
    else
      let s := if op8 = 0xC5 then vmodePush w s else s
      let e : VEntry := ⟨word, captureNow s i (namedRegs op8 w), s.core.rg.voi.toNat, s.core.eng.shape⟩
      let s := s.updEng fun g =>
        qs.foldl (fun g q => g.setQueue q { g.queue q with entries := (g.queue q).entries ++ [e] })
          { g with shape := shapeAfter op8 w g.shape }
      some (s.updRg fun r => { r with psn := r.psn + 1, voi := r.voi + 1 })

/-- Push matrix word i: none if MXQ holds 16 entries. -/
def pushMatrix (i : Nat) (s : State) : Option State :=
  match decodeMatrix (kget 0 s.core.mmem i) with
  | .error _ => none
  | .ok word =>
    if 16 ≤ s.core.eng.mxq.length then none
    else
      let e : MEntry := ⟨word, captureNow s i [], false, none⟩
      some ((s.updEng fun g => { g with mxq := g.mxq ++ [e] }).updRg fun r => { r with psn := r.psn + 1 })

/-- Push words from index i on until `n` are pushed or a queue is full: the state and the first word not pushed. -/
def pushFrom (push : Nat → State → Option State) : Nat → Nat → State → State × Nat
  | 0, i, s => (s, i)
  | n + 1, i, s => match push i s with
    | some s' => pushFrom push n (i + 1) s'
    | none => (s, i)

/-- Continue a run from word i: it completes when its last word is pushed, otherwise the sequencer stays in it (R21). -/
def continueRun (push : Nat → State → Option State) (i stop : Nat) (s : State) : State :=
  let (s, j) := pushFrom push (stop - i) i s
  if stop ≤ j then advance 4 (s.updRg fun r => { r with run := r.run.filter fun x => decide (x.pc ≠ r.pc) })
  else s.updRg fun r => { r with run := ⟨r.pc, j, stop, true⟩ :: r.run.filter fun x => decide (x.pc ≠ r.pc) }

/-- g[ga] and the count of a run (R169). -/
def runArgs (imm8 : BitVec 8) (gb ga : Reg) (s : State) : R (Word × Word) := do
  let a ← clean (s.g ga)
  let n ← if imm8 = 0 then clean (s.g gb) else .ok (zext64 imm8)
  .ok (a, n)

/-- VRUN and MRUN (R169): every word is checked before any is pushed; the first push releases the core's earlier stores
(R76), and so does a resumption for those of a trap handler. A run that is in progress, or that ERET has returned to, pushes on. -/
def runWords (size : Nat) (imm8 : BitVec 8) (gb ga : Reg) (check : Nat → Nat → State → R Unit)
    (push : Nat → State → Option State) (s : State) : R State := do
  match s.core.rg.run.find? fun x => decide (x.pc = s.pc) && x.live with
  | some r => .ok (continueRun push r.next r.stop (drainStores s.me s))
  | none => do
    checkRegs s [ga, gb]
    let (a, n) ← runArgs imm8 gb ga s
    if n = 0 then .ok (advance 4 s)
    else do
      need (decide (a.toNat + n.toNat ≤ size)) cIllegalInstr a
      check a.toNat n.toNat s
      .ok (continueRun push a.toNat (a.toNat + n.toNat) (drainStores s.me s))

/-- Check `n` vector words from i on; the shape follows the VSHAPE words among them. -/
def checkVectors : Nat → Nat → Shape → State → R Unit
  | 0, _, _, _ => .ok ()
  | n + 1, i, sh, s => do
    let sh ← checkVector s i sh
    checkVectors n (i + 1) sh s

/-- Check `n` matrix words from i on. -/
def checkMatrices : Nat → Nat → State → R Unit
  | 0, _, _ => .ok ()
  | n + 1, i, s => do
    checkMatrix s i
    checkMatrices n (i + 1) s

/-- VRUN. -/
def execVrun (imm8 : BitVec 8) (gb ga : Reg) (s : State) : Host.Outcome State Fault Refusal :=
  conclude s (runWords 4096 imm8 gb ga (fun i n s => checkVectors n i s.core.eng.shape s) pushVector s)

/-- MRUN: an S core has no matrix engine (R13). -/
def execMrun (imm8 : BitVec 8) (gb ga : Reg) (s : State) : Host.Outcome State Fault Refusal :=
  conclude s (do
    need (!isS s.me) cIllegalInstr (zext64 s.pc)
    runWords 1024 imm8 gb ga (fun i n s => checkMatrices n i s) pushMatrix s)

/-- XRUN (R170): one entry for the transform run queue, which holds 4; it releases the core's earlier stores (R76). -/
def xrunBody (imm8 : BitVec 8) (gb ga : Reg) (s : State) : R State := do
  let (a, n) ← runArgs imm8 gb ga s
  need (decide (a.toNat < 4096 ∧ n.toNat ≤ 65535)) cIllegalInstr a
  if n = 0 then .ok s
  else if 4 ≤ s.core.xs.runs.length then wait
  else
    let s := drainStores s.me s
    let x : XRunEntry := ⟨BitVec.ofNat 12 a.toNat, n.toNat, 0, modeCapture s.core.rg.mode, s.core.rg.srseed⟩
    .ok (s.upd fun k => { k with xs := { k.xs with runs := k.xs.runs ++ [x] } })

/-- XRUN. -/
def execXrun (imm8 : BitVec 8) (gb ga : Reg) (s : State) : Host.Outcome State Fault Refusal :=
  conclude s (do
    needS s
    plain 4 [ga, gb] (xrunBody imm8 gb ga) s)

end Sys2Proof.Machine
end

