-- ==== Sys2Proof/Machine/Matrix.lean ====
section
/-!
DEFINITION. The matrix engine (R254 to R270): operand layout, latch fill, the sums of R124, and one step for each matrix word.
-/
namespace Sys2Proof.Machine

/-! ### Bytes of an operand -/

/-- A range cut at granule boundaries. -/
def pieces (a n : Nat) : List (Nat × Nat) :=
  (granulesOf a n).map fun g => (max a (64 * g), min (a + n) (64 * g + 64) - max a (64 * g))

/-- The bytes of n elements (R257). -/
def rowBytes (half n : Nat) : Nat := (n * half + 1) / 2

/-- Element k of a row of elements at an address (R214). -/
def stashElem (m : Mem) (base half k : Nat) : Nat :=
  if half = 1 then (m.byte (base + k / 2)).toNat / 16 ^ (k % 2) % 16
  else leVal (m.bytes (base + k * half / 2) (half / 2))

/-- Reach every byte of a range of the stash for reading: bounds, window fills, watermarks (R49, R58, R264). -/
def touch (c : CoreId) (a n : Nat) (s : State) : R State :=
  (pieces a n).foldlM (fun s p => do
    let (s, _) ← stashReach c p.1 p.2 .read s
    stallOnMark c p.1 p.2 s
    .ok s) s

/-- Reach several ranges in order. -/
def touchAll (c : CoreId) (rs : List (Nat × Nat)) (s : State) : R State := rs.foldlM (fun s r => touch c r.1 r.2 s) s

/-! ### The fields of MMA (R254, R257, R258) -/

def mAbase (w : MWord) : Nat := w.aaddr.toNat % 2 ^ 20
def mIxva (w : MWord) : Nat := w.aaddr.toNat / 2 ^ 20 * 256
def mBbase (w : MWord) : Nat := w.baddr.toNat % 2 ^ 20
def mXbase (w : MWord) : Nat := w.xaddr.toNat % 2 ^ 20
def mGroups (w : MWord) : Nat := w.kg.toNat
def mDepth (w : MWord) : Nat := 24 * w.kg.toNat

/-- Kept elements of a group of A: 24 when dense, 12 or 6 (R113). -/
def mKept (w : MWord) : Nat := if w.sparse then (if w.nsel then 6 else 12) else 24

/-- Bytes of a metadata word. -/
def mMetaBytes (w : MWord) : Nat := if w.nsel then 4 else 8

/-- The metadata area. -/
def mMetaArea (w : MWord) : Nat := if w.sparse then 96 * (mGroups w) * (mMetaBytes w) else 0

/-- The row that the index vector gives output row i; a zero row has none (R257). -/
def aRow (w : MWord) (m : Mem) (i : Nat) : Option Nat :=
  if w.gather then
    let x := leVal (m.bytes ((mIxva w) + 2 * i) 2)
    if x = 0xFFFF then none else some x
  else some i

/-- The address of A's row for output row i. -/
def aRowAddr (w : MWord) (m : Mem) (i : Nat) : Option Nat := (aRow w m i).map fun x => (mAbase w) + x * w.apitch.toNat

/-- The ranges of A. -/
def aRanges (w : MWord) (m : Mem) (half : Nat) : List (Nat × Nat) :=
  (List.range 96).filterMap fun i => (aRowAddr w m i).map fun a => (a, rowBytes half ((mKept w) * (mGroups w)))

/-- The ranges of B. -/
def bRanges (w : MWord) (half : Nat) : List (Nat × Nat) :=
  if w.btr then (List.range 96).map fun j => ((mBbase w) + j * w.bpitch.toNat, rowBytes half (mDepth w))
  else (List.range (mDepth w)).map fun k => ((mBbase w) + k * w.bpitch.toNat, rowBytes half 96)

/-- The ranges of metadata: zero rows read none (R258). -/
def metaRanges (w : MWord) (m : Mem) : List (Nat × Nat) :=
  if w.sparse then (List.range 96).filterMap fun i =>
    (aRow w m i).map fun _ => ((mXbase w) + i * (mGroups w) * (mMetaBytes w), (mGroups w) * (mMetaBytes w))
  else []

/-- The ranges of A's scales: zero rows read none (R257, R258). -/
def aScaleRanges (w : MWord) (m : Mem) : List (Nat × Nat) :=
  (List.range 96).filterMap fun i =>
    (aRow w m i).map fun _ => ((mXbase w) + (mMetaArea w) + i * (mGroups w), mGroups w)

/-- Formats that take scales (R112). -/
def takesScale (f : Nat) : Bool := [3, 4, 5, 6].contains f

/-- An element code of B at (k, j) (R257). -/
def bElem (w : MWord) (m : Mem) (half k j : Nat) : Nat :=
  if w.btr then stashElem m ((mBbase w) + j * w.bpitch.toNat) half k
  else stashElem m ((mBbase w) + k * w.bpitch.toNat) half j

/-! ### Tags (R64, R268) -/

/-- The granules of ranges. -/
def granulesIn (rs : List (Nat × Nat)) : List Nat := (rs.map fun r => granulesOf r.1 r.2).flatten

/-- ILLEGAL_INSTR at a matrix entry: TRAPADDR is the word's index. -/
def matIllegal (e : MEntry) : TrapInfo := { cause := cIllegalInstr, addr := BitVec.ofNat 64 e.cap.idx }

/-- The format of an operand at its entry: as named, or the tag that all its granules carry (R268). `ranges` gives the
operand's ranges at an element size; the first granule does not depend on it. An operand that reads no granule takes the
other operand's format, `dflt`. -/
def entryFormat (e : MEntry) (fmt dflt : Nat) (ranges : Nat → List (Nat × Nat)) (s : State) : R (State × Nat) := do
  if fmt ≠ 15 then .ok (s, fmt)
  else match granulesIn ((ranges 1).take 1) with
    | [] => .ok (s, dflt)
    | g :: _ => do
      let s ← touch s.me (64 * g) 64 s
      let t := (stashTag s.core g).fmt.toNat
      if 1 ≤ t ∧ t ≤ 11 then do
        let rs := ranges (halfBytes t)
        let s ← touchAll s.me rs s
        if (granulesIn rs).all fun h => decide ((stashTag s.core h).fmt.toNat = t) then .ok (s, t)
        else .error (.trap (matIllegal e))
      else .error (.trap (matIllegal e))

/-- The window that tagged the first granule of a TAG operand (R258). -/
def scaleWindow (rs : List (Nat × Nat)) (s : State) : Option FmtWin :=
  (granulesIn (rs.take 1)).head?.map fun g => s.fmt.toList.getD (stashTag s.core g).win.toNat ⟨0, 0, 0, 0, 0⟩

/-- The device address of the scale of the element at a stash address (R65): the element's own device address is that of the
granule's tagged bytes. Below the base of the window the spec gives the element no number (log entry 16). -/
def scaleAddr (w : FmtWin) (a fmt : Nat) (s : State) : Option Nat :=
  let x := (stashTag s.core (a / 64)).home + a % 64
  if (stashTag s.core (a / 64)).fmt ≠ 0xF ∧ w.base.toNat ≤ x then
    some (w.scale.toNat + (x - w.base.toNat) * 8 / (if w.ctl.getLsbD 5 then 8 else widthOf fmt) / 24)
  else none

/-- The scale of the element at a stash address of a TAG operand, read through the LLC from the scale region of the operand's
window (R65, R258). FWSCALE = 0 names no region: the scale is then 1, as where FWSCALE is ignored (log entry 16). -/
def windowScale (w : FmtWin) (a fmt : Nat) (s : State) : State × Byte × Bool :=
  if w.scale = 0 then (s, 127, false)
  else match scaleAddr w a fmt s with
    | none => ({ s with free := s.free + 1 }, Config.freeByte s.free, false)
    | some x =>
      let (s, bs, bad) := homeRead ⟨.hbm, x⟩ .lcl 1 false s
      (s, bs.headD 0, bad)

/-- The stash addresses of the elements that give the scales of a TAG operand A, each with its key: the first kept element of
the group (log entry 16). -/
def aScaleElems (w : MWord) (m : Mem) (fa : Nat) : List (Nat × Nat) :=
  (List.range 96).flatMap fun i => match aRowAddr w m i with
    | none => []
    | some ra => (List.range (mGroups w)).map fun g => (64 * i + g, ra + (mKept w) * g * halfBytes fa / 2)

/-- The same for B: the first of the 24 elements of the group of a column (log entry 16). -/
def bScaleElems (w : MWord) (fb : Nat) : List (Nat × Nat) :=
  (List.range 96).flatMap fun j => (List.range (mGroups w)).map fun g =>
    (8192 + 64 * j + g,
      if w.btr then (mBbase w) + j * w.bpitch.toNat + 24 * g * halfBytes fb / 2
      else (mBbase w) + 24 * g * w.bpitch.toNat + j * halfBytes fb / 2)

/-- Read the scales of a TAG operand whose ranges and scale elements are given. -/
def operandScales (rs es : List (Nat × Nat)) (fmt : Nat) (acc : State × KMap (Byte × Bool)) : State × KMap (Byte × Bool) :=
  match scaleWindow rs acc.1 with
  | none => acc
  | some win => es.foldl (fun acc ke =>
      let (s, v) := windowScale win ke.2 fmt acc.1
      (s, acc.2 ++ [(ke.1, v)])) acc

/-- The scales of the TAG operands of an MMA (R258). -/
def tagScales (w : MWord) (fa fb : Nat) (s : State) : State × KMap (Byte × Bool) :=
  let m := s.core.stash
  let acc := if w.afmt.toNat = 15 ∧ takesScale fa then operandScales (aRanges w m (halfBytes fa)) (aScaleElems w m fa) fa (s, [])
    else (s, [])
  if w.bfmt.toNat = 15 ∧ takesScale fb then operandScales (bRanges w (halfBytes fb)) (bScaleElems w fb) fb acc else acc

/-! ### Latch fill (R264, R268) -/

/-- The checks and reads of an MMA at its latch fill: the formats it runs in, with every granule it reads valid. -/
def mmaReach (w : MWord) (e : MEntry) (s : State) : R (State × Nat × Nat) := do
  let c := s.me
  let s ← if w.gather then touch c (mIxva w) 192 s else .ok s
  let m := s.core.stash
  let fa := w.afmt.toNat
  let fb := w.bfmt.toNat
  let s ← if fa ≠ 15 then touchAll c (aRanges w m (halfBytes fa)) s else .ok s
  let s ← if fb ≠ 15 then touchAll c (bRanges w (halfBytes fb)) s else .ok s
  let s ← touchAll c (metaRanges w m) s
  let sc := (mXbase w) + (mMetaArea w)
  let s ← if w.gscale ∧ fa ≠ 15 ∧ takesScale fa then touchAll c (aScaleRanges w m) s else .ok s
  let s ← if w.gscale ∧ fb ≠ 15 ∧ takesScale fb then touch c (sc + 96 * (mGroups w)) (96 * (mGroups w)) s else .ok s
  let (s, ta) ← entryFormat e fa (if fb = 15 then 1 else fb) (aRanges w m) s
  let (s, tb) ← entryFormat e fb ta (bRanges w) s
  if decide (ta ≤ 8) ≠ decide (tb ≤ 8) then .error (.trap (matIllegal e))
  else if w.gscale ∧ !takesScale ta ∧ !takesScale tb then .error (.trap (matIllegal e))
  else if w.gather ∧ s.core.stash.poisoned (mIxva w) 192 then raise cPoison (BitVec.ofNat 64 (mIxva w))
  else .ok (s, ta, tb)

/-- The rows of MLDA and MADDA. -/
def sourceRanges (w : MWord) (half : Nat) : List (Nat × Nat) :=
  (List.range 96).map fun i => ((mAbase w) + i * w.apitch.toNat, rowBytes half 96)

/-- Fill a latch: every byte the word reads, as it stands now. -/
def latchFor (e : MEntry) (s : State) : R (State × Latch) := do
  let (s, scales) ← match e.word with
    | .mma w => do
      let (s, fa, fb) ← mmaReach w e s
      .ok (if w.gscale then tagScales w fa fb s else (s, []))
    | .mlda w => do .ok (← touchAll s.me (sourceRanges w 8) s, [])
    | .madda w => do .ok (← touchAll s.me (sourceRanges w (halfBytes w.afmt.toNat)) s, [])
    | .mbias w => do .ok (← touch s.me (mBbase w) (rowBytes (halfBytes w.bfmt.toNat) 96) s, [])
    | _ => .ok (s, [])
  .ok (s, ⟨s.core.stash, s.core.tags, scales⟩)

/-- Words that need a latch (R264). -/
def needsLatch (i : Instr) : Bool :=
  match i with
  | .mma _ => true
  | .mlda _ => true
  | .madda _ => true
  | .mbias _ => true
  | _ => false

/-- Update MXQ of the current core. -/
def State.updMxq (s : State) (f : List MEntry → List MEntry) : State := s.updEng fun e => { e with mxq := f e.mxq }

/-- Halt MXQ and record the fault (R219, R402). -/
def matrixFault (t : TrapInfo) (s : State) : State :=
  engineFault s.me .mx t.cause t.addr ((countTrap t s).updEng fun e => { e with mxHalted := true })

/-- A word writes the stash. -/
def storesStash (i : Instr) : Bool :=
  match i with
  | .msta _ => true
  | _ => false

/-! ### Issue (R265, R266) -/

/-- What a stamp says now: issue, issue late, wait, or a schedule miss that faults. -/
inductive Gate where
  | go | late | hold | miss
  deriving DecidableEq, Repr

/-- The stamp of an entry against DCC: a stop token in this core lifts it (R266), a replay has lost it. -/
def stampGate (e : MEntry) (s : State) : Gate :=
  let w := mwordOf e.word
  if w.stamp = 0 ∨ e.stampLost = true ∨ s.core.rg.status = .stopped then .go
  else
    let d := (w.stamp - s.dcc.setWidth 32).toNat
    if d = 0 then .go
    else if d < 2 ^ 31 then .hold
    else if w.missp then .late else .miss

/-- A word goes on the array: its latch is full, earlier words leave its registers alone (R23), and its stamp does not hold it
(R264, R265). -/
def onArray (e : MEntry) (s : State) : Bool :=
  (!needsLatch e.word || e.latch.isSome) && hazardFree s.core e.cap.psn (matrixUse e.word) &&
    (decide (stampGate e s = .go) || decide (stampGate e s = .late))

/-- LATCH_FILL: the word at the head of MXQ fills a latch; the word behind it does so once the head is on the array, past a word
that does not write the stash (R264, R270). A failing check of the head is its engine
fault; the second word's waits until it is the head. -/
def execLatchFill (s : State) : Host.Outcome State Fault Refusal :=
  if s.core.eng.mxHalted then settle s
  else match s.core.eng.mxq with
    | [] => settle s
    | e :: rest =>
      if needsLatch e.word && e.latch.isNone then
        match latchFor e s with
        | .ok (s', l) => settle (s'.updMxq fun _ => { e with latch := some l } :: rest)
        | .error (.trap t) => settle (matrixFault t s)
        | .error .stall => settle s
      else match rest with
        | [] => settle s
        | f :: more =>
          if storesStash e.word || !needsLatch f.word || f.latch.isSome || !onArray e s then settle s
          else match latchFor f s with
            | .ok (s', l) => settle (s'.updMxq fun _ => e :: { f with latch := some l } :: more)
            | .error _ => settle s

/-- Count a schedule miss of the device (R451). -/
def countMiss (s : State) : State := { s with misses := s.misses + 1 }

/-- Run a matrix word at the head of MXQ: its latch is full, earlier words of every queue leave its registers alone (R23), its
checks pass, and its stamp allows it. A faulted entry has had no effect (R268). -/
def runMatrix (i : Instr) (check : MEntry → State → R State) (body : MEntry → State → R State) (s : State) :
    Host.Outcome State Fault Refusal :=
  match s.core.eng.mxq with
  | [] => settle s
  | e :: rest =>
    if e.word = i ∧ s.core.eng.mxHalted = false ∧ (needsLatch i = false ∨ e.latch.isSome = true) ∧
        hazardFree s.core e.cap.psn (matrixUse i) = true then
      match check e s with
      | .error .stall => settle s
      | .error (.trap t) => settle (matrixFault t s)
      | .ok s1 =>
        match stampGate e s with
        | .hold => settle s
        | .miss => settle (matrixFault { cause := cScheduleMiss, addr := zext64 (mwordOf i).stamp } (countMiss s))
        | g =>
          match body e s1 with
          | .error .stall => settle s
          | .error (.trap t) => settle (matrixFault t s)
          | .ok s' =>
            let s' := s'.updMxq fun _ => rest
            settle (if g = .late then countMiss (s'.updSys fun y => { y with mxmiss := y.mxmiss + 1 }) else s')
    else settle s

/-- Words whose checks were made at the latch fill, or that have none. -/
def noCheck (_ : MEntry) (s : State) : R State := .ok s

/-! ### Accumulators -/

/-- An accumulator row. -/
def accGet (e : Engines) (a i : Nat) : AccRow := kget ⟨0, false⟩ e.acc (96 * a + i)

/-- Replace an accumulator row. -/
def accSet (a i : Nat) (r : AccRow) (e : Engines) : Engines := { e with acc := kset ⟨0, false⟩ e.acc (96 * a + i) r }

/-- Element j of an accumulator row. -/
def accElem (r : AccRow) (j : Nat) : Nat := (r.bits.extractLsb' (32 * j) 32).toNat

/-- A row from its 96 elements. -/
def accRowOf (xs : List Nat) (bad : Bool) : AccRow :=
  ⟨BitVec.ofNat 3072 (leVal ((xs.map fun x => leBytes 4 x).flatten)), bad⟩

/-- c + s in F32, rounded once to nearest even (R124): code, INV, OVF. `bad`: an operand is NaN, or 0 × ∞ or infinities of both
signs met. A subnormal c enters as zero under FTZ (R118). An infinite s that meets a c that is NaN, which stays NaN, sets no OVF:
DEDUCED, log entry 41. -/
def accAdd (ftz : Bool) (c : Nat) (s : FVal) (bad : Bool) : Nat × Bool × Bool :=
  if bad then (0x7FC00000, true, false)
  else
    let (r, j) := fadd (flushIn 0 c ftz) s false
    let inf := match s with
      | .inf _ => !r.isNan
      | _ => false
    match roundIeee 0 r false .rne ftz with
    | .ok k _ o => (k, j, o || inf)
    | .trap => (0, j, inf)

/-- A result row: elements, and the flags of any of them. -/
def rowFlags (xs : List (Nat × Bool × Bool)) : List Nat × Bool × Bool := (xs.map (·.1), xs.any (·.2.1), xs.any (·.2.2))

/-- Replace rows of an accumulator and OR the flags. -/
def putAcc (a : Nat) (rows : List ((List Nat × Bool × Bool) × Bool)) (s : State) : State :=
  let s := s.updEng fun e => ((List.range rows.length).zip rows).foldl (fun e ir => accSet a ir.1 (accRowOf ir.2.1.1 ir.2.2) e) e
  orFlags s.me (rows.any fun r => r.1.2.1) (rows.any fun r => r.1.2.2) s

/-! ### MMA (R124, R259, R269) -/

/-- The terms of row i: for each group, codes of A with the rows of B they multiply (R113, R257). A zero row multiplies +0 with
each of the 24 rows of B of a group, sparse or not; elements of B that no index of a sparse row selects, and a kept element whose
index is 24 to 31, are no operands of its group, whatever they hold (log entry 41). -/
def aTerms (w : MWord) (m : Mem) (half i : Nat) : List (List (Nat × Nat)) :=
  match aRowAddr w m i with
  | none => (List.range (mGroups w)).map fun g => (List.range 24).map fun p => (0, 24 * g + p)
  | some ra => (List.range (mGroups w)).map fun g =>
    if w.sparse then
      let md := leVal (m.bytes ((mXbase w) + (i * (mGroups w) + g) * (mMetaBytes w)) (mMetaBytes w))
      (List.range (mKept w)).filterMap fun j =>
        let p := md / 2 ^ (5 * j) % 32
        if p < 24 then some (stashElem m ra half (g * (mKept w) + j), 24 * g + p) else none
    else (List.range 24).map fun p => (stashElem m ra half (24 * g + p), 24 * g + p)

/-- A scale as an exponent; none is NaN (R112). -/
def scaleExp (b : Byte) : Option Int := if b = 255 then none else some ((b.toNat : Int) - 127)

/-- The scale byte of A's row i or B's column j, and its poison. -/
def scaleByte (w : MWord) (l : Latch) (isB : Bool) (fmt i g : Nat) : Byte × Bool :=
  if !w.gscale || !takesScale fmt then (127, false)
  else if (if isB then w.bfmt else w.afmt) = 15 then
    kget (127, false) l.scales ((if isB then 8192 else 0) + 64 * i + g)
  else
    let a := (mXbase w) + (mMetaArea w) + (if isB then 96 * (mGroups w) else 0) + i * (mGroups w) + g
    (l.mem.byte a, l.mem.poisoned a 1)

/-- Multiply a value by 2^n. -/
def scaleVal (x : FVal) (n : Int) : FVal :=
  match x with
  | .fin s m e => if m = 0 then .fin s m e else .fin s m (e + n)
  | x => x

/-- One group of one output in F32. -/
def groupF32 (ftz : Bool) (fa fb : Nat) (ts : List (Nat × Nat)) (sa sb : Option Int) (c : Nat) : Nat × Bool × Bool :=
  let xs := ts.map fun t => (flushIn fa t.1 ftz, flushIn fb t.2 ftz)
  let ps := xs.map fun x => fmul x.1 x.2
  let (s, j) := exactSum (ps.map (·.1))
  let bad := (xs.any fun x => x.1.isNan || x.2.isNan) || ps.any (·.2) || j
  match sa, sb with
  | some p, some q => accAdd ftz c (scaleVal s (p + q)) bad
  | _, _ => accAdd ftz c s true

/-- One group of one output in I32. -/
def groupI32 (fa fb : Nat) (ts : List (Nat × Nat)) (c : Nat) : Nat :=
  intCode 14 (ts.foldl (fun (n : Int) t => n + intOf fa t.1 * intOf fb t.2) (intOf 14 c))

/-- One output: the groups in ascending order. -/
def mmaCell (ftz : Bool) (fa fb : Nat) (row : List (List (Nat × Nat))) (sa sb : List (Option Int)) (col : List Nat)
    (c : Nat) : Nat × Bool × Bool :=
  ((List.range row.length).zip row).foldl (fun acc gt =>
    let ts := gt.2.map fun t => (t.1, col.getD t.2 0)
    if fa ≤ 8 then
      let (k, i, o) := groupF32 ftz fa fb ts (sa.getD gt.1 (some 0)) (sb.getD gt.1 (some 0)) acc.1
      (k, acc.2.1 || i, acc.2.2 || o)
    else (groupI32 fa fb ts acc.1, acc.2)) (c, false, false)

/-- The formats in which an MMA runs: its tags as latched (R64). -/
def latchedFormat (fmt dflt : Nat) (l : Latch) (rs : List (Nat × Nat)) : Nat :=
  if fmt ≠ 15 then fmt
  else match granulesIn (rs.take 1) with
    | [] => dflt
    | g :: _ => (kget .plain l.tags g).fmt.toNat

/-- The poison that A row i brings (R269): its elements, metadata and scales. -/
def aPoison (w : MWord) (l : Latch) (fa i : Nat) : Bool :=
  match aRowAddr w l.mem i with
  | none => false
  | some ra => l.mem.poisoned ra (rowBytes (halfBytes fa) ((mKept w) * (mGroups w))) ||
      (w.sparse && l.mem.poisoned ((mXbase w) + i * (mGroups w) * (mMetaBytes w)) ((mGroups w) * (mMetaBytes w))) ||
      (List.range (mGroups w)).any fun g => (scaleByte w l false fa i g).2

/-- The poison that B brings to every row. -/
def bPoison (w : MWord) (l : Latch) (fb : Nat) : Bool :=
  ((bRanges w (halfBytes fb)).any fun r => l.mem.poisoned r.1 r.2) ||
    (List.range 96).any fun j => (List.range (mGroups w)).any fun g => (scaleByte w l true fb j g).2

/-- MMA from its latch. -/
def mmaBody (w : MWord) (e : MEntry) (s : State) : R State :=
  match e.latch with
  | none => wait
  | some l =>
    let m := l.mem
    let fb0 := w.bfmt.toNat
    let fa := latchedFormat w.afmt.toNat (if fb0 = 15 then 1 else fb0) l (aRanges w m 1)
    let fb := latchedFormat fb0 fa l (bRanges w 1)
    let ftz := modeFtz e.cap.mode
    let gs := List.range (mGroups w)
    let cols := (List.range 96).map fun j =>
      ((List.range (mDepth w)).map fun k => bElem w m (halfBytes fb) k j, gs.map fun g => scaleExp (scaleByte w l true fb j g).1)
    let pb := bPoison w l fb
    .ok (putAcc w.acc.toNat ((List.range 96).map fun i =>
      let row := aTerms w m (halfBytes fa) i
      let zero := (aRowAddr w m i).isNone
      let sa := gs.map fun g => if zero then some 0 else scaleExp (scaleByte w l false fa i g).1
      let old := accGet s.core.eng w.acc.toNat i
      (rowFlags (((List.range 96).zip cols).map fun jc => mmaCell ftz fa fb row sa jc.2.2 jc.2.1 (accElem old jc.1)),
       old.bad || pb || aPoison w l fa i)) s)

/-- MMA. -/
def execMma (w : MWord) (s : State) : Host.Outcome State Fault Refusal := runMatrix (.mma w) noCheck (mmaBody w) s

/-! ### The other accumulator words (R260) -/

/-- MZERO. -/
def execMzero (w : MWord) (s : State) : Host.Outcome State Fault Refusal :=
  runMatrix (.mzero w) noCheck (fun _ s => .ok (s.updEng fun e =>
    (List.range 96).foldl (fun e i => accSet w.acc.toNat i ⟨0, false⟩ e) e)) s

/-- MLDA: raw 32-bit elements. -/
def mldaBody (w : MWord) (e : MEntry) (s : State) : R State :=
  match e.latch with
  | none => wait
  | some l => .ok (putAcc w.acc.toNat ((sourceRanges w 8).map fun r =>
      (((List.range 96).map (stashElem l.mem r.1 8), false, false), l.mem.poisoned r.1 r.2)) s)

/-- MLDA. -/
def execMlda (w : MWord) (s : State) : Host.Outcome State Fault Refusal := runMatrix (.mlda w) noCheck (mldaBody w) s

/-- Add a row of elements of a format, flushed under FTZ (R118), into an accumulator row (R260). -/
def addRow (ftz : Bool) (fmt : Nat) (xs : List Nat) (old : AccRow) : List Nat × Bool × Bool :=
  rowFlags (((List.range 96).zip xs).map fun jx =>
    let c := accElem old jx.1
    if isFloat fmt then
      let v := flushIn fmt jx.2 ftz
      accAdd ftz c v v.isNan
    else (intCode 14 (intOf 14 c + intOf fmt jx.2), false, false))

/-- MADDA. -/
def maddaBody (w : MWord) (e : MEntry) (s : State) : R State :=
  match e.latch with
  | none => wait
  | some l =>
    let f := w.afmt.toNat
    let h := halfBytes f
    .ok (putAcc w.acc.toNat (((List.range 96).zip (sourceRanges w h)).map fun ir =>
      let old := accGet s.core.eng w.acc.toNat ir.1
      (addRow (modeFtz e.cap.mode) f ((List.range 96).map (stashElem l.mem ir.2.1 h)) old,
       old.bad || l.mem.poisoned ir.2.1 ir.2.2)) s)

/-- MADDA. -/
def execMadda (w : MWord) (s : State) : Host.Outcome State Fault Refusal := runMatrix (.madda w) noCheck (maddaBody w) s

/-- MBIAS. -/
def mbiasBody (w : MWord) (e : MEntry) (s : State) : R State :=
  match e.latch with
  | none => wait
  | some l =>
    let f := w.bfmt.toNat
    let h := halfBytes f
    let xs := (List.range 96).map (stashElem l.mem (mBbase w) h)
    let bad := l.mem.poisoned (mBbase w) (rowBytes h 96)
    .ok (putAcc w.acc.toNat ((List.range 96).map fun i =>
      let old := accGet s.core.eng w.acc.toNat i
      (addRow (modeFtz e.cap.mode) f xs old, old.bad || bad)) s)

/-- MBIAS. -/
def execMbias (w : MWord) (s : State) : Host.Outcome State Fault Refusal := runMatrix (.mbias w) noCheck (mbiasBody w) s

/-! ### MSTA (R261) -/

/-- The destination rows of MSTA. -/
def mstaRanges (w : MWord) : List (Nat × Nat) := sourceRanges w (halfBytes w.afmt.toNat)

/-- Step 1 of R268 for a range: every byte lies below the declared stash bytes or in a mapped window. -/
def stashPlaced (k : Core) (a n : Nat) : R Unit :=
  (pieces a n).foldlM (fun _ p =>
    need (decide (p.1 + p.2 ≤ k.decl.stash) || (winOfStash k p.1).isSome) cStashBounds (BitVec.ofNat 64 p.1)) ()

/-- The checks of MSTA: every byte it reads or writes is in bounds, then no destination lies in a read-intent window
(R268). -/
def mstaCheck (w : MWord) (_ : MEntry) (s : State) : R State := do
  (mstaRanges w).foldlM (fun _ r => stashPlaced s.core r.1 r.2) ()
  if w.kg.getLsbD 3 then stashPlaced s.core (mXbase w) 384
  let s ← if w.kg.getLsbD 3 then touch s.me (mXbase w) 384 s else .ok s
  (mstaRanges w).foldlM (fun s r => (pieces r.1 r.2).foldlM (fun s p => stashCheckWrite s.me p.1 p.2 s) s) s

/-- One element of MSTA: a source flushed under FTZ, like the row scale (R118). -/
def mstaCell (w : MWord) (cap : Capture) (scale : FVal) (i j c : Nat) : Conv :=
  let m := cap.mode
  let src := w.bfmt.toNat
  let t := w.afmt.toNat
  let (v, inv) := if w.kg.getLsbD 3 then fmul (flushIn src c (modeFtz m)) scale else (flushIn src c (modeFtz m), false)
  let r := rndOf (modeRnd m) cap.seed cap.psn (i * 96 + j)
  (if isFloat t then convertFloat src v false t r (w.kg.toNat % 4) (modeFtz m) (modeTiny0 m)
   else convertInt v t r (w.kg.getLsbD 2)).orInv inv

/-- The bytes of a row of element codes (R214). -/
def packElems (half : Nat) (xs : List Nat) : List Byte :=
  leBytes (rowBytes half xs.length) (((List.range xs.length).zip xs).foldl (fun n jx => n + jx.2 * 2 ^ (4 * half * jx.1)) 0)

/-- Write bytes that may cross granules of the stash. -/
def stashWriteMany (c : CoreId) (a : Nat) (bs : List Byte) (bad : Bool) (s : State) : R State :=
  (pieces a bs.length).foldlM (fun s p => stashWrite c p.1 ((bs.drop (p.1 - a)).take p.2) bad s) s

/-- MSTA: all elements are converted before any is written. -/
def mstaBody (w : MWord) (e : MEntry) (s : State) : R State := do
  let h := halfBytes w.afmt.toNat
  let m := s.core.stash
  let rs := w.kg.getLsbD 3
  let rows ← (List.range 96).mapM fun i => do
    let old := accGet s.core.eng w.acc.toNat i
    let sc := if rs then flushIn 0 (m.u32 ((mXbase w) + 4 * i)).toNat (modeFtz e.cap.mode) else .fin false 1 0
    let cells ← (List.range 96).mapM fun j =>
      match mstaCell w e.cap sc i j (accElem old j) with
      | .ok c inv ovf => .ok (c, inv, ovf)
      | .trap => raise cConvertTrap (BitVec.ofNat 64 (i * 96 + j))
    .ok (rowFlags cells, old.bad || (rs && m.poisoned ((mXbase w) + 4 * i) 4))
  let s ← ((mstaRanges w).zip rows).foldlM (fun s rr => stashWriteMany s.me rr.1.1 (packElems h rr.2.1.1) rr.2.2 s) s
  .ok (orFlags s.me (rows.any fun r => r.1.2.1) (rows.any fun r => r.1.2.2) s)

/-- MSTA. -/
def execMsta (w : MWord) (s : State) : Host.Outcome State Fault Refusal := runMatrix (.msta w) (mstaCheck w) (mstaBody w) s

/-! ### MXFR, MSYNC (R262, R263) -/

/-- MXFR: raw columns of accumulator rows into a v register or a load FIFO, which may be full. -/
def mxfrBody (w : MWord) (e : MEntry) (s : State) : R State :=
  let f (lo n : Nat) : Nat := (w.aaddr.toNat >>> lo) % 2 ^ n
  let rows : List Row := (List.range (f 13 6 + 1)).map fun q =>
    let r := accGet s.core.eng w.acc.toNat (f 6 7 + q)
    ⟨r.bits.extractLsb' (512 * f 19 3) 512, r.bad⟩
  if f 5 1 = 1 then do
    let eng ← fifoPush (f 0 5) ⟨rows, BitVec.ofNat 4096 (2 ^ (16 * rows.length) - 1), 8, e.cap.tag⟩ s.core.eng
    .ok (s.updEng fun _ => eng)
  else .ok (s.updEng fun g =>
    ((List.range rows.length).zip rows).foldl (fun g qr => setVRow (f 0 5) (f 22 5 + qr.1) qr.2 g) g)

/-- MXFR. -/
def execMxfr (w : MWord) (s : State) : Host.Outcome State Fault Refusal := runMatrix (.mxfr w) noCheck (mxfrBody w) s

/-- MSYNC. -/
def execMsync (w : MWord) (s : State) : Host.Outcome State Fault Refusal :=
  runMatrix (.msync w) noCheck (fun _ s => .ok s) s

end Sys2Proof.Machine
end

