-- ==== Sys2Proof/Machine/Transform.lean ====
section
/-!
DEFINITION. The transform sequencer of an S core (R139, R170, R288 to R298): runs, control and register instructions,
transfers through address generators, tokens.
-/
namespace Sys2Proof.Machine

/-! ### The running program -/

/-- Update the transform sequencer of the current core. -/
def State.updXs (s : State) (f : XSeq → XSeq) : State := s.upd fun k => { k with xs := f k.xs }

/-- An engine fault of the transform sequencer: it halts at the instruction (R139, R294). -/
def xseqFault (t : TrapInfo) (s : State) : State :=
  engineFault s.me .xseq t.cause t.addr ((countTrap t s).updXs fun x => { x with halted := true })

/-- ILLEGAL_INSTR with the word index. -/
def xIllegal {α : Type} (s : State) : R α := raise cIllegalInstr (BitVec.ofNat 64 s.core.xs.tpc)

/-- A field rule of R290. -/
def xNeed (s : State) (ok : Bool) : R Unit := if ok then .ok () else xIllegal s

/-- The end of a transform instruction. -/
def xDone (s : State) (r : R State) : Host.Outcome State Fault Refusal :=
  match r with
  | .ok s' => settle s'
  | .error .stall => settle s
  | .error (.trap t) => settle (xseqFault t s)

/-- Run a transform instruction on the current core: only an S core whose run is active and not halted moves. -/
def xrunning (body : State → R State) (s : State) : Host.Outcome State Fault Refusal :=
  if isS s.me && s.core.xs.active && !s.core.xs.halted then xDone s (body s) else settle s

/-- Go on to a word. -/
def xGoto (n : Nat) (s : State) : State := s.updXs fun x => { x with tpc := n }

/-- Go on to the next word. -/
def xNext (s : State) : State := xGoto (s.core.xs.tpc + 1) s

/-- An h register. -/
def hGet (s : State) (r : BitVec 3) : PReg := vget r s.core.xs.h

/-- Write an h register. -/
def hPut (r : BitVec 3) (v : PReg) (s : State) : State := s.updXs fun x => { x with h := vset r v x.h }

/-- The next run of the entry in front starts: h0 is its number and the program begins at its first word (R170). -/
def execTransformRunStart (s : State) : Host.Outcome State Fault Refusal :=
  match s.core.xs.runs with
  | [] => settle s
  | e :: _ =>
    if s.core.xs.active then settle s
    else settle (s.updXs fun x =>
      { x with h := vset (0 : BitVec 3) ⟨BitVec.ofNat 64 e.num, false⟩ x.h, tpc := e.first.toNat, loops := [], xprog := 0, active := true })

/-! ### Control (R292) -/

/-- HALT ends the run: the entry's next run, or the next entry, may start. -/
def execXseqHalt (w : XWord) (s : State) : Host.Outcome State Fault Refusal :=
  xrunning (fun s => do
    xNeed s (decide (w = ⟨0, 0, 0, 0⟩))
    .ok (s.updXs fun x =>
      { x with
        loops := [], active := false,
        runs := match x.runs with
          | [] => []
          | e :: rest => if e.left ≤ 1 then rest else { e with left := e.left - 1, num := e.num + 1 } :: rest })) s

/-- The op6 of word i of the transform memory. -/
def xop (s : State) (i : Nat) : Nat := (fld (kget 0 s.core.xmem i) 0 6).toNat

/-- The word after the ENDL that matches a LOOP: `fuel` words from i on, `depth` loops open. -/
def xscan (s : State) : Nat → Nat → Nat → Option Nat
  | 0, _, _ => none
  | fuel + 1, i, depth =>
    if 4096 ≤ i then none
    else if xop s i = 1 then xscan s fuel (i + 1) (depth + 1)
    else if xop s i = 2 then (if depth = 0 then some (i + 1) else xscan s fuel (i + 1) (depth - 1))
    else xscan s fuel (i + 1) depth

/-- LOOP: a body run c times, or skipped. -/
def execXseqLoop (w : XWord) (s : State) : Host.Outcome State Fault Refusal :=
  xrunning (fun s => do
    xNeed s (decide (w.hd = 0 ∧ w.ag = 0) && (decide (w.imm = 0) || decide (w.hs = 0)))
    let c ← if w.imm = 0 then do
        let v ← clean (hGet s w.hs)
        .ok (bits v 31 0)
      else .ok w.imm.toNat
    let tpc := s.core.xs.tpc
    if c = 0 then
      match xscan s 4096 (tpc + 1) 0 with
      | some i => .ok (xGoto i s)
      | none => xIllegal s
    else do
      xNeed s (decide (s.core.xs.loops.length < 4))
      .ok (xNext (s.updXs fun x => { x with loops := (tpc + 1, c) :: x.loops }))) s

/-- ENDL: one pass less of the innermost body. -/
def execEndl (w : XWord) (s : State) : Host.Outcome State Fault Refusal :=
  xrunning (fun s => do
    xNeed s (decide (w = ⟨0, 0, 0, 0⟩))
    match s.core.xs.loops with
    | [] => xIllegal s
    | (start, n) :: rest =>
      if n ≤ 1 then .ok (xNext (s.updXs fun x => { x with loops := rest }))
      else .ok (xGoto start (s.updXs fun x => { x with loops := (start, n - 1) :: rest }))) s

/-- BRNZ: a relative branch on a nonzero register. -/
def execBrnz (w : XWord) (s : State) : Host.Outcome State Fault Refusal :=
  xrunning (fun s => do
    xNeed s (decide (w.hd = 0 ∧ w.ag = 0))
    let v ← clean (hGet s w.hs)
    if v = 0 then .ok (xNext s)
    else do
      let t : Int := s.core.xs.tpc + w.imm.toInt
      xNeed s (decide (0 ≤ t ∧ t < 4096))
      .ok (xGoto t.toNat s)) s

/-! ### Registers (R293) -/

/-- SETH. -/
def execSeth (w : XWord) (s : State) : Host.Outcome State Fault Refusal :=
  xrunning (fun s => do
    xNeed s (decide (w.ag = 0 ∧ w.hs.toNat ≤ 3))
    let k := 16 * w.hs.toNat
    let old := hGet s w.hd
    let v : PReg :=
      if w.hs = 0 then ⟨sext64 w.imm, false⟩
      else ⟨(old.val &&& ~~~(0xFFFF#64 <<< k)) ||| (zext64 w.imm <<< k), old.bad⟩
    .ok (xNext (hPut w.hd v s))) s

/-- ADDH. -/
def execAddh (w : XWord) (s : State) : Host.Outcome State Fault Refusal :=
  xrunning (fun s => do
    xNeed s (decide (w.ag = 0))
    let a := hGet s w.hs
    .ok (xNext (hPut w.hd ⟨a.val + sext64 w.imm, a.bad⟩ s))) s

/-- A generator with one field written and its indices 0. -/
def setField (f : Nat) (v : Word) (a : AddrGen) : AddrGen :=
  let a := { a with idx := Vector.replicate 4 0 }
  let cnt : BitVec 16 := if v.extractLsb' 0 16 = 0 then 1 else v.extractLsb' 0 16
  if f = 0 then { a with base := v }
  else if f ≤ 4 then { a with cnt := vset (BitVec.ofNat 2 (f - 1)) cnt a.cnt }
  else if f ≤ 8 then { a with str := vset (BitVec.ofNat 2 (f - 5)) (v.extractLsb' 0 32) a.str }
  else a

/-- SETAG. A poisoned h register faults POISON_CONSUMED for every field that it writes: R293 lists a count and a BASE source, and that
STR is covered too, since a generator holds no poison, is a DESIGN CHOICE, log entry 69. -/
def execSetag (w : XWord) (s : State) : Host.Outcome State Fault Refusal :=
  xrunning (fun s => do
    let f := w.imm.toNat
    xNeed s (decide (w.hd = 0 ∧ f ≤ 9) && (decide (f ≠ 9) || decide (w.hs = 0)))
    let v ← if f = 9 then .ok 0 else clean (hGet s w.hs)
    .ok (xNext (s.updXs fun x => { x with ag := vset w.ag (setField f v (vget w.ag x.ag)) x.ag }))) s

/-! ### Address generators (R289) -/

/-- The current address of a generator. -/
def agAddr (a : AddrGen) : Word :=
  (List.range 4).foldl (fun t d =>
    t + zext64 (a.idx.toList.getD d 0) * sext64 (a.str.toList.getD d 0)) a.base

/-- The step of a generator from dimension d on: `fuel` dimensions are left. -/
def agCarry (cnt : Vector (BitVec 16) 4) : Nat → BitVec 2 → Vector (BitVec 16) 4 → Vector (BitVec 16) 4
  | 0, _, idx => idx
  | fuel + 1, d, idx =>
    let i := vget d idx + 1
    if i = vget d cnt then agCarry cnt fuel (d + 1) (vset d 0 idx) else vset d i idx

/-- A generator after one element access. -/
def agStep (a : AddrGen) : AddrGen := { a with idx := agCarry a.cnt 4 0 a.idx }

/-- Step a generator of the current core. -/
def stepGen (g : BitVec 4) (s : State) : State := s.updXs fun x => { x with ag := vset g (agStep (vget g x.ag)) x.ag }

/-- Read an element through a generator and step it (R294 step 1). -/
def genRead (g : BitVec 4) (n : Nat) (s : State) : R (State × List Byte × Bool) := do
  let ea := agAddr (vget g s.core.xs.ag)
  let _ ← decodeEA ea
  need (decide (ea.toNat % n = 0)) cAlign ea
  let (s, bs, bad) ← coreRead s.me .engine ea n s
  .ok (stepGen g s, bs, bad)

/-- Write an element through a generator and step it (R294 step 3). -/
def genWrite (g : BitVec 4) (bs : List Byte) (bad : Bool) (s : State) : R State := do
  let ea := agAddr (vget g s.core.xs.ag)
  let _ ← decodeEA ea
  need (decide (ea.toNat % bs.length = 0)) cAlign ea
  let s ← coreWrite s.me .engine ea bs bad s
  .ok (stepGen g s)

/-! ### Transfers (R294, R295) -/

/-- How a transfer stands after some elements: complete, or stopped before element XPROG. -/
def elements (one : Nat → State → R State) : Nat → Nat → State → State × Option Stop
  | 0, _, s => (s, none)
  | n + 1, i, s =>
    match one i s with
    | .ok s' => elements one n (i + 1) (s'.updXs fun x => { x with xprog := i + 1 })
    | .error e => (s, some e)

/-- A transfer completes: its flags go to MODE (R120). -/
def finishTransfer (s : State) : State :=
  let f := s.core.xs.flags
  xNext (orFlags s.me (f.getLsbD 0) (f.getLsbD 1) (s.updXs fun x => { x with xprog := 0, bits := 0, bitsBad := false, flags := 0 }))

/-- A transfer of n elements from XPROG on: a fault or a wait keeps what is done (R294). -/
def transfer (legal : State → Nat → Bool) (w : XWord) (one : Nat → State → R State) (s : State) :
    Host.Outcome State Fault Refusal :=
  if !(isS s.me && s.core.xs.active && !s.core.xs.halted) then settle s
  else
    let counted : R Nat := do
      xNeed s (legal s 0)
      let v ← clean (hGet s w.hs)
      xNeed s (legal s (bits v 31 0))
      .ok (bits v 31 0)
    match counted with
    | .error e => xDone s (.error e)
    | .ok n =>
      match elements one (n - s.core.xs.xprog) s.core.xs.xprog s with
      | (s, none) => settle (finishTransfer s)
      | (s, some e) => xDone s (.error e)

/-- The destination generator of a transfer. -/
def xdst (w : XWord) : BitVec 4 := fld w.imm 0 4

/-- One element of MOVE. -/
def moveOne (w : XWord) (_ : Nat) (s : State) : R State := do
  let (s, bs, bad) ← genRead w.ag (2 ^ (fld w.imm 4 2).toNat) s
  genWrite (xdst w) bs bad s

/-- MOVE with TOH = 1: one element into a register. -/
def moveToH (w : XWord) (s : State) : R State := do
  xNeed s (decide (fld w.imm 7 9 = 0 ∧ w.hs = 0 ∧ xdst w = 0))
  let (s, bs, bad) ← genRead w.ag (2 ^ (fld w.imm 4 2).toNat) s
  .ok (xNext (hPut w.hd ⟨BitVec.ofNat 64 (leVal bs), bad⟩ s))

/-- MOVE. -/
def execMove (w : XWord) (s : State) : Host.Outcome State Fault Refusal :=
  if w.imm.getLsbD 6 then xrunning (moveToH w) s
  else transfer (fun _ _ => decide (fld w.imm 7 9 = 0 ∧ w.hd = 0)) w (moveOne w) s

/-- The types of CVT: no 4-bit type, and sat only for an integer target. -/
def cvtLegal (w : XWord) : Bool :=
  let src := (fld w.imm 4 4).toNat
  let dst := (fld w.imm 8 4).toNat
  decide (w.hd = 0 ∧ fld w.imm 13 3 = 0) && decide (src ≠ 6 ∧ src ≠ 11 ∧ dst ≠ 6 ∧ dst ≠ 11) &&
    (!w.imm.getLsbD 12 || !isFloat dst)

/-- The mode state that the entry in front captured. -/
def xmode (s : State) : BitVec 7 :=
  match s.core.xs.runs with
  | [] => 0
  | e :: _ => e.mode

/-- One element of CVT; a captured RND of SR rounds as RNE. CVT is no compute word: a signalling NaN behaves as a quiet one
(R114). -/
def cvtOne (w : XWord) (i : Nat) (s : State) : R State := do
  let src := (fld w.imm 4 4).toNat
  let dst := (fld w.imm 8 4).toNat
  let m := xmode s
  let (s, bs, bad) ← genRead w.ag (halfBytes src / 2) s
  let rnd := rndOf (if modeRnd m = 5 then 0 else modeRnd m) 0 0 0
  match convert src (leVal bs) dst rnd (modeOvp m) (w.imm.getLsbD 12) (modeFtz m) (modeTiny0 m) with
  | .trap => raise cConvertTrap (BitVec.ofNat 64 i)
  | .ok c inv ovf => do
    let s ← genWrite (xdst w) (leBytes (halfBytes dst / 2) c) bad s
    .ok (s.updXs fun x => { x with flags := x.flags ||| (BitVec.ofBool ovf ++ BitVec.ofBool inv) })

/-- CVT. -/
def execCvt (w : XWord) (s : State) : Host.Outcome State Fault Refusal := transfer (fun _ _ => cvtLegal w) w (cvtOne w) s

/-- The field width b of PACK and UNPK. -/
def packBits (w : XWord) : Nat := (fld w.imm 4 4).toNat + 1

/-- The element size of PACK and UNPK in bytes. -/
def packSize (w : XWord) : Nat := 2 ^ (fld w.imm 8 2).toNat

/-- b fits the element and n fields fill whole bytes. -/
def packLegal (w : XWord) (top : Nat) (n : Nat) : Bool :=
  decide (w.hd = 0 ∧ w.imm.toNat < 2 ^ top ∧ (fld w.imm 8 2).toNat ≤ 1 ∧ packBits w ≤ 8 * packSize w) &&
    decide (n * packBits w % 8 = 0)

/-- Write each completed byte of the stream: `n` bits stand in `v`, of which the first byte's are poisoned if `first` says so
and later ones if `bad` does. The answer holds the bits left and their poison. -/
def flushBytes (g : BitVec 4) (bad : Bool) : Nat → Bool → Nat → Nat → State → R (State × Nat × Bool)
  | 0, first, _, v, s => .ok (s, v, first)
  | fuel + 1, first, n, v, s =>
    if n < 8 then .ok (s, v, first)
    else do
      let s ← genWrite g [BitVec.ofNat 8 v] first s
      flushBytes g bad fuel bad (n - 8) (v / 256) s

/-- One element of PACK: its low b bits join the stream. -/
def packOne (w : XWord) (i : Nat) (s : State) : R State := do
  let b := packBits w
  let (s, bs, bad) ← genRead w.ag (packSize w) s
  let held := i * b % 8
  let first := bad || (decide (held ≠ 0) && s.core.xs.bitsBad)
  let (s, v, q) ← flushBytes (xdst w) bad 3 first (held + b) (s.core.xs.bits + leVal bs % 2 ^ b * 2 ^ held) s
  .ok (s.updXs fun x => { x with bits := v, bitsBad := q })

/-- PACK. -/
def execPack (w : XWord) (s : State) : Host.Outcome State Fault Refusal := transfer (fun _ n => packLegal w 10 n) w (packOne w) s

/-- Read bytes of the stream until b bits stand in `v`: the bits, whether any is poisoned, and whether the last byte read is. -/
def fillBits (g : BitVec 4) (b : Nat) : Nat → Nat → Nat → Bool × Bool → State → R (State × Nat × Bool × Bool)
  | 0, _, v, bad, s => .ok (s, v, bad)
  | fuel + 1, n, v, bad, s =>
    if b ≤ n then .ok (s, v, bad)
    else do
      let (s, bs, q) ← genRead g 1 s
      fillBits g b fuel (n + 8) (v + leVal bs * 2 ^ n) (bad.1 || q, q) s

/-- One field of UNPK. -/
def unpackOne (w : XWord) (i : Nat) (s : State) : R State := do
  let b := packBits w
  let held := (8 - i * b % 8) % 8
  let old := decide (held ≠ 0) && s.core.xs.bitsBad
  let (s, v, bad, last) ← fillBits w.ag b 3 held s.core.xs.bits (old, old) s
  let f := v % 2 ^ b
  let out : Nat := if w.imm.getLsbD 10 ∧ 2 ^ (b - 1) ≤ f then f + 2 ^ (8 * packSize w) - 2 ^ b else f
  let s ← genWrite (xdst w) (leBytes (packSize w) out) bad s
  .ok (s.updXs fun x => { x with bits := v / 2 ^ b, bitsBad := last })

/-- UNPK. -/
def execUnpk (w : XWord) (s : State) : Host.Outcome State Fault Refusal := transfer (fun _ n => packLegal w 11 n) w (unpackOne w) s

/-- One element of TRANS: a table element of the stash, chosen by the index read. -/
def transOne (w : XWord) (_ : Nat) (s : State) : R State := do
  let base ← clean (hGet s w.hd)
  let tz := 2 ^ (fld w.imm 6 2).toNat
  let (s, bs, bad) ← genRead w.ag (2 ^ (fld w.imm 4 2).toNat) s
  let ea := base + BitVec.ofNat 64 (leVal bs * tz)
  let declared (a : Nat) : Bool := decide (a < s.core.decl.stash) || (winOfStash s.core a).isSome
  need (decide (ea.toNat + tz ≤ 0x100000) && (List.range tz).all fun i => declared (ea.toNat + i)) cStashBounds ea
  need (!bad) cPoison ea
  let (s, t, q) ← coreReadMany s.me .engine ea tz s
  genWrite (xdst w) t q s

/-- TRANS. -/
def execTrans (w : XWord) (s : State) : Host.Outcome State Fault Refusal :=
  transfer (fun _ _ => decide (fld w.imm 8 8 = 0 ∧ (fld w.imm 4 2).toNat ≤ 1)) w (transOne w) s

/-! ### Tokens (R296) -/

/-- The token and count of TOKW and TOKS. -/
def tokenArgs (w : XWord) (s : State) : R (BitVec 3 × Nat) := do
  let n := (fld w.imm 3 13).toNat
  xNeed s (decide (w.hd = 0 ∧ w.ag = 0) && (decide (n = 0) || decide (w.hs = 0)))
  if n = 0 then do
    let v ← clean (hGet s w.hs)
    .ok (fld w.imm 0 3, bits v 15 0)
  else .ok (fld w.imm 0 3, n)

/-- TOKW waits until the count reaches n, and takes n. -/
def execTokw (w : XWord) (s : State) : Host.Outcome State Fault Refusal :=
  xrunning (fun s => do
    let (t, n) ← tokenArgs w s
    let x := (vget t s.core.xs.tk).toNat
    if x < n then wait else .ok (xNext (s.updXs fun y => { y with tk := vset t (BitVec.ofNat 16 (x - n)) y.tk }))) s

/-- TOKS waits until the count has room, and adds n. -/
def execToks (w : XWord) (s : State) : Host.Outcome State Fault Refusal :=
  xrunning (fun s => do
    let (t, n) ← tokenArgs w s
    let x := (vget t s.core.xs.tk).toNat
    if 65535 < x + n then wait else .ok (xNext (s.updXs fun y => { y with tk := vset t (BitVec.ofNat 16 (x + n)) y.tk }))) s

/-! ### What the transform sequencer does next -/

/-- An op6 of 0E to 3F halts the transform sequencer with ILLEGAL_INSTR (R139). -/
def execXseqReservedOpcode (_ : Unit32) (s : State) : Host.Outcome State Fault Refusal :=
  xrunning (fun s => xIllegal s) s

/-- The next move of the transform sequencer of a core: a run starts, or the word at TPC; a fetch at word 4,096 is
ILLEGAL_INSTR (R292). A poisoned word of the program memory does not exist: the memory carries no poison (R405). -/
def xseqWork (s : State) : State × Option Instr :=
  if !isS s.me || s.core.xs.halted then (s, none)
  else if !s.core.xs.active then (s, if s.core.xs.runs.isEmpty then none else some .transformRunStart)
  else if 4096 ≤ s.core.xs.tpc then (xseqFault { cause := cIllegalInstr, addr := BitVec.ofNat 64 s.core.xs.tpc } s, none)
  else (s, some (transformInstr (kget 0 s.core.xmem s.core.xs.tpc)))

end Sys2Proof.Machine
end

