-- ==== Sys2Proof/Machine/Shed.lean ====
section
/-!
DEFINITION. Shedding an engine (R212, R414, R298, R353) from supervisor code and from the host (R454), and the hang
detector (R452, R453).
-/
namespace Sys2Proof.Machine

/-! ### Who takes ENGINE_SHED (R414, R406) -/

/-- ENGINE_SHED for a core: at once if its gang runs, kept for it if its gang is stopping or has not started; one undelivered fault for each
unit (R402, R406, R454). After the member's HALT it kills the node (R402). -/
def shedCore (c : CoreId) (u : FaultUnit) (sel : Word) (s : State) : State :=
  let k := s.coreAt c
  if k.pend.any fun f => decide (f.cause = cEngineShed) && decide (f.unit_ = u) then s
  else match gangOf s c with
    | none => s
    | some g =>
      if afterHalt c s then engineFault c u cEngineShed sel s
      else if !g.slots.isEmpty || decide (g.state = .placed ∨ g.state = .waitP0) then
        if g.pending.any fun cf => decide (cf.1 = c) && decide (cf.2.unit_ = u) then s
        else updGang g.num (fun g => { g with pending := g.pending ++ [(c, ⟨u, cEngineShed, sel, s.cycle⟩)] }) s
      else if k.rg.status = .off ∨ k.rg.status = .killed then s
      else engineFault c u cEngineShed sel s

/-- The HBM address of a save slot (R406, R419). -/
def slotBase (s : State) (slot : Nat) : Nat := s.sched.savebase.toNat + slot * 2 ^ 22

/-- PENDING of a member's save area (R407). -/
def notePending (g : Gang) (c : CoreId) (s : State) : State :=
  match ((g.members.zip g.slots).find? fun cs => decide (cs.1 = c)) with
  | some (_, i) => s.updMem .hbm fun m => m.write (slotBase s i + 0xD8) [cEngineShed] false
  | none => s

/-- ENGINE_SHED recorded for a member of each saved gang that the reset affects (R406). -/
def shedSaved (hit : Gang → Option CoreId) (u : FaultUnit) (sel : Word) (s : State) : State :=
  s.sched.gangs.foldl (fun s g =>
    match (if g.state = .saved then hit g else none) with
    | some c =>
      if g.pending.any fun cf => decide (cf.1 = c) && decide (cf.2.unit_ = u) then s
      else updGang g.num (fun g => { g with pending := g.pending ++ [(c, ⟨u, cEngineShed, sel, s.cycle⟩)] }) (notePending g c s)
    | none => s) s

/-- ENGINE_SHED to the owner of a core's engine: the running gang and any saved gang of the core. -/
def shedOwner (c : CoreId) (u : FaultUnit) (sel : Word) (s : State) : State :=
  shedSaved (fun g => if g.members.contains c then some c else none) u sel (shedCore c u sel s)

/-- ENGINE_SHED to the lead core of every gang that satisfies a condition. -/
def shedLeads (p : Gang → Bool) (u : FaultUnit) (sel : Word) (s : State) : State :=
  let s' := s.sched.gangs.foldl (fun s g =>
    match g.members with
    | lead :: _ => if p g && decide (g.state ≠ .saved) then shedCore lead u sel s else s
    | [] => s) s
  shedSaved (fun g => if p g then g.members.head? else none) u sel s'

/-! ### A copy channel -/

/-- The moves of a record to its destination, as far as they can be told, with its MULTICAST targets (R274, R276). -/
def destPieces (c : CoreId) (r : CopyRec) (s : State) : Option (List CoreId) × List Piece :=
  let cut (rows : List (Int × Nat)) : List Piece :=
    (rows.filter fun dn => decide (0 ≤ dn.1)).flatMap fun dn => cutRow none (fun _ => 0) dn.1 dn.2
  if r.kind = 4 then
    let ts := (multicastSlots r).filterMap (multicastCore s c)
    (some ts, (cut (dstRows r r.e0.toNat)).filter fun p => ts.all fun t => decide (p.dst + p.n ≤ (s.coreAt t).decl.stash))
  else
    let list := if listBytes r = 0 then [] else match chanRead c r.kindAux (listBytes r) s with
      | .ok (_, bs, _) => bs
      | .error _ => []
    (none, cut (recordRows (slotOf c) r list))

/-- Free bytes in the destination beyond a watermark (R414; log entry 2). A place that the channel cannot write stays. -/
def scramble (c : CoreId) (r : CopyRec) (done : Nat) (s : State) : State :=
  let (ts, ps) := destPieces c r s
  (skipPieces done ps).foldl (fun s p =>
    let bs := (List.range p.n).map fun i => Config.freeByte (s.free + i)
    attempt (putPiece c ts p.dst bs false .plain) { s with free := s.free + p.n }) s

/-- The record that a channel is in: the one it walks, or the one that COPY_XLATE halted (R188, R403). -/
def currentRecord (c : CoreId) (n : BitVec 3) (s : State) : Option CopyRec :=
  let ch := vget n (s.coreAt c).chans
  if chanBusy ch then
    match chanRead c ch.va 128 s with
    | .ok (_, bs, _) =>
      let r := recFields (BitVec.ofNat 1024 (leVal bs))
      if r.ctl.getLsbD 63 then some r else none
    | .error _ => none
  else none

/-- Shed a copy channel: its current record ends with status 0x22 and arrives with the error; the channel is IDLE; bytes
beyond WMARK are free (R271, R414). A record whose moves are done keeps its bytes. -/
def shedChannel (c : CoreId) (n : BitVec 3) (sel : Word) (s : State) : State :=
  let ch := vget n (s.coreAt c).chans
  let s := match currentRecord c n s with
    | none => s
    | some r =>
      let s := match ch.resume with
        | some (.writes _ _ _ _) => s
        | some (.record d) => if recordOk r then scramble c r d s else s
        | _ => if recordOk r then scramble c r 0 s else s
      let s := attempt (writeCtl c ch.va cEngineShed) (attempt (writeResult c ch.va 0) s)
      updChan c n (fun ch => { ch with status := cEngineShed, ended := ch.ended + 1 })
        (recordArrival c r cEngineShed 0 s)
  let s := updChan c n (fun ch =>
    { ch with state := .idle, resume := none, wmark := 0, twait := false, reread := 0, stopAt := false }) s
  shedOwner c (.chan n) sel s

/-! ### The other engines -/

/-- Shed a matrix engine: MXQ and its latches are emptied, the accumulators are +0, not poisoned (R414). -/
def shedMatrix (c : CoreId) (sel : Word) (s : State) : State :=
  shedOwner c .mx sel (s.updCore c fun k => { k with eng := { k.eng with mxq := [], acc := [], mxHalted := false } })

/-- The requests of an engine that the cores of a list have in flight, dropped without an element (R414). -/
def dropInFlight (e : EngineId) (cs : List CoreId) (s : State) : State :=
  cs.foldl (fun s c => s.updCore c fun k =>
    { k with reqs := k.reqs.filter fun r => !(decide (r.eng = e) && r.result.isNone) }) s

/-- Shed a sampler: every context stops with RUN = 0; requests in flight free their slots (R310, R414). -/
def shedSampler (k : Fin 32) (sel : Word) (s : State) : State :=
  let s := s.updCluster k fun cl => { cl with smp := cl.smp.map fun ix => (ix.1, { ix.2 with run := 0 }) }
  shedLeads (fun g => decide (g.cluster.toFin = k) && !g.smp.isEmpty) (.sampler 0) sel (dropInFlight .sampler (coresOf k) s)

/-- The cores of a die. -/
def coresOfDie (d : Fin 4) : List CoreId := allCores.filter fun c => decide (dieOf c = d)

/-- Shed a UME: every block context becomes unconfigured; requests in flight yield BADOBJ (R414). -/
def shedUme (d : Fin 4) (sel : Word) (s : State) : State :=
  let s := s.updDie d fun x => { x with ume := x.ume.map fun ix => (ix.1, { (default : UmeCtx) with gang := ix.2.gang }) }
  let s := (coresOfDie d).foldl (fun s c =>
    ((s.coreAt c).reqs.filter fun r => decide (r.eng = .ume) && r.result.isNone).foldl
      (fun s r => completeReq c r.order (element 0x03 0) false s) s) s
  shedLeads (fun g => decide (g.cluster.toNat / 8 = d.val) && !g.ume.isEmpty) .ume sel s

/-- STATE = INVALID and BOUND = 0 in a record of the FE area, with the HANDLE of the record that was bound: one initialised at
its binding holds it in the engine only. A write that fails is logged (R343, R353). -/
def invalidate (c : CoreId) (r : FeRec) (s : State) : State :=
  let va := recordVa s r.ctx r.region
  let put (o : Nat) (bs : List Byte) (s : State) : R State := globalWrite c r.ctx (va + o) bs false s
  match (put 0 [6] s >>= put 3 [0] >>= put 0x20 (bvBytes 8 r.handle)) with
  | .ok s => s
  | .error _ => logError 4 0 0 r.ctx.toNat 0xFFFF s

/-- Shed a fitting engine: every binding ends with its record INVALID (R353). -/
def shedFe (k : Fin 32) (sel : Word) (s : State) : State :=
  let rs := (s.cluster k).fe
  let s' := rs.foldl (fun s r => invalidate (coreIn k 0) r s) s
  let s' := s'.updCluster k fun cl => { cl with fe := [] }
  shedLeads (fun g => rs.any fun r => decide (r.gang = g.num)) .fe sel s'

/-- Shed a transform sequencer: the run queue is empty, its state as at launch but for the token counts (R298). -/
def shedTransform (c : CoreId) (sel : Word) (s : State) : State :=
  shedOwner c .xseq sel (s.updCore c fun k => { k with xs := { XSeq.launch with tk := k.xs.tk } })

/-! ### The selector (R212) -/

/-- A selector that the encoding admits: reserved bits 0, KIND 0 to 5, CH only with KIND 0, a unit of the right class. -/
def selectorOk (v : Word) : Bool :=
  let kind := (v.extractLsb' 0 4).toNat
  let unit := (v.extractLsb' 4 10).toNat
  decide (v.extractLsb' 17 47 = 0) && decide (kind ≤ 5) && (decide (kind = 0) || decide (v.extractLsb' 14 3 = 0)) &&
    !(decide (kind = 1) && decide (unit < 320 ∧ 8 ≤ unit % 10)) && !(decide (kind = 5) && decide (unit < 320 ∧ unit % 10 < 8))

/-- The selector names a unit of a core's cluster, or the UME of its die. -/
def selectorNear (c : CoreId) (v : Word) : Bool :=
  let kind := (v.extractLsb' 0 4).toNat
  let unit := (v.extractLsb' 4 10).toNat
  if kind = 0 ∨ kind = 1 ∨ kind = 5 then decide (unit / 10 = (clusterOf c).val)
  else if kind = 3 then decide (unit = (dieOf c).val) else decide (unit = (clusterOf c).val)

/-- The selector names a unit that exists. -/
def selectorExists (v : Word) : Bool :=
  let kind := (v.extractLsb' 0 4).toNat
  let unit := (v.extractLsb' 4 10).toNat
  if kind = 0 ∨ kind = 1 ∨ kind = 5 then decide (unit < 320)
  else if kind = 3 then decide (unit < 4) else decide (unit < 32)

/-- Reset the engine of a selector and count it (R414, R451). -/
def shedEngine (v : Word) (s : State) : State :=
  let unit := (v.extractLsb' 4 10).toNat
  let c : CoreId := Fin.ofNat 320 unit
  let s := { s with sheds := s.sheds + 1 }
  match (v.extractLsb' 0 4).toNat with
  | 0 => shedChannel c (v.extractLsb' 14 3) v s
  | 1 => shedMatrix c v s
  | 2 => shedSampler (Fin.ofNat 32 unit) v s
  | 3 => shedUme (Fin.ofNat 4 unit) v s
  | 4 => shedFe (Fin.ofNat 32 unit) v s
  | _ => shedTransform c v s

/-- SHED: supervisor only; a bad selector is ILLEGAL_INSTR, a target outside the cluster PRIV (R212). A poisoned selector faults
POISON_CONSUMED, as it names a target (DESIGN CHOICE, log entry 33). -/
def execShed (ga : Reg) (s : State) : Host.Outcome State Fault Refusal :=
  conclude s (do
    need s.core.rg.sup cPriv (zext64 s.pc)
    plain 4 [ga] (fun s => do
      let v ← clean (s.g ga)
      need (selectorOk v) cIllegalInstr (zext64 s.pc)
      need (selectorNear s.me v) cPriv (zext64 s.pc)
      .ok (shedEngine v s)) s)

/-- A host write of SHEDSEL resets the engine its selector names; one that names none is ignored and logged (R414, R415,
R454). -/
def hostShed (value : Word) (s : State) : State :=
  if selectorOk value && selectorExists value then shedEngine value s else logHostWrite s

/-- SHEDSEL. -/
def execShedsel (value : Word) (s : State) : Host.Outcome State Fault Refusal :=
  settle (if s.ident.phase = 5 then hostShed value s else s)

/-! ### The hang detector (R453) -/

/-- The head of MXQ waits for its stamp tick, or for room in a load FIFO (R453). -/
def matrixWaits (c : CoreId) (s : State) : Bool :=
  match (s.coreAt c).eng.mxq with
  | [] => false
  | e :: _ =>
    decide (stampGate e { s with focus := { s.focus with core := c } } = .hold) ||
      match e.word with
      | .mxfr w => w.aaddr.getLsbD 5 && decide (4 ≤ (fifoGet (s.coreAt c).eng (w.aaddr.extractLsb' 0 5).toNat).length)
      | _ => false

/-- The transform sequencer of a core waits at TOKW or TOKS: its count does not let the word go on (R296, R453). -/
def atToken (c : CoreId) (s : State) : Bool :=
  let x := (s.coreAt c).xs
  let t := { s with focus := { s.focus with core := c } }
  let waits (w : XWord) (p : Nat → Nat → Bool) : Bool :=
    match tokenArgs w t with
    | .ok (k, n) => p (vget k x.tk).toNat n
    | .error _ => false
  match transformInstr (kget 0 (s.coreAt c).xmem x.tpc) with
  | .tokw w => waits w fun k n => decide (k < n)
  | .toks w => waits w fun k n => decide (65535 < k + n)
  | _ => false

/-- A core serves a gang: what a saved gang has left on it is not watched (R453). -/
def watched (c : CoreId) (s : State) : Bool := decide ((s.coreAt c).rg.status ≠ .off)

/-- A core stands at the BEGIN of a region whose record is in SERVE: a served BEGIN that waits for its outputs (R346, R453). -/
def servedBegin (c : CoreId) (s : State) : Bool :=
  let k := s.coreAt c
  decide (k.rg.status = .running) &&
    match decodeControl (controlUnit k k.rg.pc.toNat) 0 0, k.gang with
    | .ok (.approxBegin n), some g => (findRecord s (clusterOf c) g n).any fun r => decide (r.state = 4)
    | _, _ => false

/-- The UME requests of a die that have not completed. -/
def umeOpen (d : Fin 4) (s : State) : List (List Nat) :=
  (coresOfDie d).flatMap fun c =>
    ((s.coreAt c).reqs.filter fun r => decide (r.eng = .ume) && r.result.isNone).map fun r => [c.val, r.order]

/-- An engine holds work, as R453 says for each. -/
def holdsWork (u : StallUnit) (s : State) : Bool :=
  match u with
  | .channel c n => watched c s && decide ((vget n (s.coreAt c).chans).state = .walk)
  | .matrix c => watched c s && !(s.coreAt c).eng.mxq.isEmpty && !matrixWaits c s
  | .transform c => watched c s && (s.coreAt c).xs.active && !atToken c s
  | .sampler k => (s.cluster k.toFin).smp.any fun ix => decide (ix.2.run = 1)
  | .fe k => ((s.cluster k.toFin).fe.any fun r => r.batch.isSome) || (coresOf k.toFin).any fun c => servedBegin c s
  | .ume d => !(umeOpen d.toFin s).isEmpty

/-- What an engine has under way, so that it has made progress once a part of it is gone: the record and its watermark, the head
of MXQ, the transform word, each sampler context's SPC, each SGD step and served BEGIN, each UME request (R453). -/
def underWay (u : StallUnit) (s : State) : List (List Nat) :=
  match u with
  | .channel c n => let ch := vget n (s.coreAt c).chans
                    [[ch.va.toNat, ch.wmark]]
  | .matrix c => (((s.coreAt c).eng.mxq.head?).map fun e => [e.cap.psn]).toList
  | .transform c => [[(s.coreAt c).xs.tpc, (s.coreAt c).xs.xprog]]
  | .sampler k => ((s.cluster k.toFin).smp.filter fun ix => decide (ix.2.run = 1)).map fun ix => [ix.1, ix.2.spc]
  | .fe k => (((s.cluster k.toFin).fe.filter fun r => r.batch.isSome).map fun r => [r.gang, r.region.toNat, r.stepsDone]) ++
      ((coresOf k.toFin).filter fun c => servedBegin c s).map fun c => [c.val]
  | .ume d => umeOpen d.toFin s

/-- A watch after a look: an engine without work is not watched, and progress starts its time anew (R453). -/
def lookAgain (s : State) (w : Watch) : Option Watch :=
  let now := underWay w.unit s
  if holdsWork w.unit s then some ⟨w.unit, now, if w.seen.all now.contains then w.since else s.dcc⟩ else none

/-- The watches of the hang detector follow the engines. -/
def noteProgress (s : State) : State :=
  match s.watches with
  | [] => s
  | ws => { s with watches := ws.filterMap (lookAgain s) }

/-- The watch of an engine. -/
def watchOf (u : StallUnit) (s : State) : Option Watch := s.watches.find? fun w => decide (w.unit = u)

/-- STALLT in ticks: a value below 0x10_0000 acts as that (R452). -/
def stallTicks (s : State) : Nat := max 0x100000 s.stallt.toNat

/-- The HUNG bit of an engine is set. -/
def isHung (u : StallUnit) (s : State) : Bool :=
  match u with
  | .channel c n => (s.coreAt c).hung.getLsbD n.toNat
  | .matrix c => (s.coreAt c).hung.getLsbD 8
  | .transform c => (s.coreAt c).hung.getLsbD 9
  | .sampler k => (s.cluster k.toFin).smHung
  | .fe k => (s.cluster k.toFin).feHung
  | .ume d => (s.die d.toFin).umeHung

/-- Set the HUNG bit of an engine (R452). -/
def setHung (u : StallUnit) (s : State) : State :=
  match u with
  | .channel c n => s.updCore c fun k => { k with hung := k.hung ||| (1#10 <<< n) }
  | .matrix c => s.updCore c fun k => { k with hung := k.hung ||| 0x100 }
  | .transform c => s.updCore c fun k => { k with hung := k.hung ||| 0x200 }
  | .sampler k => s.updCluster k.toFin fun x => { x with smHung := true }
  | .fe k => s.updCluster k.toFin fun x => { x with feHung := true }
  | .ume d => s.updDie d.toFin fun x => { x with umeHung := true }

/-- The core number in the log entry: the core, or 0xFFFF (R453). -/
def stallCore : StallUnit → Nat
  | .channel c _ => c.val
  | .matrix c => c.val
  | .transform c => c.val
  | _ => 0xFFFF

/-- The hang detector looks at an engine that holds work: its first look begins a watch, and once the engine has made no progress
for STALLT ticks its bit is set and logged; nothing is reset (R453; log entry 48). -/
def execEngineStallDetected (unit : StallUnit) (s : State) : Host.Outcome State Fault Refusal :=
  let s := noteProgress s
  if s.stallt = 0 ∨ holdsWork unit s = false then settle s
  else match watchOf unit s with
    | none => settle { s with watches := s.watches ++ [⟨unit, underWay unit s, s.dcc⟩] }
    | some w =>
      settle (if stallTicks s ≤ (s.dcc - w.since).toNat ∧ isHung unit s = false then
        logError 4 0 0 0 (stallCore unit) (setHung unit s) else s)

end Sys2Proof.Machine
end

