-- ==== Sys2Proof/Machine/Gang.lean ====
section
/-!
DEFINITION. How a gang stops and ends: FIFO_STALL (R27, R46), the stop at a pre-emption point (R45), the save area (R407,
R408), save and restore (R406, R409, R88), and the end of a core and of its gang (R48, R211).
-/
namespace Sys2Proof.Machine

/-! ### What the queues of a core still hold -/

/-- The FIFOs that a vector word pops and pushes when it is an entry of a queue (R26, R216). -/
def fifoNeeds (e : VEntry) : List Nat × List Nat :=
  let (op8, w) := wordOf e.word
  let f := formOf op8
  let pop (u : Use) (d : Desc) : List Nat := if u = .regFifo ∧ d.kind = true then [d.index.toNat] else []
  (pop f.a w.a ++ pop f.b w.b, pop f.d w.d)

/-- The head of a vector queue waits on a FIFO: it could begin, but an operand's FIFO is empty or its target is full. -/
def waitsOnFifo (k : Core) (q : VQ) : Bool :=
  match (k.eng.queue q).entries with
  | [] => false
  | e :: _ =>
    let (pops, pushes) := fifoNeeds e
    mayBegin k q e &&
      ((pops.any fun i => decide ((fifoGet k.eng i).length < (pops.filter fun j => decide (j = i)).length)) ||
        pushes.any fun i => decide (4 ≤ (fifoGet k.eng i).length) && !pops.contains i)

/-- An operation waits. -/
def stalls {α : Type} (r : R α) : Bool :=
  match r with
  | .error .stall => true
  | _ => false

/-- The head of a queue of the current core waits for another unit: the copy of a mask-stack word or of VSKIP for VAQ's message
(R29, R31), or a load on a watermark (R80). -/
def headHeld (q : VQ) (e : VEntry) (s : State) : Bool :=
  let message := decide (q ≠ .vaq) && !skipped (s.core.eng.queue q) e && (findMsg (s.core.eng.queue q) e.voi).isNone
  let t := { s with focus := { s.focus with vq := q } }
  match e.word with
  | .vmpush _ => message
  | .vminv _ => message
  | .vmpop _ => message
  | .vskip _ => message
  | .vld _ => stalls (loadEntry loadRows e t)
  | .vldx _ => stalls (loadEntry loadRows e t)
  | .vldb _ => stalls (loadEntry loadRows e t)
  | .vldz _ => stalls (loadEntry loadZero e t)
  | _ => false

/-- The head of a vector queue of the current core can begin now. -/
def canBegin (q : VQ) (s : State) : Bool :=
  match (s.core.eng.queue q).entries with
  | [] => false
  | e :: _ => mayBegin s.core q e && !waitsOnFifo s.core q && !headHeld q e s

/-- Every queue of a core is empty: vector queues, MXQ, the transform run queue (R48). -/
def queuesEmpty (k : Core) : Bool :=
  (allQueues.all fun q => (k.eng.queue q).entries.isEmpty) && k.eng.mxq.isEmpty && k.xs.runs.isEmpty

/-- Every FIFO of a core is empty (R27). -/
def fifosEmpty (k : Core) : Bool := k.eng.fifos.toList.all fun f => f.isEmpty

/-- FIFO_STALL: a head waits on a FIFO and no vector entry can begin, or after HALT all queues are empty and a FIFO is not;
the node is killed (R27). -/
def execFifoStall (s : State) : Host.Outcome State Fault Refusal :=
  let k := s.core
  let blocked := (allQueues.any (waitsOnFifo k)) && allQueues.all fun q => !canBegin q s
  let left := decide (k.rg.status = .halted) && queuesEmpty k && !fifosEmpty k
  settle (if decide (k.rg.status ≠ .off ∧ k.rg.status ≠ .killed) && (blocked || left) then killNodeOf s.me cFifoStall s else s)

/-- The stop token of a stopped core has not passed all three vector queues and their FIFOs (R45). -/
def tokenHeld (k : Core) : Bool :=
  decide (k.rg.status = .stopped) && ((allQueues.any fun q => !(k.eng.queue q).entries.isEmpty) || !fifosEmpty k)

/-- STOP_TOKEN_TIMEOUT: a stopped core's token has not come back in time, whatever holds it; the node is killed (R46). -/
def execStopTokenTimeout (s : State) : Host.Outcome State Fault Refusal :=
  settle (if tokenHeld s.core then killNodeOf s.me cFifoStall s else s)

/-! ### The stop (R44, R45) -/

/-- PREEMPTION_STOP: a member of a gang that is asked to stop stands at a pre-emption point with no fault pending, and
stops. What its queues still hold runs on; GANG_SAVE waits for it. -/
def execPreemptionStop (s : State) : Host.Outcome State Fault Refusal :=
  match gangOf s s.me with
  | none => settle s
  | some g =>
    settle (if decide (g.state = .stopping) && decide (s.core.rg.status = .running) && atPoint s s.me && s.core.pend.isEmpty then
      stopCore s.me s else s)

/-! ### The save area (R407, R408) -/

/-- A piece of a save area: offset, bytes, poison. -/
abbrev SavePiece := Nat × List Byte × Bool

/-- The number whose bits, lowest first, are a list. -/
def boolBits : List Bool → Nat
  | [] => 0
  | b :: bs => (if b then 1 else 0) + 2 * boolBits bs

/-- X of R407. -/
def saveX (stash : Nat) : Nat := 0x35000 + (stash + 0xFFF) / 0x1000 * 0x1000

/-- A record of the loop stack as R32 and R407 lay it out. -/
def loopBytes (r : LoopRec) : List Byte :=
  bvBytes 4 r.pstart ++ bvBytes 4 r.kstart ++ bvBytes 4 r.estart ++ bvBytes 4 r.eend ++ bvBytes 4 r.trip ++
    leBytes 4 (r.ixstep.toNat * 2 ^ 8 + (if r.ixen then 2 ^ 5 else 0) + r.ixreg.toNat) ++ bvBytes 4 r.iter ++ bvBytes 4 r.ret

/-- A channel's 32 bytes. -/
def chanBytes (ch : Chan) : List Byte :=
  let tw : Nat := if ch.twait ∧ ch.state = .tail then 2 ^ 40 else 0
  bvBytes 8 ch.head ++ bvBytes 8 ch.va ++ leBytes 8 ch.wmark ++
    leBytes 8 (chanCode ch.state * 2 ^ 56 + ch.status.toNat * 2 ^ 48 + tw)

/-- A barrier's 16 bytes (R180). -/
def barrierBytes (b : Barrier) : List Byte :=
  leBytes 16 (boolBits [b.init, b.phase, b.err] + b.arrived.toNat * 2 ^ 32 + b.expect.toNat * 2 ^ 48 + b.esrc.toNat * 2 ^ 64 +
    b.estat.toNat * 2 ^ 88 + b.cntw.toNat * 2 ^ 96)

/-- A slot's 16 bytes, with whether it was active at the save and its SEQ. -/
def slotBytes (active : Bool) (l : Slot) (seq : BitVec 16) : List Byte :=
  leBytes 8 ((if active then 2 ^ 63 else 0) + bits l.va 51 0) ++
    leBytes 8 (l.sa.toNat + l.scope.code.toNat * 2 ^ 20 + (syncCode l.acq).toNat * 2 ^ 23 + seq.toNat * 2 ^ 48)

/-- The header and sequencer fields of a save area. -/
def saveSeq (k : Core) (pend : Byte) (x : Nat) : List SavePiece :=
  let r := k.rg
  let y := k.sys
  let w (off : Nat) (v : Word) : SavePiece := (off, bvBytes 8 v, false)
  let loops := r.loops.reverse
  let shape := (k.eng.shape.rows - 1) + k.eng.shape.cols * 2 ^ 8 + k.eng.vaq.masks.length * 2 ^ 16 + loops.length * 2 ^ 20
  let bad := boolBits (r.g.toList.map (·.bad)) + boolBits (r.k.toList.map (·.bad)) * 2 ^ 32
  [(0, leBytes 4 0x5653524B, false), (4, leBytes 4 0x40, false), w 0x008 (zext64 r.pc),
   (0x010, (loops.map loopBytes).flatten, false), (0x090, leBytes 8 shape, false), w 0x098 r.psn, w 0x0A0 r.voi,
   w 0x0A8 r.srseed, (0x0B0, leBytes 8 bad, false), w 0x0B8 r.ldisc, w 0x0C0 y.mxmiss, w 0x0C8 y.werr, w 0x0D0 y.relquery,
   (0x0D8, leBytes 8 (pend.toNat + x * 2 ^ 32), false), (0x100, (r.g.toList.map fun p => bvBytes 8 p.val).flatten, false),
   (0x200, ((List.range 8).zip r.k.toList).map fun ip => if ip.1 = 0 || ip.2.val then 1 else 0, false), w 0x208 r.mode,
   (0x210, (k.chans.toList.map chanBytes).flatten, false), (0x310, (k.bars.toList.map barrierBytes).flatten, false)]

/-- The transform state of an S core (R408). -/
def saveTransform (x : XSeq) : List SavePiece :=
  let half (v : Vector (BitVec 16) 4) : List Byte := (v.toList.map fun i => bvBytes 2 i).flatten
  let ag (a : AddrGen) : List Byte := bvBytes 8 a.base ++ half a.cnt ++ (a.str.toList.map fun i => bvBytes 4 i).flatten ++ half a.idx ++ leBytes 8 0
  let num := match x.runs with
    | e :: _ => e.num
    | [] => 0
  [(0x11000, (x.h.toList.map fun p => bvBytes 8 p.val).flatten, false),
   (0x11040, leBytes 8 (boolBits (x.h.toList.map (·.bad))), false),
   (0x11048, leBytes 8 (x.tpc % 2 ^ 12 + x.loops.length * 2 ^ 12 + x.xprog * 2 ^ 32), false),
   (0x11050, (x.loops.reverse.map fun l => leBytes 8 (l.1 + l.2 * 2 ^ 16)).flatten, false),
   (0x11070, (x.runs.map fun e => leBytes 8 (e.first.toNat + e.left * 2 ^ 16)).flatten, false),
   (0x11090, leBytes 8 (x.runs.length + num * 2 ^ 16), false),
   (0x11098, (x.tk.toList.map fun i => bvBytes 2 i).flatten, false),
   (0x110C0, (x.ag.toList.map ag).flatten, false)]

/-- The registers and memories of the engines. -/
def saveEngines (c : CoreId) (k : Core) (x : Nat) : List SavePiece :=
  let ms := k.eng.vaq.masks.reverse
  let granule (g : Nat) : Option SavePiece :=
    let bs := k.stash.bytes (64 * g) 64
    if zeroAt bs 0 64 && !k.stash.bad.contains g then none else some (0x35000 + 64 * g, bs, k.stash.bad.contains g)
  (k.eng.v.map fun iv => (0x1000 + 64 * iv.1, bvBytes 64 iv.2.bits, iv.2.bad)) ++
    (if isS c then saveTransform k.xs
     else k.eng.acc.map fun iv => (0x11000 + 384 * iv.1, bvBytes 384 iv.2.bits, iv.2.bad)) ++
    ((List.range (k.decl.stash / 64)).filterMap granule) ++
    [(x, (k.eng.m.toList.map fun m => bvBytes 512 m).flatten, false),
     (x + 0x1000, (ms.map fun m => bvBytes 512 m).flatten, false)]

/-- The window descriptors. -/
def saveWindows (wins : Vector WinDesc 16) (x : Nat) : List SavePiece :=
  [(x + 0x2800, (wins.toList.map fun d => bvBytes 8 d.w0 ++ bvBytes 8 d.w1 ++ bvBytes 8 d.w2 ++ bvBytes 8 d.w3).flatten, false)]

/-- A sampler context's 36 KiB. -/
def saveSampler (i : Nat) (z : SmpCtx) (x : Nat) : List SavePiece :=
  let base := x + 0x3000 + 0x9000 * i
  let bad := z.cands.foldl (fun n ic => if ic.2.bad then n + 2 ^ ic.1 else n) 0
  (z.cands.map fun ic => (base + 8 * ic.1, bvBytes 4 ic.2.val ++ bvBytes 4 ic.2.id, false)) ++
    [(base + 0x8000, leBytes 512 bad, false), (base + 0x8200, leBytes 8 z.nc, false),
     (base + 0x8208, (z.y.toList.map fun p => bvBytes 8 p.val).flatten, false), (base + 0x8248, bvBytes 8 z.key, false),
     (base + 0x8250, bvBytes 16 z.ctr, false), (base + 0x8260, leBytes 8 (z.spc % 2 ^ 10 + z.run.toNat * 2 ^ 16), false),
     (base + 0x8268, leBytes 8 (boolBits (z.y.toList.map (·.bad))), false)]

/-- The mailboxes of a gang, mb0 first. -/
def gangBoxes (g : Gang) (s : State) : List MBox :=
  (List.range g.mboxes).map fun i =>
    ((s.cluster g.cluster.toFin).mbox.toList.find? fun m => decide (m.gang = some (g.num, BitVec.ofNat 4 i))).getD ⟨none, []⟩

/-- What only the lead's area holds: mailboxes and sampler contexts. -/
def saveLead (g : Gang) (x : Nat) (s : State) : List SavePiece :=
  let boxes := gangBoxes g s
  [(0x810, boxes.map fun m => BitVec.ofNat 8 m.fifo.length, false)] ++
    (((List.range boxes.length).zip boxes).map fun im =>
      (x + 0x2000 + 128 * im.1, (im.2.fifo.map fun e => bvBytes 16 e.1).flatten, false)) ++
    (((List.range g.smp.length).zip g.smp).map fun ij => saveSampler ij.1 (smpGet s g.cluster.toFin ij.2) x).flatten

/-- The bytes of a range become 0 without poison. -/
def Mem.zero (m : Mem) (a n : Nat) : Mem :=
  ⟨m.cells.filter fun c => !(decide (a ≤ c.1 ∧ c.1 < a + n)), m.bad.filter fun g => !(decide (a ≤ 64 * g ∧ 64 * g < a + n))⟩

/-- Write pieces into a slot by physical address; every byte not listed is 0 (R406, R407). -/
def writeSlot (base : Nat) (ps : List SavePiece) (s : State) : State :=
  s.updMem .hbm fun m => ps.foldl (fun m p => m.write (base + p.1) p.2.1 p.2.2) (m.zero base (2 ^ 22))

/-! ### GANG_SAVE (R406) -/

/-- Nothing of a member is under way any more: queues and FIFOs are empty, requests complete, no channel is within a record,
no walker range and no commit of it is left (R45, R325, R406). -/
def memberIdle (c : CoreId) (s : State) : Bool :=
  let k := s.coreAt c
  decide (k.rg.status = .stopped) && (allQueues.all fun q => (k.eng.queue q).entries.isEmpty) && k.eng.mxq.isEmpty && fifosEmpty k &&
    (k.reqs.all fun r => r.result.isSome) && (k.chans.all fun ch => ch.resume.isNone) &&
    ((s.die (dieOf c)).walker.all fun w => decide (w.core ≠ c))

/-- No commit of a core waits in its cluster's commit unit (R325, R332). -/
def commitsDone (c : CoreId) (s : State) : Bool := (s.cluster (clusterOf c)).kvc.all fun x => decide (x.core ≠ c)

/-- A gang can be saved: every member has stopped and is idle, or has finished; no commit of any of them is queued, and no sampler
context of it runs. -/
def canSave (g : Gang) (s : State) : Bool :=
  decide (g.state = .stopping) && (g.members.all fun c => commitsDone c s && (g.done.contains c || memberIdle c s)) &&
    g.smp.all fun i => decide ((smpGet s g.cluster.toFin i).run ≠ 1)

/-- The values of a core's unpopped elements, in issue order. -/
def unpopped (rs : List Req) : List (Word × Bool) := rs.filterMap (·.result)

/-- Write a member's unpopped elements to its context's engine result area, 8 bytes each at 512 bytes for each save slot: R176
gives the area no layout. None is written where the area cannot take them all (log entry 25). -/
def saveElements (c : CoreId) (ctx : BitVec 6) (slot : Nat) (s : State) : State × Option Word :=
  let a := (s.coreAt c).sys.engarea + BitVec.ofNat 64 (512 * slot)
  let es := unpopped (s.coreAt c).reqs
  let put (s : State) (ie : Nat × Word × Bool) : R State := hubPut ctx (a.toNat + 8 * ie.1) (bvBytes 8 ie.2.1) s ie.2.2
  if es.isEmpty then (s, none)
  else match ((List.range es.length).zip es).foldlM put s with
    | .ok s => (s, some a)
    | .error _ => (s, none)

/-- A request with the value of its element replaced. -/
def Req.withValue (r : Req) (v : Word) : Req := { r with result := r.result.map fun p => (v, p.2) }

/-- The elements return from the engine result area (R176, R409); one that cannot be read there keeps its value. -/
def loadElements (ctx : BitVec 6) (a : Word) (rs : List Req) (s : State) : State × List Req :=
  let one (acc : State × Nat × List Req) (r : Req) : State × Nat × List Req :=
    let (s, i, out) := acc
    if r.result.isNone then (s, i, out ++ [r])
    else match hubBytes ctx (a.toNat + 8 * i) 8 s with
      | .ok (s, bs, _) => (s, i + 1, out ++ [r.withValue (BitVec.ofNat 64 (leVal bs))])
      | .error _ => (s, i + 1, out ++ [r])
  let (s, _, out) := rs.foldl one (s, 0, [])
  (s, out)

/-- What is kept beside a member's save area (log entry 25). -/
def keptOf (c : CoreId) (k : Core) (boxes : List MBox) (area : Option Word) : Kept :=
  { core := c, reqs := k.reqs, phases := k.rg.loops.map (·.phase), fence := k.fence, ended := k.chans.map (·.ended),
    xruns := k.xs.runs.map fun e => (e.num, e.mode, e.seed), xpart := (k.xs.active, k.xs.bits, k.xs.bitsBad, k.xs.flags),
    xpast := decide (4096 ≤ k.xs.tpc),
    skips := allQueues.map fun q => (k.eng.queue q).skipTo, relfree := k.sys.relfree,
    mbad := boxes.map fun m => m.fifo.map (·.2), area := area }

/-- Save a member, a finished one too: its slots are unsubscribed and its windows written back, its elements and its area are
written (R45, R88, R176, R406). -/
def saveMember (g : Gang) (c : CoreId) (slot : Nat) (lead : Bool) (s : State) : State :=
  let before := (s.coreAt c).slots
  let wins := (s.coreAt c).wins
  let (s, area) := saveElements c g.ctx slot (unmapAll c (drainStores c (unsubscribeAll c s)))
  let k := s.coreAt c
  let x := saveX k.decl.stash
  let pend : Byte := if g.pending.any fun cf => decide (cf.1 = c) then cEngineShed else 0
  let slots : List SavePiece := [(0x710, ((List.range 16).map fun i =>
    let n := BitVec.ofNat 4 i
    let l := vget n before
    slotBytes l.active l ((slotWord k n).extractLsb' 32 16)).flatten, false)]
  let ps := saveSeq k pend x ++ slots ++ saveEngines c k x ++ saveWindows wins x ++ (if lead then saveLead g x s else [])
  let kept := keptOf c k (if lead then gangBoxes g s else []) area
  updGang g.num (fun g => { g with kept := g.kept ++ [kept] }) (writeSlot (slotBase s slot) ps s)

/-- Free the cores, mailboxes and sampler contexts of a gang that has been saved; UME contexts stay assigned (R173). Its channels are
in its save area and no longer in a record here. -/
def parkGang (g : Gang) (s : State) : State :=
  let k : Fin 32 := g.cluster.toFin
  let s := g.members.foldl (fun s c =>
    let s := s.updCore c fun k => { k with
      gang := none, reqs := [], fence := none, rg := { k.rg with status := .off },
      chans := k.chans.map fun ch => { ch with state := .idle, resume := none, twait := false } }
    if g.done.contains c then s else setBoot c 3 0 s) s
  let s := s.updCluster k fun cl =>
    { cl with mbox := cl.mbox.map fun m =>
        match m.gang with
        | some (n, _) => if n = g.num then ⟨none, []⟩ else m
        | none => m }
  let s := g.smp.foldl (fun s i => smpPut k i { smpGet s k i with gang := none, run := 0 } s) s
  updGang g.num (fun g => { g with state := .saved, smp := [] }) s

/-- Save a gang (R406): FE bindings are released, every member's area is written, the cores are freed, the node is SAVED. -/
def saveGang (g : Gang) (s : State) : State :=
  let s := match g.members with
    | c :: _ => releaseGang g.num c s
    | [] => s
  let s := (g.members.zip g.slots).foldl (fun s cs => saveMember g cs.1 cs.2 (decide (g.members.head? = some cs.1)) s) s
  let s := parkGang g s
  let s := updNode g.node (fun n => { n with state := .saved, order := s.order }) s
  { s with order := s.order + 1, sched := { s.sched with preempts := s.sched.preempts + 1 } }

/-- GANG_SAVE of the stopping gang of the current core. -/
def execGangSave (gang : Nat) (s : State) : Host.Outcome State Fault Refusal :=
  match findGang s gang with
  | none => settle s
  | some g => settle (if canSave g s then saveGang g s else s)

/-! ### GANG_RESTORE (R409) -/

/-- A word of n bytes of a save area. -/
def savedNat (m : Mem) (base off n : Nat) : Nat := leVal (m.bytes (base + off) n)

/-- A double word of a save area. -/
def savedWord (m : Mem) (base off : Nat) : Word := BitVec.ofNat 64 (savedNat m base off 8)

/-- A loop record of a save area, with its phase from Kept. -/
def savedLoop (m : Mem) (a : Nat) (phase : LoopPhase) : LoopRec :=
  let w (off : Nat) : BitVec 32 := BitVec.ofNat 32 (savedNat m a off 4)
  { pstart := w 0, kstart := w 4, estart := w 8, eend := w 12, trip := w 16, ixstep := (w 20).extractLsb' 8 16,
    ixen := (w 20).getLsbD 5, ixreg := (w 20).extractLsb' 0 5, iter := w 24, ret := w 28, phase := phase }

/-- The state of a channel by its code. -/
def chanStateOf (n : Nat) : ChanState :=
  match n with
  | 1 => .walk
  | 2 => .tail
  | 3 => .idleTail
  | 4 => .stopped
  | 5 => .halted
  | _ => .idle

/-- A channel of a save area; re-reads begin anew (R409). -/
def savedChan (m : Mem) (a ended : Nat) : Chan :=
  let w := savedWord m a 24
  { Chan.idle with
    state := chanStateOf (w.extractLsb' 56 8).toNat, head := savedWord m a 0, va := savedWord m a 8,
    wmark := savedNat m a 16 8, status := w.extractLsb' 48 8, twait := w.getLsbD 40, ended := ended }

/-- A barrier of a save area. -/
def savedBarrier (m : Mem) (a : Nat) : Barrier :=
  let w : BitVec 128 := BitVec.ofNat 128 (savedNat m a 0 16)
  { cntw := w.extractLsb' 96 32, estat := w.extractLsb' 88 8, esrc := w.extractLsb' 64 10, expect := w.extractLsb' 48 16,
    arrived := w.extractLsb' 32 16, err := w.getLsbD 2, phase := w.getLsbD 1, init := w.getLsbD 0 }

/-- A slot of a save area, not yet subscribed again. -/
def savedSlot (m : Mem) (a : Nat) : Slot :=
  let x := savedWord m a 0
  let y := savedWord m a 8
  { active := false, va := zext64 (x.extractLsb' 0 52), sa := y.extractLsb' 0 20,
    scope := (Scope.ofCode (y.extractLsb' 20 3)).getD .core, acq := (syncOfCode (y.extractLsb' 23 2)).getD false, read := false }

/-- The sequencer of a save area. -/
def savedSeq (m : Mem) (b : Nat) (kp : Kept) (r : SeqRegs) : SeqRegs :=
  let bad := savedWord m b 0x0B0
  let depth := ((savedWord m b 0x090).extractLsb' 20 3).toNat
  let loops := ((List.range depth).map fun i => savedLoop m (b + 0x010 + 32 * i) ((kp.phases.reverse).getD i .kernel)).reverse
  { r with
    g := Vector.ofFn fun (i : Fin 32) => ⟨savedWord m b (0x100 + 8 * i.val), bad.getLsbD i.val⟩,
    k := Vector.ofFn fun (i : Fin 8) => ⟨decide (savedNat m b (0x200 + i.val) 1 ≠ 0), bad.getLsbD (32 + i.val)⟩,
    pc := (savedWord m b 0x008).setWidth 16, sup := false, status := .off, mode := savedWord m b 0x208,
    srseed := savedWord m b 0x0A8, ldisc := savedWord m b 0x0B8, psn := savedWord m b 0x098, voi := savedWord m b 0x0A0,
    run := [], loops := loops, bound := !loops.isEmpty, boundAt := none, fellTo := none, boost := [] }

/-- Rows of a save area with their granules' poison; rows equal to 0 are not listed. -/
def savedRows (m : Mem) (a n count : Nat) : List (Nat × Nat × Bool) :=
  ((List.range count).map fun i => (i, leVal (m.bytes (a + n * i) n), m.poisoned (a + n * i) n)).filter fun r =>
    decide (r.2.1 ≠ 0) || r.2.2

/-- The vector and matrix engines of a save area. -/
def savedEngines (m : Mem) (b x : Nat) (s : Bool) (kp : Kept) : Engines :=
  let w := savedWord m b 0x090
  let sh : Shape := ⟨(w.extractLsb' 0 5).toNat + 1, (w.extractLsb' 8 8).toNat⟩
  let masks : List (BitVec 4096) := ((List.range (w.extractLsb' 16 4).toNat).map fun i =>
    BitVec.ofNat 4096 (savedNat m b (x + 0x1000 + 512 * i) 512)).reverse
  let q (i : Nat) : VQueue := { VQueue.launch with shape := sh, masks := masks, skipTo := (kp.skips.getD i none) }
  { Engines.launch with
    v := (savedRows m (b + 0x1000) 64 1024).map fun r => (r.1, ⟨BitVec.ofNat 512 r.2.1, r.2.2⟩),
    m := Vector.ofFn fun (i : Fin 8) => BitVec.ofNat 4096 (savedNat m b (x + 512 * i.val) 512),
    acc := if s then [] else (savedRows m (b + 0x11000) 384 384).map fun r => (r.1, ⟨BitVec.ofNat 3072 r.2.1, r.2.2⟩),
    shape := sh, vlq := q 0, vaq := q 1, vsq := q 2 }

/-- The transform state of a save area (R408). -/
def savedTransform (m : Mem) (b : Nat) (kp : Kept) : XSeq :=
  let w := savedWord m b 0x11048
  let bad := savedWord m b 0x11040
  let u16 (a : Nat) : BitVec 16 := BitVec.ofNat 16 (savedNat m b a 2)
  let ag (i : Nat) : AddrGen :=
    let a := 0x110C0 + 48 * i
    { base := savedWord m b a, cnt := Vector.ofFn fun (d : Fin 4) => u16 (a + 8 + 2 * d.val),
      str := Vector.ofFn fun (d : Fin 4) => BitVec.ofNat 32 (savedNat m b (a + 16 + 4 * d.val) 4),
      idx := Vector.ofFn fun (d : Fin 4) => u16 (a + 32 + 2 * d.val) }
  let run (i : Nat) : XRunEntry :=
    let e := savedWord m b (0x11070 + 8 * i)
    let (num, mode, seed) := kp.xruns.getD i (0, 0, 0)
    ⟨e.extractLsb' 0 12, (e.extractLsb' 16 16).toNat, num, mode, seed⟩
  let (active, held, heldBad, flags) := kp.xpart
  { h := Vector.ofFn fun (i : Fin 8) => ⟨savedWord m b (0x11000 + 8 * i.val), bad.getLsbD i.val⟩,
    ag := Vector.ofFn fun (i : Fin 16) => ag i.val, tk := Vector.ofFn fun (i : Fin 8) => u16 (0x11098 + 2 * i.val),
    tpc := if kp.xpast then 4096 else (w.extractLsb' 0 12).toNat,
    loops := ((List.range (w.extractLsb' 12 3).toNat).map fun i =>
      let l := savedWord m b (0x11050 + 8 * i)
      ((l.extractLsb' 0 12).toNat, (l.extractLsb' 16 32).toNat)).reverse,
    xprog := (w.extractLsb' 32 32).toNat, bits := held, bitsBad := heldBad, flags := flags,
    runs := (List.range ((savedWord m b 0x11090).extractLsb' 0 3).toNat).map run, active := active, halted := false }

/-- The declared stash bytes of a save area with their poison, over what the stash holds beyond them. -/
def savedStash (m : Mem) (b stash : Nat) (st : Mem) : Mem :=
  (savedRows m (b + 0x35000) 64 (stash / 64)).foldl (fun st r => st.write (64 * r.1) (leBytes 64 r.2.1) r.2.2) (st.zero 0 stash)

/-- The window descriptors of a save area. -/
def savedWindows (m : Mem) (b x : Nat) : Vector WinDesc 16 :=
  Vector.ofFn fun (i : Fin 16) =>
    let a := x + 0x2800 + 32 * i.val
    ⟨savedWord m b a, savedWord m b (a + 8), savedWord m b (a + 16), savedWord m b (a + 24)⟩

/-- A core with every field of its save area; identity registers as a launch gives them (R205, R378, R409). -/
def restoreCore (c : CoreId) (m : Mem) (b : Nat) (kp : Kept) (ctxNum : BitVec 6) (ctx : Ctx) (k : Core) : Core :=
  let x := saveX k.decl.stash
  { k with
    rg := savedSeq m b kp k.rg,
    sys := { k.sys with
      gangId := k.boot.gang, ctxId := ctx.tag.setWidth 64 ||| (k.boot.part.setWidth 64 <<< 8), nodeArg := k.boot.argb,
      mxmiss := savedWord m b 0x0C0, werr := savedWord m b 0x0C8, relquery := savedWord m b 0x0D0, relfree := kp.relfree,
      engarea := ctx.engarea },
    eng := savedEngines m b x (isS c) kp, xs := if isS c then savedTransform m b kp else XSeq.launch,
    bars := Vector.ofFn fun (i : Fin 64) => savedBarrier m (b + 0x310 + 16 * i.val),
    chans := Vector.ofFn fun (i : Fin 8) => savedChan m (b + 0x210 + 32 * i.val) kp.ended[i],
    slots := Vector.ofFn fun (i : Fin 16) => savedSlot m (b + 0x710 + 16 * i.val),
    wins := savedWindows m b x, stash := savedStash m b k.decl.stash k.stash,
    tags := k.tags.filter fun gt => decide (k.decl.stash ≤ 64 * gt.1), ctx := ctxNum, stores := [], loadsOut := 0,
    fence := kp.fence.map fun f => { f with store := 0 }, reqs := kp.reqs, pend := [], taken := [], inv := none }

/-- A word of a slot after re-subscription: RESUB set and SEQ one on; ACTIVE with a fresh value, or NOSUB or LOST (R88). -/
def resubWord (old : Word) (set : Word) : Word :=
  let seq := old.extractLsb' 32 16 + 1
  (old &&& 0x7FFF0000FFFFFFFF) ||| (zext64 seq <<< 32) ||| 0x4000000000000000 ||| set

/-- The place of a slot's word if it may be subscribed again: mapped for the context, of a class that pushes (R81, R88). -/
def resubPlace (c : CoreId) (va : Word) (s : State) : Option (State × Xl) :=
  match translate c (s.coreAt c).ctx va.toNat .read s with
  | .ok (s, x) => if x.region = .lcl ∨ x.region = .poolBi then some (s, x) else none
  | .error _ => none

/-- The home of a word is lost (R435): its translation leads to a window that is not OK. -/
def resubLost (c : CoreId) (va : Word) (s : State) : Bool :=
  match translate c (s.coreAt c).ctx va.toNat .read s with
  | .error (.trap t) => decide (t.cause = cPoolLost)
  | .error .stall => false
  | .ok (_, x) => locLost s x.loc

/-- Subscribe again a slot that was active at the save (R88). With no free entry at the home, VALUE and SEQ stay as saved, as when
the word cannot be read (DESIGN CHOICE, log entry 59). -/
def resubscribe (c : CoreId) (i : BitVec 4) (s : State) : State :=
  let l := vget i (s.coreAt c).slots
  let old := slotWord (s.coreAt c) i
  let refused (flag : Word) : State := putSlotWord c i ((old &&& 0x7FFFFFFFFFFFFFFF) ||| 0x4000000000000000 ||| flag) s
  if resubLost c l.va s then refused 0x0800000000000000
  else match resubPlace c l.va s with
    | none => refused 0x0400000000000000
    | some (t, x) =>
      if subsFull t x.loc then refused 0x0400000000000000
      else
        let (t, bs, bad) := homeRead x.loc x.region 4 false t
        let value := BitVec.ofNat 32 (leVal bs)
        let w := (resubWord old 0x8000000000000000 &&& 0xFFFFFFFF00000000) ||| zext64 value
        let t := stashRaw c l.sa.toNat (bvBytes 8 w) bad t
        let t := updSlot c i (fun l => { l with active := true, read := false }) t
        { t with subs := t.subs ++ [⟨c, i, x.loc, 0, false, value⟩] }

/-- Subscribe again every slot of a member that was active at the save. -/
def resubscribeAll (c : CoreId) (m : Mem) (b : Nat) (s : State) : State :=
  (List.range 16).foldl (fun s i =>
    if (savedWord m b (0x710 + 16 * i)).getLsbD 63 then resubscribe c (BitVec.ofNat 4 i) s else s) s

/-- A sampler context of the lead's area. -/
def savedSampler (m : Mem) (b x i : Nat) (num : Nat) (lead : CoreId) : SmpCtx :=
  let o := b + x + 0x3000 + 0x9000 * i
  let bad : BitVec 4096 := BitVec.ofNat 4096 (savedNat m o 0x8000 512)
  let cand (j : Nat) : Nat × Cand :=
    (j, ⟨BitVec.ofNat 32 (savedNat m o (8 * j) 4), BitVec.ofNat 32 (savedNat m o (8 * j + 4) 4), bad.getLsbD j⟩)
  let w := savedWord m o 0x8260
  let ybad := savedWord m o 0x8268
  { cands := ((List.range 4096).map cand).filter fun jc => decide (jc.2 ≠ ⟨0, 0, false⟩),
    nc := savedNat m o 0x8200 8, y := Vector.ofFn fun (j : Fin 8) => ⟨savedWord m o (0x8208 + 8 * j.val), ybad.getLsbD j.val⟩,
    key := savedWord m o 0x8248, ctr := BitVec.ofNat 128 (savedNat m o 0x8250 16), spc := (w.extractLsb' 0 10).toNat,
    run := w.extractLsb' 16 2, gang := some num, core := lead }

/-- The mailboxes and sampler contexts of a gang from its lead's area, whose X it holds (R173, R407, R409). -/
def restoreLead (g : Gang) (c : CoreId) (m : Mem) (b : Nat) (kp : Kept) (s : State) : State :=
  let x := savedNat m b 0x0DC 4
  let k : Fin 32 := g.cluster.toFin
  let entries (i : Nat) : List (BitVec 128 × Bool) :=
    (List.range (savedNat m b (0x810 + i) 1)).map fun j =>
      (BitVec.ofNat 128 (savedNat m b (x + 0x2000 + 128 * i + 16 * j) 16), (kp.mbad.getD i []).getD j false)
  let s := s.updCluster k fun cl =>
    { cl with mbox := cl.mbox.map fun q =>
        match q.gang with
        | some (n, i) => if n = g.num then ⟨q.gang, entries i.toNat⟩ else q
        | none => q }
  ((List.range g.smp.length).zip g.smp).foldl (fun s ij => smpPut k ij.2 (savedSampler m b x ij.1 g.num c) s) s

/-- Load the instruction memories of a member whose resident image is another, without DATA (R318, R409). -/
def reloadImage (c : CoreId) (g : Gang) (node : Option (Nat × Nat × Nat)) (s : State) : Chk State :=
  if holdsImage g.ctx g.image (s.coreAt c) then .ok s
  else do
    let (s, img) ← readImage g.ctx g.image node s
    .ok (s.updCore c fun k => { loadMemories c g.image g.ctx img k with decl := img.decl })

/-- Reload the images of members; the first that is refused fails the gang. -/
def reloadAll (g : Gang) (node : Option (Nat × Nat × Nat)) : List CoreId → State → Except (CoreId × Byte) State
  | [], s => .ok s
  | c :: cs, s =>
    match reloadImage c g node s with
    | .error code => .error (c, code)
    | .ok s => reloadAll g node cs s

/-- The boot mailbox of a member that is restored. -/
def restoreBox (g : Gang) (n : Option Node) (part : BitVec 3) (i : Nat) (b : BootBox) : BootBox :=
  { b with handle := g.image, argb := g.arg, seed := (n.map fun n => n.desc.seed).getD 0, gang := gangIdWord g.num i g.members.length,
           part := part, ctx := g.ctx.setWidth 8, go := false, state := 1, code := 0 }

/-- Restore the core of a member from its area: fields, slots, elements. -/
def restoreFields (g : Gang) (m : Mem) (b : Nat) (kp : Kept) (c : CoreId) (s : State) : State :=
  let s := resubscribeAll c m b (s.updCore c (restoreCore c m b kp g.ctx (s.ctx g.ctx)))
  match kp.area with
  | none => s
  | some a =>
    let (s, rs) := loadElements g.ctx a kp.reqs s
    s.updCore c fun k => { k with reqs := rs }

/-- Restore one member from its area; of a finished one only what the gang as a whole holds. -/
def restoreMember (g : Gang) (m : Mem) (c : CoreId) (slot : Nat) (s : State) : State :=
  match g.kept.find? fun x => decide (x.core = c) with
  | none => s
  | some kp =>
    let b := slotBase s slot
    let s := if g.done.contains c then s else restoreFields g m b kp c s
    if g.members.head? = some c then restoreLead g c m b kp s else s

/-- The segment of a restored gang's image is loaded if it is not; an image that fails its checks refuses the gang (R318, R320). -/
def reloadSegment (g : Gang) (node : Option (Nat × Nat × Nat)) (s : State) : Chk State :=
  let k : Fin 32 := g.cluster.toFin
  if (segmentOf k g.ctx g.image s).any (·.loaded) then .ok s
  else do
    let (s, img) ← readImage g.ctx g.image node s
    .ok (loadSegment k g.ctx g.image (img.sects.getD 4 []) s)

/-- The images and the segment that a restored gang needs. -/
def reloadGang (g : Gang) (live : List CoreId) (s : State) : Except (CoreId × Byte) State := do
  let node := (findNode s g.node).map fun n => (n.desc.gangm, n.desc.gangs, n.desc.cls)
  let s ← reloadAll g node live s
  (reloadSegment g node s).mapError fun code => (g.members.headD 0, code)

/-- Restore a gang that is placed again: images, fields, slots; it starts, or waits for P0 (R397, R409). -/
def restoreGang (g : Gang) (s : State) : State :=
  let n := findNode s g.node
  let part := (s.ctx g.ctx).part
  let live := g.members.filter fun c => !g.done.contains c
  let s := ((List.range g.members.length).zip g.members).foldl (fun s ic =>
    if g.done.contains ic.2 then s else s.updCore ic.2 fun k => { k with boot := restoreBox g n part ic.1 k.boot }) s
  match reloadGang g live s with
  | .error (c, code) => refuseGang g c code s
  | .ok s =>
    let m := s.hbm
    let s := (g.members.zip g.slots).foldl (fun s cs => restoreMember g m cs.1 cs.2 s) s
    if g.stamped ∧ (s.cluster g.cluster.toFin).pstate ≠ 0 then updGang g.num (fun x => { x with state := .waitP0 }) s
    else startGang g s

/-- GANG_RESTORE of a saved gang that holds its cores again. -/
def execGangRestore (gang : Nat) (s : State) : Host.Outcome State Fault Refusal :=
  match findGang s gang with
  | none => settle s
  | some g => settle (if g.state = .placed ∧ g.slots ≠ [] then restoreGang g s else s)

/-! ### The end of a core and of its gang (R48, R211) -/

/-- A halted core has nothing under way: queues empty, no channel in WALK or TAIL, FIFOs empty, requests complete. -/
def canFinish (k : Core) : Bool :=
  queuesEmpty k && fifosEmpty k && (k.reqs.all fun r => r.result.isSome) &&
    k.chans.all fun ch => decide (ch.state ≠ .walk ∧ ch.state ≠ .tail)

/-- The last actions of HALT: slots, windows, unpopped elements; STOPPED and HALTED channels are IDLE (R48, R176). -/
def finishCore (c : CoreId) (s : State) : State :=
  let s := unmapAll c (unsubscribeAll c (drainStores c s))
  s.updCore c fun k =>
    { k with
      reqs := [], fence := none, inv := none,
      chans := k.chans.map fun ch => if ch.state = .stopped ∨ ch.state = .halted then { ch with state := .idle, resume := none } else ch,
      rg := { k.rg with status := .off } }

/-- The gang of a finished core: when it was the last one, the gang is freed and its node is DONE (R48, R384). -/
def finishMember (g : Gang) (c : CoreId) (s : State) : State :=
  let s := updGang g.num (fun g => { g with done := g.done ++ [c] }) s
  let done := g.done ++ [c]
  if g.members.all done.contains then dropGraphs (nodeDone g.node (freeGang g (releaseGang g.num c s))) else s

/-- A killed core whose requests have completed is off; its gang is freed when no member is left (R404). -/
def finishKilled (c : CoreId) (s : State) : State :=
  let s := s.updCore c dropDone
  if (s.coreAt c).reqs.isEmpty then
    let s := s.updCore c fun k => { k with rg := { k.rg with status := .off } }
    match gangOf s c with
    | none => s
    | some g => if g.members.all fun d => decide ((s.coreAt d).rg.status = .off) then dropGraphs (freeGang g s) else s
  else s

/-- CORE_FINISH: what a core does after HALT, or after a kill, once nothing of it is under way. -/
def execCoreFinish (s : State) : Host.Outcome State Fault Refusal :=
  let c := s.me
  match s.core.rg.status with
  | .halted =>
    if canFinish s.core then
      let s := setBoot c 4 0 (finishCore c s)
      match gangOf s c with
      | some g => settle (finishMember g c s)
      | none => settle s
    else settle s
  | .killed => settle (finishKilled c s)
  | _ => settle s

end Sys2Proof.Machine
end

