-- ==== Sys2Proof/Machine/MemEvents.lean ====
section
/-!
DEFINITION. Events of the memory system and of the SRAMs: recall of a window granule (R59), delivery of a push (R83),
back-invalidation (R431, R86), page walks (R411, R412), memory errors (R405, R450), and what the world outside may do to
memory between two steps (log entry 1).
-/
namespace Sys2Proof.Machine

/-! ### Windows and subscriptions -/

/-- The home recalls a window granule of the current core (R59): its dirty bytes go home; a recall for write makes it
invalid, a recall for read leaves it valid and owned. -/
def execWindowRecall (granule : BitVec 14) (write : Bool) (s : State) : Host.Outcome State Fault Refusal :=
  match granFind s s.me granule.toNat with
  | none => settle s
  | some g =>
    let mine (x : Gran) : Bool := decide (x.core = g.core) && decide (x.gran = g.gran)
    let t := granWriteBack g s
    settle (if write || (decide (g.dirty ≠ 0) && !granTagOk g s) then keepGrans (fun x => !mine x) t
      else { t with grans := t.grans.map fun x => if mine x then { x with dirty := 0 } else x })

/-- The pushes pending for a slot of the current core arrive as one (R83, R84). -/
def execSubscriptionPush (slot : BitVec 4) (s : State) : Host.Outcome State Fault Refusal :=
  settle (deliverPush s.me slot s)

/-! ### Back-invalidation (R431, R86) -/

/-- A line with a subscribed word is refetched, its subscribers served, and the line held again (R86). -/
def repushLine (p : BitVec 2) (line : Nat) (s : State) : State :=
  if lineSubscribed s (p, line) then filterAdd p line (repushSubs p line s) else s

/-- A line leaves this processor: the granules that mirror it are recalled for write, the filter forgets it (R431). -/
def dropPoolLine (p : BitVec 2) (line : Nat) (s : State) : State :=
  let s := recallWrite ⟨.pool p, line * 128 + 64⟩ (recallWrite ⟨.pool p, line * 128⟩ s)
  { s with pool := { s.pool with filter := s.pool.filter.filter fun x => decide (x ≠ (p, line)) } }

/-- A request of this processor for a line is in flight: a buffered store to it (R432). -/
def requestInFlight (p : BitVec 2) (line : Nat) (s : State) : Bool :=
  s.cores.any fun k => k.stores.any fun y => sameLine y.loc ⟨.pool p, 128 * line⟩

/-- The request in flight for a line will be a transient use (R432). -/
def crossLine (p : BitVec 2) (line : Nat) (s : State) : State :=
  { s with pool := { s.pool with crossed := (p, line) :: s.pool.crossed.filter fun x => decide (x ≠ (p, line)) } }

/-- The pool device takes a line back and may change it before it answers a refetch (R431). A line that the filter does not
hold is answered at once. A request in flight for the line completes as a transient use (R432). -/
def backInvalidate (p : BitVec 2) (line : Nat) (change : State → State) (s : State) : State :=
  let t := if s.pool.filter.contains (p, line) then repushLine p line (change (dropPoolLine p line s)) else change s
  if requestInFlight p line s then crossLine p line t else t

/-- A back-invalidation of a line arrives while the request that this processor makes next for it, of whatever kind, is in
flight (R432; log entry 1). -/
def crossing (p : BitVec 2) (line : Nat) (s : State) : State := crossLine p line (backInvalidate p line id s)

/-- The pool device back-invalidates a line (R431). -/
def execBackInvalidation (port : BitVec 2) (line : Nat) (s : State) : Host.Outcome State Fault Refusal :=
  settle (backInvalidate port line id s)

/-! ### Page walks (R411, R412) -/

/-- A TLB miss of the current core, or a walk ahead of a copy (R412), fills the TLBs or fails; an invalid entry is not
cached and a failure is reported only by the access that meets it. -/
def execPageWalk (ctx : BitVec 6) (va : Word) (s : State) : Host.Outcome State Fault Refusal :=
  if 2 ^ 52 ≤ va.toNat then settle s
  else match leafFor s.me ctx va.toNat s with
    | .ok (t, _, _) => settle t
    | .error e => settle (countStop e s)

/-! ### SRAM errors (R405, R450) -/

/-- Count an uncorrectable error of a die (R451). -/
def countUe (d : Fin 4) (s : State) : State := s.updDie d fun x => { x with eccue := x.eccue + 1 }

/-- Take a core out of service until the next cold start: CORESVC clears and an error-log entry names it (R450). -/
def outOfService (c : CoreId) (s : State) : State :=
  logError 4 cSramUe 0 0 c.val (s.updCore c fun k => { k with inSvc := false })

/-- Kill what runs on a core; nothing if it is free. -/
def killRunning (c : CoreId) (code : Cause) (s : State) : State :=
  if (s.coreAt c).rg.status = .off ∧ (s.coreAt c).gang = none then s else killNodeOf c code s

/-- An uncorrectable error in state of the current core that carries no poison: the node is killed; the second one of a
core within a power-up takes it out of service (R405, R450). -/
def execSramUe (s : State) : Host.Outcome State Fault Refusal :=
  let s := killRunning s.me cSramUe (countUe (dieOf s.me) s)
  let s := s.upd fun k => { k with ueCount := k.ueCount + 1 }
  settle (if s.core.ueCount = 2 then outOfService s.me s else s)

/-- Poison one row of a FIFO entry. -/
def poisonFifo (e : Nat) (row : Nat) (l : List FifoEntry) : List FifoEntry :=
  ((List.range l.length).zip l).map fun ix =>
    if ix.1 = e then
      { ix.2 with rows := ((List.range ix.2.rows.length).zip ix.2.rows).map fun jr =>
          if jr.1 = row then { jr.2 with bad := true } else jr.2 }
    else ix.2

/-- The poison of R405 on the state that an uncorrectable error hits; g0 and k0 hold nothing (R12). -/
def poisonPlace (p : SramPlace) (k : Core) : Core :=
  match p with
  | .stashGranule g => { k with stash := { k.stash with bad := ninsert g.toNat k.stash.bad } }
  | .vectorRow r =>
    let old := kget ⟨0, false⟩ k.eng.v r.toNat
    { k with eng := { k.eng with v := kput k.eng.v r.toNat { old with bad := true } } }
  | .accRow r =>
    if r.toNat < 384 then
      let old := kget ⟨0, false⟩ k.eng.acc r.toNat
      { k with eng := { k.eng with acc := kput k.eng.acc r.toNat { old with bad := true } } }
    else k
  | .fifoRow f e row =>
    if h : f.toNat < 6 then
      { k with eng := { k.eng with fifos := k.eng.fifos.set f.toNat (poisonFifo e.toNat row.toNat k.eng.fifos[f.toNat]) } }
    else k
  | .gReg r => if r = 0 then k else { k with rg := { k.rg with g := vset r { vget r k.rg.g with bad := true } k.rg.g } }
  | .kReg r => if r = 0 then k else { k with rg := { k.rg with k := vset r { vget r k.rg.k with bad := true } k.rg.k } }
  | .l1Tlb i => { k with tlb := removeAt k.tlb i.toNat }
  | .l2Tlb _ => k
  | .walkCache _ => k

/-- An error in a translation structure, which poisons nothing. -/
def placeIsTlb : SramPlace → Bool
  | .l1Tlb _ => true
  | .l2Tlb _ => true
  | .walkCache _ => true
  | _ => false

/-- An uncorrectable error poisons state of the current core that carries poison, or invalidates a translation entry of the
core, its cluster or its die (R405). -/
def execSramErrorPoisoned (place : SramPlace) (s : State) : Host.Outcome State Fault Refusal :=
  let s := s.upd (poisonPlace place)
  match place with
  | .l2Tlb i => settle (s.updCluster (clusterOf s.me) fun k => { k with tlb := removeAt k.tlb i.toNat })
  | .walkCache i => settle (s.updDie (dieOf s.me) fun d => { d with wcache := removeAt d.wcache i.toNat })
  | _ => settle (if placeIsTlb place then s else countUe (dieOf s.me) s)

/-- ECC corrects a soft error: ECCCE of the die advances (R450, R451). -/
def execSoftErrorCorrected (die : BitVec 2) (s : State) : Host.Outcome State Fault Refusal :=
  settle (s.updDie die.toFin fun x => { x with eccce := x.eccce + 1 })

/-! ### What the world outside may do (log entry 1) -/

/-- A store by another processor to a pool device: one back-invalidation for each line that it touches (R86, R431). -/
def remoteStore (p : BitVec 2) (addr : Nat) (bytes : List Byte) (s : State) : State :=
  if bytes.isEmpty then s
  else
    (List.range ((addr + bytes.length - 1) / 128 - addr / 128 + 1)).foldl (fun s i =>
      let line := addr / 128 + i
      let lo := max addr (128 * line)
      let part := (bytes.drop (lo - addr)).take (128 * line + 128 - lo)
      backInvalidate p line (fun s => s.updMem (.pool p) fun m => m.write lo part false) s) s

/-- A store by the host to its own memory; no copy of it is held on the device (R53). -/
def hostStore (addr : Nat) (bytes : List Byte) (s : State) : State :=
  recallWrites ⟨.host, addr⟩ bytes.length s |>.updMem .host fun m => m.write addr bytes false

/-- The LLC drops a line, a dirty one after writing it back (R89). -/
def llcEvict (i : Nat) (s : State) : State :=
  match (llcLines s)[i]? with
  | none => s
  | some x => llcDrop x s

/-- A TLB of a core, of its cluster, or the walk cache of its die drops an entry (R412): they are numbered one after another. -/
def tlbEvict (c : CoreId) (i : Nat) (s : State) : State :=
  let l1 := (s.coreAt c).tlb.length
  let l2 := (s.cluster (clusterOf c)).tlb.length
  if i < l1 then s.updCore c fun k => { k with tlb := removeAt k.tlb i }
  else if i < l1 + l2 then s.updCluster (clusterOf c) fun k => { k with tlb := removeAt k.tlb (i - l1) }
  else s.updDie (dieOf c) fun d => { d with wcache := removeAt d.wcache (i - l1 - l2) }

/-- Count an uncorrectable error at an HBM address: on the die of the controller that serves it (R421, R451; log entry 18). -/
def countHbmUe (addr : Nat) (s : State) : State :=
  if addr < hbmEnd then countUe (Fin.ofNat 4 (addr / 0x1800000000)) s else s

/-- The metadata of a compressed block of HBM becomes unreadable (R95). -/
def metaError (block : Nat) (s : State) : State := countHbmUe (1024 * block) { s with badBlocks := ninsert block s.badBlocks }

/-- An uncorrectable error in memory poisons its granule (R93): spaces 0 HBM, 1 host, 4 to 7 the pool ports. One of HBM counts on
its die. -/
def memError (space : BitVec 3) (addr : Nat) (s : State) : State :=
  let sp : Space := if space = 0 then .hbm else if space = 1 then .host else .pool (space.setWidth 2)
  let s := if space = 0 then countHbmUe addr s else s
  s.updMem sp fun m => { m with bad := ninsert (addr / 64) m.bad }

end Sys2Proof.Machine
end

