-- ==== Sys2Proof/Machine/Pool.lean ====
section
/-!
DEFINITION. The memory pool: loss and return of a port (R435 to R437, R455), dynamic capacity (R433, R434).
-/
namespace Sys2Proof.Machine

/-! ### Ports and POOLSTAT (R429) -/

/-- A port by number. -/
def State.port (s : State) (p : BitVec 2) : Port := vget p s.pool.ports

/-- Update the pool. -/
def State.updPool (s : State) (f : Pool → Pool) : State := { s with pool := f s.pool }

/-- Update a port. -/
def updPort (p : BitVec 2) (f : Port → Port) (s : State) : State :=
  s.updPool fun x => { x with ports := vset p (f (vget p x.ports)) x.ports }

/-- Set CHG of a port and raise the vector of pool status. -/
def noteChange (p : BitVec 2) (s : State) : State :=
  raiseMsix s.pool.vec (s.updPool fun x => { x with chg := x.chg ||| (1#4 <<< p) })

/-- Set DCEV and raise the vector of pool status. -/
def noteCapacity (s : State) : State := raiseMsix s.pool.vec (s.updPool fun x => { x with dcev := true })

/-- A port changes STATE. -/
def setPortState (p : BitVec 2) (st : BitVec 3) (s : State) : State := noteChange p (updPort p (fun x => { x with state := st }) s)

/-! ### Slots and lines of a range of a device -/

/-- Set LOST and clear ACTIVE in a slot whose home is lost; its VALUE stays (R88). -/
def loseSlot (u : Sub) (s : State) : State :=
  let w := slotWord (s.coreAt u.core) u.slot
  updSlot u.core u.slot (fun l => { l with active := false })
    (putSlotWord u.core u.slot ((w &&& 0x7FFFFFFFFFFFFFFF) ||| 0x0800000000000000) s)

/-- Every slot subscribed to a word that satisfies a condition is lost (R88, R434, R435). -/
def loseSlots (hit : Loc → Bool) (s : State) : State :=
  let gone := s.subs.filter fun u => hit u.word
  gone.foldl (fun s u => loseSlot u s) { s with subs := s.subs.filter fun u => !hit u.word }

/-! ### Loss of a port (R435, R436) -/

/-- A port is alive and serves a window. -/
def servesOn (s : State) (w : PoolWin) (q : BitVec 2) : Bool := decide (servingPort w = q) && decide ((s.port q).state = 2)

/-- What the loss of a port does to a window, in force or not: a replicated one with the dead port as its primary, whose replica is
not dead, fails over; one whose other copy's port is alive and serves stays; any other that names the port is LOST (R435). -/
def windowAfterLoss (s : State) (p : BitVec 2) (w : PoolWin) : PoolWin :=
  if w.port ≠ p ∧ w.rport ≠ p then w
  else if w.repl ∧ w.port = p ∧ w.rport ≠ p ∧ (s.port w.rport).state ≠ 3 then { w with act := true }
  else if (w.port ≠ p ∧ servesOn s w w.port = true) ∨ (w.rport ≠ p ∧ servesOn s w w.rport = true) then w
  else { w with wstate := 1 }

/-- Stores in flight to a lost device are not performed and set WERR (R436). -/
def loseStores (p : BitVec 2) (c : CoreId) (s : State) : State :=
  let hit (x : PendStore) : Bool := decide (x.loc.space = .pool p)
  let gone := (s.coreAt c).stores.filter hit
  let s := s.updCore c fun k => { k with stores := k.stores.filter fun x => !hit x }
  gone.foldl (fun s x => setWerr c x.va (countArrived c x s)) s

/-- Poison the stash granule of a window granule that is dropped dirty (R435). -/
def dropGran (g : Gran) (s : State) : State :=
  if g.dirty = 0 then s
  else s.updCore g.core fun k => { k with stash := { k.stash with bad := ninsert g.gran k.stash.bad } }

/-- Drop every line and window granule of a device; nothing is written back (R435). -/
def dropDevice (p : BitVec 2) (s : State) : State :=
  let mine (g : Gran) : Bool := decide (g.home.space = .pool p)
  let s := keepGrans (fun g => !mine g) ((s.grans.filter mine).foldl (fun s g => dropGran g s) s)
  { s with llc := s.llc.filter fun l => decide (l.port ≠ p),
           pool := { s.pool with filter := s.pool.filter.filter (fun x => decide (x.1 ≠ p)),
                                 crossed := s.pool.crossed.filter fun x => decide (x.1 ≠ p) } }

/-- A port is declared dead (R435). One that is already DEAD stays so. -/
def losePort (p : BitVec 2) (s : State) : State :=
  if (s.port p).state = 3 then s
  else
    let s := updPort p (fun x => { x with state := 3, losscnt := x.losscnt + 1 }) s
    let wins := s.pool.wins.map (windowAfterLoss s p)
    let s := s.updPool fun x => { x with wins := wins, silent := x.silent &&& ~~~(1#4 <<< p) }
    let s := allCores.foldl (fun s c => loseStores p c s) s
    let s := loseSlots (fun x => decide (x.space = .pool p)) (dropDevice p s)
    logError 4 0 0 0 0xFFFF (noteChange p s)

/-- PORT_DEAD: the link goes down, a request goes unanswered, or the device reports a fatal error; a port that is DOWN has no link
and no request (log entry 27). -/
def execPortDead (p : BitVec 2) (s : State) : Host.Outcome State Fault Refusal :=
  settle (if (s.port p).state = 0 then s else losePort p s)

/-- A port that is UP stops answering: the requests made to it from now on are in flight when it is declared dead (R435, R436; log
entry 67). -/
def silencePort (p : BitVec 2) (s : State) : State :=
  if (s.port p).state = 2 then s.updPool fun x => { x with silent := x.silent ||| (1#4 <<< p) } else s

/-- KILL: the driver declares the port dead. -/
def execKill (p : BitVec 2) (s : State) : Host.Outcome State Fault Refusal :=
  settle (if s.ident.phase = 5 then losePort p s else s)

/-! ### Return of a port (R437, R455) -/

/-- PORT_RETRAIN: the device of a DEAD port answers; its windows stay LOST. -/
def execPortRetrain (p : BitVec 2) (s : State) : Host.Outcome State Fault Refusal :=
  settle (if (s.port p).state = 3 then setPortState p 4 s else s)

/-- ADMIT: RETRAINED becomes UP and every LOST window of the port REVAL. -/
def readmit (p : BitVec 2) (s : State) : State :=
  if (s.port p).state ≠ 4 then s
  else
    let s := setPortState p 2 s
    s.updPool fun x => { x with wins := x.wins.map fun w =>
      if w.wstate = 1 ∧ (w.port = p ∨ (w.repl = true ∧ w.rport = p)) then { w with wstate := 2 } else w }

/-- A write of ADMIT. -/
def execAdmitPort (p : BitVec 2) (s : State) : Host.Outcome State Fault Refusal :=
  settle (if s.ident.phase = 5 then readmit p s else s)

/-- VALIDATE: REVAL becomes OK; an OK replicated window served by its replica goes back to a primary that is UP. -/
def validateWindow (w : BitVec 4) (s : State) : State :=
  let x := vget w s.pool.wins
  let y : PoolWin :=
    if x.wstate = 2 then { x with wstate := 0 }
    else if x.wstate = 0 ∧ x.repl = true ∧ x.act = true ∧ (s.port x.port).state = 2 then { x with act := false }
    else x
  s.updPool fun q => { q with wins := vset w y q.wins }

/-! ### Dynamic capacity (R433, R434) -/

/-- XSTATE of an extent entry. -/
def xstateOf (s : State) (p : BitVec 2) (e : Nat) : BitVec 2 := kget 0 (s.port p).xstate e

/-- Set an extent entry. -/
def putExtent (p : BitVec 2) (e : Nat) (x : Extent) (st : BitVec 2) (s : State) : State :=
  updPort p (fun q => { q with ext := kput q.ext e x, xstate := kput q.xstate e st }) s

/-- An extent entry becomes FREE. -/
def freeExtent (p : BitVec 2) (e : Nat) (s : State) : State :=
  updPort p (fun q => { q with ext := kdel q.ext e, xstate := kdel q.xstate e,
                               rqrel := q.rqrel.filter fun i => decide (i ≠ e), owed := q.owed.filter fun i => decide (i ≠ e) }) s

/-- The FREE entries of a port. -/
def freeEntries (s : State) (p : BitVec 2) : List Nat := (List.range 256).filter fun e => decide (xstateOf s p e = 0)

/-- ADD_CAPACITY_EVENT of a device that offers dynamic capacity (R428): each extent takes a FREE entry as OFFERED; those beyond the table are rejected by the hub, as all are
while dynamic capacity is not accepted (R417). `owed` lists the entries for which the device still awaits its response. -/
def execAddCapacityEvent (p : BitVec 2) (extents : List Extent) (s : State) : Host.Outcome State Fault Refusal :=
  let placed := (freeEntries s p).zip extents
  if s.feature 8 && (s.port p).dcap && decide ((s.port p).state = 2) && !placed.isEmpty then
    let s := placed.foldl (fun s ex => putExtent p ex.1 ex.2 1 s) s
    settle (noteCapacity (updPort p (fun q => { q with owed := q.owed ++ placed.map (·.1) }) s))
  else settle s

/-- RELEASE_REQUEST: the device asks for an ACCEPTED extent back; it stays usable. -/
def execReleaseRequest (p : BitVec 2) (e : BitVec 8) (s : State) : Host.Outcome State Fault Refusal :=
  settle (if xstateOf s p e.toNat = 2 then
    noteCapacity (updPort p (fun q => { q with rqrel := ninsert e.toNat q.rqrel }) s) else s)

/-- OFFERED → ACCEPTED; in another XSTATE the write is ignored and logged. -/
def acceptExtent (p : BitVec 2) (e : Nat) (s : State) : State :=
  if xstateOf s p e = 1 then
    noteCapacity (updPort p (fun q => { q with xstate := kput q.xstate e 2, owed := q.owed.filter fun i => decide (i ≠ e) }) s)
  else logHostWrite s

/-- OFFERED → FREE; in another XSTATE the write is ignored and logged. -/
def rejectExtent (p : BitVec 2) (e : Nat) (s : State) : State :=
  if xstateOf s p e = 1 then noteCapacity (freeExtent p e s) else logHostWrite s

/-- A write of ACCEPT. -/
def execAccept (p : BitVec 2) (e : BitVec 8) (s : State) : Host.Outcome State Fault Refusal :=
  settle (if s.ident.phase = 5 then acceptExtent p e.toNat s else s)

/-- A write of REJECT. -/
def execReject (p : BitVec 2) (e : BitVec 8) (s : State) : Host.Outcome State Fault Refusal :=
  settle (if s.ident.phase = 5 then rejectExtent p e.toNat s else s)

/-- A location lies in a range of a device. -/
def inRange (p : BitVec 2) (lo hi : Nat) (x : Loc) : Bool := decide (x.space = .pool p) && decide (lo ≤ x.addr ∧ x.addr < hi)

/-- Write back and drop every LLC line and window granule of a range of a device (R434). -/
def flushRange (p : BitVec 2) (lo hi : Nat) (s : State) : State :=
  let gs := s.grans.filter fun g => inRange p lo hi g.home
  let s := gs.foldl (fun s g => granWriteBack g s) s
  let line (port : BitVec 2) (l : Nat) : Bool := decide (port = p) && decide (lo ≤ 128 * l ∧ 128 * l < hi)
  let s := keepGrans (fun g => !inRange p lo hi g.home) ((s.llc.filter fun l => line l.port l.line).foldl (fun s l => llcWriteBack l s) s)
  { s with llc := s.llc.filter fun l => !line l.port l.line,
           pool := { s.pool with filter := s.pool.filter.filter fun x => !line x.1 x.2 } }

/-- RELEASE of an ACCEPTED extent (R434): accesses in flight complete, copies are written back and dropped, subscribers are
LOST, and the extent goes back to the device. In another XSTATE the write is ignored and logged. -/
def releaseExtent (p : BitVec 2) (e : Nat) (s : State) : State :=
  if xstateOf s p e ≠ 2 then logHostWrite s
  else
    let x := kget ⟨0, 0, 0⟩ (s.port p).ext e
    let lo := x.start.toNat * 2 ^ 19
    let hi := (x.start.toNat + x.length.toNat) * 2 ^ 19
    let s := allCores.foldl (fun s c =>
      if (s.coreAt c).stores.any fun y => inRange p lo hi y.loc then drainStores c s else s) s
    noteCapacity (freeExtent p e (loseSlots (inRange p lo hi) (flushRange p lo hi s)))

/-- A write of RELEASE. -/
def execRelease (p : BitVec 2) (e : BitVec 8) (s : State) : Host.Outcome State Fault Refusal :=
  settle (if s.ident.phase = 5 then releaseExtent p e.toNat s else s)

end Sys2Proof.Machine
end

