-- ==== Sys2Proof/Machine/Security.lean ====
section
/-!
DEFINITION. The security controller: measurement registers (R440), mailbox commands (R441 to R443), the SPDM responder with its
secured session (R444, R445), SET_KEY and IDE_KM (R446), and the TDI (R425, R447). The wire layouts and the key schedule of SPDM are
those of DSP0274 and DSP0277 (PRESUMED, log entry 28).
-/
namespace Sys2Proof.Machine

/-- Update the security controller. -/
def State.updSec (s : State) (f : Security → Security) : State := { s with sec := f s.sec }

/-- Extend a measurement register; every extend clears FRESH (R440, R443). -/
def extendReg (i : BitVec 4) (d : List Byte) (s : State) : State :=
  s.updSec fun x => { x with mr := vset i (extendMr (vget i x.mr) d) x.mr, fresh := false }

/-- An empty key slot (R442). -/
def KeySlot.empty : KeySlot := ⟨0, 0, 0, 0⟩

/-- Every key slot that satisfies a condition becomes EMPTY (R447). -/
def clearKeys (p : KeySlot → Bool) (s : State) : State :=
  s.updSec fun x => { x with keys := x.keys.map fun k => if p k then KeySlot.empty else k }

/-! ### The TDI (R425, R447) -/

/-- CONFIG_LOCKED or RUN. -/
def tdiLocked (s : State) : Bool := decide (s.ident.tdi = 1) || decide (s.ident.tdi = 2)

/-- Every context by number. -/
def allCtxs : List (BitVec 6) := (List.range 64).map (BitVec.ofNat 6)

/-- The TDI enters ERROR: tagged contexts are aborted and tagged key slots emptied. -/
def tdiError (s : State) : State :=
  let s := { s with ident := { s.ident with tdi := 3 } }
  let s := (allCtxs.filter fun n => decide ((s.ctx n).tag ≠ 0)).foldl (fun s n => abortCtx n s) s
  clearKeys (fun k => decide (k.tag ≠ 0)) s

/-- TDISP_REQUEST: CONFIG_UNLOCKED to CONFIG_LOCKED to RUN, and back to CONFIG_UNLOCKED from any state; any other request, and
every one while TDISP is not accepted, receives an error response and leaves the state (R417, R425). -/
def execTdispRequest (r : TdispReq) (s : State) : Host.Outcome State Fault Refusal :=
  let go (t : BitVec 2) : State := { s with ident := { s.ident with tdi := t, tdiErr := some false } }
  let refused : State := { s with ident := { s.ident with tdiErr := some true } }
  settle (if s.feature 10 = false then refused
    else match r with
      | .lock => if s.ident.tdi = 0 then go 1 else refused
      | .start => if s.ident.tdi = 1 then go 2 else refused
      | .stop => go 0)

/-! ### Mailbox commands (R441 to R443) -/

/-- The RESULT codes of R441. -/
def resOk : Byte := 0
def resBadArg : Byte := 1
def resNoFresh : Byte := 2
def resSlotState : Byte := 3
def resLocked : Byte := 4

/-- A byte of ARGS. -/
def argByte (s : State) (i : Nat) : Byte := kget 0 s.sec.args i

/-- Bytes of ARGS. -/
def argBytes (s : State) (i n : Nat) : List Byte := (List.range n).map fun j => argByte s (i + j)

/-- Set OUT. -/
def setOut (o : List Byte) (s : State) : State := s.updSec fun x => { x with out := o }

/-- LOAD_MODEL (R443). -/
def loadModel (s : State) : State × Byte :=
  let n := (argByte s 0).toNat
  let r := (argByte s 1).toNat
  let mask : Word := BitVec.ofNat 64 (leVal (argBytes s 8 8))
  let ctx := BitVec.ofNat 6 n
  let slots := (List.range 64).filter fun i => mask.getLsbD i
  let ready (i : Nat) : Bool :=
    let k := vget (BitVec.ofNat 6 i) s.sec.keys
    decide (k.state = 1) && decide (k.tag = (s.ctx ctx).tag)
  if tdiLocked s then (s, resLocked)
  else if 64 ≤ n ∨ r < 8 ∨ 16 ≤ r then (s, resBadArg)
  else if s.sec.fresh = false then (s, resNoFresh)
  else if !slots.all ready then (s, resSlotState)
  else
    let s := extendReg (BitVec.ofNat 4 r) (argBytes s 16 48) s
    let arm (v : Vector KeySlot 64) (i : Nat) : Vector KeySlot 64 :=
      vset (BitVec.ofNat 6 i) { vget (BitVec.ofNat 6 i) v with state := 2 } v
    let s := s.updSec fun x => { x with keys := slots.foldl arm x.keys, fresh := false }
    ({ s with ctxs := vset ctx { s.ctx ctx with modelok := true } s.ctxs }, resOk)

/-- EXTEND of MR5 to MR7. -/
def extendCommand (s : State) : State × Byte :=
  let r := (argByte s 1).toNat
  if tdiLocked s then (s, resLocked)
  else if r < 5 ∨ 8 ≤ r then (s, resBadArg)
  else (extendReg (BitVec.ofNat 4 r) (argBytes s 16 48) s, resOk)

/-- READ_MEAS: OUT holds every register. -/
def readMeas (s : State) : State × Byte := (setOut ((s.sec.mr.toList.map fun m => bvBytes 48 m).flatten) s, resOk)

/-- SLOT_STATE: OUT holds state, TAG and LASTCTR. -/
def slotStateCommand (s : State) : State × Byte :=
  let n := (argByte s 0).toNat
  if 64 ≤ n then (s, resBadArg)
  else
    let k := vget (BitVec.ofNat 6 n) s.sec.keys
    (setOut ([k.state.setWidth 8, k.tag] ++ List.replicate 6 0 ++ bvBytes 8 k.lastctr) s, resOk)

/-- CLEAR_SLOT: the slot becomes EMPTY. -/
def clearSlot (s : State) : State × Byte :=
  let n := (argByte s 0).toNat
  if tdiLocked s then (s, resLocked)
  else if 64 ≤ n then (s, resBadArg)
  else (s.updSec fun x => { x with keys := vset (BitVec.ofNat 6 n) KeySlot.empty x.keys }, resOk)

/-- GO starts the command in OPCODE; it is ignored while one is executing (R441). -/
def startCommand (s : State) : State :=
  s.updSec fun x => { x with busy := if x.busy.isSome then x.busy else some x.opcode }

/-- The end of a command: RESULT stands, BUSY clears and VEC is raised (R441). -/
def commandDone (r : State × Byte) : State :=
  raiseMsix r.1.sec.vec (r.1.updSec fun x => { x with result := r.2, busy := none })

/-- The controller executes the command that GO has started, if it is this one. ARGS are read now (DESIGN CHOICE, log entry 52). -/
def perform (op : BitVec 16) (f : State → State × Byte) (s : State) : Host.Outcome State Fault Refusal :=
  settle (if s.sec.busy = some op then commandDone (f s) else s)

/-- LOAD_MODEL. -/
def execLoadModel (s : State) : Host.Outcome State Fault Refusal := perform 1 loadModel s

/-- EXTEND. -/
def execExtend (s : State) : Host.Outcome State Fault Refusal := perform 2 extendCommand s

/-- READ_MEAS. -/
def execReadMeas (s : State) : Host.Outcome State Fault Refusal := perform 3 readMeas s

/-- SLOT_STATE. -/
def execSlotState (s : State) : Host.Outcome State Fault Refusal := perform 4 slotStateCommand s

/-- CLEAR_SLOT. -/
def execClearSlot (s : State) : Host.Outcome State Fault Refusal := perform 5 clearSlot s

/-- The row of the command that executes; an unknown opcode ends with BADARG (R442). -/
def mailboxWork (s : State) : State × Option Instr :=
  match s.sec.busy with
  | none => (s, none)
  | some op => match op.toNat with
    | 1 => (s, some .loadModel)
    | 2 => (s, some .extend)
    | 3 => (s, some .readMeas)
    | 4 => (s, some .slotState)
    | 5 => (s, some .clearSlot)
    | _ => (commandDone (s, resBadArg), none)

/-! ### The responder (R444, R445) -/

/-- Answer the message that waits. -/
def replyWith (r : List Byte) (s : State) : State := s.updSec fun x => { x with reply := r, request := [] }

/-- An ERROR response (R445). -/
def spdmError (v code : Byte) (s : State) : State := replyWith [v, 0x7F, code, 0] s

/-- An error that resets the transcript: GET_VERSION is required next. -/
def spdmReset (v code : Byte) (s : State) : State :=
  spdmError v code (s.updSec fun x => { x with trans := [], spdm := .start, session := none })

/-- The version is 1.2 or 1.3. -/
def spdmVersionOk (v : Byte) : Bool := decide (v = 0x12) || decide (v = 0x13)

/-- The code of the request that waits. -/
def requestCode (s : State) : Byte := s.sec.request.getD 1 0

/-- Serve the request that waits if it has a code: version, then order, then the request itself; a success joins the
transcript with its response. -/
def spdmServe (code : Byte) (legal : Security → Bool) (body : List Byte → State → Except Byte (State × List Byte))
    (s : State) : State :=
  let req := s.sec.request
  let v := req.getD 0 0
  if req.length < 4 ∨ requestCode s ≠ code then s
  else if !spdmVersionOk v then spdmReset v 0x41 s
  else if !legal s.sec then spdmReset v 0x04 s
  else match body req s with
    | .error e => spdmError v e s
    | .ok (s, r) => replyWith r (s.updSec fun x => { x with trans := x.trans ++ req ++ r })

/-- InvalidRequest unless a condition holds. -/
def valid (ok : Bool) : Except Byte Unit := if ok then .ok () else .error 0x01

/-- GET_VERSION: legal at any time; it resets transcript and state. -/
def execGetVersion (s : State) : Host.Outcome State Fault Refusal :=
  let req := s.sec.request
  if req.length < 4 ∨ requestCode s ≠ 0x84 then settle s
  else
    let r : List Byte := [0x10, 0x04, 0, 0, 0, 2, 0, 0x12, 0, 0x13]
    settle (replyWith r (s.updSec fun x => { x with spdm := .version, trans := req ++ r, version := 0, session := none }))

/-- The request order stands in a state. -/
def inPhase (p : SpdmPhase) (x : Security) : Bool := decide (x.spdm = p)

/-- The request order stands in a state, and the request came protected by the session's keys: FINISH and the requests of a session
(R444). -/
def inSession (p : SpdmPhase) (x : Security) : Bool := decide (x.spdm = p) && x.cover.isSome

/-- Move to a state of the request order. -/
def toPhase (p : SpdmPhase) (s : State) : State := s.updSec fun x => { x with spdm := p }

/-- GET_CAPABILITIES: CERT, CHAL, MEAS with signature, KEY_EX, ENCRYPT, MAC. The request has 20 bytes, a DataTransferSize of 42 or
more and a MaxSPDMmsgSize not below it. -/
def execGetCapabilities (s : State) : Host.Outcome State Fault Refusal :=
  settle (spdmServe 0xE1 (inPhase .version) (fun req s => do
    let v := req.getD 0 0
    let size := leVal ((req.drop 12).take 4)
    valid (decide (20 ≤ req.length ∧ 42 ≤ size ∧ size ≤ leVal ((req.drop 16).take 4)))
    .ok ((toPhase .caps s).updSec fun x => { x with version := v },
      [v, 0x61, 0, 0, 0, 0, 0, 0] ++ leBytes 4 0x2D6 ++ bvBytes 4 Config.spdmSize ++ bvBytes 4 Config.spdmSize)) s)

/-- NEGOTIATE_ALGORITHMS: ed25519, SHA-384, secp384r1, AES-256-GCM are selected; a requester that does not offer the signature
and hash algorithms is answered with InvalidRequest. -/
def execNegotiateAlgorithms (s : State) : Host.Outcome State Fault Refusal :=
  settle (spdmServe 0xE3 (inPhase .caps) (fun req s => do
    let asym : Word := BitVec.ofNat 64 (leVal ((req.drop 8).take 4))
    let hash : Word := BitVec.ofNat 64 (leVal ((req.drop 12).take 4))
    valid (decide (32 ≤ req.length ∧ leVal ((req.drop 4).take 2) = req.length) && asym.getLsbD 9 && hash.getLsbD 1)
    .ok (toPhase .algs s,
      [req.getD 0 0, 0x63, 2, 0] ++ leBytes 2 44 ++ [1, 0] ++ leBytes 4 4 ++ leBytes 4 0x200 ++ leBytes 4 2 ++ List.replicate 16 0 ++
        [2, 0x20] ++ leBytes 2 0x10 ++ [3, 0x20] ++ leBytes 2 2)) s)

/-- The states in which the five requests of R444's third item are legal: after the algorithms, or in a session. -/
def afterAlgs (x : Security) : Bool := inPhase .algs x || inPhase .session x

/-- The certificate chain of a slot: 0 Ed25519, 1 ML-DSA-65 (R438). -/
def chainOf (slot : Nat) : Except Byte (List Byte) :=
  if slot < 2 then .ok (Config.certChain (BitVec.ofNat 1 slot)) else .error 0x01

/-- GET_DIGESTS: the digests of both chains. -/
def execGetDigests (s : State) : Host.Outcome State Fault Refusal :=
  settle (spdmServe 0x81 afterAlgs (fun req s =>
    .ok (s, [req.getD 0 0, 0x01, 0, 3] ++ sha384 (Config.certChain 0) ++ sha384 (Config.certChain 1))) s)

/-- GET_CERTIFICATE: a portion of at most 1,024 bytes of a chain. -/
def execGetCertificate (s : State) : Host.Outcome State Fault Refusal :=
  settle (spdmServe 0x82 afterAlgs (fun req s => do
    let chain ← chainOf ((req.getD 2 0).toNat % 16)
    let off := leVal ((req.drop 4).take 2)
    valid (decide (8 ≤ req.length) && decide (off < chain.length))
    let n := min (min 1024 (leVal ((req.drop 6).take 2))) (chain.length - off)
    .ok (s, [req.getD 0 0, 0x02, (req.getD 2 0) &&& 0xF, 0] ++ leBytes 2 n ++ leBytes 2 (chain.length - off - n) ++
      (chain.drop off).take n)) s)

/-- A fresh nonce of the responder. -/
def takeNonce (s : State) : List Byte × State :=
  (bvBytes 32 (Config.nonce s.sec.draws), s.updSec fun x => { x with draws := x.draws + 1 })

/-- The transcript hash for a signed response whose fields before OpaqueData are given (R445). -/
def transcriptHash (s : State) (req fields : List Byte) : List Byte := sha384 (s.sec.trans ++ req ++ fields)

/-- OpaqueData with the Snibex element that holds the 3,309-byte ML-DSA-65 signature, and the Ed25519 signature behind it, both by
the identity keys (R438, R445). -/
def signedTail (x : Security) (v : Byte) (req ctx : List Byte) (h : List Byte) : List Byte :=
  let sig := bvBytes 3309 (Config.mldsaSign x.mldsaKey.secret h)
  let elem := leBytes 2 0x5342 ++ leBytes 2 0x0001 ++ leBytes 2 sig.length ++ sig
  leBytes 2 elem.length ++ elem ++ (if v = 0x13 then (req.drop ctx.length).take 8 else []) ++ bvBytes 64 (Config.edSign x.edKey.secret h)

/-- A measurement summary is asked for none, the TCB or all measurements. -/
def summaryOk (b : Byte) : Bool := decide (b = 0 ∨ b = 1 ∨ b = 0xFF)

/-- All measurement registers as their blocks hold them: index, DMTF format, size, type, value (R444). -/
def measBlock (s : State) (i : Nat) : List Byte :=
  [BitVec.ofNat 8 (i + 1), 1] ++ leBytes 2 51 ++ [1] ++ leBytes 2 48 ++ bvBytes 48 (vget (BitVec.ofNat 4 i) s.sec.mr)

/-- Every block. -/
def measBlocks (s : State) : List Byte := ((List.range 16).map (measBlock s)).flatten

/-- FRESH is set: a signed attestation is outstanding (R443). -/
def setFresh (s : State) : State := s.updSec fun x => { x with fresh := true }

/-- CHALLENGE: a signed CHALLENGE_AUTH, which sets FRESH. -/
def execChallenge (s : State) : Host.Outcome State Fault Refusal :=
  settle (spdmServe 0x83 afterAlgs (fun req s => do
    let v := req.getD 0 0
    let slot := (req.getD 2 0).toNat
    let chain ← chainOf slot
    valid (decide ((if v = 0x13 then 44 else 36) ≤ req.length) && summaryOk (req.getD 3 0))
    let (nonce, s) := takeNonce s
    let summary := if req.getD 3 0 = 0 then [] else sha384 (measBlocks s)
    let fields := [v, 0x03, BitVec.ofNat 8 slot, 3] ++ sha384 chain ++ nonce ++ summary
    .ok (setFresh s, fields ++ signedTail s.sec v req (req.take 36) (transcriptHash s req fields))) s)

/-- The number and bytes of the blocks that an index names: 0 their number, 1 to 16 one, 0xFF all (R444). -/
def measRecord (s : State) (op : Byte) : Except Byte (Nat × List Byte) :=
  if op = 0 then .ok (0, [])
  else if op = 0xFF then .ok (16, measBlocks s)
  else if op.toNat ≤ 16 then .ok (1, measBlock s (op.toNat - 1))
  else .error 0x01

/-- GET_MEASUREMENTS: the blocks asked for, signed on request; a signed answer sets FRESH. -/
def execGetMeasurements (s : State) : Host.Outcome State Fault Refusal :=
  settle (spdmServe 0xE0 afterAlgs (fun req s => do
    let v := req.getD 0 0
    let sign := (req.getD 2 0).getLsbD 0
    let (n, rec_) ← measRecord s (req.getD 3 0)
    valid (!sign || decide ((if v = 0x13 then 45 else 37) ≤ req.length ∧ (req.getD 36 0).toNat % 16 < 2))
    let (nonce, s) := takeNonce s
    let fields := [v, 0x60, if req.getD 3 0 = 0 then 16 else 0, (if sign then req.getD 36 0 else 0) &&& 0xF, BitVec.ofNat 8 n] ++
      leBytes 3 rec_.length ++ rec_ ++ nonce
    if sign then .ok (setFresh s, fields ++ signedTail s.sec v req (req.take 37) (transcriptHash s req fields))
    else .ok (s, fields ++ leBytes 2 0)) s)

/-- The info of a key derivation: length, version, label, context. -/
def derivationInfo (v : Byte) (n : Nat) (label : String) (ctx : List Byte) : List Byte :=
  leBytes 2 n ++ ascii (if v = 0x13 then "spdm1.3 " else "spdm1.2 ") ++ ascii label ++ ctx

/-- A secret of 48 bytes derived from another under a label and a transcript hash. -/
def derivedSecret (v : Byte) (secret : List Byte) (label : String) (th : List Byte) : List Byte :=
  hkdfExpand secret (derivationInfo v 48 label th) 48

/-- The AES-256-GCM key and IV of a direction whose secret is given. -/
def directionKeys (v : Byte) (secret : List Byte) : SecureDir :=
  ⟨hkdfExpand secret (derivationInfo v 32 "key" []) 32, hkdfExpand secret (derivationInfo v 12 "iv" []) 12, 0⟩

/-- The handshake keys of a session from the shared secret and the transcript hash of KEY_EXCHANGE. -/
def handshakeSession (v : Byte) (id dhe th : List Byte) : Session :=
  let secret := hmac384 (List.replicate 48 0) dhe
  let req := derivedSecret v secret "req hs data" th
  ⟨id, directionKeys v req, directionKeys v (derivedSecret v secret "rsp hs data" th), derivedSecret v req "finished" [], secret⟩

/-- The verification value of the responder in KEY_EXCHANGE_RSP. -/
def responderVerify (v : Byte) (x : Session) (th : List Byte) : List Byte :=
  hmac384 (derivedSecret v (derivedSecret v x.secret "rsp hs data" th) "finished" []) th

/-- The keys of the application phase, from the transcript hash through FINISH_RSP. -/
def applicationSession (v : Byte) (x : Session) (th : List Byte) : Session :=
  let master := hmac384 (derivedSecret v x.secret "derived" []) (List.replicate 48 0)
  { x with req := directionKeys v (derivedSecret v master "req app data" th),
           rsp := directionKeys v (derivedSecret v master "rsp app data" th) }

/-- KEY_EXCHANGE: the responder's secp384r1 share and a signature; the session's handshake keys stand, and it begins once FINISH has
followed. -/
def execKeyExchange (s : State) : Host.Outcome State Fault Refusal :=
  settle (spdmServe 0xE4 afterAlgs (fun req s => do
    let v := req.getD 0 0
    let slot := (req.getD 3 0).toNat
    let _ ← chainOf slot
    valid (decide (138 ≤ req.length) && summaryOk (req.getD 2 0))
    let share := bvBytes 96 (Config.keyShare s.sec.draws)
    let dhe := bvBytes 48 (Config.dheSecret s.sec.draws ((req.drop 40).take 96))
    let id := (req.drop 4).take 2 ++ leBytes 2 s.sec.draws
    let (nonce, s) := takeNonce s
    let summary := if req.getD 2 0 = 0 then [] else sha384 (measBlocks s)
    let fields := [v, 0x64, 0, 0] ++ id.drop 2 ++ [0, BitVec.ofNat 8 slot] ++ nonce ++ share ++ summary
    let r := fields ++ signedTail s.sec 0x12 req [] (transcriptHash s req fields)
    let th := transcriptHash s req r
    let x := handshakeSession v id dhe th
    .ok ((toPhase .keyed s).updSec fun y => { y with session := some x }, r ++ responderVerify v x th)) s)

/-- The verification value that FINISH must carry: the HMAC of the transcript under the requester's finished key. -/
def finishOk (s : State) (req : List Byte) : Bool :=
  match s.sec.session with
  | some x => decide (req.drop 4 = hmac384 x.finished (transcriptHash s (req.take 4) []))
  | none => false

/-- FINISH: it follows KEY_EXCHANGE under the handshake keys, and its verification value must be that of the transcript; the session
goes on under its application keys. -/
def execFinish (s : State) : Host.Outcome State Fault Refusal :=
  settle (spdmServe 0xE5 (inSession .keyed) (fun req s => do
    valid (finishOk s req)
    let r : List Byte := [req.getD 0 0, 0x65, 0, 0]
    let th := transcriptHash s req r
    .ok ((toPhase .session s).updSec fun y => { y with session := y.session.map fun x => applicationSession (req.getD 0 0) x th }, r)) s)

/-- END_SESSION: the session ends; key slots stay (R446). -/
def execEndSession (s : State) : Host.Outcome State Fault Refusal :=
  settle (spdmServe 0xEC (inSession .session) (fun req s =>
    .ok ((toPhase .algs s).updSec fun y => { y with session := none }, [req.getD 0 0, 0x6C, 0, 0])) s)

/-! ### Vendor-defined messages in a session (R446) -/

/-- The vendor and payload of a VENDOR_DEFINED_REQUEST. -/
def vendorParts (req : List Byte) : Nat × Nat × List Byte :=
  (leVal ((req.drop 4).take 2), leVal ((req.drop 7).take 2), (req.drop 11).take (leVal ((req.drop 9).take 2)))

/-- The message is Snibex's (vendor 0x5342). -/
def isSnibex (req : List Byte) : Bool := decide ((vendorParts req).2.1 = 0x5342)

/-- A VENDOR_DEFINED_RESPONSE that repeats the header. -/
def vendorReply (req payload : List Byte) : List Byte :=
  [req.getD 0 0, 0x7E, 0, 0] ++ (req.drop 4).take 5 ++ leBytes 2 payload.length ++ payload

/-- IDE_KM has programmed keys of a stream. -/
def ideHasKeys (s : State) (stream : Nat) : Bool := s.ident.ideKeys.any fun ix => decide (ix.1 = stream)

/-- The bytes that an IDE_KM object has at least: QUERY 4, KEY_PROG 8 and a 40-byte key buffer, K_SET_GO and K_SET_STOP 8; another
object is none for the device. -/
def ideObjectLength (object : Nat) : Option Nat :=
  match object with
  | 0 => some 4
  | 2 => some 48
  | 4 => some 8
  | 5 => some 8
  | _ => none

/-- An IDE_KM payload is well formed. -/
def idePayloadOk (p : List Byte) : Bool :=
  decide (p.getD 0 0xFF = 0) && (ideObjectLength (p.getD 1 0).toNat).any fun n => decide (n ≤ p.length)

/-- IDE_KM: QUERY is answered; KEY_PROG stores a stream's key material, of five streams at most, and is acknowledged with KP_ACK;
K_SET_GO makes a stream with keys secure, K_SET_STOP ends that, both acknowledged with K_GOSTOP_ACK (R424; log entry 28). -/
def execIdeKm (s : State) : Host.Outcome State Fault Refusal :=
  if isSnibex s.sec.request then settle s
  else settle (spdmServe 0xFE (inSession .session) (fun req s => do
    let (_, vendor, p) := vendorParts req
    valid (decide (vendor = 1) && idePayloadOk p)
    let stream := (p.getD 4 0).toNat
    let reply (o : Byte) : List Byte := vendorReply req ([0, o] ++ (p.drop 2).take 6)
    let ident (f : Ident → Ident) : State := { s with ident := f s.ident }
    match (p.getD 1 0).toNat with
    | 2 =>
      valid (ideHasKeys s stream || decide (s.ident.ideKeys.length < 5))
      .ok (ident fun x => { x with ideKeys := kput x.ideKeys stream (p.drop 5) }, reply 3)
    | 4 => .ok (ident fun x => { x with ide := if ideHasKeys s stream then ninsert stream x.ide else x.ide }, reply 6)
    | 5 => .ok (ident fun x => { x with ide := x.ide.filter fun i => decide (i ≠ stream) }, reply 6)
    | _ => .ok (s, vendorReply req ([0, 1] ++ (p.drop 2).take 2 ++ Config.ideQuery))) s)

/-- SET_KEY: an EMPTY slot becomes LOADED with tag, key and LASTCTR 0; any other is answered with InvalidRequest. -/
def execSetKey (s : State) : Host.Outcome State Fault Refusal :=
  if !isSnibex s.sec.request then settle s
  else settle (spdmServe 0xFE (inSession .session) (fun req s => do
    let (_, _, p) := vendorParts req
    let n := (p.getD 1 0).toNat
    valid (decide (p.length = 35) && decide (p.getD 0 0 = 1) && decide (n < 64))
    let i := BitVec.ofNat 6 n
    valid (decide ((vget i s.sec.keys).state = 0))
    let k : KeySlot := ⟨1, p.getD 2 0, BitVec.ofNat 256 (leVal (p.drop 3)), 0⟩
    .ok (s.updSec fun x => { x with keys := vset i k x.keys }, vendorReply req [1])) s)

/-! ### The DOE mailbox (R444, R445) -/

/-- The nonce of a record: the IV with the sequence number. -/
def recordIv (d : SecureDir) : List Byte := List.zipWith (· ^^^ ·) d.iv (leBytes 12 d.seq)

/-- The next record of a direction. -/
def SecureDir.next (d : SecureDir) : SecureDir := { d with seq := d.seq + 1 }

/-- A message as a secured-SPDM object: identifier, length, and the message with its length under AES-256-GCM with its tag. -/
def sealRecord (id : List Byte) (d : SecureDir) (msg : List Byte) : List Byte :=
  let ct := gcmCrypt d.key (recordIv d) (leBytes 2 msg.length ++ msg)
  let head := id ++ leBytes 2 (ct.length + 16)
  head ++ ct ++ gcmTag d.key (recordIv d) head ct

/-- The message in a secured-SPDM object of a session; none if its identifier, length or tag is wrong. -/
def openRecord (x : Session) (obj : List Byte) : Option (List Byte) :=
  let n := leVal ((obj.drop 4).take 2)
  let ct := (obj.drop 6).take (n - 16)
  if obj.take 4 = x.id ∧ 18 ≤ n ∧ obj.length = 6 + n ∧ obj.drop (6 + (n - 16)) = gcmTag x.req.key (recordIv x.req) (obj.take 6) ct then
    let pt := gcmCrypt x.req.key (recordIv x.req) ct
    let len := leVal (pt.take 2)
    if len + 2 ≤ pt.length then some ((pt.drop 2).take len) else none
  else none

/-- The response that the DOE mailbox holds, with whether it is a secured-SPDM object: protected as its request was (R444). -/
def doeResponse (s : State) : Bool × List Byte :=
  match s.sec.cover with
  | some (id, d) => (true, sealRecord id d s.sec.reply)
  | none => (false, s.sec.reply)

/-- The row that serves a request; another request is UnsupportedRequest (R445). -/
def requestWork (msg : List Byte) (s : State) : State × Option Instr :=
  let t := s.updSec fun x => { x with request := msg }
  if msg.length < 4 then (spdmError (msg.getD 0 0x12) 0x01 t, none)
  else match (msg.getD 1 0).toNat with
    | 0x84 => (t, some .getVersion)
    | 0xE1 => (t, some .getCapabilities)
    | 0xE3 => (t, some .negotiateAlgorithms)
    | 0x81 => (t, some .getDigests)
    | 0x82 => (t, some .getCertificate)
    | 0x83 => (t, some .challenge)
    | 0xE0 => (t, some .getMeasurements)
    | 0xE4 => (t, some .keyExchange)
    | 0xE5 => (t, some .finish)
    | 0xEC => (t, some .endSession)
    | 0xFE => (t, some (if isSnibex msg then .setKey else .ideKm))
    | _ => (spdmError (msg.getD 0 0x12) 0x07 t, none)

/-- A message of the DOE mailbox, an SPDM or a secured-SPDM object (R444). While a mailbox command executes it is answered with Busy
(R445). A secured object that does not open is a malformed request. -/
def doeWork (secured : Bool) (msg : List Byte) (s : State) : State × Option Instr :=
  let plain := s.updSec fun x => { x with cover := none }
  if s.sec.busy.isSome then (spdmError (msg.getD 0 0x12) 0x03 plain, none)
  else if !secured then requestWork msg plain
  else match s.sec.session.bind fun x => (openRecord x msg).map fun m => (x, m) with
    | none => (spdmError s.sec.version 0x01 plain, none)
    | some (x, m) =>
      requestWork m (s.updSec fun y => { y with cover := some (x.id, x.rsp), session := some { x with req := x.req.next, rsp := x.rsp.next } })

end Sys2Proof.Machine
end

