-- ==== Sys2Proof/Machine/HostRegs.lean ====
section
/-!
DEFINITION. BAR0 (R415): what every register reads, what a host write does, 4-byte accesses, the fields that the TDI locks
(R425), and the effects of R413, R416 to R420, R429, R430, R433, R443, R452 and R456.
-/
namespace Sys2Proof.Machine

/-! ### Reads -/

/-- A number shifted to a bit position. -/
def at_ {n : Nat} (lo : Nat) (x : BitVec n) : Word := x.setWidth 64 <<< lo

/-- A truth value at a bit position. -/
def flag (lo : Nat) (b : Bool) : Word := if b then 1 <<< lo else 0

/-- CORESVC word i (R416). -/
def coreSvc (s : State) (i : Nat) : Word :=
  (List.range 64).foldl (fun w j => if 64 * i + j < 320 ∧ (s.coreAt (Fin.ofNat 320 (64 * i + j))).inSvc then w ||| (1 <<< j) else w) 0

/-- The identity region (R416, R424). -/
def identRead (s : State) (o : Nat) : Word :=
  let ready := decide (s.ident.phase = 5)
  match o with
  | 0x00 => at_ 48 (0x0960 : BitVec 16) ||| at_ 40 Config.form ||| at_ 32 Config.stepping ||| at_ 0 Config.cfgver
  | 0x08 => at_ 60 s.ident.phase ||| at_ 52 s.ident.fail ||| at_ 0 s.ident.portup
  | 0x10 => s.ident.devcap.extractLsb' 0 64
  | 0x18 => s.ident.devcap.extractLsb' 64 64
  | 0x20 => s.ident.drvacc.extractLsb' 0 64
  | 0x28 => s.ident.drvacc.extractLsb' 64 64
  | 0x40 => coreSvc s 0
  | 0x48 => coreSvc s 1
  | 0x50 => coreSvc s 2
  | 0x58 => coreSvc s 3
  | 0x60 => coreSvc s 4
  | 0x70 => if ready then at_ 0 Config.powerlim else 0
  | 0x80 => s.ident.hostctl
  | _ => 0

/-- The security controller mailbox (R441). -/
def mailboxRead (s : State) (o : Nat) : Word :=
  if o = 0 then at_ 0 s.sec.opcode
  else if o = 8 then flag 63 s.sec.busy.isSome ||| at_ 0 s.sec.result
  else if o = 0x10 then flag 63 s.sec.fresh ||| at_ 0 s.sec.vec
  else if 0x100 ≤ o ∧ o < 0x200 then BitVec.ofNat 64 (leVal (argBytes s (o - 0x100) 8))
  else if 0x400 ≤ o ∧ o < 0x800 then BitVec.ofNat 64 (leVal ((s.sec.out.drop (o - 0x400)).take 8))
  else 0

/-- A submission mailbox (R379). -/
def submitRead (s : State) (o : Nat) : Word :=
  let m := vget (BitVec.ofNat 6 (o / 64)) s.sched.submits
  if o % 64 = 8 then flag 63 m.ovf ||| BitVec.ofNat 64 m.roots.length else 0

/-- A context entry (R378). -/
def ctxRead (c : Ctx) (f : Nat) : Word :=
  match f with
  | 0x00 => c.ptroot
  | 0x08 => c.engarea
  | 0x10 => c.fearea
  | 0x18 => at_ 32 c.evcnt ||| at_ 0 c.evbase
  | 0x20 => flag 63 c.valid ||| at_ 8 c.part ||| at_ 0 c.tag
  | _ => 0

/-- Scheduler control (R419). -/
def controlRead (d : Sched) (f : Nat) : Word :=
  match f with
  | 0x00 => flag 63 d.run ||| flag 62 d.bringup
  | 0x08 => d.spillbase
  | 0x10 => BitVec.ofNat 64 d.spilln
  | 0x18 => d.savebase
  | 0x20 => BitVec.ofNat 64 d.saven
  | _ => 0

/-- A PIX tree control block (R326). -/
def treeRead (t : Tree) (f : Nat) : Word :=
  match f with
  | 0x00 => t.nodebase
  | 0x08 => t.htab
  | 0x10 => BitVec.ofNat 64 (t.nmax % 2 ^ 32) ||| at_ 32 t.tag
  | _ => 0

/-- A partition (R398). -/
def partRead (p : Part) (f : Nat) : Word :=
  match f with
  | 0x00 => at_ 0 p.clmask ||| at_ 32 p.ways ||| at_ 48 p.poolshare
  | 0x08 => at_ 0 p.hbmshare ||| at_ 16 p.rpshare
  | _ => 0

/-- A coalescer slot (R396). -/
def coalRead (c : Coal) (f : Nat) : Word :=
  match f with
  | 0x00 => c.ring
  | 0x08 => c.tailva
  | 0x10 => c.tmpl
  | 0x18 => c.glist
  | 0x20 => at_ 0 c.b ||| at_ 16 c.t ||| at_ 32 c.deadline ||| at_ 48 c.log2n ||| flag 56 c.en
  | 0x28 => at_ 0 c.head
  | _ => 0

/-- An event entry (R386). -/
def eventRead (e : Event) : Word := flag 63 e.spill ||| flag 62 e.hostvis ||| at_ 48 e.vec ||| at_ 0 e.count

/-- The scheduler and events window (R419). -/
def windowRead (s : State) (o : Nat) : Word :=
  if o < 0x1000 then ctxRead (s.ctx (BitVec.ofNat 6 (o / 64))) (o % 64)
  else if o < 0x1040 then controlRead s.sched (o - 0x1000)
  else if 0x2000 ≤ o ∧ o < 0x2100 then treeRead (vget (BitVec.ofNat 3 ((o - 0x2000) / 32)) s.trees) (o % 32)
  else if 0x3000 ≤ o ∧ o < 0x3100 then partRead (vget (BitVec.ofNat 3 ((o - 0x3000) / 32)) s.parts) (o % 32)
  else if 0x10000 ≤ o ∧ o < 0x20000 then coalRead (kget default s.coal ((o - 0x10000) / 64)) (o % 64)
  else if o = 0x7F000 then s.tlbinv
  else if 0x80000 ≤ o ∧ o < 0x100000 then eventRead (evGet s ((o - 0x80000) / 8))
  else 0

/-- A telemetry block (R451). ENERGY is kept in 1/16 W over 50 µs, of which 20,000 make 1/16 J. -/
def telemetryRead (d : Die) (f : Nat) : Word :=
  match f with
  | 0x00 => d.coarsen
  | 0x08 => d.eccce
  | 0x10 => d.eccue
  | 0x18 => d.walks
  | 0x20 => d.stepdn
  | 0x28 => BitVec.ofNat 64 (d.energy / 20000)
  | _ => 0

/-- The power and thermal window (R420, R451, R456). -/
def powerRead (s : State) (o : Nat) : Word :=
  let die : Fin 4 := Fin.ofNat 4 (o / 8)
  if o < 0x20 then at_ 0 (s.die die).budget
  else if o < 0x38 then at_ 0 (s.power.thresh.toList.getD (o / 8 - 4) 0)
  else if o = 0x38 then at_ 0 s.power.throttle
  else if 0x40 ≤ o ∧ o < 0x60 then at_ 0 (s.die die).temp
  else if o = 0x60 then at_ 0 s.power.cap
  else if 0x1000 ≤ o ∧ o < 0x1100 then telemetryRead (s.die (Fin.ofNat 4 ((o - 0x1000) / 64))) (o % 64)
  else match o with
    | 0x1100 => s.sched.spills
    | 0x1108 => s.sched.preempts
    | 0x1110 => s.sheds
    | 0x1118 => s.misses
    | _ => 0

/-- The error log (R399, R420). -/
def logRead (s : State) (o : Nat) : Word :=
  if 0x10000 ≤ o ∧ o < 0x30000 then
    (kget 0 s.log.ring ((o - 0x10000) / 32)).extractLsb' (64 * (o % 32 / 8)) 64
  else match o with
    | 0x00 => at_ 0 s.log.widx
    | 0x08 => at_ 0 s.log.ridx
    | 0x10 => at_ 0 s.log.vec
    | 0x18 => at_ 0 s.log.drop
    | _ => 0

/-- The engine-control window (R420, R452); a shed is complete when its write is, so BUSY reads 0. -/
def engineRead (s : State) (o : Nat) : Word :=
  if o = 0x10 then at_ 0 s.stallt
  else if 0x1000 ≤ o ∧ o < 0x1A00 then at_ 0 (s.coreAt (Fin.ofNat 320 ((o - 0x1000) / 8))).hung
  else if 0x2000 ≤ o ∧ o < 0x2100 then
    let k := s.cluster (Fin.ofNat 32 ((o - 0x2000) / 8))
    flag 1 k.feHung ||| flag 0 k.smHung
  else if 0x2100 ≤ o ∧ o < 0x2120 then flag 0 (s.die (Fin.ofNat 4 ((o - 0x2100) / 8))).umeHung
  else 0

/-- A port's status (R429). -/
def portRead (p : Port) : Word :=
  at_ 60 p.state ||| at_ 48 p.width ||| at_ 40 p.speed ||| flag 38 p.dcap ||| at_ 32 p.heads ||| at_ 24 p.head ||| at_ 0 p.losscnt

/-- Port p is DEAD or RETRAINED. -/
def deadBits (s : State) : Word :=
  (List.range 4).foldl (fun w i =>
    let st := (s.port (BitVec.ofNat 2 i)).state
    w ||| flag i (decide (st = 3) || decide (st = 4))) 0

/-- +0x18 of a pool window with an EN. -/
def poolWinCtl (w : PoolWin) (en : Bool) : Word :=
  flag 63 en ||| at_ 61 w.wstate ||| flag 8 w.dyn ||| flag 7 w.act ||| flag 6 w.repl ||| at_ 4 w.rport ||| at_ 0 w.port

/-- A pool window: EN reads 0 when its replica port is its primary (R430). -/
def poolWinRead (w : PoolWin) (f : Nat) : Word :=
  match f with
  | 0x00 => at_ 19 w.base
  | 0x08 => at_ 19 w.size
  | 0x10 => at_ 19 w.dpa
  | 0x18 => poolWinCtl w (w.en && !(w.repl && decide (w.rport = w.port)))
  | _ => 0

/-- An extent entry (R433). -/
def extentRead (s : State) (p : BitVec 2) (e f : Nat) : Word :=
  let x := kget ⟨0, 0, 0⟩ (s.port p).ext e
  if f = 0 then at_ 19 x.start
  else at_ 62 (xstateOf s p e) ||| flag 58 ((s.port p).rqrel.contains e) ||| at_ 19 x.length ||| at_ 0 x.tag

/-- The CXL window (R429, R430, R433). -/
def cxlRead (s : State) (o : Nat) : Word :=
  if o < 0x400 ∧ o % 0x100 = 0 then portRead (s.port (BitVec.ofNat 2 (o / 0x100)))
  else if 0x1000 ≤ o ∧ o < 0x1200 then poolWinRead (vget (BitVec.ofNat 4 ((o - 0x1000) / 32)) s.pool.wins) (o % 32)
  else if o = 0x2000 then at_ 53 s.pool.vec ||| flag 8 s.pool.dcev ||| at_ 4 s.pool.chg ||| deadBits s
  else if 0x4000 ≤ o ∧ o < 0x8000 then
    extentRead s (BitVec.ofNat 2 ((o - 0x4000) / 0x1000)) (o % 0x1000 / 16) (o % 16)
  else 0

/-- A boot mailbox (R395). -/
def bootRead (b : BootBox) (f : Nat) : Word :=
  match f with
  | 0x00 => b.handle
  | 0x08 => b.argb
  | 0x10 => b.seed
  | 0x18 => b.gang
  | 0x20 => at_ 8 b.part ||| at_ 0 b.ctx
  | 0x28 => flag 63 b.go
  | 0x30 => at_ 56 b.state ||| at_ 0 b.code
  | _ => 0

/-- A format window (R63): FWCTL reads EN as 0 when the window's values make it inactive. -/
def fmtRead (w : FmtWin) (f : Nat) : Word :=
  let fmt := (w.ctl.extractLsb' 0 4).toNat
  let bad := decide (fmt < 1 ∨ 11 < fmt) || decide (w.limit ≤ w.base) || (w.ctl.getLsbD 5 && decide (fmt ≠ 5 ∧ fmt ≠ 8))
  match f with
  | 0x00 => w.base
  | 0x08 => w.limit
  | 0x10 => w.pack
  | 0x18 => w.scale
  | 0x20 => at_ 0 (if bad then w.ctl &&& 0x2F else w.ctl)
  | _ => 0

/-- The memory-controller window (R420). -/
def memoryRead (s : State) (o : Nat) : Word :=
  let n := o / 0x1000
  let f := o % 0x1000
  if f = 0x800 then Config.mdbase (BitVec.ofNat 3 n)
  else if f < 0x400 then fmtRead (vget (BitVec.ofNat 7 (16 * n + f / 0x40)) s.fmt) (f % 0x40)
  else 0

/-- The MSI-X table, and the pending-bit array: a raised vector whose entry is masked is pending (R415, R422). -/
def msixRead (s : State) (o : Nat) : Word :=
  if o < 0x8000 then BitVec.ofNat 64 (leVal (s.msix.table.bytes o 8))
  else if o < 0x8100 then
    (List.range 64).foldl (fun w i =>
      let v := 8 * (o - 0x8000) + i
      w ||| flag i (s.msix.raised.contains v && (s.msix.table.byte (16 * v + 12)).getLsbD 0)) 0
  else 0

/-- What an aligned 8-byte read of BAR0 returns (R415): until READY only the identity region, the security mailbox and the
error log respond; reserved offsets read 0. -/
def regRead (s : State) (r : Nat) : Word :=
  let ready := decide (s.ident.phase = 5)
  if r < 0x10000 then identRead s r
  else if r < 0x20000 then mailboxRead s (r - 0x10000)
  else if 0x300000 ≤ r ∧ r < 0x400000 then logRead s (r - 0x300000)
  else if !ready then 0
  else if 0x20000 ≤ r ∧ r < 0x21000 then submitRead s (r - 0x20000)
  else if 0x100000 ≤ r ∧ r < 0x200000 then windowRead s (r - 0x100000)
  else if 0x200000 ≤ r ∧ r < 0x210000 then powerRead s (r - 0x200000)
  else if 0x400000 ≤ r ∧ r < 0x410000 then engineRead s (r - 0x400000)
  else if 0x500000 ≤ r ∧ r < 0x510000 then cxlRead s (r - 0x500000)
  else if 0x600000 ≤ r ∧ r < 0x605000 then bootRead (s.coreAt (Fin.ofNat 320 ((r - 0x600000) / 64))).boot (r % 64)
  else if 0x700000 ≤ r ∧ r < 0x708000 then memoryRead s (r - 0x700000)
  else if 0x3F00000 ≤ r ∧ r < 0x3F10000 then msixRead s (r - 0x3F00000)
  else 0

/-- What a register holds, of which a 4-byte write keeps the other half (R415): as it reads, but for an EN that is stored and
reads 0 because its window is inactive (R63, R430). -/
def regStored (s : State) (r : Nat) : Word :=
  if 0x501000 ≤ r ∧ r < 0x501200 ∧ r % 32 = 0x18 then
    let w := vget (BitVec.ofNat 4 ((r - 0x501000) / 32)) s.pool.wins
    poolWinCtl w w.en
  else if 0x700000 ≤ r ∧ r < 0x708000 ∧ r % 0x1000 < 0x400 ∧ r % 0x40 = 0x20 then
    at_ 0 (vget (BitVec.ofNat 7 (16 * ((r - 0x700000) / 0x1000) + r % 0x1000 / 0x40)) s.fmt).ctl
  else regRead s r

/-- A host read (R415): a misaligned one, or one of another size, is logged and returns all ones. -/
def hostRead (off size : Nat) (s : State) : State × Word :=
  if size = 8 ∧ off % 8 = 0 then (s, regRead s off)
  else if size = 4 ∧ off % 4 = 0 then
    (s, zext64 ((regRead s (off / 8 * 8)).extractLsb' (8 * (off % 8)) 32))
  else (logHostWrite s, 0xFFFFFFFFFFFFFFFF)

/-! ### Locks of the TDI (R425) -/

/-- A write that covers some bits of a register touches a locked field. -/
def touchesLocked (s : State) (r : Nat) (m : Word) : Bool :=
  let o := r - 0x100000
  let ctxLock := decide ((s.ctx (BitVec.ofNat 6 (o / 64))).tag ≠ 0) &&
    (decide (o % 64 < 0x18) || (decide (o % 64 = 0x20) && decide (m &&& 0xFF ≠ 0)))
  decide (r = 0x20 ∨ r = 0x28 ∨ r = 0x80) || (decide (0x100000 ≤ r ∧ r < 0x101000) && ctxLock) ||
    decide (0x101000 ≤ r ∧ r < 0x101040) || decide (0x103000 ≤ r ∧ r < 0x103100) || decide (0x501000 ≤ r ∧ r < 0x501200) ||
    decide (0x700000 ≤ r ∧ r < 0x708000)

/-! ### Writes: identity, security, submission -/

/-- A context is valid. -/
def anyValid (s : State) : Bool := s.ctxs.any fun c => c.valid

/-- DRVACC: what DEVCAP offers of the value; ignored and logged while a context is valid; a change is extended into MR4; without
TDISP the interface stays unlocked (R417, R418, R440; log entry 28). -/
def writeDrvacc (v : BitVec 128) (s : State) : State :=
  if anyValid s then logHostWrite s
  else
    let new := v &&& s.ident.devcap
    let tdi := if new.getLsbD 10 then s.ident.tdi else 0
    let t := { s with ident := { s.ident with drvacc := new, tdi := tdi } }
    if new = s.ident.drvacc then t else extendReg 4 (bvBytes 16 new) t

/-- One half of DRVACC. -/
def writeDrvaccHalf (high : Bool) (v : Word) (s : State) : State :=
  let d := s.ident.drvacc
  writeDrvacc (if high then v ++ d.extractLsb' 0 64 else d.extractLsb' 64 64 ++ v) s

/-- The identity region. -/
def identWrite (o : Nat) (full : Word) (s : State) : State :=
  match o with
  | 0x20 => writeDrvaccHalf false full s
  | 0x28 => writeDrvaccHalf true full s
  | 0x80 => { s with ident := { s.ident with hostctl := full &&& 1 } }
  | _ => s

/-- The security controller mailbox: GO starts the command in OPCODE (R441). -/
def mailboxWrite (o : Nat) (full hit : Word) (s : State) : State :=
  if o = 0 then
    let s := s.updSec fun x => { x with opcode := full.extractLsb' 0 16 }
    if hit.getLsbD 63 then startCommand s else s
  else if o = 0x10 then s.updSec fun x => { x with vec := full.extractLsb' 0 11 }
  else if 0x100 ≤ o ∧ o < 0x200 then
    s.updSec fun x => { x with args := (List.range 8).foldl (fun a i => kset 0 a (o - 0x100 + i) (full.extractLsb' (8 * i) 8)) x.args }
  else s

/-- A submission mailbox. -/
def submitWrite (o : Nat) (full hit : Word) (s : State) : State :=
  let n := BitVec.ofNat 6 (o / 64)
  if o % 64 = 0 then submitRoot n full s
  else if o % 64 = 8 then
    let m := vget n s.sched.submits
    let s := if hit.getLsbD 63 then putSubmit n { m with ovf := false } s else s
    if hit.getLsbD 62 then abortCtx n s else s
  else s

/-! ### Writes: the scheduler and events window -/

/-- Change a context entry. -/
def updCtx (n : BitVec 6) (f : Ctx → Ctx) (s : State) : State := { s with ctxs := vset n (f (s.ctx n)) s.ctxs }

/-- +0x20 of a context entry. A write of VALID = 1 without MODELOK is ignored and logged; VALID = 0 clears MODELOK; the other
fields change only while VALID is 0 (R378, R443; log entry 26). -/
def writeValid (n : BitVec 6) (full m : Word) (s : State) : State :=
  let c := s.ctx n
  let covered := m.getLsbD 63
  if covered && full.getLsbD 63 && !c.modelok then logError 3 0 0 n.toNat 0xFFFF s
  else
    let c := if c.valid then c else { c with part := full.extractLsb' 8 3, tag := full.extractLsb' 0 8 }
    let c := if !covered then c
      else if full.getLsbD 63 then { c with valid := true } else { c with valid := false, modelok := false }
    updCtx n (fun _ => c) s

/-- A context entry; while VALID is 1 its addresses and events stay (R378; log entry 26). -/
def ctxWrite (n : BitVec 6) (f : Nat) (full m : Word) (s : State) : State :=
  if f = 0x20 then writeValid n full m s
  else if 0x20 < f then s
  else if (s.ctx n).valid then s
  else updCtx n (fun c => match f with
    | 0x00 => { c with ptroot := full }
    | 0x08 => { c with engarea := full }
    | 0x10 => { c with fearea := full }
    | 0x18 => { c with evcnt := full.extractLsb' 32 16, evbase := full.extractLsb' 0 16 }
    | _ => c) s

/-- Scheduler control: RUN cannot be set without BASE; the other registers only while RUN = 0 (R418, R419). -/
def controlWrite (f : Nat) (full : Word) (s : State) : State :=
  if f = 0 then s.updSched fun d => { d with run := full.getLsbD 63 && (s.feature 127 || d.run), bringup := full.getLsbD 62 }
  else if 0x20 < f then s
  else if s.sched.run then logHostWrite s
  else s.updSched fun d => match f with
    | 0x08 => { d with spillbase := full &&& 0xFFFFFFFFF000 }
    | 0x10 => { d with spilln := (full.extractLsb' 0 32).toNat }
    | 0x18 => { d with savebase := full &&& 0xFFFFFFC00000 }
    | 0x20 => { d with saven := (full.extractLsb' 0 16).toNat }
    | _ => d

/-- A PIX tree control block by registers: NODEBASE and HTAB are stored and end the tree in use; the write of NMAX and CTX
installs (R326; log entry 15). The reserved bits of the register are ignored (R10). -/
def treeWrite (i : BitVec 3) (f : Nat) (full : Word) (s : State) : State :=
  let t := vget i s.trees
  match f with
  | 0x00 => { s with trees := vset i { t with nodebase := full, installed := false } s.trees }
  | 0x08 => { s with trees := vset i { t with htab := full, installed := false } s.trees }
  | 0x10 => installTree i ((0 : Word) ++ (full &&& 0xFFFFFFFFFF) ++ t.htab ++ t.nodebase) s
  | _ => s

/-- A gang of a partition is PLACED, RUNNING or SAVED (R398). -/
def partBusy (s : State) (p : BitVec 3) : Bool := s.sched.gangs.any fun g => decide ((s.ctx g.ctx).part = p)

/-- A partition entry; while a gang of the partition lives the write is ignored (R398; log entry 26). -/
def partWrite (p : BitVec 3) (f : Nat) (full : Word) (s : State) : State :=
  if 0x10 ≤ f then s
  else if partBusy s p then s
  else
    let x := vget p s.parts
    let x := if f = 0 then { x with clmask := full.extractLsb' 0 32, ways := full.extractLsb' 32 16, poolshare := full.extractLsb' 48 16 }
      else { x with hbmshare := full.extractLsb' 0 16, rpshare := full.extractLsb' 16 16 }
    { s with parts := vset p x s.parts }

/-- A coalescer slot; while EN is 1 only EN may be cleared, another write is ignored (R396; log entry 26). -/
def coalWrite (i f : Nat) (full : Word) (s : State) : State :=
  let c : Coal := kget default s.coal i
  let put (c : Coal) : State := { s with coal := kput s.coal i c }
  if 0x28 ≤ f then s
  else if c.en then
    if f = 0x20 ∧ full.getLsbD 56 = false then put { c with en := false }
    else s
  else match f with
    | 0x00 => put { c with ring := full }
    | 0x08 => put { c with tailva := full }
    | 0x10 => put { c with tmpl := full }
    | 0x18 => put { c with glist := full }
    | _ => put { c with b := full.extractLsb' 0 16, t := full.extractLsb' 16 16, deadline := full.extractLsb' 32 16,
                        log2n := full.extractLsb' 48 8, en := full.getLsbD 56, arrivals := [] }

/-- A TLB entry is covered by a TLBINV of a context, size code and VA[51:19] (R413). -/
def tlbCovered (ctx : BitVec 6) (size page : Nat) (e : TlbEntry) : Bool :=
  decide (e.ctx = ctx) &&
    (match size with
     | 0 => true
     | 1 => if e.size = 3 then decide (e.page / 2048 = page / 2048) else decide (e.page = page)
     | 2 => if e.size = 3 then decide (e.page / 2048 = page / 2048) else decide (e.page / 64 = page / 64)
     | 3 => decide (e.page / 2048 = page / 2048)
     | _ => false)

/-- A walk-cache pointer covers part of the range of a TLBINV (R412, R413). -/
def ptrCovered (ctx : BitVec 6) (size page : Nat) (e : PtrEntry) : Bool :=
  decide (e.ctx = ctx) && (decide (size = 0) || decide (e.key = ptrKey e.level (page * 2 ^ 19)))

/-- TLBINV: with BUSY written 1, every covered entry is dropped once the accesses that used it are performed; BUSY then
reads 0 (R413). -/
def writeTlbinv (full hit : Word) (s : State) : State :=
  let s := { s with tlbinv := full &&& 0x73FFFFFFFFF80000 }
  let ctx := full.extractLsb' 52 6
  let size := (full.extractLsb' 60 3).toNat
  let page := (full.extractLsb' 19 33).toNat
  let drop (t : List TlbEntry) : List TlbEntry := t.filter fun e => !tlbCovered ctx size page e
  if hit.getLsbD 63 ∧ size < 4 then
    let s := allCores.foldl (fun s c => if (s.coreAt c).ctx = ctx then drainStores c s else s) s
    { s with cores := s.cores.map fun k => { k with tlb := drop k.tlb },
             clusters := s.clusters.map fun k => { k with tlb := drop k.tlb },
             dies := s.dies.map fun d => { d with wcache := d.wcache.filter fun e => !ptrCovered ctx size page e } }
  else s

/-- An event entry: a write that does not cover ADD or COUNT acts on the register's value after it (R386, R415). -/
def eventWrite (e : Nat) (full hit : Word) (s : State) : State := if hit.getLsbD 61 then eventAdd e full s else eventSet e full s

/-- The scheduler and events window. -/
def windowWrite (o : Nat) (full hit m : Word) (s : State) : State :=
  if o < 0x1000 then ctxWrite (BitVec.ofNat 6 (o / 64)) (o % 64) full m s
  else if o < 0x1040 then controlWrite (o - 0x1000) full s
  else if 0x2000 ≤ o ∧ o < 0x2100 then treeWrite (BitVec.ofNat 3 ((o - 0x2000) / 32)) (o % 32) full s
  else if 0x3000 ≤ o ∧ o < 0x3100 then partWrite (BitVec.ofNat 3 ((o - 0x3000) / 32)) (o % 32) full s
  else if 0x10000 ≤ o ∧ o < 0x20000 then coalWrite ((o - 0x10000) / 64) (o % 64) full s
  else if o = 0x7F000 then writeTlbinv full hit s
  else if 0x80000 ≤ o ∧ o < 0x100000 then eventWrite ((o - 0x80000) / 8) full hit s
  else s

/-! ### Writes: the other windows -/

/-- CAP (R456): above POWERLIM it is POWERLIM, below 600 it is 600. -/
def writeCap (v : BitVec 16) (s : State) : State :=
  let c := if Config.powerlim < v then Config.powerlim else if v < 600 then 600 else v
  { s with power := { s.power with cap := c } }

/-- The power and thermal window. -/
def powerWrite (o : Nat) (full : Word) (s : State) : State :=
  let th (i : Fin 3) : State := { s with power := { s.power with thresh := s.power.thresh.set i (full.extractLsb' 0 32) } }
  match o with
  | 0x20 => th 0
  | 0x28 => th 1
  | 0x30 => th 2
  | 0x38 => { s with power := { s.power with throttle := full.extractLsb' 0 8 } }
  | 0x60 => writeCap (full.extractLsb' 0 16) s
  | _ => s

/-- The error log. -/
def logWrite (o : Nat) (full hit : Word) (s : State) : State :=
  match o with
  | 0x08 => { s with log := { s.log with ridx := full.extractLsb' 0 32 } }
  | 0x10 => { s with log := { s.log with vec := full.extractLsb' 0 11 } }
  | 0x18 => { s with log := { s.log with drop := s.log.drop &&& ~~~(hit.extractLsb' 0 32) } }
  | _ => s

/-- The engine-control window: a write that does not cover the selector sheds nothing. -/
def engineWrite (o : Nat) (full hit m : Word) (s : State) : State :=
  if o = 0 then (if m.getLsbD 0 then hostShed hit s else s)
  else if o = 0x10 then { s with stallt := full.extractLsb' 0 32 }
  else if 0x1000 ≤ o ∧ o < 0x1A00 then
    s.updCore (Fin.ofNat 320 ((o - 0x1000) / 8)) fun k => { k with hung := k.hung &&& ~~~(hit.extractLsb' 0 10) }
  else if 0x2000 ≤ o ∧ o < 0x2100 then
    s.updCluster (Fin.ofNat 32 ((o - 0x2000) / 8)) fun k =>
      { k with feHung := k.feHung && !hit.getLsbD 1, smHung := k.smHung && !hit.getLsbD 0 }
  else if 0x2100 ≤ o ∧ o < 0x2120 then
    s.updDie (Fin.ofNat 4 ((o - 0x2100) / 8)) fun d => { d with umeHung := d.umeHung && !hit.getLsbD 0 }
  else s

/-- A pool window register: addresses only while EN reads 0, otherwise ignored (R430; log entry 26). -/
def poolWinWrite (i : BitVec 4) (f : Nat) (full hit : Word) (s : State) : State :=
  let w := vget i s.pool.wins
  let put (w : PoolWin) : State := s.updPool fun x => { x with wins := vset i w x.wins }
  let en := w.en && !(w.repl && decide (w.rport = w.port))
  if f = 0x18 then
    let t := put { w with en := full.getLsbD 63, dyn := full.getLsbD 8, repl := full.getLsbD 6, rport := full.extractLsb' 4 2,
                          port := full.extractLsb' 0 2 }
    if hit.getLsbD 60 then validateWindow i t else t
  else if en then s
  else match f with
    | 0x00 => put { w with base := full.extractLsb' 19 29 }
    | 0x08 => put { w with size := full.extractLsb' 19 29 }
    | _ => put { w with dpa := full.extractLsb' 19 29 }

/-- The CXL window. -/
def cxlWrite (o : Nat) (full hit : Word) (s : State) : State :=
  if o < 0x400 ∧ o % 0x100 = 8 then
    let p := BitVec.ofNat 2 (o / 0x100)
    let s := if hit.getLsbD 63 then readmit p s else s
    if hit.getLsbD 62 then losePort p s else s
  else if 0x1000 ≤ o ∧ o < 0x1200 then poolWinWrite (BitVec.ofNat 4 ((o - 0x1000) / 32)) (o % 32) full hit s
  else if o = 0x2000 then
    s.updPool fun x =>
      { x with vec := full.extractLsb' 53 11, dcev := x.dcev && !hit.getLsbD 8, chg := x.chg &&& ~~~(hit.extractLsb' 4 4) }
  else if 0x4000 ≤ o ∧ o < 0x8000 ∧ o % 16 = 8 then
    let p := BitVec.ofNat 2 ((o - 0x4000) / 0x1000)
    let e := o % 0x1000 / 16
    let s := if hit.getLsbD 61 then acceptExtent p e s else s
    let s := if hit.getLsbD 60 then rejectExtent p e s else s
    if hit.getLsbD 59 then releaseExtent p e s else s
  else s

/-- A boot mailbox: in bring-up mode; at other times the write is ignored and logged. GO starts the loader (R395). -/
def bootWrite (c : CoreId) (f : Nat) (full hit : Word) (s : State) : State :=
  if s.sched.bringup = false then logHostWrite s
  else s.updCore c fun k => { k with boot :=
    match f with
    | 0x00 => { k.boot with handle := full }
    | 0x08 => { k.boot with argb := full }
    | 0x10 => { k.boot with seed := full }
    | 0x18 => { k.boot with gang := full }
    | 0x20 => { k.boot with part := full.extractLsb' 8 3, ctx := full.extractLsb' 0 8 }
    | 0x28 => if hit.getLsbD 63 then { k.boot with go := true, state := 1 } else { k.boot with go := full.getLsbD 63 }
    | _ => k.boot }

/-- A format window register. -/
def memoryWrite (o : Nat) (full : Word) (s : State) : State :=
  let f := o % 0x1000
  if f < 0x400 then
    let i := BitVec.ofNat 7 (16 * (o / 0x1000) + f / 0x40)
    let w := vget i s.fmt
    let w := match f % 0x40 with
      | 0x00 => { w with base := full &&& 0xFFFFFFFFFF80 }
      | 0x08 => { w with limit := full &&& 0xFFFFFFFFFF80 }
      | 0x10 => { w with pack := full &&& 0xFFFFFFFFFFFF }
      | 0x18 => { w with scale := full &&& 0xFFFFFFFFFFFF }
      | 0x20 => { w with ctl := full.extractLsb' 0 6 }
      | _ => w
    { s with fmt := vset i w s.fmt }
  else s

/-- The MSI-X table. -/
def msixWrite (o : Nat) (full : Word) (s : State) : State :=
  if o < 0x8000 then { s with msix := { s.msix with table := s.msix.table.write o (bvBytes 8 full) false } } else s

/-- The effect of a write on the register at an aligned offset: `full` is its value after the write, `hit` the bits written,
`m` the bits covered. -/
def regWrite (r : Nat) (full hit m : Word) (s : State) : State :=
  if r < 0x10000 then identWrite r full s
  else if r < 0x20000 then mailboxWrite (r - 0x10000) full hit s
  else if 0x300000 ≤ r ∧ r < 0x400000 then logWrite (r - 0x300000) full hit s
  else if s.ident.phase ≠ 5 then s
  else if 0x20000 ≤ r ∧ r < 0x21000 then submitWrite (r - 0x20000) full hit s
  else if 0x100000 ≤ r ∧ r < 0x200000 then windowWrite (r - 0x100000) full hit m s
  else if 0x200000 ≤ r ∧ r < 0x210000 then powerWrite (r - 0x200000) full s
  else if 0x400000 ≤ r ∧ r < 0x410000 then engineWrite (r - 0x400000) full hit m s
  else if 0x500000 ≤ r ∧ r < 0x510000 then cxlWrite (r - 0x500000) full hit s
  else if 0x600000 ≤ r ∧ r < 0x605000 then bootWrite (Fin.ofNat 320 ((r - 0x600000) / 64)) (r % 64) full hit s
  else if 0x700000 ≤ r ∧ r < 0x708000 then memoryWrite (r - 0x700000) full s
  else if 0x3F00000 ≤ r ∧ r < 0x3F10000 then msixWrite (r - 0x3F00000) full s
  else s

/-- A register in which a 4-byte write is dropped: ROOT spans both halves (R415). -/
def spansHalves (r : Nat) : Bool := decide (0x20000 ≤ r ∧ r < 0x21000 ∧ r % 64 = 0)

/-- The write of covered bits to a register: a locked field moves the TDI to ERROR and nothing else happens (R425); else the
other half keeps its fields and its WO and W1C bits count as 0 (R415). -/
def maskedWrite (r : Nat) (v m : Word) (s : State) : State :=
  if tdiLocked s && touchesLocked s r m then tdiError s
  else regWrite r ((regStored s r &&& ~~~m) ||| (v &&& m)) (v &&& m) m s

/-- A host write of 4 or 8 aligned bytes; any other is dropped and logged (R415). -/
def hostWrite (off size : Nat) (v : Word) (s : State) : State :=
  if size = 8 ∧ off % 8 = 0 then maskedWrite off v 0xFFFFFFFFFFFFFFFF s
  else if size = 4 ∧ off % 4 = 0 then
    if spansHalves (off / 8 * 8) then (if s.ident.phase = 5 then logHostWrite s else s)
    else if off % 8 = 0 then maskedWrite off v 0xFFFFFFFF s
    else maskedWrite (off - 4) (v <<< 32) 0xFFFFFFFF00000000 s
  else logHostWrite s

/-! ### The rows -/

/-- REGISTER_WRITE: any host write to BAR0. -/
def execRegisterWrite (off : BitVec 26) (size : BitVec 4) (value : Word) (s : State) : Host.Outcome State Fault Refusal :=
  settle (hostWrite off.toNat size.toNat value s)

/-- TLBINV, a host write of 8 bytes. -/
def execTlbinv (value : Word) (s : State) : Host.Outcome State Fault Refusal := settle (hostWrite 0x17F000 8 value s)

/-- DRVACC_WRITE, a host write of 8 bytes to either half. -/
def execDrvaccWrite (high : Bool) (value : Word) (s : State) : Host.Outcome State Fault Refusal :=
  settle (hostWrite (if high then 0x28 else 0x20) 8 value s)

/-- CONTEXT_VALID_WRITE, a host write of 8 bytes to +0x20 of a context entry. -/
def execContextValidWrite (ctx : BitVec 6) (value : Word) (s : State) : Host.Outcome State Fault Refusal :=
  settle (hostWrite (0x100020 + 64 * ctx.toNat) 8 value s)

/-- CAP_WRITE, a host write of 8 bytes. -/
def execCapWrite (value : Word) (s : State) : Host.Outcome State Fault Refusal := settle (hostWrite 0x200060 8 value s)

/-- VALIDATE, a host write of 4 bytes to the upper half of +0x18 of a window, with EN as it stands. -/
def execValidate (w : BitVec 4) (s : State) : Host.Outcome State Fault Refusal :=
  let en := (regStored s (0x501018 + 32 * w.toNat)).extractLsb' 63 1
  settle (hostWrite (0x50101C + 32 * w.toNat) 4 (0x10000000 ||| at_ 31 en) s)

end Sys2Proof.Machine
end

