-- ==== Sys2Proof/Machine/Sampler.lean ====
section
/-!
DEFINITION. The sampler of a cluster (R199, R299 to R310): starts, the twenty instructions of its contexts, faults. F32
results are rounded to nearest even with subnormals kept (R303).
-/
namespace Sys2Proof.Machine

/-! ### Contexts and requests -/

/-- The cluster and the number of the focused context. -/
def smpAt (s : State) : Fin 32 × BitVec 6 := (s.focus.smp.1.toFin, s.focus.smp.2)

/-- The focused context. -/
def smpCtx (s : State) : SmpCtx := smpGet s (smpAt s).1 (smpAt s).2

/-- Replace the focused context. -/
def setSmp (x : SmpCtx) (s : State) : State := smpPut (smpAt s).1 (smpAt s).2 x s

/-- The incomplete requests of a context, oldest first. -/
def smpRequests (s : State) : List (CoreId × Req) :=
  let all := (coresOf (smpAt s).1).flatMap fun c => (s.coreAt c).reqs.filterMap fun r =>
    if r.result.isNone && decide (r.eng = .sampler) && decide (r.target = (smpAt s).2.toNat) then some (c, r) else none
  sortBy (fun a b => decide (a.2.order ≤ b.2.order)) all

/-- The request whose run is in progress: the oldest of the requesting core. -/
def smpRunning (s : State) : Option (CoreId × Req) :=
  if (smpCtx s).run = 1 then (smpRequests s).find? fun x => decide (x.1 = (smpCtx s).core) else none

/-- The oldest request that has not started. -/
def smpWaiting (s : State) : Option (CoreId × Req) :=
  (smpRequests s).find? fun x => decide (some x ≠ smpRunning s)

/-- The fields of an argument block on a context (R300). -/
def smpStart (c : CoreId) (bs : List Byte) (x : SmpCtx) : SmpCtx :=
  let f (i k : Nat) : Nat := leVal ((bs.drop i).take k)
  let flags := f 4 4
  let y : Vector PReg 8 :=
    if flags / 2 % 2 = 1 then vset (0 : BitVec 3) ⟨0, false⟩ x.y
    else Vector.ofFn fun i => if i.val = 0 then ⟨0, false⟩ else ⟨BitVec.ofNat 64 (f (8 * i.val) 8), false⟩
  { x with y := y, key := if flags % 2 = 1 then x.key else BitVec.ofNat 64 (f 0x40 8),
           ctr := if flags % 2 = 1 then x.ctr else BitVec.ofNat 128 (f 0x48 16), spc := f 0 4, run := 1, core := c }

/-- A start: BUSY while the context runs; BADOBJ, MEMFAULT or POISON for a bad block; otherwise the context runs (R199,
R300). -/
def startRequest (c : CoreId) (q : Req) (s : State) : State :=
  let give (st : Byte) (s : State) : State := completeReq c q.order (element st 0) false s
  if (smpCtx s).run = 1 then give 0x06 s
  else if q.a.bad then give 0x07 s
  else if q.a.val.toNat % 32 ≠ 0 then give 0x03 s
  else match coreReadMany c .engine q.a.val 96 s with
    | .error .stall => s
    | .error (.trap t) => give (requestStatus t) (countTrap t s)
    | .ok (s', bs, bad) =>
      let f (i k : Nat) : Nat := leVal ((bs.drop i).take k)
      if bad then give 0x07 s
      else if 1023 < f 0 4 ∨ 4 ≤ f 4 4 ∨ f 0x58 8 ≠ 0 then give 0x03 s'
      else setSmp (smpStart c bs (smpCtx s')) s'

/-- SAMPLER_START: the oldest waiting request of the focused context. -/
def execSamplerStart (s : State) : Host.Outcome State Fault Refusal :=
  match smpWaiting s with
  | none => settle s
  | some (c, q) => settle (startRequest c q s)

/-- A fault halts the context with RUN = 2; its lead core takes it and the request yields no element (R199, R310). -/
def smpFault (t : TrapInfo) (s : State) : State :=
  let x := smpCtx s
  let req := smpRunning s
  let s := setSmp { x with run := 2 } (countTrap t s)
  let s := match req with
    | some (c, q) => dropReq c q.order s
    | none => s
  match x.gang.bind (findGang s) with
  | none => s
  | some g => match g.members with
    | [] => s
    | lead :: _ => engineFault lead (.sampler (smpAt s).2) t.cause t.addr s

/-- The segment of the context's program: that of its gang's image (R301, R318). -/
def smpSegment (s : State) : Option Segment :=
  let x := smpCtx s
  let key : Option (BitVec 6 × Word) := (x.gang.bind (findGang s)).map fun g => (g.ctx, g.image)
  (s.cluster (smpAt s).1).segs.find? fun g => decide (some (g.ctx, g.handle) = key) && g.loaded

/-! ### One instruction -/

/-- What an instruction answers: the state with the writes it made, and the context it leaves or a fault. -/
abbrev SmpBody := SmpCtx → State → State × R SmpCtx

/-- A body that makes no write. -/
def quiet (f : SmpCtx → R SmpCtx) : SmpBody := fun x s => (s, f x)

/-- ILLEGAL_INSTR with an index: the SPC or a candidate index (R400). -/
def smpIllegal {α : Type} (i : Nat) : R α := raise cIllegalInstr (BitVec.ofNat 64 i)

/-- Run an instruction on the focused context: the field rules of R302, then its effect; the SPC goes on. -/
def smpRun (legal : Bool) (body : SmpBody) (s : State) : Host.Outcome State Fault Refusal :=
  let x := smpCtx s
  if x.run ≠ 1 then settle s
  else if !legal then settle (smpFault { cause := cIllegalInstr, addr := BitVec.ofNat 64 x.spc } s)
  else match body x s with
    | (s, .ok x') => settle (setSmp { x' with spc := x.spc + 1 } s)
    | (_, .error .stall) => settle s
    | (s, .error (.trap t)) => settle (smpFault t s)

/-- A y register. -/
def yGet (x : SmpCtx) (r : BitVec 3) : PReg := vget r x.y

/-- Write a y register. -/
def yPut (r : BitVec 3) (v : PReg) (x : SmpCtx) : SmpCtx := { x with y := vset r v x.y }

/-- The F32 bits of a y register. -/
def yF (v : PReg) : Nat := bits v.val 31 0

/-- Candidate i. -/
def cand (x : SmpCtx) (i : Nat) : Cand := kget default x.cands i

/-- The valid entries. -/
def entries (x : SmpCtx) : List Cand := (List.range x.nc).map (cand x)

/-- Replace the first entries of the list. -/
def putEntries (es : List Cand) (x : SmpCtx) : SmpCtx :=
  { x with cands := ((List.range es.length).zip es).foldl (fun m ie => kset default m ie.1 ie.2) x.cands }

/-- Some entry is poisoned. -/
def anyBad (es : List Cand) : Bool := es.any (·.bad)

/-- An entry with a value, poisoned by `p` as well. -/
def revalue (e : Cand) (v : Nat) (p : Bool) : Cand := { e with val := BitVec.ofNat 32 v, bad := p }

/-- Read n elements of w bytes from an address, each aligned and checked (R310): values with their poison. -/
def smpList (x : SmpCtx) (a : Word) (w n : Nat) (s : State) : R (State × List (Nat × Bool)) :=
  (List.range n).foldlM (fun acc i => do
    let (s, vs) := acc
    let ea := a + BitVec.ofNat 64 (w * i)
    let _ ← decodeEA ea
    need (decide (ea.toNat % w = 0)) cAlign ea
    let (s, bs, bad) ← coreRead x.core .engine ea w s
    .ok (s, vs ++ [(leVal bs, bad)])) (s, [])

/-- A write at a global address would be in flight to a port when it is declared dead (R436). -/
def smpLost (x : SmpCtx) (ea : Word) (s : State) : Bool :=
  match decodeEA ea with
  | .ok (.global va) =>
    if (winOfGlobal (s.coreAt x.core) va).isSome then false
    else match translate x.core (s.coreAt x.core).ctx va .write s with
      | .ok (s, l) => requestLost s l.loc l.region
      | .error _ => false
  | _ => false

/-- Write w bytes at an aligned address (R310); a write in flight to a port when it is declared dead halts the context with
POOL_LOST (R436). -/
def smpWrite (x : SmpCtx) (ea : Word) (w v : Nat) (s : State) : R State := do
  let _ ← decodeEA ea
  need (decide (ea.toNat % w = 0)) cAlign ea
  if smpLost x ea s then raise cPoolLost ea
  coreWrite x.core .engine ea (leBytes w v) false s

/-- A body that reads memory: on a fault the reads leave nothing. -/
def reading (f : SmpCtx → State → R (State × SmpCtx)) : SmpBody := fun x s =>
  match f x s with
  | .ok (s', x') => (s', .ok x')
  | .error e => (s, .error e)

/-! ### Scalar and control (R304) -/

/-- HALT ends the run and yields y0[55:0]. -/
def execSmpHalt (w : SWord) (s : State) : Host.Outcome State Fault Refusal :=
  let x := smpCtx s
  if x.run ≠ 1 then settle s
  else if w ≠ ⟨0, false, 0, 0, 0⟩ then settle (smpFault { cause := cIllegalInstr, addr := BitVec.ofNat 64 x.spc } s)
  else
    let y0 := yGet x 0
    let req := smpRunning s
    let s := setSmp { x with run := 0 } s
    match req with
    | some (c, q) => settle (completeReq c q.order (element 0 y0.val.toNat) y0.bad s)
    | none => settle s

/-- MOV: a register. -/
def execMov (w : SWord) (s : State) : Host.Outcome State Fault Refusal :=
  smpRun (!w.f && decide (w.yb = 0 ∧ w.imm = 0)) (quiet fun x => .ok (yPut w.yd (yGet x w.ya) x)) s

/-- MOVI: an immediate, or 16 bits of the register replaced. -/
def execMovi (w : SWord) (s : State) : Host.Outcome State Fault Refusal :=
  smpRun (w.f && decide (w.yb = 0 ∧ w.ya.toNat < 4)) (quiet fun x =>
    let k := 16 * w.ya.toNat
    let old := yGet x w.yd
    let v : PReg := if w.ya = 0 then ⟨sext64 w.imm, false⟩ else ⟨(old.val &&& ~~~(0xFFFF#64 <<< k)) ||| (zext64 w.imm <<< k), old.bad⟩
    .ok (yPut w.yd v x)) s

/-- ADDS: the sum of two registers. -/
def execAdds (w : SWord) (s : State) : Host.Outcome State Fault Refusal :=
  smpRun (!w.f && decide (w.imm = 0)) (quiet fun x =>
    .ok (yPut w.yd ⟨(yGet x w.ya).val + (yGet x w.yb).val, (yGet x w.ya).bad || (yGet x w.yb).bad⟩ x)) s

/-- ADDS with an immediate. -/
def execAddsImmediate (w : SWord) (s : State) : Host.Outcome State Fault Refusal :=
  smpRun (w.f && decide (w.yb = 0)) (quiet fun x =>
    .ok (yPut w.yd ⟨(yGet x w.ya).val + sext64 w.imm, (yGet x w.ya).bad⟩ x)) s

/-- BRC: a relative branch; a target outside the segment is met at the next fetch (R301). -/
def execBrc (w : SWord) (s : State) : Host.Outcome State Fault Refusal :=
  let x := smpCtx s
  if x.run ≠ 1 then settle s
  else if w.yd ≠ 0 ∨ w.yb ≠ 0 then settle (smpFault { cause := cIllegalInstr, addr := BitVec.ofNat 64 x.spc } s)
  else match clean (yGet x w.ya) with
    | .error (.trap t) => settle (smpFault t s)
    | .error .stall => settle s
    | .ok v =>
      let t : Int := if decide (v ≠ 0) != w.f then x.spc + w.imm.toInt else x.spc + 1
      settle (setSmp { x with spc := (t % 1024).toNat + (if 0 ≤ t ∧ t < 1024 then 0 else 1024) } s)

/-! ### Building and shaping the list (R305) -/

/-- LDL loads values and numbers the token ids. -/
def execLdl (w : SWord) (s : State) : Host.Outcome State Fault Refusal :=
  smpRun (decide (w.imm = 0)) (reading fun x s => do
    let n ← clean (yGet x w.yb)
    if 4096 < n.toNat then smpIllegal x.spc
    else do
      let a ← clean (yGet x w.ya)
      let (s, vs) ← smpList x a (if w.f then 2 else 4) n.toNat s
      let id := yGet x w.yd
      let es := ((List.range vs.length).zip vs).map fun iv =>
        let v := if w.f then (roundIeee 0 (decodeNum 1 iv.2.1) false .rne false).code else iv.2.1
        (⟨BitVec.ofNat 32 v, id.val.extractLsb' 0 32 + BitVec.ofNat 32 iv.1, iv.2.2 || id.bad⟩ : Cand)
      .ok (s, { putEntries es x with nc := n.toNat })) s

/-- SCL multiplies every entry. -/
def execScl (w : SWord) (s : State) : Host.Outcome State Fault Refusal :=
  smpRun (decide (w.yd = 0 ∧ w.yb = 0) && (if w.f then decide (w.ya = 0) else decide (w.imm = 0))) (quiet fun x =>
    let f := if w.f then w.imm.toNat * 2 ^ 16 else yF (yGet x w.ya)
    let p := !w.f && (yGet x w.ya).bad
    .ok (putEntries ((entries x).map fun e => revalue e (mulF32 e.val.toNat f) (e.bad || p)) x)) s

/-- A value above 0. -/
def posF32 (v : Nat) : Bool := fltVal (.fin false 0 0) (f32 v)

/-- PEN treats the entries whose id is listed. -/
def execPen (w : SWord) (s : State) : Host.Outcome State Fault Refusal :=
  smpRun (!w.f && decide (w.imm = 0)) (reading fun x s => do
    let a ← clean (yGet x w.ya)
    let n ← clean (yGet x w.yb)
    let (s, ids) ← smpList x a 4 (bits n 15 0) s
    let p := yF (yGet x w.yd)
    let q := ids.any (·.2)
    .ok (s, putEntries ((entries x).map fun e =>
      if ids.any fun i => decide (i.1 = e.id.toNat) then
        revalue e (if posF32 e.val.toNat then divF32 e.val.toNat p else mulF32 e.val.toNat p) (e.bad || q || (yGet x w.yd).bad)
      else { e with bad := e.bad || q }) x)) s

/-- −∞ as F32. -/
def negInf : Nat := 0xFF800000

/-- MSK sets the entries that the bitmap excludes to −∞. -/
def execMsk (w : SWord) (s : State) : Host.Outcome State Fault Refusal :=
  smpRun (decide (w.yd = 0 ∧ w.imm = 0)) (reading fun x s => do
    let a ← clean (yGet x w.ya)
    let n ← clean (yGet x w.yb)
    let (s, es) ← (entries x).foldlM (fun acc e => do
      let (s, es) := acc
      let (s, bit, q) ←
        if e.id.toNat < n.toNat then do
          let (s, bs, q) ← coreRead x.core .engine (a + BitVec.ofNat 64 (e.id.toNat / 8)) 1 s
          .ok (s, (bs.headD 0).getLsbD (e.id.toNat % 8), q)
        else .ok (s, false, false)
      let e' := { e with bad := e.bad || q }
      .ok (s, es ++ [if bit = w.f then { e' with val := BitVec.ofNat 32 negInf } else e'])) (s, ([] : List Cand))
    .ok (s, putEntries es x)) s

/-! ### Ranking (R306) -/

/-- One entry ranks before or equal to another: numbers first, larger first, +0 before −0, then the lower id. -/
def ranks (a b : Cand) : Bool :=
  let x := f32 a.val.toNat
  let y := f32 b.val.toNat
  match x.isNan, y.isNan with
  | true, true => decide (a.id.toNat ≤ b.id.toNat)
  | true, false => false
  | false, true => true
  | false, false =>
    if fltVal y x then true
    else if fltVal x y then false
    else if x.isZero && y.isZero && decide (x.neg ≠ y.neg) then !x.neg
    else decide (a.id.toNat ≤ b.id.toNat)

/-- The list by rank. -/
def smpRanked (es : List Cand) : List Cand := sortBy ranks es

/-- TOPK keeps the first k. -/
def execTopk (w : SWord) (s : State) : Host.Outcome State Fault Refusal :=
  smpRun (!w.f && decide (w.yd = 0 ∧ w.ya = 0) && (decide (w.imm = 0) || decide (w.yb = 0))) (quiet fun x => do
    let k ← if w.imm = 0 then clean (yGet x w.yb) else .ok (zext64 w.imm)
    if k = 0 ∨ 4096 < k.toNat then smpIllegal x.spc
    else .ok { putEntries (smpRanked (entries x)) x with nc := min x.nc k.toNat }) s

/-- How many entries of a smpRanked list the running sum needs to reach p. -/
def prefixLen (p : FVal) : List Cand → Nat → Nat → Nat
  | [], _, n => n
  | e :: es, sum, n =>
    let sum := addF32 sum e.val.toNat
    let v := f32 sum
    if !v.isNan && !p.isNan && !fltVal v p then n + 1 else prefixLen p es sum (n + 1)

/-- TOPP keeps the shortest prefix whose sum reaches p. -/
def execTopp (w : SWord) (s : State) : Host.Outcome State Fault Refusal :=
  smpRun (!w.f && decide (w.yd = 0 ∧ w.yb = 0 ∧ w.imm = 0)) (quiet fun x =>
    if x.nc = 0 then .ok x
    else
      let es := smpRanked (entries x)
      let q := anyBad es || (yGet x w.ya).bad
      .ok { putEntries (es.map fun e => { e with bad := q }) x with nc := prefixLen (f32 (yF (yGet x w.ya))) es 0 0 }) s

/-- The first-smpRanked entry with its index. -/
def firstRanked (es : List Cand) : Option (Nat × Cand) :=
  ((List.range es.length).zip es).foldl (fun best ie => match best with
    | none => some ie
    | some b => if ranks b.2 ie.2 then some b else some ie) none

/-- MINP removes the entries below p × v_max. -/
def execMinp (w : SWord) (s : State) : Host.Outcome State Fault Refusal :=
  smpRun (!w.f && decide (w.yd = 0 ∧ w.yb = 0 ∧ w.imm = 0)) (quiet fun x =>
    match firstRanked (entries x) with
    | none => .ok x
    | some (_, top) =>
      let es := entries x
      let t := f32 (mulF32 (yF (yGet x w.ya)) top.val.toNat)
      let q := anyBad es || (yGet x w.ya).bad
      let kept := (es.filter fun e => !fltVal (f32 e.val.toNat) t).map fun e => { e with bad := q }
      .ok { putEntries kept x with nc := kept.length }) s

/-- ARGM gives the index of the first-smpRanked entry. -/
def execArgm (w : SWord) (s : State) : Host.Outcome State Fault Refusal :=
  smpRun (!w.f && decide (w.ya = 0 ∧ w.yb = 0 ∧ w.imm = 0)) (quiet fun x =>
    match firstRanked (entries x) with
    | none => .ok (yPut w.yd ⟨0xFFFFFFFFFFFFFFFF, false⟩ x)
    | some (i, _) => .ok (yPut w.yd ⟨BitVec.ofNat 64 i, anyBad (entries x)⟩ x)) s

/-! ### Distributions and draws (R307, R308) -/

/-- exp of an exact difference, correctly rounded to F32. -/
def expDiff (v m : Nat) : Nat :=
  (expConv 0 (fadd (f32 v) (f32 m).negate false).1 false (v * 2 ^ 32 + m)).code

/-- The values of SMX: NaN counts as −∞. -/
def softmax (vs : List Nat) : List Nat :=
  let vs := vs.map fun v => if (f32 v).isNan then negInf else v
  let m := vs.foldl (fun m v => if fltVal (f32 m) (f32 v) then v else m) negInf
  if f32 m = .inf true then vs.map fun _ => 0
  else if f32 m = .inf false then
    let c := (vs.filter fun v => decide (f32 v = .inf false)).length
    vs.map fun v => if f32 v = .inf false then divF32 0x3F800000 (rne32 (.fin false c 0)) else 0
  else
    let es := vs.map fun v => expDiff v m
    let sum := es.foldl addF32 0
    es.map fun e => divF32 e sum

/-- SMX. -/
def execSmx (w : SWord) (s : State) : Host.Outcome State Fault Refusal :=
  smpRun (decide (w = ⟨0, false, 0, 0, 0⟩)) (quiet fun x =>
    let es := entries x
    let vs := softmax (es.map (·.val.toNat))
    .ok (putEntries ((es.zip vs).map fun ev => revalue ev.1 ev.2 (anyBad es)) x)) s

/-- Rounded running sums. -/
def runningSums : List Nat → Nat → List Nat
  | [], _ => []
  | v :: vs, sum => addF32 sum v :: runningSums vs (addF32 sum v)

/-- The sums of CUM: the first is v_0 itself. -/
def cumulate : List Nat → List Nat
  | [] => []
  | v :: vs => rne32 (f32 v) :: runningSums vs (rne32 (f32 v))

/-- CUM. -/
def execCum (w : SWord) (s : State) : Host.Outcome State Fault Refusal :=
  smpRun (decide (w = ⟨0, false, 0, 0, 0⟩)) (quiet fun x =>
    let es := entries x
    .ok (putEntries ((es.zip (cumulate (es.map (·.val.toNat)))).map fun ev => revalue ev.1 ev.2 (anyBad es)) x)) s

/-- One draw: u as F32 bits, and the context with CTR advanced. -/
def drawU (x : SmpCtx) : Nat × SmpCtx :=
  let c (i : Nat) : Nat := (x.ctr.extractLsb' (32 * i) 32).toNat
  (rne32 (.fin false (philoxWord0 x.key (c 0) (c 1) (c 2) (c 3) / 2 ^ 8) (-24)), { x with ctr := x.ctr + 1 })

/-- RND. -/
def execRnd (w : SWord) (s : State) : Host.Outcome State Fault Refusal :=
  smpRun (!w.f && decide (w.ya = 0 ∧ w.yb = 0 ∧ w.imm = 0)) (quiet fun x =>
    let (u, x) := drawU x
    .ok (yPut w.yd ⟨BitVec.ofNat 64 u, false⟩ x)) s

/-- PICK gives the smallest index whose cumulative value exceeds u × the total. -/
def execPick (w : SWord) (s : State) : Host.Outcome State Fault Refusal :=
  smpRun (!w.f && decide (w.yb = 0 ∧ w.imm = 0)) (quiet fun x =>
    let es := entries x
    let u := yGet x w.ya
    if x.nc = 0 then .ok (yPut w.yd ⟨0xFFFFFFFFFFFFFFFF, u.bad⟩ x)
    else
      let t := f32 (mulF32 (yF u) (cand x (x.nc - 1)).val.toNat)
      let i := ((List.range x.nc).find? fun i => fltVal t (f32 (cand x i).val.toNat)).getD (x.nc - 1)
      .ok (yPut w.yd ⟨BitVec.ofNat 64 i, u.bad || anyBad es⟩ x)) s

/-- ACC: one draw u, and whether u × q < p_x. -/
def execAcc (w : SWord) (s : State) : Host.Outcome State Fault Refusal :=
  smpRun (!w.f && decide (w.imm = 0)) (quiet fun x =>
    let a := yGet x w.ya
    let b := yGet x w.yb
    let e := (entries x).find? fun e => decide (e.id = a.val.extractLsb' 0 32)
    let (u, x) := drawU x
    let q := f32 (yF b)
    let p := match e with
      | some e => f32 e.val.toNat
      | none => .fin false 0 0
    let ok := decide (q ≠ .inf false ∧ q ≠ .inf true) && fltVal (fmul (f32 u) q).1 p
    .ok (yPut w.yd ⟨if ok then 1 else 0, a.bad || b.bad || (e.map (·.bad)).getD false⟩ x)) s

/-- r_i of RES. -/
def residual (p q : Nat) : Nat :=
  let d := subF32 p q
  if (f32 d).isNan || posF32 d then d else 0

/-- RES replaces p by the normalised residual of p − q. -/
def execRes (w : SWord) (s : State) : Host.Outcome State Fault Refusal :=
  smpRun (!w.f && decide (w.yd = 0 ∧ w.yb = 0 ∧ w.imm = 0)) (reading fun x s => do
    let a ← clean (yGet x w.ya)
    let (s, qs) ← smpList x a 4 x.nc s
    let es := entries x
    let r := (es.zip qs).map fun eq => residual eq.1.val.toNat eq.2.1
    let sum := r.foldl addF32 0
    let bad := anyBad es || qs.any (·.2)
    if posF32 sum then
      .ok (s, putEntries ((es.zip r).map fun er => revalue er.1 (divF32 er.2 sum) bad) x)
    else .ok (s, x)) s

/-! ### Output (R309) -/

/-- EMIT writes an entry, or its id. -/
def execEmit (w : SWord) (s : State) : Host.Outcome State Fault Refusal :=
  smpRun (decide (w.yd = 0 ∧ w.imm = 0)) (reading fun x s => do
    let i ← clean (yGet x w.ya)
    if x.nc ≤ i.toNat then smpIllegal i.toNat
    else do
      let a ← clean (yGet x w.yb)
      let e := cand x i.toNat
      need (!e.bad) cPoison a
      let s ← if w.f then smpWrite x a 4 e.id.toNat s else smpWrite x a 8 (e.id.toNat + e.val.toNat * 2 ^ 32) s
      .ok (s, x)) s

/-- CONF writes an entry's value, then its id, at a position of two arrays; the first write stays if the second fails. -/
def confBody (w : SWord) : SmpBody := fun x s =>
  let i := w.imm.toNat
  let e := cand x i
  let args : R (Word × Word) := do
    if x.nc ≤ i then smpIllegal i
    else do
      let p ← clean (yGet x w.yd)
      let a ← clean (yGet x w.ya)
      let b ← clean (yGet x w.yb)
      let off := BitVec.ofNat 64 (4 * bits p 15 0)
      need (!e.bad) cPoison (a + off)
      .ok (a + off, b + off)
  match args with
  | .error t => (s, .error t)
  | .ok (a, b) =>
    match smpWrite x a 4 e.val.toNat s with
    | .error t => (s, .error t)
    | .ok s =>
      match smpWrite x b 4 e.id.toNat s with
      | .error t => (s, .error t)
      | .ok s => (s, .ok x)

/-- CONF. -/
def execConf (w : SWord) (s : State) : Host.Outcome State Fault Refusal := smpRun (!w.f) (confBody w) s

/-- An op6 of 14 to 3F halts the context with ILLEGAL_INSTR (R139). -/
def execSmpReservedOpcode (_ : Unit32) (s : State) : Host.Outcome State Fault Refusal :=
  smpRun false (quiet .ok) s

/-! ### What a context does next -/

/-- The running context of a cluster whose turn it is (R301). -/
def smpTurn (k : Fin 32) (s : State) : Option (BitVec 6) :=
  ((List.range 64).map fun j => (s.cluster k).smpNext + BitVec.ofNat 6 j).find? fun i => decide ((smpGet s k i).run = 1)

/-- The next move of the focused context: a waiting request is answered, or, in its turn, the word at SPC runs, after which the turn
passes on (R301); a fetch at or beyond the segment's length is ILLEGAL_INSTR. -/
def smpWork (s : State) : State × Option Instr :=
  if (smpWaiting s).isSome then (s, some .samplerStart)
  else if smpTurn (smpAt s).1 s ≠ some (smpAt s).2 then (s, none)
  else
    let x := smpCtx s
    let s := s.updCluster (smpAt s).1 fun k => { k with smpNext := s.focus.smp.2 + 1 }
    match smpSegment s with
    | none => (smpFault { cause := cIllegalInstr, addr := BitVec.ofNat 64 (x.spc % 1024) } s, none)
    | some g =>
      if g.len ≤ x.spc then (smpFault { cause := cIllegalInstr, addr := BitVec.ofNat 64 (x.spc % 1024) } s, none)
      else (s, some (samplerInstr (kget 0 (s.cluster (smpAt s).1).ucode (g.first + x.spc))))

end Sys2Proof.Machine
end

