-- ==== Sys2Proof/Machine/Agents.lean ====
section
/-!
DEFINITION. Who moves and what it does: the next mover of the agenda, and for each agent the instruction it performs now
(the row of the opcode table) or the state its move leaves.
-/
namespace Sys2Proof.Machine

/-- The next mover: the head of the agenda, or a free one (log entry 1). -/
def nextMover (s : State) : Agent × State :=
  match s.agenda with
  | a :: rest => (a, { s with agenda := rest })
  | [] => (Config.freeAgent s.moves, { s with moves := s.moves + 1 })

/-- Turn to a core. -/
def focusCore (c : CoreId) (s : State) : State := { s with focus := { s.focus with core := c } }

/-! ### The units of a core -/

/-- What a sequencer does next: a pending fault, the instruction at its PC, or the wait for the end after HALT (R402,
R127, R48). A fetch that faults is a trap. -/
def seqWork (s : State) : State × Option Instr :=
  match s.core.rg.status with
  | .running =>
    if !s.core.rg.sup && !s.core.pend.isEmpty then (s, some .pendingFaultTaken)
    else match fetch s with
      | .ok i => (s, some i)
      | .error (.trap t) => (takeTrap t s, none)
      | .error .stall => (s, none)
  | .halted => (s, some .coreFinish)
  | .killed => (s, some .coreFinish)
  | _ => (s, none)

/-- The head word of a vector queue (R20, R21). -/
def vecWork (q : VQ) (s : State) : Option Instr := ((s.core.eng.queue q).entries.head?).map (·.word)

/-- The head word of MXQ. -/
def mxWork (s : State) : Option Instr := (s.core.eng.mxq.head?).map (·.word)

/-- A channel's move; on a stopped core a channel moves only within a record that it has begun (R45), and on a core that
its gang has left it does not move (R45, R409). -/
def chanMove (c : CoreId) (n : BitVec 3) (s : State) : State × Option Instr :=
  match (s.coreAt c).rg.status with
  | .off => (s, none)
  | .stopped => if (vget n (s.coreAt c).chans).resume = none then (s, none) else chanWork c n s
  | _ => chanWork c n s

/-- The transform sequencer's move; on a stopped core it stands (R45, R298), and on a core that its gang has left it does
not move (R409). -/
def xseqMove (s : State) : State × Option Instr :=
  match s.core.rg.status with
  | .off => (s, none)
  | .stopped => (s, none)
  | _ => xseqWork s

/-! ### The shared engines -/

/-- The row of a PIX request by its sub-operation (R328 to R332). -/
def pixRow (sub : Nat) : Option Instr :=
  match sub with
  | 0 => some .pixLookupRequest
  | 1 => some .pixInsertRequest
  | 2 => some .pixRefRequest
  | 3 => some .pixUnrefRequest
  | 4 => some .pixEvictRequest
  | _ => none

/-- The row of a UME request by its sub-operation (R333 to R337). -/
def umeRow (sub : Nat) : Option Instr :=
  match sub with
  | 0 => some .umeCfgRequest
  | 1 => some .umePostRequest
  | 2 => some .umeRoundRequest
  | 3 => some .umeDirtyRequest
  | 4 => some .umeResetRequest
  | _ => none

/-- The row of an FE request by its sub-operation (R352). -/
def feRow (sub : Nat) : Option Instr :=
  match sub with
  | 0 => some .feInvRequest
  | 1 => some .feStatRequest
  | 2 => some .feSettRequest
  | _ => none

/-- The row of an engine's oldest request among those of some cores that satisfy a condition. -/
def requestRow (cs : List CoreId) (p : Req → Bool) (row : Nat → Option Instr) (s : State) : Option Instr :=
  (oldestReq s cs fun _ r => p r).bind fun cr => row cr.2.sub.toNat

/-! ### Events -/

/-- The rows that are no unit's next word or request: events of cores and gangs, of the memory system, the scheduler, the host,
the pool and power, which may occur at any moment (log entry 1). -/
def isEvent (i : Instr) : Bool :=
  match i with
  | .windowRecall _ _ | .subscriptionPush _ | .backInvalidation _ _ | .pageWalk _ _ | .storeAcknowledgement _ | .loadReturn
  | .softErrorCorrected _ | .sramErrorPoisoned _ | .sramUe | .fifoStall | .stopTokenTimeout | .preemptionStop
  | .preemptWithdraw _ | .gangSave _ | .gangRestore _ | .feSgdStep _ _ _ => true
  | .submitRoot _ _ | .abort _ | .graphHeaderRead _ | .nodeDescriptorRead _ | .eventSet _ _ | .eventAdd _ _
  | .nodeEnterReady _ | .nodePlacement | .placementHold _ | .preemptRequest _ | .conditionalNode _ | .hostSignalNode _
  | .joinNode _ | .bootGo _ | .p0Reached _ | .coalescerTailPoll _ | .coalescerEmit _ | .budgetPublish _ => true
  | .tlbinv _ | .shedsel _ | .drvaccWrite _ _ | .contextValidWrite _ _ | .capWrite _ | .registerWrite _ _ _ | .treeInstall _ _
  | .engineStallDetected _ | .tdispRequest _ => true
  | .portDead _ | .kill _ | .portRetrain _ | .admitPort _ | .validate _ | .addCapacityEvent _ _ | .releaseRequest _ _
  | .accept _ _ | .reject _ _ | .release _ _ => true
  | .powerUp | .coldReset | .functionLevelReset | .hotReset | .powerLoss => true
  | _ => false

/-! ### The move of an agent -/

/-- An agent's move: the state as it finds it, and the instruction it performs if it performs one. -/
def moveOf (a : Agent) (s : State) : State × Option Instr :=
  match a with
  | .seq c => seqWork (focusCore c s)
  | .vec c q =>
    let s := { s with focus := { s.focus with core := c, vq := q } }
    (s, vecWork q s)
  | .mx c => (focusCore c s, mxWork (focusCore c s))
  | .latch c => (focusCore c s, some .latchFill)
  | .chan c n => chanMove c n (focusCore c s)
  | .xseq c => xseqMove (focusCore c s)
  | .smp k i => smpWork { s with focus := { s.focus with smp := (k, i) } }
  | .pix t =>
    ({ s with focus := { s.focus with tree := t } },
     requestRow allCores (fun r => decide (r.eng = .pix) && decide (r.target = t.toNat)) pixRow s)
  | .ume i =>
    ({ s with focus := { s.focus with ume := i } },
     requestRow allCores (fun r => decide (r.eng = .ume) && decide (r.target = i.toNat)) umeRow s)
  | .fe k =>
    ({ s with focus := { s.focus with fe := k } }, requestRow (coresOf k.toFin) (fun r => decide (r.eng = .fe)) feRow s)
  | .kvc k => (s, some (.kvcCommit k))
  | .walker d => (s, some (.cacheWalkerRange d))
  | .event c i => (focusCore c s, if isEvent i then some i else none)
  | .clock n => (noteHolds { s with dcc := s.dcc + BitVec.ofNat 64 n, cycle := s.cycle + 1 }, none)
  | .cycle => ({ s with cycle := s.cycle + 1 }, none)
  | .crossing p line => (crossing p line s, none)
  | .silence p => (silencePort p s, none)
  | .remoteStore p a bs => (remoteStore p a bs s, none)
  | .hostStore a bs => (hostStore a bs s, none)
  | .hostRead o n => ((hostRead o n s).1, none)
  | .llcEvict i => (llcEvict i s, none)
  | .tlbEvict c i => (tlbEvict c i s, none)
  | .metaError b => (metaError b s, none)
  | .memError sp a => (memError sp a s, none)
  | .mailbox => mailboxWork s
  | .doe secured msg => doeWork secured msg s

/-- What an agent finds: window granules that served one access only are invalid again (R432), and the hang detector has seen what
the last move did (R453). -/
def prepare (a : Agent) (s : State) : State × Option Instr := moveOf a (noteProgress (dropTransient s))

/-- The move is POWER_UP. -/
def powersUp : Agent → Bool
  | .event _ .powerUp => true
  | _ => false

end Sys2Proof.Machine
end

