-- ==== Sys2Proof/Machine/Resets.lean ====
section
/-!
DEFINITION. Power-up, cold reset, loss of power (R426), function-level and hot reset (R427, R440, R447).
-/
namespace Sys2Proof.Machine

/-! ### Start-up (R426) -/

/-- What a start-up keeps of the model's own and of the world outside: agenda, counters, the host's memory and the pool
devices' contents. -/
def freshState (s : State) : State :=
  { State.reset with agenda := s.agenda, moves := s.moves, free := s.free, order := s.order, host := s.host,
                     pool := { Pool.reset with mem := s.pool.mem }, ident := { Ident.reset with boots := s.ident.boots + 1 },
                     sec := { Security.reset with mr := startMr (s.ident.boots + 1) true true true } }

/-- The device FAILED in a step: only identity, mailbox and error log respond; nothing later has been set (R426, R440). -/
def failedStart (code : Byte) (record : Bool) (s : State) : State :=
  let t := freshState s
  { t with
    ident := { t.ident with phase := 15, fail := code, devcap := 0, portup := if code < 3 then 0 else t.ident.portup },
    log := ⟨0, 0, 0, 0, []⟩,
    cores := t.cores.map fun k => { k with inSvc := false },
    sec := { t.sec with mr := startMr t.ident.boots record false false } }

/-- Both signatures of an object verify over its SHA-384 digest under two public keys, and its version is the minimum version or
above (R439). -/
def accepted (boot : Nat) (keys : List Byte × List Byte) (o : BootObject) : Bool :=
  let x := Config.flash boot o
  let d := objectDigest boot o
  Config.edVerify keys.1 d x.edSig && Config.mldsaVerify keys.2 d x.mldsaSig && decide (Config.minVersion boot ≤ x.version)

/-- The ROM accepts a firmware under the public keys that come with it, if their hashes are those it holds (R439). -/
def romAccepts (boot : Nat) (o : BootObject) : Bool :=
  let x := Config.flash boot o
  decide (sha384 x.edKey = Config.romKeyHash 0) && decide (sha384 x.mldsaKey = Config.romKeyHash 1) &&
    accepted boot (x.edKey, x.mldsaKey) o

/-- A later object is accepted under the keys that the configuration record names, the record itself too (R439; log entry 71). -/
def recordAccepts (boot : Nat) (o : BootObject) : Bool := accepted boot (Config.recordKeys boot) o

/-- Start-up: each step begins when the one before has succeeded. If the ROM does not accept its own firmware or the hub's, the
device does not answer and stays as without power (R426, R439). -/
def startUp (s : State) : State :=
  let boot := s.ident.boots + 1
  if !(romAccepts boot .securityFirmware && romAccepts boot .hubFirmware) then { freshState s with powered := false }
  else if !Config.startupOk boot 0 then failedStart 1 false s
  else if !Config.startupOk boot 1 then failedStart 2 false s
  else if !recordAccepts boot .configRecord then failedStart 3 false s
  else if !(recordAccepts boot .firmware && recordAccepts boot .supervisor) then failedStart 4 true s
  else freshState s

/-- POWER_UP of a part without power. -/
def execPowerUp (s : State) : Host.Outcome State Fault Refusal := settle (if s.powered then s else startUp s)

/-- COLD_RESET repeats the whole start-up (R427). -/
def execColdReset (s : State) : Host.Outcome State Fault Refusal := settle (startUp s)

/-- POWER_LOSS: the device holds no state (R426). -/
def execPowerLoss (s : State) : Host.Outcome State Fault Refusal := settle { freshState s with powered := false }

/-! ### Function-level and hot reset (R427) -/

/-- Every gang is killed and every core free: the requests that a killed core still had have completed (R404, R427). -/
def freeAllCores (s : State) : State :=
  let s := allCtxs.foldl (fun s n => abortCtx n s) s
  let s := s.sched.gangs.foldl (fun s g => freeGang g s) s
  allCores.foldl (fun s c => s.updCore c fun k => { k with gang := none, reqs := [], rg := { k.rg with status := .off } }) s

/-- Write back and drop every LLC line. -/
def dropLlc (s : State) : State :=
  { s.llc.foldl (fun s l => llcWriteBack l s) s with llc := [], llcTags := [] }

/-- DRVACC, HOSTCTL and every table of R419 are 0, and the interface is unlocked (R417); the counters of R451 and the submission mailboxes' OVF stay. -/
def clearTables (s : State) : State :=
  { s with
    ident := { s.ident with drvacc := 0, hostctl := 0, tdi := 0 },
    ctxs := Vector.replicate 64 ⟨0, 0, 0, 0, 0, false, 0, 0, false⟩,
    sched := { Sched.reset with submits := s.sched.submits, spills := s.sched.spills, preempts := s.sched.preempts,
                                nextId := s.sched.nextId },
    parts := Vector.replicate 8 ⟨0, 0, 0, 0, 0⟩, coal := [],
    trees := Vector.replicate 8 ⟨0, 0, 0, 0, false, 0⟩, tlbinv := 0 }

/-- Key slots, MR5 to MR15, sessions and FRESH are cleared (R440, R447). -/
def clearSecurity (s : State) : State :=
  s.updSec fun x =>
    { x with mr := Vector.ofFn fun (i : Fin 16) => if i.val < 5 then x.mr[i] else 0, keys := Vector.replicate 64 ⟨0, 0, 0, 0⟩,
             fresh := false, spdm := .start, trans := [], request := [], reply := [],
             session := none, cover := none }

/-- A reset of the function. Of a FAILED device only the security controller holds anything that it resets (R426, R447). -/
def functionReset (s : State) : State :=
  clearSecurity (if s.ident.phase = 5 then clearTables (dropLlc (freeAllCores s)) else s)

/-- FUNCTION_LEVEL_RESET. -/
def execFunctionLevelReset (s : State) : Host.Outcome State Fault Refusal := settle (functionReset s)

/-- HOT_RESET of the host link. -/
def execHotReset (s : State) : Host.Outcome State Fault Refusal := settle (functionReset s)

end Sys2Proof.Machine
end

