-- ==== Sys2Proof/Machine/Scalar.lean ====
section
/-!
DEFINITION. Integer operations of the sequencer (R145 to R154): ALU, immediates, long literals, SEL, comparisons, bit
fields and funnel shifts, with their guards (R129), boost levels (R38) and poison (R93).
-/
namespace Sys2Proof.Machine

/-! ### Shared shapes -/

/-- g[rd] = f(g[ra], g[rb]) at a boost level; the result is poisoned if a source is (R144). -/
def binary (bl : BitVec 2) (rd ra rb : Reg) (f : Word → Word → Word) (s : State) : R State :=
  let a := readG s.core bl.toNat ra
  let b := readG s.core bl.toNat rb
  .ok (writeG bl rd ⟨f a.val b.val, a.bad || b.bad⟩ s)

/-- g[rd] = f(g[ra]) at a boost level. -/
def unary (bl : BitVec 2) (rd ra : Reg) (f : Word → Word) (s : State) : R State :=
  let a := readG s.core bl.toNat ra
  .ok (writeG bl rd ⟨f a.val, a.bad⟩ s)

/-- k[T] = the combination of its old value with a comparison (R152). -/
def compare (bl : BitVec 2) (cond : Cond) (comb : Combine) (kt : BitVec 3) (a b : PReg) (s : State) : R State :=
  let c := condHolds cond a.val b.val
  .ok (writeK bl kt (combined comb (readK s.core bl.toNat kt) c (a.bad || b.bad)) s)

/-! ### ALU, ALUX (R145 to R147) -/

/-- ALU: g[rd] = the operation fn5 on g[ra] and g[rb], guarded (R146). -/
def execAlu (op : AluOp) (gd : Guard) (rb ra rd : Reg) (s : State) : Host.Outcome State Fault Refusal :=
  conclude s (instruction 4 0 (.g rd) [rd, ra, rb] gd (binary 0 rd ra rb (aluResult op)) s)

/-- ALUX: as ALU, with a boost level (R145). -/
def execAlux (op : AluOp) (gd : Guard) (bl : BitVec 2) (rb ra rd : Reg) (s : State) :
    Host.Outcome State Fault Refusal :=
  conclude s (instruction 8 bl (.g rd) [rd, ra, rb] gd (binary bl rd ra rb (aluResult op)) s)

/-! ### Immediates (R148) -/

/-- ADDI: wrap64(g[ra] + sext(imm14)). -/
def execAddi (imm : BitVec 14) (ra rd : Reg) (s : State) : Host.Outcome State Fault Refusal :=
  conclude s (plain 4 [rd, ra] (unary 0 rd ra fun a => a + sext64 imm) s)

/-- ANDI: g[ra] AND sext(imm14). -/
def execAndi (imm : BitVec 14) (ra rd : Reg) (s : State) : Host.Outcome State Fault Refusal :=
  conclude s (plain 4 [rd, ra] (unary 0 rd ra fun a => a &&& sext64 imm) s)

/-- ORI: g[ra] OR sext(imm14). -/
def execOri (imm : BitVec 14) (ra rd : Reg) (s : State) : Host.Outcome State Fault Refusal :=
  conclude s (plain 4 [rd, ra] (unary 0 rd ra fun a => a ||| sext64 imm) s)

/-- XORI: g[ra] XOR sext(imm14). -/
def execXori (imm : BitVec 14) (ra rd : Reg) (s : State) : Host.Outcome State Fault Refusal :=
  conclude s (plain 4 [rd, ra] (unary 0 rd ra fun a => a ^^^ sext64 imm) s)

/-- SHI: SHL, SHR, SAR or ROT by n. -/
def execShi (kind : ShiftKind) (n : BitVec 6) (ra rd : Reg) (s : State) : Host.Outcome State Fault Refusal :=
  conclude s (plain 4 [rd, ra] (unary 0 rd ra fun a => shiftBy kind a n.toNat) s)

/-! ### Long literals (R149) -/

/-- LI: wrap64(sext(lit32)). -/
def execLi (gd : Guard) (bl : BitVec 2) (lit : BitVec 32) (rd : Reg) (s : State) :
    Host.Outcome State Fault Refusal :=
  conclude s (instruction 12 bl (.g rd) [rd] gd (fun s => .ok (writeG bl rd (constReg (sext64 lit)) s)) s)

/-- LIH: lit32 × 2^32 + g[rd][31:0]. -/
def execLih (gd : Guard) (bl : BitVec 2) (lit : BitVec 32) (rd : Reg) (s : State) :
    Host.Outcome State Fault Refusal :=
  conclude s (instruction 12 bl (.g rd) [rd] gd (unary bl rd rd fun a => lit ++ a.extractLsb' 0 32) s)

/-- ADDL: wrap64(g[ra] + sext(lit32)). -/
def execAddl (gd : Guard) (bl : BitVec 2) (lit : BitVec 32) (ra rd : Reg) (s : State) :
    Host.Outcome State Fault Refusal :=
  conclude s (instruction 12 bl (.g rd) [rd, ra] gd (unary bl rd ra fun a => a + sext64 lit) s)

/-! ### SEL (R150) -/

/-- SEL: g[rd] = (k[kg] XOR kn) ? g[ra] : g[rb]. The selector does not guard; a poisoned one poisons the result. -/
def selectBody (gd : Guard) (rb ra rd : Reg) (s : State) : R State :=
  let p := s.k gd.kg
  let v := if p.val != gd.kn then s.g ra else s.g rb
  .ok (s.setG rd ⟨v.val, v.bad || p.bad⟩)

def execSel (gd : Guard) (rb ra rd : Reg) (s : State) : Host.Outcome State Fault Refusal :=
  conclude s (plain 4 [rd, ra, rb] (selectBody gd rb ra rd) s)

/-! ### Comparisons (R151, R152) -/

/-- CMP: compares g[ra] with g[rb], guarded. -/
def execCmp (cond : Cond) (gd : Guard) (rb ra : Reg) (comb : Combine) (kt : BitVec 3) (s : State) :
    Host.Outcome State Fault Refusal :=
  conclude s (instruction 4 0 (.k kt) [ra, rb] gd (fun s => compare 0 cond comb kt (s.g ra) (s.g rb) s) s)

/-- CMPI: compares g[ra] with sext(imm14); the combine mode is set. -/
def execCmpi (cond : Cond) (imm : BitVec 14) (ra : Reg) (kt : BitVec 3) (s : State) :
    Host.Outcome State Fault Refusal :=
  conclude s (plain 4 [ra] (fun s => compare 0 cond .set kt (s.g ra) (constReg (sext64 imm)) s) s)

/-- CMPX: as CMP, with a boost level. -/
def execCmpx (cond : Cond) (gd : Guard) (bl : BitVec 2) (rb ra : Reg) (comb : Combine) (kt : BitVec 3) (s : State) :
    Host.Outcome State Fault Refusal :=
  conclude s (instruction 8 bl (.k kt) [ra, rb] gd
    (fun s => compare bl cond comb kt (readG s.core bl.toNat ra) (readG s.core bl.toNat rb) s) s)

/-- CMPL: compares g[ra] with sext(lit32), with a boost level. -/
def execCmpl (cond : Cond) (gd : Guard) (bl : BitVec 2) (lit : BitVec 32) (ra : Reg) (comb : Combine)
    (kt : BitVec 3) (s : State) : Host.Outcome State Fault Refusal :=
  conclude s (instruction 12 bl (.k kt) [ra] gd
    (fun s => compare bl cond comb kt (readG s.core bl.toNat ra) (constReg (sext64 lit)) s) s)

/-! ### Bit fields (R153) and funnel shifts (R154) -/

/-- The position of BFX and BFI: P, or g[rb][5:0], with its poison. -/
def fieldPos (bl : BitVec 2) (rp : Bool) (p : BitVec 6) (rb : Reg) (s : State) : Nat × Bool :=
  if rp then let b := readG s.core bl.toNat rb
             (bits b.val 5 0, b.bad)
  else (p.toNat, false)

/-- The field that BFX extracts. -/
def bfxResult (sx : Bool) (w p : Nat) (a : Word) : Word :=
  let f := u64 a / 2 ^ p % 2 ^ w
  if sx ∧ w < 64 ∧ 2 ^ (w - 1) ≤ f then wrap64 ((f : Int) - (2 ^ w : Nat)) else BitVec.ofNat 64 f

/-- The register that BFI leaves: field bits beyond 63 are dropped. -/
def bfiResult (w p : Nat) (a d : Word) : Word :=
  let f := u64 a % 2 ^ w
  let m := BitVec.ofNat 64 ((2 ^ w - 1) * 2 ^ p)
  (d &&& ~~~m) ||| BitVec.ofNat 64 (f * 2 ^ p)

def execBfx (sx rp : Bool) (w : BitVec 7) (p : BitVec 6) (gd : Guard) (bl : BitVec 2) (rb ra rd : Reg) (s : State) :
    Host.Outcome State Fault Refusal :=
  conclude s (instruction 8 bl (.g rd) [rd, ra, rb] gd (fun s =>
    let (pos, q) := fieldPos bl rp p rb s
    let a := readG s.core bl.toNat ra
    .ok (writeG bl rd ⟨bfxResult sx w.toNat pos a.val, a.bad || q⟩ s)) s)

/-- BFI reads g[rd] as well. -/
def execBfi (rp : Bool) (w : BitVec 7) (p : BitVec 6) (gd : Guard) (bl : BitVec 2) (rb ra rd : Reg) (s : State) :
    Host.Outcome State Fault Refusal :=
  conclude s (instruction 8 bl (.g rd) [rd, ra, rb] gd (fun s =>
    let (pos, q) := fieldPos bl rp p rb s
    let a := readG s.core bl.toNat ra
    let d := readG s.core bl.toNat rd
    .ok (writeG bl rd ⟨bfiResult w.toNat pos a.val d.val, a.bad || d.bad || q⟩ s)) s)

/-- The funnel shift of R154: right takes g[rb]:g[ra], left takes g[ra]:g[rb]. -/
def fshResult (left : Bool) (n : Nat) (a b : Word) : Word :=
  if left then BitVec.ofNat 64 ((u64 a * 2 ^ 64 + u64 b) * 2 ^ n / 2 ^ 64)
  else BitVec.ofNat 64 ((u64 b * 2 ^ 64 + u64 a) / 2 ^ n)

def execFsh (left rn : Bool) (n : BitVec 6) (gd : Guard) (bl : BitVec 2) (rc rb ra rd : Reg) (s : State) :
    Host.Outcome State Fault Refusal :=
  conclude s (instruction 8 bl (.g rd) [rd, ra, rb, rc] gd (fun s =>
    let a := readG s.core bl.toNat ra
    let b := readG s.core bl.toNat rb
    let c := readG s.core bl.toNat rc
    let (amt, q) := if rn then (bits c.val 5 0, c.bad) else (n.toNat, false)
    .ok (writeG bl rd ⟨fshResult left amt a.val b.val, a.bad || b.bad || q⟩ s)) s)

end Sys2Proof.Machine
end

