-- ==== Sys2Proof/Machine/Dispatch.lean ====
section
/-!
DEFINITION. The dispatcher: one arm per constructor of `Instr`, each one direct call of that instruction's meaning.
-/
namespace Sys2Proof.Machine

def exec (i : Instr) (s : State) : Host.Outcome State Fault Refusal :=
  match i with
  | .ill x => Sys2Proof.Machine.execIll x s
  | .alu op gd rb ra rd => Sys2Proof.Machine.execAlu op gd rb ra rd s
  | .addi imm ra rd => Sys2Proof.Machine.execAddi imm ra rd s
  | .andi imm ra rd => Sys2Proof.Machine.execAndi imm ra rd s
  | .ori imm ra rd => Sys2Proof.Machine.execOri imm ra rd s
  | .xori imm ra rd => Sys2Proof.Machine.execXori imm ra rd s
  | .shi kind n ra rd => Sys2Proof.Machine.execShi kind n ra rd s
  | .sel gd rb ra rd => Sys2Proof.Machine.execSel gd rb ra rd s
  | .cmp cond gd rb ra comb kt => Sys2Proof.Machine.execCmp cond gd rb ra comb kt s
  | .cmpi cond imm ra kt => Sys2Proof.Machine.execCmpi cond imm ra kt s
  | .ld sz off ra rd => Sys2Proof.Machine.execLd sz off ra rd s
  | .st sz off ra rs => Sys2Proof.Machine.execSt sz off ra rs s
  | .br hint gd off => Sys2Proof.Machine.execBr hint gd off s
  | .j off => Sys2Proof.Machine.execJ off s
  | .jl off => Sys2Proof.Machine.execJl off s
  | .jr ra rd => Sys2Proof.Machine.execJr ra rd s
  | .vrun imm8 gb ga => Sys2Proof.Machine.execVrun imm8 gb ga s
  | .mrun imm8 gb ga => Sys2Proof.Machine.execMrun imm8 gb ga s
  | .xrun imm8 gb ga => Sys2Proof.Machine.execXrun imm8 gb ga s
  | .put eng sub nores boost gb ga => Sys2Proof.Machine.execPut eng sub nores boost gb ga s
  | .get eng ga => Sys2Proof.Machine.execGet eng ga s
  | .wait mx cp st ld => Sys2Proof.Machine.execWait mx cp st ld s
  | .fencem mask rel scope => Sys2Proof.Machine.execFencem mask rel scope s
  | .barInit b ga => Sys2Proof.Machine.execBarInit b ga s
  | .barArrive b n gb => Sys2Proof.Machine.execBarArrive b n gb s
  | .barArriver b n gb ga => Sys2Proof.Machine.execBarArriver b n gb ga s
  | .barWait b ga => Sys2Proof.Machine.execBarWait b ga s
  | .barCnt b ga => Sys2Proof.Machine.execBarCnt b ga s
  | .mbxSend m gb ga => Sys2Proof.Machine.execMbxSend m gb ga s
  | .mbxRecv m gb ga => Sys2Proof.Machine.execMbxRecv m gb ga s
  | .mbxPoll m ga => Sys2Proof.Machine.execMbxPoll m ga s
  | .cpsStart c ga => Sys2Proof.Machine.execCpsStart c ga s
  | .cpsStat c ga => Sys2Proof.Machine.execCpsStat c ga s
  | .cpsWmark c ga => Sys2Proof.Machine.execCpsWmark c ga s
  | .cpsStop c => Sys2Proof.Machine.execCpsStop c s
  | .evtSignal gb ga => Sys2Proof.Machine.execEvtSignal gb ga s
  | .evtRead gb ga => Sys2Proof.Machine.execEvtRead gb ga s
  | .trap code => Sys2Proof.Machine.execTrap code s
  | .lexit imm ra => Sys2Proof.Machine.execLexit imm ra s
  | .sysr reg rd => Sys2Proof.Machine.execSysr reg rd s
  | .sysw reg ra => Sys2Proof.Machine.execSysw reg ra s
  | .pixLookup tree nores gb ga => Sys2Proof.Machine.execPixLookup tree nores gb ga s
  | .pixInsert tree nores ga => Sys2Proof.Machine.execPixInsert tree nores ga s
  | .pixRef tree nores ga => Sys2Proof.Machine.execPixRef tree nores ga s
  | .pixUnref tree nores ga => Sys2Proof.Machine.execPixUnref tree nores ga s
  | .pixEvict tree nores gb ga => Sys2Proof.Machine.execPixEvict tree nores gb ga s
  | .umeCfg ctx nores ga => Sys2Proof.Machine.execUmeCfg ctx nores ga s
  | .umePost ctx nores gb ga => Sys2Proof.Machine.execUmePost ctx nores gb ga s
  | .umeRound ctx nores ga => Sys2Proof.Machine.execUmeRound ctx nores ga s
  | .umeDirty ctx nores gb ga => Sys2Proof.Machine.execUmeDirty ctx nores gb ga s
  | .umeReset ctx nores => Sys2Proof.Machine.execUmeReset ctx nores s
  | .smpr ctx nores ga => Sys2Proof.Machine.execSmpr ctx nores ga s
  | .approxBegin region => Sys2Proof.Machine.execApproxBegin region s
  | .approxEnd region => Sys2Proof.Machine.execApproxEnd region s
  | .fitcInv region nores => Sys2Proof.Machine.execFitcInv region nores s
  | .fitcStat region nores => Sys2Proof.Machine.execFitcStat region nores s
  | .fitcSett region nores gb ga => Sys2Proof.Machine.execFitcSett region nores gb ga s
  | .kvc b gb ga => Sys2Proof.Machine.execKvc b gb ga s
  | .rflush b ga => Sys2Proof.Machine.execRflush b ga s
  | .rinval b ga => Sys2Proof.Machine.execRinval b ga s
  | .unstand slot => Sys2Proof.Machine.execUnstand slot s
  | .shed ga => Sys2Proof.Machine.execShed ga s
  | .tokSig t ga => Sys2Proof.Machine.execTokSig t ga s
  | .tokWaitt t ga => Sys2Proof.Machine.execTokWaitt t ga s
  | .ldx sz acq scope gd bl imm rb ra rd => Sys2Proof.Machine.execLdx sz acq scope gd bl imm rb ra rd s
  | .stx sz rel scope gd imm rb ra rd => Sys2Proof.Machine.execStx sz rel scope gd imm rb ra rd s
  | .atom op dword ord scope gd imm rc rb ra rd => Sys2Proof.Machine.execAtom op dword ord scope gd imm rc rb ra rd s
  | .ldstand slot acq scope gd imm rc rb ra => Sys2Proof.Machine.execLdstand slot acq scope gd imm rc rb ra s
  | .bfx sx rp w p gd bl rb ra rd => Sys2Proof.Machine.execBfx sx rp w p gd bl rb ra rd s
  | .bfi rp w p gd bl rb ra rd => Sys2Proof.Machine.execBfi rp w p gd bl rb ra rd s
  | .fsh left rn n gd bl rc rb ra rd => Sys2Proof.Machine.execFsh left rn n gd bl rc rb ra rd s
  | .loop gd imm ra => Sys2Proof.Machine.execLoop gd imm ra s
  | .setmode fields gd imm ra => Sys2Proof.Machine.execSetmode fields gd imm ra s
  | .li gd bl lit rd => Sys2Proof.Machine.execLi gd bl lit rd s
  | .lih gd bl lit rd => Sys2Proof.Machine.execLih gd bl lit rd s
  | .addl gd bl lit ra rd => Sys2Proof.Machine.execAddl gd bl lit ra rd s
  | .cmpl cond gd bl lit ra comb kt => Sys2Proof.Machine.execCmpl cond gd bl lit ra comb kt s
  | .alux op gd bl rb ra rd => Sys2Proof.Machine.execAlux op gd bl rb ra rd s
  | .cmpx cond gd bl rb ra comb kt => Sys2Proof.Machine.execCmpx cond gd bl rb ra comb kt s
  | .preemptWithdraw gang => Sys2Proof.Machine.execPreemptWithdraw gang s
  | .gangSave gang => Sys2Proof.Machine.execGangSave gang s
  | .gangRestore gang => Sys2Proof.Machine.execGangRestore gang s
  | .windowRecall granule write => Sys2Proof.Machine.execWindowRecall granule write s
  | .subscriptionPush slot => Sys2Proof.Machine.execSubscriptionPush slot s
  | .backInvalidation port line => Sys2Proof.Machine.execBackInvalidation port line s
  | .pageWalk ctx va => Sys2Proof.Machine.execPageWalk ctx va s
  | .vadd w => Sys2Proof.Machine.execVadd w s
  | .vsub w => Sys2Proof.Machine.execVsub w s
  | .vmul w => Sys2Proof.Machine.execVmul w s
  | .vmad w => Sys2Proof.Machine.execVmad w s
  | .vmin w => Sys2Proof.Machine.execVmin w s
  | .vmax w => Sys2Proof.Machine.execVmax w s
  | .vabs w => Sys2Proof.Machine.execVabs w s
  | .vneg w => Sys2Proof.Machine.execVneg w s
  | .vand w => Sys2Proof.Machine.execVand w s
  | .vor w => Sys2Proof.Machine.execVor w s
  | .vxor w => Sys2Proof.Machine.execVxor w s
  | .vnot w => Sys2Proof.Machine.execVnot w s
  | .vshl w => Sys2Proof.Machine.execVshl w s
  | .vshr w => Sys2Proof.Machine.execVshr w s
  | .vsar w => Sys2Proof.Machine.execVsar w s
  | .vcmp w => Sys2Proof.Machine.execVcmp w s
  | .vsel w => Sys2Proof.Machine.execVsel w s
  | .vcvt w => Sys2Proof.Machine.execVcvt w s
  | .vrcp w => Sys2Proof.Machine.execVrcp w s
  | .vrsq w => Sys2Proof.Machine.execVrsq w s
  | .vexp2 w => Sys2Proof.Machine.execVexp2 w s
  | .vlog2 w => Sys2Proof.Machine.execVlog2 w s
  | .vtanh w => Sys2Proof.Machine.execVtanh w s
  | .verf w => Sys2Proof.Machine.execVerf w s
  | .vsumr w => Sys2Proof.Machine.execVsumr w s
  | .vmaxr w => Sys2Proof.Machine.execVmaxr w s
  | .vscan w => Sys2Proof.Machine.execVscan w s
  | .vtopk w => Sys2Proof.Machine.execVtopk w s
  | .vtbl w => Sys2Proof.Machine.execVtbl w s
  | .vzip w => Sys2Proof.Machine.execVzip w s
  | .vunzip w => Sys2Proof.Machine.execVunzip w s
  | .vmov w => Sys2Proof.Machine.execVmov w s
  | .vpopc w => Sys2Proof.Machine.execVpopc w s
  | .vbfx w => Sys2Proof.Machine.execVbfx w s
  | .vfsh w => Sys2Proof.Machine.execVfsh w s
  | .viota w => Sys2Proof.Machine.execViota w s
  | .vclamp w => Sys2Proof.Machine.execVclamp w s
  | .vdot4 w => Sys2Proof.Machine.execVdot4 w s
  | .vscale w => Sys2Proof.Machine.execVscale w s
  | .vld w => Sys2Proof.Machine.execVld w s
  | .vldx w => Sys2Proof.Machine.execVldx w s
  | .vldb w => Sys2Proof.Machine.execVldb w s
  | .vldz w => Sys2Proof.Machine.execVldz w s
  | .vst w => Sys2Proof.Machine.execVst w s
  | .vstx w => Sys2Proof.Machine.execVstx w s
  | .vstz w => Sys2Proof.Machine.execVstz w s
  | .vshape w => Sys2Proof.Machine.execVshape w s
  | .vmpush w => Sys2Proof.Machine.execVmpush w s
  | .vminv w => Sys2Proof.Machine.execVminv w s
  | .vmpop w => Sys2Proof.Machine.execVmpop w s
  | .vskip w => Sys2Proof.Machine.execVskip w s
  | .vmode w => Sys2Proof.Machine.execVmode w s
  | .vsignal w => Sys2Proof.Machine.execVsignal w s
  | .vnop w => Sys2Proof.Machine.execVnop w s
  | .mma w => Sys2Proof.Machine.execMma w s
  | .mzero w => Sys2Proof.Machine.execMzero w s
  | .mlda w => Sys2Proof.Machine.execMlda w s
  | .msta w => Sys2Proof.Machine.execMsta w s
  | .madda w => Sys2Proof.Machine.execMadda w s
  | .mbias w => Sys2Proof.Machine.execMbias w s
  | .mxfr w => Sys2Proof.Machine.execMxfr w s
  | .msync w => Sys2Proof.Machine.execMsync w s
  | .channelTailReread c => Sys2Proof.Machine.execChannelTailReread c s
  | .linear c r => Sys2Proof.Machine.execLinear c r s
  | .tensor c r => Sys2Proof.Machine.execTensor c r s
  | .maskpack c r => Sys2Proof.Machine.execMaskpack c r s
  | .scatter c r => Sys2Proof.Machine.execScatter c r s
  | .multicast c r => Sys2Proof.Machine.execMulticast c r s
  | .reduce c r => Sys2Proof.Machine.execReduce c r s
  | .expand c r => Sys2Proof.Machine.execExpand c r s
  | .decrypt c r => Sys2Proof.Machine.execDecrypt c r s
  | .fill c r => Sys2Proof.Machine.execFill c r s
  | .note c r => Sys2Proof.Machine.execNote c r s
  | .xseqHalt w => Sys2Proof.Machine.execXseqHalt w s
  | .xseqLoop w => Sys2Proof.Machine.execXseqLoop w s
  | .endl w => Sys2Proof.Machine.execEndl w s
  | .setag w => Sys2Proof.Machine.execSetag w s
  | .move w => Sys2Proof.Machine.execMove w s
  | .cvt w => Sys2Proof.Machine.execCvt w s
  | .pack w => Sys2Proof.Machine.execPack w s
  | .unpk w => Sys2Proof.Machine.execUnpk w s
  | .trans w => Sys2Proof.Machine.execTrans w s
  | .tokw w => Sys2Proof.Machine.execTokw w s
  | .toks w => Sys2Proof.Machine.execToks w s
  | .seth w => Sys2Proof.Machine.execSeth w s
  | .addh w => Sys2Proof.Machine.execAddh w s
  | .brnz w => Sys2Proof.Machine.execBrnz w s
  | .smpHalt w => Sys2Proof.Machine.execSmpHalt w s
  | .ldl w => Sys2Proof.Machine.execLdl w s
  | .scl w => Sys2Proof.Machine.execScl w s
  | .pen w => Sys2Proof.Machine.execPen w s
  | .msk w => Sys2Proof.Machine.execMsk w s
  | .topk w => Sys2Proof.Machine.execTopk w s
  | .topp w => Sys2Proof.Machine.execTopp w s
  | .minp w => Sys2Proof.Machine.execMinp w s
  | .smx w => Sys2Proof.Machine.execSmx w s
  | .cum w => Sys2Proof.Machine.execCum w s
  | .rnd w => Sys2Proof.Machine.execRnd w s
  | .pick w => Sys2Proof.Machine.execPick w s
  | .argm w => Sys2Proof.Machine.execArgm w s
  | .emit w => Sys2Proof.Machine.execEmit w s
  | .acc w => Sys2Proof.Machine.execAcc w s
  | .res w => Sys2Proof.Machine.execRes w s
  | .conf w => Sys2Proof.Machine.execConf w s
  | .mov w => Sys2Proof.Machine.execMov w s
  | .movi w => Sys2Proof.Machine.execMovi w s
  | .adds w => Sys2Proof.Machine.execAdds w s
  | .addsImmediate w => Sys2Proof.Machine.execAddsImmediate w s
  | .brc w => Sys2Proof.Machine.execBrc w s
  | .feSgdStep cluster ctx region => Sys2Proof.Machine.execFeSgdStep cluster ctx region s
  | .kvcCommit cluster => Sys2Proof.Machine.execKvcCommit cluster s
  | .cacheWalkerRange die => Sys2Proof.Machine.execCacheWalkerRange die s
  | .submitRoot ctx root => Sys2Proof.Machine.execSubmitRoot ctx root s
  | .abort ctx => Sys2Proof.Machine.execAbort ctx s
  | .graphHeaderRead ctx => Sys2Proof.Machine.execGraphHeaderRead ctx s
  | .nodeDescriptorRead graph => Sys2Proof.Machine.execNodeDescriptorRead graph s
  | .eventSet e value => Sys2Proof.Machine.execEventSet e value s
  | .eventAdd e value => Sys2Proof.Machine.execEventAdd e value s
  | .nodeEnterReady node => Sys2Proof.Machine.execNodeEnterReady node s
  | .placementHold part => Sys2Proof.Machine.execPlacementHold part s
  | .preemptRequest node => Sys2Proof.Machine.execPreemptRequest node s
  | .conditionalNode node => Sys2Proof.Machine.execConditionalNode node s
  | .hostSignalNode node => Sys2Proof.Machine.execHostSignalNode node s
  | .joinNode node => Sys2Proof.Machine.execJoinNode node s
  | .bootGo core => Sys2Proof.Machine.execBootGo core s
  | .coalescerTailPoll slot => Sys2Proof.Machine.execCoalescerTailPoll slot s
  | .coalescerEmit slot => Sys2Proof.Machine.execCoalescerEmit slot s
  | .budgetPublish die => Sys2Proof.Machine.execBudgetPublish die s
  | .tlbinv value => Sys2Proof.Machine.execTlbinv value s
  | .shedsel value => Sys2Proof.Machine.execShedsel value s
  | .drvaccWrite high value => Sys2Proof.Machine.execDrvaccWrite high value s
  | .contextValidWrite ctx value => Sys2Proof.Machine.execContextValidWrite ctx value s
  | .capWrite value => Sys2Proof.Machine.execCapWrite value s
  | .registerWrite off size value => Sys2Proof.Machine.execRegisterWrite off size value s
  | .engineStallDetected unit => Sys2Proof.Machine.execEngineStallDetected unit s
  | .portDead p => Sys2Proof.Machine.execPortDead p s
  | .kill p => Sys2Proof.Machine.execKill p s
  | .portRetrain p => Sys2Proof.Machine.execPortRetrain p s
  | .admitPort p => Sys2Proof.Machine.execAdmitPort p s
  | .validate w => Sys2Proof.Machine.execValidate w s
  | .addCapacityEvent p extents => Sys2Proof.Machine.execAddCapacityEvent p extents s
  | .releaseRequest p e => Sys2Proof.Machine.execReleaseRequest p e s
  | .accept p e => Sys2Proof.Machine.execAccept p e s
  | .reject p e => Sys2Proof.Machine.execReject p e s
  | .release p e => Sys2Proof.Machine.execRelease p e s
  | .reservedOpcode u => Sys2Proof.Machine.execReservedOpcode u s
  | .xseqReservedOpcode w => Sys2Proof.Machine.execXseqReservedOpcode w s
  | .smpReservedOpcode w => Sys2Proof.Machine.execSmpReservedOpcode w s
  | .treeInstall tree block => Sys2Proof.Machine.execTreeInstall tree block s
  | .tdispRequest r => Sys2Proof.Machine.execTdispRequest r s
  | .p0Reached cluster => Sys2Proof.Machine.execP0Reached cluster s
  | .storeAcknowledgement entry => Sys2Proof.Machine.execStoreAcknowledgement entry s
  | .softErrorCorrected die => Sys2Proof.Machine.execSoftErrorCorrected die s
  | .sramErrorPoisoned place => Sys2Proof.Machine.execSramErrorPoisoned place s
  | .join => Sys2Proof.Machine.execJoin s
  | .mark => Sys2Proof.Machine.execMark s
  | .yield => Sys2Proof.Machine.execYield s
  | .halt => Sys2Proof.Machine.execHalt s
  | .nop => Sys2Proof.Machine.execNop s
  | .eret => Sys2Proof.Machine.execEret s
  | .pendingFaultTaken => Sys2Proof.Machine.execPendingFaultTaken s
  | .fifoStall => Sys2Proof.Machine.execFifoStall s
  | .stopTokenTimeout => Sys2Proof.Machine.execStopTokenTimeout s
  | .preemptionStop => Sys2Proof.Machine.execPreemptionStop s
  | .coreFinish => Sys2Proof.Machine.execCoreFinish s
  | .sramUe => Sys2Proof.Machine.execSramUe s
  | .latchFill => Sys2Proof.Machine.execLatchFill s
  | .transformRunStart => Sys2Proof.Machine.execTransformRunStart s
  | .samplerStart => Sys2Proof.Machine.execSamplerStart s
  | .pixLookupRequest => Sys2Proof.Machine.execPixLookupRequest s
  | .pixInsertRequest => Sys2Proof.Machine.execPixInsertRequest s
  | .pixRefRequest => Sys2Proof.Machine.execPixRefRequest s
  | .pixUnrefRequest => Sys2Proof.Machine.execPixUnrefRequest s
  | .pixEvictRequest => Sys2Proof.Machine.execPixEvictRequest s
  | .umeCfgRequest => Sys2Proof.Machine.execUmeCfgRequest s
  | .umePostRequest => Sys2Proof.Machine.execUmePostRequest s
  | .umeRoundRequest => Sys2Proof.Machine.execUmeRoundRequest s
  | .umeDirtyRequest => Sys2Proof.Machine.execUmeDirtyRequest s
  | .umeResetRequest => Sys2Proof.Machine.execUmeResetRequest s
  | .feInvRequest => Sys2Proof.Machine.execFeInvRequest s
  | .feStatRequest => Sys2Proof.Machine.execFeStatRequest s
  | .feSettRequest => Sys2Proof.Machine.execFeSettRequest s
  | .nodePlacement => Sys2Proof.Machine.execNodePlacement s
  | .powerUp => Sys2Proof.Machine.execPowerUp s
  | .coldReset => Sys2Proof.Machine.execColdReset s
  | .functionLevelReset => Sys2Proof.Machine.execFunctionLevelReset s
  | .hotReset => Sys2Proof.Machine.execHotReset s
  | .loadModel => Sys2Proof.Machine.execLoadModel s
  | .extend => Sys2Proof.Machine.execExtend s
  | .readMeas => Sys2Proof.Machine.execReadMeas s
  | .slotState => Sys2Proof.Machine.execSlotState s
  | .clearSlot => Sys2Proof.Machine.execClearSlot s
  | .getVersion => Sys2Proof.Machine.execGetVersion s
  | .getCapabilities => Sys2Proof.Machine.execGetCapabilities s
  | .negotiateAlgorithms => Sys2Proof.Machine.execNegotiateAlgorithms s
  | .getDigests => Sys2Proof.Machine.execGetDigests s
  | .getCertificate => Sys2Proof.Machine.execGetCertificate s
  | .challenge => Sys2Proof.Machine.execChallenge s
  | .getMeasurements => Sys2Proof.Machine.execGetMeasurements s
  | .keyExchange => Sys2Proof.Machine.execKeyExchange s
  | .finish => Sys2Proof.Machine.execFinish s
  | .endSession => Sys2Proof.Machine.execEndSession s
  | .ideKm => Sys2Proof.Machine.execIdeKm s
  | .setKey => Sys2Proof.Machine.execSetKey s
  | .powerLoss => Sys2Proof.Machine.execPowerLoss s
  | .loadReturn => Sys2Proof.Machine.execLoadReturn s

end Sys2Proof.Machine
end

