-- ==== Sys2Proof/Machine/Step.lean ====
section
/-!
DEFINITION. One step of the device: the next mover performs its instruction.
-/
namespace Sys2Proof.Machine

/-- A mover acts: it performs the instruction it stands at, or its move is complete as prepared. -/
def act (a : Agent) (s : State) : Host.Outcome State Fault Refusal :=
  match prepare a s with
  | (s', some i) => exec i s'
  | (s', none) => .next s'

/-- One step. With power off only POWER_UP moves (R426). -/
def step (s : State) : Host.Outcome State Fault Refusal :=
  let m := nextMover s
  if m.2.powered || powersUp m.1 then act m.1 m.2 else .fault .poweredOff

/-- The core that `withFetchWord` sets running: core 0 in user mode at control-memory address 0. -/
def fetchCore (k : Core) (nbits w : Nat) : Core :=
  { k with
    cmem := k.cmem.write 0 (leBytes 12 (w % 2 ^ nbits)) false,
    rg := { k.rg with pc := 0, sup := false, status := .running, run := [], loops := [] },
    pend := [] }

/-- The state with an instruction stored where the next step fetches it: control memory of core 0, whose sequencer is the
next mover (log entry 13). -/
def State.withFetchWord (s : State) (nbits w : Nat) : State :=
  { s.updCore 0 (fun k => fetchCore k nbits w) with agenda := [.seq 0], powered := true }

end Sys2Proof.Machine
end

