-- ==== Sys2Proof/Safety.lean ====
section
/-!
DEFINITION. What counts as a safe step, and the words in which the statements are written: the conditions that the spec
puts before an instruction acts, and tables that give, instruction by instruction, the effect a rule states.
-/
namespace Sys2Proof.Machine

/-- The outcome is a next state. -/
def completes (o : Host.Outcome State Fault Refusal) : Prop := ∃ t, o = .next t

/-- A state from which the machine runs on: its next step completes. -/
def Safe (s : State) : Prop := completes (step s)

/-! ### The frame of a sequencer instruction (R127, R129) -/

/-- What R127 and R129 look at before an instruction acts: its length in bytes, boost level, the registers that it names and
its guard. -/
structure SeqForm where
  len  : Nat
  bl   : BitVec 2
  regs : List Reg
  gd   : Guard

/-- The unguarded case (R129). -/
def always : Guard := ⟨0, false⟩

/-- The form of an instruction that is neither guarded nor boosted. -/
def plainForm (len : Nat) (regs : List Reg) : SeqForm := ⟨len, 0, regs, always⟩

/-- No boost level in supervisor mode (R40), and every register named is declared (R49). -/
def SeqForm.passes (f : SeqForm) (s : State) : Bool :=
  (!s.core.rg.sup || decide (f.bl = 0)) && (s.core.rg.sup || f.regs.all (regDeclared s.core.decl))

/-- The guard predicate as the instruction reads it (R38, R144). -/
def SeqForm.pred (f : SeqForm) (s : State) : PBit := readK s.core f.bl.toNat f.gd.kg

/-- The checks pass, and the guard is clean and true. -/
def SeqForm.runs (f : SeqForm) (s : State) : Bool :=
  f.passes s && !(f.pred s).bad && ((f.pred s).val != f.gd.kn)

/-- The checks pass, and the guard is clean and false. -/
def SeqForm.skips (f : SeqForm) (s : State) : Bool :=
  f.passes s && !(f.pred s).bad && ((f.pred s).val == f.gd.kn)

/-- The PC stands under no loop record: supervisor mode, or an empty loop stack (R34, R166). -/
def unlooped (s : State) : Prop := s.core.rg.sup = true ∨ s.core.rg.loops = []

/-- The state with the registers of the current core replaced and nothing else changed. -/
def onlyRegs (s t : State) : Prop := t = s.updRg fun _ => t.core.rg

/-- The instructions that R129 guards, with their forms. -/
def guardedForm : Instr → Option SeqForm
  | .alu _ gd rb ra rd => some ⟨4, 0, [rd, ra, rb], gd⟩
  | .cmp _ gd rb ra _ _ => some ⟨4, 0, [ra, rb], gd⟩
  | .alux _ gd bl rb ra rd => some ⟨8, bl, [rd, ra, rb], gd⟩
  | .cmpx _ gd bl rb ra _ _ => some ⟨8, bl, [ra, rb], gd⟩
  | .bfx _ _ _ _ gd bl rb ra rd => some ⟨8, bl, [rd, ra, rb], gd⟩
  | .bfi _ _ _ gd bl rb ra rd => some ⟨8, bl, [rd, ra, rb], gd⟩
  | .fsh _ _ _ gd bl rc rb ra rd => some ⟨8, bl, [rd, ra, rb, rc], gd⟩
  | .ldx _ _ _ gd bl _ rb ra rd => some ⟨8, bl, [rd, ra, rb], gd⟩
  | .stx _ _ _ gd _ rb ra rd => some ⟨8, 0, [rd, ra, rb], gd⟩
  | .atom _ _ _ _ gd _ rc rb ra rd => some ⟨8, 0, [rd, ra, rb, rc], gd⟩
  | .ldstand _ _ _ gd _ rc rb ra => some ⟨8, 0, [ra, rb, rc], gd⟩
  | .loop gd _ ra => some ⟨8, 0, [ra], gd⟩
  | .setmode _ gd _ ra => some ⟨8, 0, [ra], gd⟩
  | .li gd bl _ rd => some ⟨12, bl, [rd], gd⟩
  | .lih gd bl _ rd => some ⟨12, bl, [rd], gd⟩
  | .addl gd bl _ ra rd => some ⟨12, bl, [rd, ra], gd⟩
  | .cmpl _ gd bl _ ra _ _ => some ⟨12, bl, [ra], gd⟩
  | _ => none

/-! ### Integer operations (R145 to R154) -/

/-- A function of one register, poisoned as its source is (R144). -/
def lift1 (f : Word → Word) (a : PReg) : PReg := ⟨f a.val, a.bad⟩

/-- A function of two registers, poisoned if either is (R144). -/
def lift2 (f : Word → Word → Word) (a b : PReg) : PReg := ⟨f a.val b.val, a.bad || b.bad⟩

/-- An instruction that writes one register: its form, its destination, what it writes. -/
structure RegOp where
  form  : SeqForm
  rd    : Reg
  value : State → PReg

/-- The position of BFX and BFI: the field P, or g[rb][5:0] (R153). -/
def fieldAt (bl : BitVec 2) (rp : Bool) (p : BitVec 6) (rb : Reg) (s : State) : PReg :=
  if rp then lift1 (fun b => b &&& 63) (readG s.core bl.toNat rb) else constReg (zext64 p)

/-- The integer instructions that write a register (R145 to R150, R153, R154). -/
def regOp : Instr → Option RegOp
  | .alu op gd rb ra rd => some ⟨⟨4, 0, [rd, ra, rb], gd⟩, rd, fun s => lift2 (aluResult op) (s.g ra) (s.g rb)⟩
  | .alux op gd bl rb ra rd => some ⟨⟨8, bl, [rd, ra, rb], gd⟩, rd, fun s =>
      lift2 (aluResult op) (readG s.core bl.toNat ra) (readG s.core bl.toNat rb)⟩
  | .addi imm ra rd => some ⟨plainForm 4 [rd, ra], rd, fun s => lift1 (· + imm.signExtend 64) (s.g ra)⟩
  | .andi imm ra rd => some ⟨plainForm 4 [rd, ra], rd, fun s => lift1 (· &&& imm.signExtend 64) (s.g ra)⟩
  | .ori imm ra rd => some ⟨plainForm 4 [rd, ra], rd, fun s => lift1 (· ||| imm.signExtend 64) (s.g ra)⟩
  | .xori imm ra rd => some ⟨plainForm 4 [rd, ra], rd, fun s => lift1 (· ^^^ imm.signExtend 64) (s.g ra)⟩
  | .shi kind n ra rd => some ⟨plainForm 4 [rd, ra], rd, fun s => lift1 (shiftBy kind · n.toNat) (s.g ra)⟩
  | .li gd bl lit rd => some ⟨⟨12, bl, [rd], gd⟩, rd, fun _ => constReg (lit.signExtend 64)⟩
  | .lih gd bl lit rd => some ⟨⟨12, bl, [rd], gd⟩, rd, fun s =>
      lift1 (fun d => lit ++ d.setWidth 32) (readG s.core bl.toNat rd)⟩
  | .addl gd bl lit ra rd => some ⟨⟨12, bl, [rd, ra], gd⟩, rd, fun s =>
      lift1 (· + lit.signExtend 64) (readG s.core bl.toNat ra)⟩
  | .sel gd rb ra rd => some ⟨plainForm 4 [rd, ra, rb], rd, fun s =>
      lift2 (fun x _ => x) (if (s.k gd.kg).val != gd.kn then s.g ra else s.g rb) ⟨0, (s.k gd.kg).bad⟩⟩
  | .bfx sx rp w p gd bl rb ra rd => some ⟨⟨8, bl, [rd, ra, rb], gd⟩, rd, fun s =>
      lift2 (fun a q => bfxResult sx w.toNat q.toNat a) (readG s.core bl.toNat ra) (fieldAt bl rp p rb s)⟩
  | .bfi rp w p gd bl rb ra rd => some ⟨⟨8, bl, [rd, ra, rb], gd⟩, rd, fun s =>
      let a := readG s.core bl.toNat ra
      let d := readG s.core bl.toNat rd
      lift2 (fun x q => bfiResult w.toNat q.toNat x d.val) ⟨a.val, a.bad || d.bad⟩ (fieldAt bl rp p rb s)⟩
  | .fsh left rn n gd bl rc rb ra rd => some ⟨⟨8, bl, [rd, ra, rb, rc], gd⟩, rd, fun s =>
      let a := readG s.core bl.toNat ra
      let b := readG s.core bl.toNat rb
      lift2 (fun x q => fshResult left q.toNat x b.val) ⟨a.val, a.bad || b.bad⟩ (fieldAt bl rn n rc s)⟩
  | _ => none

/-- A comparison: its form, target, condition, combine mode and operands (R151, R152). -/
structure CmpOp where
  form : SeqForm
  kt   : BitVec 3
  cond : Cond
  comb : Combine
  lhs  : State → PReg
  rhs  : State → PReg

/-- The four comparisons (R151). -/
def cmpOp : Instr → Option CmpOp
  | .cmp cond gd rb ra comb kt => some ⟨⟨4, 0, [ra, rb], gd⟩, kt, cond, comb, (·.g ra), (·.g rb)⟩
  | .cmpi cond imm ra kt =>
      some ⟨plainForm 4 [ra], kt, cond, .set, (·.g ra), fun _ => constReg (imm.signExtend 64)⟩
  | .cmpx cond gd bl rb ra comb kt => some ⟨⟨8, bl, [ra, rb], gd⟩, kt, cond, comb,
      fun s => readG s.core bl.toNat ra, fun s => readG s.core bl.toNat rb⟩
  | .cmpl cond gd bl lit ra comb kt => some ⟨⟨12, bl, [ra], gd⟩, kt, cond, comb,
      fun s => readG s.core bl.toNat ra, fun _ => constReg (lit.signExtend 64)⟩
  | _ => none

/-- What a comparison writes: c combined with the old predicate; the old value and its poison enter in modes 1 to 3 alone
(R152). -/
def CmpOp.value (c : CmpOp) (s : State) : PBit :=
  let old := readK s.core c.form.bl.toNat c.kt
  let r := condHolds c.cond (c.lhs s).val (c.rhs s).val
  let bad := (c.lhs s).bad || (c.rhs s).bad
  match c.comb with
  | .set => ⟨r, bad⟩
  | .and => ⟨old.val && r, bad || old.bad⟩
  | .or => ⟨old.val || r, bad || old.bad⟩
  | .andn => ⟨old.val && !r, bad || old.bad⟩

/-! ### Loads, stores and atomics (R155 to R159, R190 to R192) -/

/-- A load: its form, size, the registers of its address, its address, its destination. -/
structure LoadOp where
  form  : SeqForm
  sz    : LoadSize
  bases : List Reg
  ea    : State → Word
  rd    : Reg

/-- LD and LDX (R155, R156). -/
def loadOp : Instr → Option LoadOp
  | .ld sz off ra rd => some ⟨plainForm 4 [rd, ra], sz, [ra],
      fun s => (s.g ra).val + off.signExtend 64 * BitVec.ofNat 64 (loadWidth sz), rd⟩
  | .ldx sz _ _ gd bl imm rb ra rd => some ⟨⟨8, bl, [rd, ra, rb], gd⟩, sz, [ra, rb],
      fun s => (readG s.core bl.toNat ra).val + (readG s.core bl.toNat rb).val + imm.signExtend 64, rd⟩
  | _ => none

/-- A store: its form, size, the scope at which it releases if it does, the registers of its address, its address, its data. -/
structure StoreOp where
  form  : SeqForm
  sz    : StoreSize
  rel   : Option Scope
  bases : List Reg
  ea    : State → Word
  data  : Reg

/-- ST and STX (R155, R156). -/
def storeOp : Instr → Option StoreOp
  | .st sz off ra rs => some ⟨plainForm 4 [rs, ra], sz, none, [ra],
      fun s => (s.g ra).val + off.signExtend 64 * BitVec.ofNat 64 (storeWidth sz), rs⟩
  | .stx sz rel scope gd imm rb ra rd => some ⟨⟨8, 0, [rd, ra, rb], gd⟩, sz, if rel then some scope else none, [ra, rb],
      fun s => (s.g ra).val + (s.g rb).val + imm.signExtend 64, rd⟩
  | _ => none

/-- Registers are clean as an instruction at a boost level reads them (R94). -/
def cleanAt (s : State) (lvl : Nat) (rs : List Reg) : Prop := ∀ r ∈ rs, (readG s.core lvl r).bad = false

/-- A range of the declared scratchpad of the current core, aligned to its length (R49, R157). -/
def inScratch (s : State) (ea : Word) (n : Nat) : Prop :=
  ea.toNat < 0x100000 ∧ ea.toNat % n = 0 ∧ ea.toNat + n ≤ s.core.decl.stash

/-- An aligned global address that no window of the current core mirrors (R52, R56, R157). -/
def inGlobal (s : State) (ea : Word) (n : Nat) : Prop :=
  0x100000 ≤ ea.toNat ∧ ea.toNat < 2 ^ 52 ∧ ea.toNat % n = 0 ∧ winOfGlobal s.core ea.toNat = none

/-- The fault of steps 1 to 3 of R157 for an access of a core of `w` bytes: an address that does not decode, a misaligned one, a
stash-local one beyond the scratchpad in no window. -/
def addressFault (k : Core) (ea : Word) (w : Nat) : Option Cause :=
  if 2 ^ 52 ≤ ea.toNat then some cXlate
  else if ea.toNat % w ≠ 0 then some cAlign
  else if ea.toNat < 0x100000 ∧ k.decl.stash < ea.toNat + w ∧ winOfStash k ea.toNat = none then some cStashBounds
  else none

/-- An aligned address of `w` bytes that the current core meets at stash address `a` in its window `n`: a stash-local one, or a
global one that the window mirrors (R56, R58). -/
def inWindow (s : State) (ea : Word) (w n : Nat) (d : WinDesc) (a : Nat) : Prop :=
  ea.toNat % w = 0 ∧ s.core.decl.stash < a + w ∧ winOfStash s.core a = some (n, d) ∧
    (ea.toNat < 0x100000 ∧ ea.toNat = a ∨ 0x100000 ≤ ea.toNat ∧ ea.toNat < 2 ^ 52 ∧ winOfGlobal s.core ea.toNat = some (n, d, a))

/-- A fault of the current core at an address, by a walk that began before it, with the state it leaves (R157, R451). -/
def faultsAt (s : State) (c : Cause) (ea : Word) (walked : Option (Fin 4)) : State :=
  takeTrap { cause := c, addr := ea, walked := walked } (countTrap { cause := c, addr := ea, walked := walked } s)

/-- The state in which an access releases: after the core's earlier stores, as its scope orders them (R74, R78, R92). -/
def released (rel : Option Scope) (s : State) : State :=
  match rel with
  | some sc => releaseAt sc s.me s
  | none => s

/-- The g registers that entries of an IN or OUT table name (R319). -/
def placeRegs (es : List (BitVec 32)) : List Reg := (es.filter fun e => !e.getLsbD 31).map fun e => e.extractLsb' 0 5

/-- A byte of a number, the lowest being byte 0 (R6). -/
def byteOf (v : Nat) (i : Nat) : Byte := BitVec.ofNat 8 (v / 256 ^ i)

/-! ### Control flow (R34 to R41, R160 to R165) -/

/-- A branch target that the current mode may reach (R50, R163). -/
def targetOk (s : State) (t : Int) : Prop := 0 ≤ t ∧ t < 0x10000 ∧ (s.core.rg.sup = true ∨ t < 0xE000)

/-- The last level-1 shadow of a destination: the one that a commit leaves in the register (R39). -/
def lastShadow (s : State) (dst : ShadowDst) : Option Shadow := shadowAt s.core.rg.boost.reverse dst 1

/-- The shadow levels after a commit: level 1 is gone, levels 2 and 3 have moved down one (R39). -/
def lowered (b : List Shadow) : List Shadow :=
  (b.filter fun x => decide (x.lvl ≠ 1)).map fun x => { x with lvl := x.lvl - 1 }

/-- The state with the innermost record replaced and the PC at an address, as a record that watches it leaves both (R34). -/
def atRecord (s : State) (r : LoopRec) (rest : List LoopRec) (pc : BitVec 16) (bound : Bool) : State :=
  s.updRg fun x => { x with loops := r :: rest, pc := pc, bound := bound }

/-! ### System registers (R205 to R208) -/

/-- The reads that a write of a register may change besides its own: WINSEL turns WINDESC0 to 3 to another window. -/
def sysLinked (w q : SysReg) : Bool :=
  decide (w = q) || (decide (w = .winsel) && (decide (q = .windesc0) || decide (q = .windesc1) || decide (q = .windesc2) ||
    decide (q = .windesc3)))

/-- What a register reads after a write of `v` where it read `old` (R9, R79, R96, R118, R205, R206, R208, R458); RELQUERY's
counts are those of a round whose tracking is defined; WINDESC2 has a statement of its own. -/
def sysAfter (s : State) (r : SysReg) (old v : Word) : Word :=
  match r with
  | .mode => modeWrite old v
  | .werr => if v.getLsbD 63 then old &&& 0x7FFFFFFFFFFFFFFF else old
  | .trapvec => if v.toNat % 4 = 0 ∧ 0xE000 ≤ v.toNat ∧ v.toNat ≤ 0xFFFC then v else old
  | .trapcause => v &&& 0x3FFFFFFFF
  | .relquery => relqueryWrite old v
  | .winsel => v &&& 15
  | .windesc0 | .windesc1 | .windesc3 => if (selectedWin s.core).valid then old else v
  | .srseed | .trappc | .trapaddr | .sscr0 | .sscr1 | .sscr2 | .sscr3 | .engarea => v
  | .coreId | .gangId | .ctxId | .nodeArg | .dcc | .liter | .ldisc | .mxmiss | .boostinfo | .windesc2 => old

/-! ### Requests (R171 to R175) -/

/-- A page-1 request: engine, sub-operation, object, nores, argument registers. -/
structure ReqOp where
  eng   : EngineId
  sub   : BitVec 4
  obj   : BitVec 6
  nores : Bool
  ga    : Reg
  gb    : Reg

/-- The page-1 requests (R171, R197 to R199, R202); an argument that a request does not take is g0. -/
def reqOp : Instr → Option ReqOp
  | .pixLookup t n gb ga => some ⟨.pix, 0, t.setWidth 6, n, ga, gb⟩
  | .pixInsert t n ga => some ⟨.pix, 1, t.setWidth 6, n, ga, 0⟩
  | .pixRef t n ga => some ⟨.pix, 2, t.setWidth 6, n, ga, 0⟩
  | .pixUnref t n ga => some ⟨.pix, 3, t.setWidth 6, n, ga, 0⟩
  | .pixEvict t n gb ga => some ⟨.pix, 4, t.setWidth 6, n, ga, gb⟩
  | .umeCfg c n ga => some ⟨.ume, 0, c, n, ga, 0⟩
  | .umePost c n gb ga => some ⟨.ume, 1, c, n, ga, gb⟩
  | .umeRound c n ga => some ⟨.ume, 2, c, n, ga, 0⟩
  | .umeDirty c n gb ga => some ⟨.ume, 3, c, n, ga, gb⟩
  | .umeReset c n => some ⟨.ume, 4, c, n, 0, 0⟩
  | .smpr c n ga => some ⟨.sampler, 0, c, n, ga, 0⟩
  | .fitcInv r n => some ⟨.fe, 0, r.setWidth 6, n, 0, 0⟩
  | .fitcStat r n => some ⟨.fe, 1, r.setWidth 6, n, 0, 0⟩
  | .fitcSett r n gb ga => some ⟨.fe, 2, r.setWidth 6, n, ga, gb⟩
  | _ => none

/-- The code base of an engine's unassigned objects in TRAPADDR (R173). -/
def objectBase : EngineId → Nat
  | .sampler => 0x200
  | .ume => 0x300
  | .pix => 0x400
  | .fe => 0x500

/-- The requests of a core that hold slots of an engine (R172). -/
def slotsOf (k : Core) (e : EngineId) : Nat := k.reqs.countP fun r => decide (r.eng = e)

/-- The state after a core's earlier stores and a new request behind its earlier ones (R172, R76). -/
def issued (e : EngineId) (obj : BitVec 6) (target : Nat) (sub : BitVec 4) (nores : Bool) (a b : PReg) (s : State) : State :=
  let u := drainStores s.me s
  { u.upd (fun k => { k with reqs := k.reqs ++ [⟨e, obj, target, sub, a, b, nores, u.order, none⟩] }) with
    order := u.order + 1 }

/-! ### Barriers (R180 to R183) -/

/-- A barrier after an arrival (R182): the count saturates at 65,535 with error status 0x08, and the first error since the
last WAIT is kept. -/
def arrived (x : Barrier) (inc : Nat) (err : Bool) (status : Byte) (source : Nat) : Barrier :=
  let full := decide (65535 < x.arrived.toNat + inc)
  let y := { x with arrived := if full then 65535 else BitVec.ofNat 16 (x.arrived.toNat + inc) }
  if (err || full) && !x.err then
    { y with err := true, estat := if full then 0x08 else status, esrc := BitVec.ofNat 10 source }
  else y

/-! ### Vector words (R20 to R31, R215 to R244) -/

/-- An entry stands at the head of the focused queue and may begin (R21, R23, R24). -/
def headReady (s : State) (e : VEntry) : Prop :=
  s.queue.entries.head? = some e ∧ mayBegin s.core s.focus.vq e = true

/-- The entry is skipped (R31), or its word is masked and the top mask is all zero (R30). -/
def passedOver (s : State) (e : VEntry) : Bool :=
  skipped s.queue e || ((wordOf e.word).2.pm && decide (topMask s.queue = 0))

/-- The enabled elements of an entry (R28, R30). -/
def enables (s : State) (e : VEntry) : BitVec 4096 :=
  if (wordOf e.word).2.pm then topMask s.queue else BitVec.allOnes 4096

/-- The element size of A: VCVT names it in its aux field (R230). -/
def sourceHalf (e : VEntry) : Nat :=
  halfBytes (if (wordOf e.word).1 = 0x11 then auxBits (wordOf e.word).2 0 4 else (wordOf e.word).2.type.toNat)

/-- The rows of A, then of B, of a compute word, and the engines after its pops (R216, R220). -/
def sourcesOf (e : VEntry) (g : Engines) : R (Engines × List Row × List Row) := do
  let f := computeForm (wordOf e.word).1
  let w := (wordOf e.word).2
  let (g, a, _) ← source f.a w.a (sourceHalf e) e.shape.rows e.cap.idx g
  let (g, b, _) ← source f.b w.b (halfBytes w.type.toNat) e.shape.rows e.cap.idx g
  .ok (g, a, b)

/-- What a compute word works on, given its sources: X is read under D's rows (R220). -/
def inputOf (e : VEntry) (en : BitVec 4096) (g : Engines) (a b : List Row) : VIn :=
  let p := wordOf e.word
  ⟨p.2, p.1, e.cap, e.shape, en, a, b,
    if (computeForm p.1).x = .read then (List.range e.shape.rows).map fun i => vRow g (xReg p.2) (xRow p.2 i) else [], g⟩

/-- D can take a result: a register, or a FIFO with room (R26). -/
def roomFor (d : Desc) (g : Engines) : Prop := d.kind = false ∨ (fifoGet g d.index.toNat).length < 4

/-- The words that work element by element: what an element of D becomes from its number and the codes of a, b and x (R221
to R230). -/
def elementFn : Instr → Option (VIn → Nat → Nat → Nat → Nat → Conv)
  | .vadd _ => some (arith2 0) | .vsub _ => some (arith2 1) | .vmul _ => some (arith2 2) | .vmad _ => some arith3
  | .vmin _ => some (minMax false) | .vmax _ => some (minMax true) | .vclamp _ => some clamp
  | .vabs _ => some (absNeg false) | .vneg _ => some (absNeg true)
  | .vand _ => some (bitwise 0) | .vor _ => some (bitwise 1) | .vxor _ => some (bitwise 2)
  | .vnot _ => some fun v _ a _ _ => plainCode (keepWidth v.t (2 ^ widthOf v.t - 1 - a))
  | .vmov _ => some fun v _ a _ _ => plainCode (keepWidth v.t a)
  | .vsel _ => some fun v e a b _ =>
      (plainCode (keepWidth v.t (if enabled (vget (BitVec.ofNat 3 (auxBits v.w 0 3)) v.eng.m) e then a else b))).orInv
        (snans v.t [a, b])
  | .vshl _ => some shiftLeft | .vshr _ => some shiftRight | .vsar _ => some shiftArith
  | .vpopc _ => some fun v _ a _ _ => plainCode (onesOf (widthOf v.t) a)
  | .vbfx _ => some fieldOf | .vfsh _ => some funnel
  | .viota _ => some fun v e _ _ _ => v.int ((v.w.aux.extractLsb' 0 32).toInt + (e : Int))
  | .vcvt _ => some vcvtCell | .vscale _ => some scaleCell
  | .vrcp _ => some (specialCell 0) | .vrsq _ => some (specialCell 1) | .vexp2 _ => some (specialCell 2)
  | .vlog2 _ => some (specialCell 3) | .vtanh _ => some (specialCell 4) | .verf _ => some (specialCell 5)
  | _ => none

/-- The words that work on rows, masks or groups of registers: what they give (R224, R231 to R237). -/
def rowFn : Instr → Option (VIn → R VOut)
  | .vcmp _ => some compareWords | .vdot4 _ => some dot4 | .vmaxr _ => some maxRow | .vtopk _ => some topK
  | .vsumr _ => some fun v => rowWise v fun l _ => sumOf v (l.map (·.2))
  | .vscan _ => some fun v => rowWise v fun l j =>
      let cs := (l.filter fun x => decide (x.1 ≤ j)).map (·.2)
      if auxBits v.w 0 1 = 0 then sumOf v cs else maxOf v cs
  | .vtbl _ => some tableWords | .vzip _ => some (zipWords true) | .vunzip _ => some (zipWords false)
  | _ => none

/-- The INV and the OVF of a result. -/
def invOf (c : Conv) : Bool := match c with
  | .ok _ i _ => i
  | .trap => false
def ovfOf (c : Conv) : Bool := match c with
  | .ok _ _ o => o
  | .trap => false

/-- What element c of row i of an element-wise word becomes. -/
def cellAt (f : VIn → Nat → Nat → Nat → Nat → Conv) (ha : Nat) (v : VIn) (i c : Nat) : Conv :=
  f v (i * v.sh.cols + c) (elemAt ha (rowAt v.a i).bits c) (elemAt (halfBytes v.t) (rowAt v.b i).bits c)
    (elemAt (halfBytes v.t) (rowAt v.x i).bits c)

/-- The block that an element-wise word writes: a row is poisoned as its sources are (R219). -/
def cellBlock (f : VIn → Nat → Nat → Nat → Nat → Conv) (ha : Nat) (v : VIn) : Block :=
  (List.range v.sh.rows).map fun i =>
    ((List.range v.sh.cols).map fun c =>
      if enabled v.en (i * v.sh.cols + c) then (cellAt f ha v i c).code else 0, v.badRow i)

/-- Some enabled element has a property. -/
def someCell (f : VIn → Nat → Nat → Nat → Nat → Conv) (ha : Nat) (v : VIn) (p : Conv → Bool) : Bool :=
  (List.range v.sh.rows).any fun i => (List.range v.sh.cols).any fun c =>
    enabled v.en (i * v.sh.cols + c) && p (cellAt f ha v i c)

/-- No slot of a core is active and none of its channels is at work: nothing marks or holds up reads of its stash (R80,
R84). -/
def Core.unwatched (k : Core) : Prop :=
  (∀ i : BitVec 4, (vget i k.slots).active = false) ∧ ∀ c : BitVec 3, chanBusy (vget c k.chans) = false

/-- The same of the current core. -/
def unwatched (s : State) : Prop := s.core.unwatched

/-- The bytes of a row that a load or store of rows touches: address, length, offset in the row's image; nothing for a row
without an address (R239, R244). -/
def rowPieces (op8 : Nat) (w : VWord) (e : VEntry) (en : BitVec 4096) (ix : Row) (i : Nat) : List (Word × Nat × Nat) :=
  match rowAddr op8 w e.cap ix i with
  | none => []
  | some (a, _) => (accesses (halfBytes w.type.toNat) e.shape.cols (i * e.shape.cols) en).map fun bn =>
      (a + BitVec.ofNat 64 bn.1, bn.2, bn.1)

/-- Every piece of every row lies in the declared scratchpad, aligned, under a clean index (R49, R157, R240). -/
def piecesOk (s : State) (op8 : Nat) (w : VWord) (e : VEntry) (en : BitVec 4096) (ix : Row) : Prop :=
  ∀ i < e.shape.rows, ∀ p ∈ rowPieces op8 w e en ix i,
    ((op8 = 0x41 ∨ op8 = 0x81) → ix.bad = false) ∧ inScratch s p.1 p.2.1

/-- The row that a load gives from the stash: the codes of the row's image, and its poison (R239, R240). -/
def loadedRow (m : Mem) (op8 : Nat) (w : VWord) (e : VEntry) (en : BitVec 4096) (ix : Row) (i : Nat) : List Nat × Bool :=
  let ps := rowPieces op8 w e en ix i
  (rowCodes w.type.toNat e.shape.cols
    ((ps.map fun p => leVal (m.bytes p.1.toNat p.2.1) * 2 ^ (8 * p.2.2)).sum),
   ps.any fun p => m.poisoned p.1.toNat p.2.1)

/-- The writes of a store word, in order: address, bytes, poison; neighbouring elements of a granule are one write (R93, R239,
R240). -/
def storedPieces (op8 : Nat) (w : VWord) (e : VEntry) (en : BitVec 4096) (ix : Row) (rows : List Row) :
    List (Nat × List Byte × Bool) :=
  (List.range e.shape.rows).flatMap fun i =>
    let r := rowAt rows i
    let img := storeImage w.type.toNat e.shape.cols (i * e.shape.cols) en w.a.kind r
    match rowAddr op8 w e.cap ix i with
    | none => []
    | some (a, _) => (joinAccesses a.toNat (accesses (halfBytes w.type.toNat) e.shape.cols (i * e.shape.cols) en)).map fun bn =>
        (a.toNat + bn.1, leBytes bn.2 (img.toNat / 2 ^ (8 * bn.1)), r.bad)

/-- Writes into a core's stash, in order (R58, R64). -/
def stashWrites (c : CoreId) (ps : List (Nat × List Byte × Bool)) (s : State) : State :=
  ps.foldl (fun s p => stashPut c p.1 p.2.1 p.2.2 s) s

/-- The zero-suppressed record at a stash address: its row image, its poison, the address behind it (R242). -/
def recordAt (m : Mem) (a : Nat) : Nat × Bool × Nat :=
  let mask := leVal (m.bytes a 8)
  let n := onesOf 64 mask
  (leVal (unpackBytes mask 64 (m.bytes (a + 8) n)), m.poisoned a 8 || m.poisoned (a + 8) n, a + 8 + n)

/-- The address of record i of a run of records. -/
def recordFrom (m : Mem) (a : Nat) : Nat → Nat
  | 0 => a
  | i + 1 => (recordAt m (recordFrom m a i)).2.2

/-- A write of a channel into a stash: one write for each granule that it touches. -/
def cutWrite (a : Nat) (bs : List Byte) (bad : Bool) : List (Nat × List Byte × Bool) :=
  (granuleParts a bs.length).map fun p => (a + p.1, (bs.drop p.1).take p.2, bad)

/-- A write of bytes at a stash address, cut at granules. -/
def granuleWrites (a : Nat) (bs : List Byte) (bad : Bool) : List (Nat × List Byte × Bool) :=
  (pieces a bs.length).map fun p => (p.1, (bs.drop (p.1 - a)).take p.2, bad)

/-- The writes of a run of zero-suppressed records (R242). -/
def recordPieces (a : Nat) : List (List Byte × Bool) → List (Nat × List Byte × Bool)
  | [] => []
  | (bs, bad) :: rest => granuleWrites a bs bad ++ recordPieces (a + bs.length) rest

/-! ### Matrix words (R254 to R270) -/

/-- A matrix word stands at the head of MXQ and may run but for its stamp: not halted, its latch full, no hazard (R23, R264). -/
def matrixReady (s : State) (e : MEntry) : Prop :=
  s.core.eng.mxq.head? = some e ∧ s.core.eng.mxHalted = false ∧ (needsLatch e.word = true → e.latch ≠ none) ∧
    hazardFree s.core e.cap.psn (matrixUse e.word) = true

/-- The state when the head of MXQ leaves it: an issue after its stamp counts in MXMISS and in the device's misses (R265). -/
def leavesMxq (s : State) (e : MEntry) (u : State) : State :=
  let v := u.updMxq fun _ => s.core.eng.mxq.tail
  if stampGate e s = .late then countMiss (v.updSys fun y => { y with mxmiss := y.mxmiss + 1 }) else v

/-- Row i that an MMA gives from its latch in formats fa and fb: 96 sums, with their flags, and its poison (R124, R259, R269). -/
def mmaRow (w : MWord) (fa fb : Nat) (ftz : Bool) (l : Latch) (g : Engines) (i : Nat) : (List Nat × Bool × Bool) × Bool :=
  let old := accGet g w.acc.toNat i
  let gs := List.range (mGroups w)
  let sa := gs.map fun k => if (aRowAddr w l.mem i).isNone then some 0 else scaleExp (scaleByte w l false fa i k).1
  (rowFlags ((List.range 96).map fun j => mmaCell ftz fa fb (aTerms w l.mem (halfBytes fa) i) sa
      (gs.map fun k => scaleExp (scaleByte w l true fb j k).1)
      ((List.range (mDepth w)).map fun k => bElem w l.mem (halfBytes fb) k j) (accElem old j)),
   old.bad || bPoison w l fb || aPoison w l fa i)

/-- The row of a word that adds a row of stash elements to each accumulator row (R260). -/
def addedRow (cap : Capture) (l : Latch) (fmt at_ : Nat) (old : AccRow) : (List Nat × Bool × Bool) × Bool :=
  let h := halfBytes fmt
  (addRow (modeFtz cap.mode) fmt ((List.range 96).map (stashElem l.mem at_ h)) old,
   old.bad || l.mem.poisoned at_ (rowBytes h 96))

/-- The stash ranges that a latch fill reads, for words whose formats are named (R257, R258, R260, R264). -/
def latchRanges (m : Mem) (i : Instr) : List (Nat × Nat) :=
  match i with
  | .mma w =>
    let sc := mXbase w + mMetaArea w
    (if w.gather then [(mIxva w, 192)] else []) ++ aRanges w m (halfBytes w.afmt.toNat) ++ bRanges w (halfBytes w.bfmt.toNat) ++
      metaRanges w m ++ (if w.gscale && takesScale w.afmt.toNat then aScaleRanges w m else []) ++
      (if w.gscale && takesScale w.bfmt.toNat then [(sc + 96 * mGroups w, 96 * mGroups w)] else [])
  | .mlda w => sourceRanges w 8
  | .madda w => sourceRanges w (halfBytes w.afmt.toNat)
  | .mbias w => [(mBbase w, rowBytes (halfBytes w.bfmt.toNat) 96)]
  | _ => []

/-- The formats of a word suit each other: named, of one class, one of them taking scales if scales are given, a clean index
vector (R255, R257, R268). -/
def latchLegal (m : Mem) (i : Instr) : Prop :=
  match i with
  | .mma w => w.afmt ≠ 15 ∧ w.bfmt ≠ 15 ∧ (w.afmt.toNat ≤ 8 ↔ w.bfmt.toNat ≤ 8) ∧
      (w.gscale = true → takesScale w.afmt.toNat = true ∨ takesScale w.bfmt.toNat = true) ∧
      (w.gather = true → m.poisoned (mIxva w) 192 = false)
  | _ => True

/-- The row that MSTA writes for accumulator row i: codes, flags, poison (R261). -/
def mstaRow (w : MWord) (cap : Capture) (m : Mem) (g : Engines) (i : Nat) : List Conv × Bool :=
  let rs := w.kg.getLsbD 3
  let old := accGet g w.acc.toNat i
  let sc := if rs then flushIn 0 (m.u32 (mXbase w + 4 * i)).toNat (modeFtz cap.mode) else .fin false 1 0
  ((List.range 96).map fun j => mstaCell w cap sc i j (accElem old j),
   old.bad || (rs && m.poisoned (mXbase w + 4 * i) 4))

/-! ### Copy records (R271 to R286) -/

/-- A channel of the current core stands at the start of a well-formed record (R141, R188). -/
def recordReady (s : State) (n : BitVec 3) (r : CopyRec) : Prop :=
  (vget n s.core.chans).state = .walk ∧ (vget n s.core.chans).resume = none ∧ recordOk r = true

/-- The state in which a record's moves begin: WMARK is 0 (R271). -/
def atStart (s : State) (n : BitVec 3) : State := updChan s.me n (fun ch => { ch with wmark := 0, resume := none }) s

/-- What a record will do, when its bytes lie in the stash: its checks (R275 to R283), its targets, its moves in order, its
RESULT; `sum` is the element type of REDUCE. -/
structure CopyPlan where
  chan    : BitVec 3
  rec_    : CopyRec
  legal   : Bool
  targets : Option (List CoreId)
  moves   : List Piece
  result  : Word
  sum     : Option Nat

/-- The plan of the kinds that move rows or elements, on the current core (R277 to R282). -/
def copyPlan (s : State) (i : Instr) : Option CopyPlan :=
  let k := s.core
  let c := s.me
  let m := k.stash
  let rows (r : CopyRec) (at_ : List (Int × Int)) : List Piece :=
    at_.flatMap fun x => cutRow (some x.1) (fun _ => 0) x.2 r.e0.toNat
  let src2 (r : CopyRec) (w : Nat) : Bool := regionOk k r.src.toInt [(r.e1.toNat, r.s1.toInt)] w
  let dst2 (r : CopyRec) (w : Nat) (red : Bool) : Bool :=
    regionOk k r.dst.toInt [(r.e1.toNat, r.d1.toInt)] w && !destRefused s c red (dstRows r w)
  let empty (r : CopyRec) : Bool := decide (r.e0.toNat = 0 ∨ r.e1.toNat = 0)
  match i with
  | .linear n r => some <|
    let e := r.e0.toNat
    if e = 0 then ⟨n, r, true, none, [], 0, none⟩
    else ⟨n, r, regionOk k r.src.toInt [] e && regionOk k r.dst.toInt [] e && !destRefused s c false [(r.dst.toInt, e)], none,
      cutRow (some r.src.toInt) (fun _ => 0) r.dst.toInt e, 0, none⟩
  | .tensor n r => some <|
    let ts := tensorDims r
    let esz := 2 ^ (fld r.ctl 0 2).toNat
    let ps := (tensorIdx ts).map (tensorPiece r ts esz)
    if ts.any fun t => decide (t.e = 0) then ⟨n, r, true, none, [], 0, none⟩
    else ⟨n, r, (r.ctl.getLsbD 17 || ts.all fun t => decide (0 ≤ t.st ∧ t.b = 0)) &&
      regionOk k r.dst.toInt (ts.map fun t => (t.e, t.d)) esz && tensorSrcOk k r ts esz &&
      !destRefused s c false (ps.map fun p => ((p.dst : Int), p.n)), none, ps, 0, none⟩
  | .maskpack n r => some <|
    let kept := (List.range r.e1.toNat).filter fun j => (m.byte (r.kindAux.toNat + j / 8)).getLsbD (j % 8)
    if empty r then ⟨n, r, true, none, [], 0, none⟩
    else ⟨n, r, src2 r r.e0.toNat && dst2 r r.e0.toNat false && regionOk k r.kindAux.toInt [] ((r.e1.toNat + 7) / 8), none,
      rows r (((List.range kept.length).zip kept).map fun x => (srcRow r x.2, dstRow r x.1)), BitVec.ofNat 64 kept.length, none⟩
  | .scatter n r => some <|
    let used := ((List.range r.e1.toNat).map fun j => (j, leVal (m.bytes (r.kindAux.toNat + 4 * j) 4))).filter fun x =>
      decide (x.2 ≠ 0xFFFFFFFF)
    if empty r then ⟨n, r, true, none, [], 0, none⟩
    else ⟨n, r, src2 r r.e0.toNat && regionOk k r.kindAux.toInt [] (4 * r.e1.toNat) &&
      used.all (fun x => fits64 (x.2 * r.d1.toInt) && regionOk k (dstRow r x.2) [] r.e0.toNat) &&
      !destRefused s c false (used.map fun x => (dstRow r x.2, r.e0.toNat)), none,
      rows r (used.map fun x => (srcRow r x.1, dstRow r x.2)), 0, none⟩
  | .multicast n r => some <|
    let slots := multicastSlots r
    let ts := slots.filterMap (multicastCore s c)
    let inside (t : CoreId) : Bool := empty r || match regionSpan r.dst.toInt [(r.e1.toNat, r.d1.toInt)] r.e0.toNat with
      | none => false
      | some x => decide (0 ≤ x.1 ∧ x.2 < (s.coreAt t).decl.stash)
    ⟨n, r, decide (ts.length = slots.length) && ts.all inside &&
      (!r.kindAux.getLsbD 38 || ts.all fun t => barDeclared (s.coreAt t) (fld r.kindAux 32 6)) &&
      (empty r || src2 r r.e0.toNat), some ts,
      if empty r then [] else rows r ((List.range r.e1.toNat).map fun j => (srcRow r j, dstRow r j)), 0, none⟩
  | .reduce n r => some <|
    let w := if fld r.ctl 18 2 = 1 then 2 else 4
    if empty r then ⟨n, r, true, none, [], 0, none⟩
    else ⟨n, r, decide (r.dst.toNat % w = 0) && decide (r.d1.toInt % w = 0) && src2 r (r.e0.toNat * w) &&
      dst2 r (r.e0.toNat * w) true, none,
      (List.range r.e1.toNat).flatMap fun j => (List.range r.e0.toNat).map fun e =>
        ⟨some (srcRow r j + (e * w : Nat)).toNat, [], (dstRow r j + (e * w : Nat)).toNat, w⟩, 0, some (fld r.ctl 18 2).toNat⟩
  | .fill n r => some <|
    if empty r then ⟨n, r, true, none, [], 0, none⟩
    else ⟨n, r, dst2 r r.e0.toNat false, none, (List.range r.e1.toNat).flatMap fun j =>
      cutRow none (fun b => fld r.kindAux (8 * (b % 8)) 8) (dstRow r j) r.e0.toNat, 0, none⟩
  | .note n r => some ⟨n, r, decide (r.dst.toNat % 8 = 0) && regionOk k r.dst.toInt [] 8 &&
      !destRefused s c false [(r.dst.toInt, 8)], none, [⟨none, bvBytes 8 r.kindAux, r.dst.toNat, 8⟩], 0, none⟩
  | _ => none

/-- Every byte that a plan reads or writes, its mask or index list among them, is a clean byte of the declared scratchpad: of
the current core, or, for MULTICAST's writes, of each target. -/
def planInStash (s : State) (p : CopyPlan) : Prop :=
  let m := s.core.stash
  let clean (a n : Nat) : Prop := a + n ≤ s.core.decl.stash ∧ m.poisoned a n = false
  s.core.decl.stash ≤ 0x100000 ∧
  (p.rec_.e0 ≠ 0 → p.rec_.e1 ≠ 0 →
    (p.rec_.kind = 2 → clean p.rec_.kindAux.toNat ((p.rec_.e1.toNat + 7) / 8)) ∧
    (p.rec_.kind = 3 → clean p.rec_.kindAux.toNat (4 * p.rec_.e1.toNat))) ∧
  ∀ x ∈ p.moves, (∀ a, x.src = some a → clean a x.n) ∧ (p.sum ≠ none → m.poisoned x.dst x.n = false) ∧
    ∀ c ∈ p.targets.getD [s.me], x.dst + x.n ≤ (s.coreAt c).decl.stash

/-- The bytes that a move writes: its source's, the bytes given, or the sums with the destination's (R277 to R282). -/
def moveBytes (m : Mem) (sum : Option Nat) (p : Piece) : List Byte :=
  match p.src with
  | none => p.lit
  | some a => match sum with
    | none => m.bytes a p.n
    | some t => leBytes p.n (reduceSum t (leVal (m.bytes p.dst p.n)) (leVal (m.bytes a p.n)))

/-- The state after moves in order, WMARK rising with each (R64, R80, R274, R280). -/
def movedPieces (c : CoreId) (n : BitVec 3) (p : CopyPlan) : List Piece → Nat → State → State
  | [], _, s => s
  | x :: xs, wm, s =>
    let bs := moveBytes (s.coreAt c).stash p.sum x
    let t := match x.src with
      | none => .plain
      | some a => if p.sum = none then sourceTag s c a x.n else .plain
    let u := match p.targets with
      | none => tagPiece c x.dst t (stashWrites c (cutWrite x.dst bs false) s)
      | some cs => cs.foldl (fun s k => tagPiece k x.dst t (stashRaw k x.dst bs false s)) s
    movedPieces c n p xs (wm + x.n) (updChan c n (fun ch => { ch with wmark := wm + x.n }) u)

/-- The arrivals of MULTICAST with RXARR = 1 at its targets (R280). -/
def targetArrivals (c : CoreId) (p : CopyPlan) (s : State) : State :=
  if p.rec_.kind = 4 ∧ p.rec_.kindAux.getLsbD 38 then (p.targets.getD []).foldl (fun s t => s.updCore t fun k =>
    { k with bars := vset (fld p.rec_.kindAux 32 6) (arrived (vget (fld p.rec_.kindAux 32 6) k.bars) 1 false 0 c.val) k.bars }) s
  else s

/-- A chunk of an EXPAND stream at a source offset decodes to 4,096 bytes, and the next one stands at `next` (R283, R284). -/
def chunkGood (m : Mem) (r : CopyRec) (off next : Nat) (out : List Byte) : Prop :=
  let a := r.src.toNat + off
  let len := leVal (m.bytes a 2)
  next = off + 8 + len ∧ next ≤ r.e1.toNat ∧ leVal (m.bytes (a + 2) 2) = 0 ∧ expandBytes (m.bytes (a + 8) len) = some out ∧
    leVal (m.bytes (a + 4) 4) = (crc32c out).toNat

/-- Chunks released in order at the destination, WMARK rising to the end of each (R283, R285). -/
def releasedChunks (c : CoreId) (n : BitVec 3) (dst : Nat) : List (List Byte) → Nat → State → State
  | [], _, s => s
  | bs :: rest, wm, s =>
    releasedChunks c n dst rest (wm + bs.length) (updChan c n (fun ch => { ch with wmark := wm + bs.length })
      (stashWrites c (granuleWrites (dst + wm) bs false) s))

/-- Two ranges share no byte. -/
def apart (a n b m : Nat) : Prop := a + n ≤ b ∨ b + m ≤ a

/-- The length of chunk k of a DECRYPT record, the address of its ciphertext, and what it opens to (R285, R448). -/
def gcmLen (r : CopyRec) (k : Nat) : Nat := min r.e1.toNat (r.e0.toNat - r.e1.toNat * k)
def gcmAt (r : CopyRec) (k : Nat) : Nat := r.src.toNat + k * (r.e1.toNat + 16)
def gcmChunk (m : Mem) (key : BitVec 256) (r : CopyRec) (k : Nat) : List Byte × List Byte :=
  gcmOpen (bvBytes 32 key) (beBytes 4 r.e3.toNat ++ beBytes 8 (r.kindAux.toNat + k)) (m.bytes (gcmAt r k) (gcmLen r k))

/-- Chunk k carries the tag of its ciphertext. -/
def gcmGood (m : Mem) (key : BitVec 256) (r : CopyRec) (k : Nat) : Prop :=
  (gcmChunk m key r k).2 = m.bytes (gcmAt r k + gcmLen r k) 16

/-- A range of the declared scratchpad without poison. -/
def cleanStash (s : State) (a n : Nat) : Prop :=
  a + n ≤ s.core.decl.stash ∧ s.core.decl.stash ≤ 0x100000 ∧ s.core.stash.poisoned a n = false

/-! ### The transform sequencer (R288 to R298) -/

/-- The transform sequencer of the current core, an S core, has an active run and is not halted. -/
def xActive (s : State) : Prop := 8 ≤ s.me.val % 10 ∧ s.core.xs.active = true ∧ s.core.xs.halted = false

/-- ILLEGAL_INSTR at the current word of the transform memory (R139). -/
def xFault (s : State) : Host.Outcome State Fault Refusal :=
  .next (xseqFault { cause := cIllegalInstr, addr := BitVec.ofNat 64 s.core.xs.tpc } s)

/-- The element that a generator names, where it is an aligned element of the declared scratchpad, and the state in which
the generator has stepped (R289, R294). -/
def xGet (g : BitVec 4) (n : Nat) (s : State) : Option (State × List Byte × Bool) :=
  let a := (agAddr (vget g s.core.xs.ag)).toNat
  if a % n = 0 ∧ a + n ≤ s.core.decl.stash ∧ s.core.decl.stash ≤ 0x100000 then
    some (stepGen g s, s.core.stash.bytes a n, s.core.stash.poisoned a n)
  else none

/-- The element that a generator names, written, where it is an aligned element of the declared scratchpad. -/
def xPut (g : BitVec 4) (bs : List Byte) (bad : Bool) (s : State) : Option State :=
  let a := (agAddr (vget g s.core.xs.ag)).toNat
  if a % bs.length = 0 ∧ a + bs.length ≤ s.core.decl.stash ∧ s.core.decl.stash ≤ 0x100000 then
    some (stepGen g (stashWrites s.me [(a, bs, bad)] s))
  else none

/-- Bytes in order through a generator, each with its poison. -/
def xPuts (g : BitVec 4) : List (Byte × Bool) → State → Option State
  | [], s => some s
  | b :: bs, s => (xPut g [b.1] b.2 s).bind (xPuts g bs)

/-- `k` bytes in order through a generator: the number they make, least significant first, and the poison of each. -/
def xGets (g : BitVec 4) : Nat → State → Option (State × Nat × List Bool)
  | 0, s => some (s, 0, [])
  | k + 1, s => (xGet g 1 s).bind fun r => (xGets g k r.1).map fun q => (q.1, leVal r.2.1 + 256 * q.2.1, r.2.2 :: q.2.2)

/-- A transfer: its fields, whether they and a count are legal, and element i where every byte lies in the scratchpad. -/
structure XferOp where
  w     : XWord
  legal : Nat → Bool
  one   : Nat → State → Option State

/-- MOVE to memory, CVT, PACK, UNPK and TRANS (R294, R295, R297). -/
def xferOp : Instr → Option XferOp
  | .move w => if w.imm.getLsbD 6 then none else
      some ⟨w, fun _ => decide (fld w.imm 7 9 = 0 ∧ w.hd = 0), fun _ s =>
        (xGet w.ag (2 ^ (fld w.imm 4 2).toNat) s).bind fun r => xPut (xdst w) r.2.1 r.2.2 r.1⟩
  | .cvt w => some ⟨w, fun _ => cvtLegal w, fun _ s =>
      let src := (fld w.imm 4 4).toNat
      let dst := (fld w.imm 8 4).toNat
      let m := xmode s
      let rnd := rndOf (if modeRnd m = 5 then 0 else modeRnd m) 0 0 0
      (xGet w.ag (halfBytes src / 2) s).bind fun r =>
        match convert src (leVal r.2.1) dst rnd (modeOvp m) (w.imm.getLsbD 12) (modeFtz m) (modeTiny0 m) with
        | .trap => none
        | .ok c inv ovf => (xPut (xdst w) (leBytes (halfBytes dst / 2) c) r.2.2 r.1).map fun u => u.updXs fun x =>
            { x with flags := x.flags ||| (BitVec.ofBool ovf ++ BitVec.ofBool inv) }⟩
  | .pack w => some ⟨w, packLegal w 10, fun i s =>
      let b := packBits w
      let held := i * b % 8
      (xGet w.ag (packSize w) s).bind fun r =>
        let first := r.2.2 || (decide (held ≠ 0) && s.core.xs.bitsBad)
        let v := s.core.xs.bits + leVal r.2.1 % 2 ^ b * 2 ^ held
        let k := (held + b) / 8
        let bad (j : Nat) : Bool := if j = 0 then first else r.2.2
        (xPuts (xdst w) ((List.range k).map fun j => (BitVec.ofNat 8 (v / 256 ^ j), bad j)) r.1).map fun u =>
          u.updXs fun x => { x with bits := v / 256 ^ k, bitsBad := bad k }⟩
  | .unpk w => some ⟨w, packLegal w 11, fun i s =>
      let b := packBits w
      let held := (8 - i * b % 8) % 8
      (xGets w.ag ((b - held + 7) / 8) s).bind fun r =>
        let v := s.core.xs.bits + r.2.1 * 2 ^ held
        let old := decide (held ≠ 0) && s.core.xs.bitsBad
        let bad := old || r.2.2.any id
        let f := v % 2 ^ b
        let out := if w.imm.getLsbD 10 ∧ 2 ^ (b - 1) ≤ f then f + 2 ^ (8 * packSize w) - 2 ^ b else f
        (xPut (xdst w) (leBytes (packSize w) out) bad r.1).map fun u =>
          u.updXs fun x => { x with bits := v / 2 ^ b, bitsBad := r.2.2.getLastD old }⟩
  | .trans w => some ⟨w, fun _ => decide (fld w.imm 8 8 = 0 ∧ (fld w.imm 4 2).toNat ≤ 1), fun _ s =>
      let base := hGet s w.hd
      let tz := 2 ^ (fld w.imm 6 2).toNat
      (xGet w.ag (2 ^ (fld w.imm 4 2).toNat) s).bind fun r =>
        let a := base.val.toNat + leVal r.2.1 * tz
        if base.bad = false ∧ r.2.2 = false ∧ a + tz ≤ s.core.decl.stash then
          xPut (xdst w) (s.core.stash.bytes a tz) (s.core.stash.poisoned a tz) r.1
        else none⟩
  | _ => none

/-- `n` elements from number i on, XPROG counting each (R294). -/
def xferFrom (one : Nat → State → Option State) : Nat → Nat → State → Option State
  | 0, _, s => some s
  | n + 1, i, s => (one i s).bind fun u => xferFrom one n (i + 1) (u.updXs fun x => { x with xprog := i + 1 })

/-! ### The sampler (R299 to R310) -/

/-- The state after an instruction of the focused context: its context, and the SPC on the next word. -/
def smpNext (x : SmpCtx) (s : State) : Host.Outcome State Fault Refusal := .next (setSmp { x with spc := x.spc + 1 } s)

/-- ILLEGAL_INSTR at the SPC (R302). -/
def smpStop (s : State) : Host.Outcome State Fault Refusal :=
  .next (smpFault { cause := cIllegalInstr, addr := BitVec.ofNat 64 (smpCtx s).spc } s)

/-- `n` aligned elements of `w` bytes of a core's declared scratchpad, from which nothing holds up a read (R310). -/
def smpFits (s : State) (c : CoreId) (a : Word) (w n : Nat) : Prop :=
  a.toNat % w = 0 ∧ a.toNat + w * n ≤ (s.coreAt c).decl.stash ∧ (s.coreAt c).decl.stash ≤ 0x100000 ∧
    a.toNat < 0x100000 ∧ (s.coreAt c).unwatched

/-- Those elements, with their poison. -/
def smpValues (s : State) (c : CoreId) (a : Word) (w n : Nat) : List (Nat × Bool) :=
  (List.range n).map fun i => (leVal ((s.coreAt c).stash.bytes (a.toNat + w * i) w),
    (s.coreAt c).stash.poisoned (a.toNat + w * i) w)

/-- The instructions without an operand that must be clean and without an access: their field rule and their effect on the
context (R304 to R308). -/
def smpEffect : Instr → Option (Bool × (SmpCtx → SmpCtx))
  | .mov w => some (!w.f && decide (w.yb = 0 ∧ w.imm = 0), fun x => yPut w.yd (yGet x w.ya) x)
  | .movi w => some (w.f && decide (w.yb = 0 ∧ w.ya.toNat < 4), fun x =>
      let k := 16 * w.ya.toNat
      let old := yGet x w.yd
      yPut w.yd (if w.ya = 0 then ⟨w.imm.signExtend 64, false⟩
        else ⟨(old.val &&& ~~~(0xFFFF#64 <<< k)) ||| (w.imm.setWidth 64 <<< k), old.bad⟩) x)
  | .adds w => some (!w.f && decide (w.imm = 0), fun x => yPut w.yd (lift2 (· + ·) (yGet x w.ya) (yGet x w.yb)) x)
  | .addsImmediate w => some (w.f && decide (w.yb = 0), fun x =>
      yPut w.yd (lift1 (· + w.imm.signExtend 64) (yGet x w.ya)) x)
  | .scl w => some (decide (w.yd = 0 ∧ w.yb = 0) && (if w.f then decide (w.ya = 0) else decide (w.imm = 0)), fun x =>
      let f := if w.f then w.imm.toNat * 2 ^ 16 else (yGet x w.ya).val.toNat % 2 ^ 32
      putEntries ((entries x).map fun e => revalue e (mulF32 e.val.toNat f) (e.bad || (!w.f && (yGet x w.ya).bad))) x)
  | .topp w => some (!w.f && decide (w.yd = 0 ∧ w.yb = 0 ∧ w.imm = 0), fun x =>
      let es := smpRanked (entries x)
      if x.nc = 0 then x
      else { putEntries (es.map fun e => { e with bad := anyBad es || (yGet x w.ya).bad }) x with
        nc := prefixLen (f32 (yF (yGet x w.ya))) es 0 0 })
  | .minp w => some (!w.f && decide (w.yd = 0 ∧ w.yb = 0 ∧ w.imm = 0), fun x => match firstRanked (entries x) with
      | none => x
      | some top =>
        let t := f32 (mulF32 (yF (yGet x w.ya)) top.2.val.toNat)
        let kept := ((entries x).filter fun e => !fltVal (f32 e.val.toNat) t).map fun e =>
          { e with bad := anyBad (entries x) || (yGet x w.ya).bad }
        { putEntries kept x with nc := kept.length })
  | .argm w => some (!w.f && decide (w.ya = 0 ∧ w.yb = 0 ∧ w.imm = 0), fun x => match firstRanked (entries x) with
      | none => yPut w.yd ⟨BitVec.allOnes 64, false⟩ x
      | some top => yPut w.yd ⟨BitVec.ofNat 64 top.1, anyBad (entries x)⟩ x)
  | .smx w => some (decide (w = ⟨0, false, 0, 0, 0⟩), fun x =>
      let es := entries x
      putEntries ((es.zip (softmax (es.map (·.val.toNat)))).map fun ev => revalue ev.1 ev.2 (anyBad es)) x)
  | .cum w => some (decide (w = ⟨0, false, 0, 0, 0⟩), fun x =>
      let es := entries x
      putEntries ((es.zip (cumulate (es.map (·.val.toNat)))).map fun ev => revalue ev.1 ev.2 (anyBad es)) x)
  | .rnd w => some (!w.f && decide (w.ya = 0 ∧ w.yb = 0 ∧ w.imm = 0), fun x =>
      yPut w.yd ⟨BitVec.ofNat 64 (drawU x).1, false⟩ { x with ctr := x.ctr + 1 })
  | .pick w => some (!w.f && decide (w.yb = 0 ∧ w.imm = 0), fun x =>
      let u := yGet x w.ya
      let t := f32 (mulF32 (yF u) (cand x (x.nc - 1)).val.toNat)
      yPut w.yd (if x.nc = 0 then ⟨BitVec.allOnes 64, u.bad⟩ else
        ⟨BitVec.ofNat 64 (((List.range x.nc).find? fun i => fltVal t (f32 (cand x i).val.toNat)).getD (x.nc - 1)),
         u.bad || anyBad (entries x)⟩) x)
  | .acc w => some (!w.f && decide (w.imm = 0), fun x =>
      let a := yGet x w.ya
      let b := yGet x w.yb
      let e := (entries x).find? fun e => decide (e.id = a.val.extractLsb' 0 32)
      let q := f32 (yF b)
      let ok := decide (q ≠ .inf false ∧ q ≠ .inf true) && fltVal (fmul (f32 (drawU x).1) q).1 (match e with
        | some e => f32 e.val.toNat
        | none => .fin false 0 0)
      yPut w.yd ⟨if ok then 1 else 0, a.bad || b.bad || (e.map (·.bad)).getD false⟩ { x with ctr := x.ctr + 1 })
  | _ => none

/-- The number of a context's Y register, clean. -/
def yClean (x : SmpCtx) (rs : List (BitVec 3)) : Prop := ∀ r ∈ rs, (yGet x r).bad = false

/-! ### The shared engines (R326 to R352) -/

/-- The PIX requests: sub-operation and action (R328). -/
def pixOp : Instr → Option (Nat × (PixEnv → Req → PixM (Byte × Nat)))
  | .pixLookupRequest => some (0, pixLookup)
  | .pixInsertRequest => some (1, pixInsert)
  | .pixRefRequest => some (2, pixRef)
  | .pixUnrefRequest => some (3, pixUnref)
  | .pixEvictRequest => some (4, pixEvict)
  | _ => none

/-- The oldest request of a sub-operation on the focused tree. -/
def pixRequest (sub : Nat) (s : State) : Option (CoreId × Req) :=
  oldestReq s allCores fun _ r =>
    decide (r.eng = .pix) && decide (r.target = s.focus.tree.toNat) && decide (r.sub.toNat = sub)

/-- The oldest request of a sub-operation on the focused UME context is `q` of core `c`, and the context is `x`. -/
def umeServing (s : State) (sub : Nat) (c : CoreId) (q : Req) (x : UmeCtx) : Prop :=
  umeRequest sub s = some (c, q) ∧ x = umeGet s (umeIndex q.target).1 (umeIndex q.target).2

/-- A UME request ends: its element, and the context left. -/
def umeEnds (c : CoreId) (q : Req) (st : Byte) (v : Nat) (x : UmeCtx) (s : State) : Host.Outcome State Fault Refusal :=
  .next (completeReq c q.order (element st v) false (umePut (umeIndex q.target).1 (umeIndex q.target).2 x s))

/-- Writes of four-byte token ids at positions of an array (R335). -/
def putTokens (c : CoreId) (ctx : BitVec 6) (va : Nat) (ps : List (Nat × BitVec 32)) (s : State) : R State :=
  ps.foldlM (fun s p => globalWrite c ctx (va + 4 * p.1) (bvBytes 4 p.2) false s) s

/-! ### The scheduler (R378 to R393) -/

/-- The submission mailbox of a context replaced. -/
def withSubmit (ctx : BitVec 6) (m : Submit) (s : State) : State :=
  { s with sched := { s.sched with submits := vset ctx m s.sched.submits } }

/-- A graph header that R380 does not refuse, for a root of a region. -/
def headerLegal (c : Ctx) (root : Word) (region : Region) (h : List Byte) (bad : Bool) : Prop :=
  root.toNat % 64 = 0 ∧ (region = .lcl ∨ region = .host) ∧ bad = false ∧ 1 ≤ leAt h 0 4 ∧ leAt h 0 4 ≤ 65535 ∧
    (∀ b ∈ (h.drop 4).take 4, b = 0) ∧ leAt h 8 8 % 128 = 0 ∧ ownsEvent c (leAt h 0x10 2) = true ∧
    (leAt h 0x12 2 = 0xFFFF ∨ ownsEvent c (leAt h 0x12 2) = true) ∧ 1 ≤ leAt h 0x14 4 ∧
    ∀ b ∈ (h.drop 0x18).take 40, b = 0

/-- A graph of the list in flight replaced. -/
def withGraph (id : Nat) (f : Graph → Graph) (s : State) : State :=
  { s with sched := { s.sched with graphs := s.sched.graphs.map fun h => if h.id = id then f h else h } }

/-- A node is ELIGIBLE and of a kind. -/
def eligibleNode (s : State) (node kind : Nat) (n : Node) : Prop :=
  findNode s node = some n ∧ n.state = .eligible ∧ n.desc.kind = kind

/-- No node with this id is ELIGIBLE and of this kind. -/
def noEligible (s : State) (node kind : Nat) : Prop := ∀ n, ¬eligibleNode s node kind n

/-- A node may enter the ready pool now (R384, R390). -/
def entersReady (s : State) (n : Node) : Prop :=
  let part (x : Node) := (s.ctx x.ctx).part
  wantsEntry n = true ∧ (∀ x ∈ s.sched.nodes, wantsEntry x = true → part x = part n → n.order ≤ x.order) ∧
    (s.sched.nodes.filter fun x => decide (x.state = .ready)).length < 4096 ∧
    (inPart s (part n) .ready).length < (vget (part n) s.parts).rpshare.toNat

/-- What a boot mailbox of a new gang holds (R395). -/
def placedBox (n : Node) (num i size : Nat) (part : BitVec 3) (b : BootBox) : BootBox :=
  { b with handle := n.desc.image, argb := runArg n, seed := n.desc.seed, gang := gangIdWord num i size, part := part,
           ctx := n.ctx.setWidth 8, go := true, state := 1, code := 0 }

/-! ### Attestation (R444 to R446) -/

/-- The SPDM requests with the states of the request order in which they are legal, but for GET_VERSION (R444). -/
def spdmRow : Instr → Option (Byte × List SpdmPhase)
  | .getCapabilities => some (0xE1, [.version])
  | .negotiateAlgorithms => some (0xE3, [.caps])
  | .getDigests => some (0x81, [.algs, .session])
  | .getCertificate => some (0x82, [.algs, .session])
  | .challenge => some (0x83, [.algs, .session])
  | .getMeasurements => some (0xE0, [.algs, .session])
  | .keyExchange => some (0xE4, [.algs, .session])
  | .finish => some (0xE5, [.keyed])
  | .endSession => some (0xEC, [.session])
  | .ideKm => some (0xFE, [.session])
  | .setKey => some (0xFE, [.session])
  | _ => none

/-- FINISH and the requests of a session have come under the session's keys; the other requests need none (R444). -/
def spdmCovered (i : Instr) (s : State) : Prop :=
  i = .finish ∨ i = .endSession ∨ i = .ideKm ∨ i = .setKey → s.sec.cover.isSome = true

/-- The request that waits has a code, a known version, its turn and its protection; for the vendor-defined ones it is of the row's
vendor. -/
def spdmTurn (i : Instr) (s : State) : Prop :=
  ∃ code phases, spdmRow i = some (code, phases) ∧ 4 ≤ s.sec.request.length ∧ requestCode s = code ∧
    spdmVersionOk (s.sec.request.getD 0 0) = true ∧ s.sec.spdm ∈ phases ∧ spdmCovered i s ∧
    (i = .setKey → isSnibex s.sec.request = true) ∧ (i = .ideKm → isSnibex s.sec.request = false)

/-- A successful answer: it and its request join the transcript. -/
def spdmAnswered (r : List Byte) (s : State) : Host.Outcome State Fault Refusal :=
  .next (s.updSec fun x => { x with trans := x.trans ++ x.request ++ r, reply := r, request := [] })

/-- An answer with an error code, which changes nothing else. -/
def spdmRefused (code : Byte) (s : State) : Host.Outcome State Fault Refusal :=
  .next (s.updSec fun x => { x with reply := [x.request.getD 0 0, 0x7F, code, 0], request := [] })

/-- The security controller and responder updated. -/
def withSec (f : Security → Security) (s : State) : State := { s with sec := f s.sec }

/-! ### The canonical form -/

/-- Every memory, every core's stash and control memory, and every core's vector and accumulator rows are in canonical form. -/
def State.canonical (s : State) : Prop :=
  (∀ sp, (s.mem sp).wf = true) ∧
    ∀ c, (s.coreAt c).stash.wf = true ∧ (s.coreAt c).cmem.wf = true ∧ kwf ⟨0, false⟩ (s.coreAt c).eng.v = true ∧
      kwf ⟨0, false⟩ (s.coreAt c).eng.acc = true

end Sys2Proof.Machine
end

