-- ==== Sys2Proof/Certificates/Slice0/Obligations.lean ====
section
/-!
DEFINITION. The statements for the provers. Each docstring names the rules that the statement formalises.
-/
open Sys2Proof Sys2Proof.Machine

/-! ### Sequencer: registers, guards, integer operations -/

/-- R144 to R150, R153, R154: an integer instruction whose checks pass and whose guard holds writes its destination, at its
boost level, and falls through.
R144 to R150, R153, R154: outside a loop record, and without a boost level, an integer instruction changes its
destination, the PC and the boundary mark, and nothing else in the whole device.
R151, R152: a comparison whose checks pass and whose guard holds writes the combined value to its predicate, at its boost
level; without one, and outside a loop record, nothing else changes but the PC and the boundary mark. -/
def Obligations.IntegerInstructions : Prop :=
  (∀ (i : Instr) (o : RegOp) (s : State), regOp i = some o → o.form.runs s = true →
    exec i s = .next (advance o.form.len (writeG o.form.bl o.rd (o.value s) s))) ∧
  (∀ (i : Instr) (o : RegOp) (s : State), regOp i = some o → o.form.runs s = true → o.form.bl = 0 → unlooped s →
    exec i s = .next (s.updRg fun x =>
      { x with g := if o.rd = 0 then x.g else vset o.rd (o.value s) x.g,
               pc := x.pc + BitVec.ofNat 16 o.form.len, bound := false })) ∧
  (∀ (i : Instr) (c : CmpOp) (s : State), cmpOp i = some c → c.form.runs s = true →
    exec i s = .next (advance c.form.len (writeK c.form.bl c.kt (c.value s) s)) ∧
    (c.form.bl = 0 → unlooped s → exec i s = .next (s.updRg fun x =>
      { x with k := if c.kt = 0 then x.k else vset c.kt (c.value s) x.k,
               pc := x.pc + BitVec.ofNat 16 c.form.len, bound := false })))

/-- R129: every guarded instruction with a clean false guard only falls through.
R49, R127, R129: in user mode a guarded instruction that names an undeclared register takes ILLEGAL_REG, whatever its
guard, and a poisoned guard predicate of an instruction without a boost level takes POISON_CONSUMED. That a boosted instruction too takes ILLEGAL_REG
at once is the model's reading of R41 and R127 (log entry 33). -/
def Obligations.GuardsAndDeclaredRegisters : Prop :=
  (∀ (i : Instr) (f : SeqForm) (s : State), guardedForm i = some f → f.skips s = true →
    exec i s = .next (advance f.len s)) ∧
  (∀ (i : Instr) (f : SeqForm) (s : State), guardedForm i = some f → s.core.rg.sup = false →
    (f.regs.all (regDeclared s.core.decl) = false →
      exec i s = .next (takeTrap { cause := cIllegalReg, addr := zext64 s.pc } s)) ∧
    (f.passes s = true → f.bl = 0 → (f.pred s).bad = true →
      exec i s = .next (takeTrap { cause := cPoison, addr := 0 } s)))

/-- R146, R147: every operation of ALU and ALUX as bit-vector arithmetic.
R146: CLZ, POPC and CTZ count the zero bits above the highest one bit, the one bits, and the zero bits below the lowest
one bit.
R152: the eleven conditions as bit-vector comparisons.
R153, R154: BFX takes W bits from bit p, zero- or sign-extended; BFI replaces the bits p to p + W - 1 of its destination
that exist; FSH shifts the two words joined. -/
def Obligations.IntegerOperations : Prop :=
  (∀ a b : Word,
    aluResult .add a b = a + b ∧ aluResult .sub a b = a - b ∧ aluResult .and a b = a &&& b ∧
    aluResult .or a b = a ||| b ∧ aluResult .xor a b = a ^^^ b ∧ aluResult .andn a b = a &&& ~~~b ∧
    aluResult .shl a b = a <<< (b.toNat % 64) ∧ aluResult .shr a b = a >>> (b.toNat % 64) ∧
    aluResult .sar a b = a.sshiftRight (b.toNat % 64) ∧ aluResult .rot a b = a.rotateRight (b.toNat % 64) ∧
    aluResult .min a b = (if a.sle b then a else b) ∧ aluResult .max a b = (if b.sle a then a else b) ∧
    aluResult .minu a b = (if a ≤ b then a else b) ∧ aluResult .maxu a b = (if b ≤ a then a else b) ∧
    aluResult .mul a b = a * b ∧
    aluResult .mulh a b = (a.signExtend 128 * b.signExtend 128).extractLsb' 64 64 ∧
    aluResult .mulhu a b = (a.setWidth 128 * b.setWidth 128).extractLsb' 64 64 ∧
    aluResult .div a b = (if b = 0 then BitVec.allOnes 64 else a.sdiv b) ∧ aluResult .rem a b = a.srem b ∧
    aluResult .divu a b = (if b = 0 then BitVec.allOnes 64 else a / b) ∧ aluResult .remu a b = a % b) ∧
  (∀ a b : Word,
    (aluResult .popc a b).toNat = (List.range 64).countP a.getLsbD ∧
    (a = 0 → aluResult .clz a b = 64 ∧ aluResult .ctz a b = 64) ∧
    (a ≠ 0 → (aluResult .clz a b).toNat ≤ 63 ∧ a.getLsbD (63 - (aluResult .clz a b).toNat) = true ∧
      (∀ i, 63 - (aluResult .clz a b).toNat < i → a.getLsbD i = false) ∧
      (aluResult .ctz a b).toNat ≤ 63 ∧ a.getLsbD (aluResult .ctz a b).toNat = true ∧
      ∀ i, i < (aluResult .ctz a b).toNat → a.getLsbD i = false)) ∧
  (∀ a b : Word,
    condHolds .eq a b = (a == b) ∧ condHolds .ne a b = (a != b) ∧ condHolds .lt a b = a.slt b ∧
    condHolds .le a b = a.sle b ∧ condHolds .ltu a b = a.ult b ∧ condHolds .leu a b = a.ule b ∧
    condHolds .gt a b = b.slt a ∧ condHolds .ge a b = b.sle a ∧ condHolds .gtu a b = b.ult a ∧
    condHolds .geu a b = b.ule a ∧ condHolds .tst a b = (a &&& b != 0)) ∧
  (∀ (a b : Word) (w p : Nat), 1 ≤ w → w ≤ 64 → p < 64 →
    bfxResult false w p a = ((a >>> p).setWidth w).setWidth 64 ∧
    bfxResult true w p a = ((a >>> p).setWidth w).signExtend 64 ∧
    (∀ i, i < 64 → (bfiResult w p a b).getLsbD i =
      if p ≤ i ∧ i < p + w then a.getLsbD (i - p) else b.getLsbD i) ∧
    fshResult false p a b = ((b ++ a) >>> p).setWidth 64 ∧
    fshResult true p a b = ((a ++ b) <<< p).extractLsb' 64 64)

/-- R12, R38, R144: a write at level 0 sets the architected register, g0 excepted; a write at a level above sets that level's
shadow alone, which an instruction at that level then reads; registers that were not named read as before.
R34, R166: going to an address changes the registers of the sequencer alone: the PC, the loop stack, the boundary mark, and
the index registers of the records in force. With no record in force, and in supervisor mode, where the loop stack is frozen,
only the PC and the mark change. -/
def Obligations.RegisterWrites : Prop :=
  (∀ (s : State) (bl : BitVec 2) (r q : Reg) (v : PReg),
    onlyRegs s (writeG bl r v s) ∧
    (writeG bl r v s).g q = (if bl = 0 ∧ q = r ∧ r ≠ 0 then v else s.g q) ∧
    readG (writeG bl r v s).core bl.toNat q =
      (if q = r ∧ r ≠ 0 then v else readG s.core bl.toNat q) ∧
    (writeG bl r v s).core.rg.k = s.core.rg.k ∧ (writeG bl r v s).pc = s.pc) ∧
  (∀ (target : BitVec 16) (fall : Bool) (s : State),
    let t := goTo target fall s
    onlyRegs s t ∧ t.core.rg.k = s.core.rg.k ∧ t.core.rg.sup = s.core.rg.sup ∧ t.core.rg.status = s.core.rg.status ∧
    t.core.rg.mode = s.core.rg.mode ∧ t.core.rg.srseed = s.core.rg.srseed ∧ t.core.rg.psn = s.core.rg.psn ∧
    t.core.rg.boost = s.core.rg.boost ∧ t.core.rg.ldisc = s.core.rg.ldisc ∧ t.core.rg.voi = s.core.rg.voi ∧
    t.core.rg.run = s.core.rg.run ∧ t.core.rg.fellTo = s.core.rg.fellTo ∧
    (∀ q : Reg, (∀ r ∈ s.core.rg.loops, r.ixen = true → r.ixreg ≠ q) → t.g q = s.g q) ∧
    (unlooped s → t = s.updRg fun x => { x with pc := target, bound := false }))

/-! ### Memory -/

/-- R155, R156, R157, R84: a load from the declared scratchpad that no watermark holds writes the extended bytes, lowest
address first, with the poison of their granule, and marks the slots whose bytes it touches as read.
R155, R157, R158, R72: a load of a global address outside every window translates it, reads its home, after the core's own
HOST stores if it lies in a HOST page, forwards the core's own buffered stores and writes the extended value; a boosted one does
so outside HOST pages.
R94, R157, R52, R49: without a boost level, a poisoned address register, an address that does not decode, a misaligned one and a stash-local one
beyond the scratchpad in no window stop it with POISON_CONSUMED, XLATE, ALIGN and STASH_BOUNDS, and a failing translation with its fault; TRAPADDR holds the
address.
R53, R54, R157, R411: what a leaf held by the core's TLB gives an access: a LOCAL place beyond the memory XLATE; missing permission, another owner's tag, a store to POOL_RO
or into a WIDEN6 view PROT; its place otherwise.
R56, R58: a load of a stash-local window address, or of a global one that a window mirrors, is served by the stash once its granule is valid, with the faults of the fill. A valid
granule needs no fetch, but the page's permission; a first touch fetches the 64 bytes of the home, clean, behind the core's own stores, in a write-intent window as their
owner.
R6, R155: the value of a load in terms of the bytes of memory, for each of the seven sizes. -/
def Obligations.Loads : Prop :=
  (∀ (i : Instr) (o : LoadOp) (s : State), loadOp i = some o → o.form.runs s = true →
    cleanAt s o.form.bl.toNat o.bases → inScratch s (o.ea s) (loadWidth o.sz) →
    markStalls s s.me (o.ea s).toNat (loadWidth o.sz) = false →
    let a := (o.ea s).toNat
    let w := loadWidth o.sz
    exec i s = .next (advance o.form.len (writeG o.form.bl o.rd
      ⟨loadExtend o.sz (leVal (s.core.stash.bytes a w)), s.core.stash.poisoned a w⟩ (countLoad (markSlots s.me a w s))))) ∧
  (∀ (i : Instr) (o : LoadOp) (s t : State) (x : Xl), loadOp i = some o → o.form.runs s = true →
    cleanAt s o.form.bl.toNat o.bases → inGlobal s (o.ea s) (loadWidth o.sz) →
    translate s.me s.core.ctx (o.ea s).toNat .read s = .ok (t, x) →
    (o.form.bl ≠ 0 → x.region ≠ .host ∧ x.region ≠ .hostWc) →
    markStalls t s.me (o.ea s).toNat (loadWidth o.sz) = false →
    let r := homeRead x.loc x.region (loadWidth o.sz) false (hostOrder s.me x.region t)
    let v := forward (r.1.coreAt s.me) x.loc r.2.1 r.2.2
    exec i s = .next (advance o.form.len
      (writeG o.form.bl o.rd ⟨loadExtend o.sz (leVal v.1), v.2⟩ (countLoad r.1)))) ∧
  (∀ (i : Instr) (o : LoadOp) (s : State), loadOp i = some o → o.form.runs s = true → o.form.bl = 0 →
    ((∃ r ∈ o.bases, (s.g r).bad = true) → exec i s = .next (takeTrap { cause := cPoison, addr := 0 } s)) ∧
    (cleanAt s 0 o.bases →
      (∀ c, addressFault s.core (o.ea s) (loadWidth o.sz) = some c → exec i s = .next (takeTrap { cause := c, addr := o.ea s } s)) ∧
      (∀ t, inGlobal s (o.ea s) (loadWidth o.sz) → translate s.me s.core.ctx (o.ea s).toNat .read s = .error (.trap t) →
        exec i s = .next (takeTrap { t with addr := o.ea s } (countTrap t s))) ∧
      ∀ n d a, inWindow s (o.ea s) (loadWidth o.sz) n d a →
        (∀ t, ensureGran s.me n d (a / 64) .read s = .error (.trap t) →
          exec i s = .next (takeTrap { t with addr := o.ea s } (countTrap t s))) ∧
        ∀ t, ensureGran s.me n d (a / 64) .read s = .ok t → markStalls t s.me (o.ea s).toNat (loadWidth o.sz) = false →
          let m := (t.coreAt s.me).stash
          exec i s = .next (advance o.form.len (writeG 0 o.rd
            ⟨loadExtend o.sz (leVal (m.bytes a (loadWidth o.sz))), m.poisoned a (loadWidth o.sz)⟩
            (countLoad (if (o.ea s).toNat < 0x100000 then markSlots s.me a (loadWidth o.sz) t else t)))))) ∧
  (∀ (acc : Access) (va : Nat) (e : TlbEntry) (s : State), s.core.tlb.find? (tlbHit s.core.ctx va) = some e →
    let r := regionOf (pteClass e.leaf)
    let a := pteAddr e.leaf + if e.size = 3 then va % 2 ^ 30 else va % 2 ^ 19
    let ea := BitVec.ofNat 64 va
    let fault (c : Cause) : R (State × Xl) := .error (.trap { cause := c, addr := ea })
    let barred := (acc.reads = true ∧ pteRd e.leaf = false) ∨ (acc.writes = true ∧ pteWr e.leaf = false) ∨
      (pteOwner e.leaf ≠ 0 ∧ pteOwner e.leaf ≠ (s.ctx s.core.ctx).tag) ∨ (acc.writes = true ∧ r = .poolRo)
    (r = .lcl → hbmEnd ≤ a → translate s.me s.core.ctx va acc s = fault cXlate) ∧
    ∀ x, physical s r a ea = .ok x →
      (barred ∨ acc.writes = true ∧ inWiden6 s x = true → translate s.me s.core.ctx va acc s = fault cProt) ∧
      (¬barred → (acc.writes = true → inWiden6 s x = false) →
        translate s.me s.core.ctx va acc s = .ok (s, ⟨x, r, pteOwner e.leaf, pteComp e.leaf⟩))) ∧
  (∀ (c : CoreId) (n g : Nat) (d : WinDesc) (acc : Access) (s : State),
    let u := drainGran c g s
    (∀ x, granFind u c g = some x →
      ((acc.reads = true → x.rd = true) → (acc.writes = true → x.wr = true) → ensureGran c n d g acc s = .ok u) ∧
      ((acc.reads = true ∧ x.rd = false) ∨ (acc.writes = true ∧ x.wr = false) →
        ensureGran c n d g acc s = .error (.trap { cause := cProt, addr := BitVec.ofNat 64 x.va }))) ∧
    ∀ va, granFind u c g = none → d.toGlobal (64 * g) = some va → ensureGran c n d g acc s = fillGran c n d g va acc u) ∧
  (∀ (c : CoreId) (n g va : Nat) (d : WinDesc) (acc : Access) (s t : State) (x : Xl), 0x100000 ≤ va → va + 64 ≤ 2 ^ 52 →
    translate c (s.coreAt c).ctx va acc s = .ok (t, x) → ∃ (u : State) (y : Gran), fillGran c n d g va acc s = .ok u ∧
      let v := drainBlock c x.loc (hostOrder c x.region t)
      let h := homeRead x.loc x.region 64 false (if y.wr then recallWrites x.loc 64 v else v)
      u.grans = y :: h.1.grans ∧ y.core = c ∧ y.gran = g ∧ y.va = va ∧ y.home = x.loc ∧ y.region = x.region ∧ y.dirty = 0 ∧
      (y.wr = true → d.writes = true) ∧ (acc.reads = true → y.rd = true) ∧ (acc.writes = true → d.writes = true → y.wr = true) ∧
      (u.coreAt c).stash = (h.1.coreAt c).stash.write (64 * g) h.2.1 h.2.2 ∧ ∀ sp, u.mem sp = h.1.mem sp) ∧
  (∀ (m : Mem) (a : Nat),
    loadExtend .b (leVal (m.bytes a 1)) = (m.byte a).setWidth 64 ∧
    loadExtend .h (leVal (m.bytes a 2)) = (m.byte (a + 1) ++ m.byte a).setWidth 64 ∧
    loadExtend .w (leVal (m.bytes a 4)) =
      (m.byte (a + 3) ++ m.byte (a + 2) ++ m.byte (a + 1) ++ m.byte a).setWidth 64 ∧
    loadExtend .d (leVal (m.bytes a 8)) =
      m.byte (a + 7) ++ m.byte (a + 6) ++ m.byte (a + 5) ++ m.byte (a + 4) ++ m.byte (a + 3) ++ m.byte (a + 2) ++
        m.byte (a + 1) ++ m.byte a ∧
    loadExtend .bs (leVal (m.bytes a 1)) = (m.byte a).signExtend 64 ∧
    loadExtend .hs (leVal (m.bytes a 2)) = (m.byte (a + 1) ++ m.byte a).signExtend 64 ∧
    loadExtend .ws (leVal (m.bytes a 4)) =
      (m.byte (a + 3) ++ m.byte (a + 2) ++ m.byte (a + 1) ++ m.byte a).signExtend 64)

/-- R155, R156, R157, R93, R64, R74: a store to the declared scratchpad writes the low bytes of its data register there, with
its poison, after the core's earlier stores, as its scope orders them, if it releases. Every byte of that stash outside them, every other stash and every
other memory is as it was.
R94, R157, R58: a poisoned address register, an address that fails steps 1 to 3, a failing translation, and poisoned data for a page that bars it stop it with POISON_CONSUMED,
XLATE, ALIGN, STASH_BOUNDS or the fault of the translation. A store to a read-intent window is PROT, after the faults of the fill; one to a write-intent window writes the
stash, marks the bytes dirty in the granule's mask, and leaves every memory as it was where no subscriber waits.
R157, R72, R78: a store to a global address outside every window that translates for writing enters the store FIFO; below
64 stores held, no memory changes until the store is acknowledged.
R72, R78, R83, R93: the acknowledgement of a store that no earlier one must precede performs it. In LOCAL memory that no
window holds, its bytes stand at its address, and every other byte of every memory is as it was. LOAD_RETURN ends the oldest
load in flight. -/
def Obligations.Stores : Prop :=
  (∀ (i : Instr) (o : StoreOp) (s : State), storeOp i = some o → o.form.runs s = true →
    cleanAt s 0 o.bases → inScratch s (o.ea s) (storeWidth o.sz) →
    (released o.rel s).core.decl = s.core.decl → (released o.rel s).core.stash.wf = true →
    let a := (o.ea s).toNat
    let w := storeWidth o.sz
    let u := released o.rel s
    ∃ t, exec i s = .next t ∧
      t = advance o.form.len (stashPut s.me a (leBytes w (s.g o.data).val.toNat) (s.g o.data).bad u) ∧
      (∀ b, t.core.stash.byte b =
        if a ≤ b ∧ b < a + w then slotByte u.core.slots b (byteOf (s.g o.data).val.toNat (b - a)) else u.core.stash.byte b) ∧
      (∀ c, c ≠ s.me → t.coreAt c = u.coreAt c) ∧ (∀ sp, t.mem sp = u.mem sp)) ∧
  (∀ (i : Instr) (o : StoreOp) (s : State), storeOp i = some o → o.form.runs s = true →
    ((∃ r ∈ o.bases, (s.g r).bad = true) → exec i s = .next (takeTrap { cause := cPoison, addr := 0 } s)) ∧
    (cleanAt s 0 o.bases →
      (∀ c, addressFault s.core (o.ea s) (storeWidth o.sz) = some c → exec i s = .next (takeTrap { cause := c, addr := o.ea s } s)) ∧
      (inGlobal s (o.ea s) (storeWidth o.sz) →
        (∀ t, translate s.me s.core.ctx (o.ea s).toNat .write s = .error (.trap t) →
          exec i s = .next (takeTrap { t with addr := o.ea s } (countTrap t s))) ∧
        ∀ u x, translate s.me s.core.ctx (o.ea s).toNat .write s = .ok (u, x) → (s.g o.data).bad = true →
          poisonRefused u (u.coreAt s.me).ctx x = true → exec i s = .next (faultsAt s cPoison (o.ea s) (startedWalk s.me s u))) ∧
      ∀ n d a, inWindow s (o.ea s) (storeWidth o.sz) n d a →
        (∀ t, ensureGran s.me n d (a / 64) .write s = .error (.trap t) →
          exec i s = .next (takeTrap { t with addr := o.ea s } (countTrap t s))) ∧
        ∀ t, ensureGran s.me n d (a / 64) .write s = .ok t →
          (d.writes = false → exec i s = .next (faultsAt s cProt (o.ea s) (startedWalk s.me s t))) ∧
          ∀ x, granFind t s.me (a / 64) = some x → d.writes = true → x.wr = true → o.rel = none → drainGran s.me (a / 64) t = t →
            (t.coreAt s.me).decl = s.core.decl → (t.coreAt s.me).wins = s.core.wins →
            let w := storeWidth o.sz
            ((s.g o.data).bad = true → poisonBarred t (t.coreAt s.me).ctx x.region x.owner = true → s.core.decl.stash ≤ a →
              exec i s = .next (faultsAt s cPoison (o.ea s) (startedWalk s.me s t))) ∧
            (((s.g o.data).bad = true → poisonBarred t (t.coreAt s.me).ctx x.region x.owner = false) →
              let p := stashPut s.me a (leBytes w (s.g o.data).val.toNat) (s.g o.data).bad t
              ∃ v, exec i s = .next (advance o.form.len v) ∧ v = markDirty s.me a w p ∧
                (t.subs = [] → (∀ sp, v.mem sp = t.mem sp) ∧ (v.coreAt s.me).stash = (p.coreAt s.me).stash ∧
                  ∃ y, granFind v s.me (a / 64) = some y ∧ y.home = x.home ∧
                    ∀ j < 64, y.dirty.getLsbD j = (x.dirty.getLsbD j || decide (a % 64 ≤ j ∧ j < a % 64 + w)))))) ∧
  (∀ (i : Instr) (o : StoreOp) (s u : State) (x : Xl), storeOp i = some o → o.form.runs s = true →
    cleanAt s 0 o.bases → inGlobal s (o.ea s) (storeWidth o.sz) →
    translate s.me s.core.ctx (o.ea s).toNat .write s = .ok (u, x) →
    ((s.g o.data).bad = true → poisonRefused u (u.coreAt s.me).ctx x = false) →
    let c := countIssued s.me u
    let k := c.coreAt s.me
    let p : PendStore := ⟨x.loc, x.region, x.comp, o.ea s, leBytes (storeWidth o.sz) (s.g o.data).val.toNat, (s.g o.data).bad,
      k.storeNo, if gathering k then none else o.rel,
      if gathering k then some (k.sys.relquery.extractLsb' 60 4) else none⟩
    ∃ t, exec i s = .next t ∧ t = advance o.form.len (pushStore s.me p c) ∧
      ((c.coreAt s.me).stores.length < 64 → (∀ sp, t.mem sp = u.mem sp) ∧
        (t.coreAt s.me).stores = (c.coreAt s.me).stores ++ [p])) ∧
  ((∀ (n : Nat) (p : PendStore) (s : State), s.core.stores[n]? = some p →
    ((s.core.stores.take n).any fun q => storeBefore q p) = false →
    let u := s.upd fun k => { k with stores := removeAt k.stores n }
    ∃ t, exec (.storeAcknowledgement n) s = .next t ∧ t = performStore s.me p u ∧
      (p.loc.space = .hbm → p.region = .lcl → s.grans = [] → s.badBlocks = [] → s.hbm.wf = true →
        (∀ a, t.hbm.byte a = if p.loc.addr ≤ a ∧ a < p.loc.addr + p.bytes.length then p.bytes.getD (a - p.loc.addr) 0
          else s.hbm.byte a) ∧
        t.host = s.host ∧ t.pool = s.pool ∧ (∀ c, (t.coreAt c).stash = (s.coreAt c).stash))) ∧
  ∀ s : State, exec .loadReturn s = .next (s.upd fun k => { k with loadsOut := k.loadsOut - 1 }))

/-- R67, R190, R191: an atomic on the declared scratchpad at a scope below POOL reads the old value into its destination and
writes the operation's result in its place, after the core's earlier stores, as its scope orders them, if it orders; a CAS whose comparison fails writes
nothing.
R67, R157, R191: elsewhere a poisoned base, an address that fails steps 1 to 3 and a failing translation stop it with their faults; on the scratchpad a scope of POOL or SYSTEM is
PROT. At a global address outside every window, poisoned data for a page that bars it is POISON_CONSUMED; a place that R67 marks fault is PROT; LOCAL and POOL_BI below SYSTEM scope,
and ADD, XCHG and CAS of HOST at SYSTEM scope where the link routes them (the model's constant, log entry 3), are read, modified and written at their home. On a valid granule of a write-intent
window a scope up to CLUSTER works in the stash and marks the bytes dirty, and SYSTEM is PROT; so is a scope up to CLUSTER on a read-intent window.
R191: the integer operations of an atomic on a word of 32 or 64 bits. -/
def Obligations.Atomics : Prop :=
  (∀ (op : AtomOp) (dword : Bool) (ord : Order) (scope : Scope) (gd : Guard) (imm : BitVec 16) (rc rb ra rd : Reg)
    (s : State),
    let f : SeqForm := ⟨8, 0, [rd, ra, rb, rc], gd⟩
    let ea := (s.g ra).val + imm.signExtend 64
    let w := if dword then 8 else 4
    let u := if ord = .plain then s else releaseAt scope s.me s
    let old := leVal (u.core.stash.bytes ea.toNat w)
    let p := u.core.stash.poisoned ea.toNat w || (s.g rb).bad || (decide (op = .cas) && (s.g rc).bad)
    let m := markSlots s.me ea.toNat w u
    f.runs s = true → (s.g ra).bad = false → inScratch u ea w → winOfStash u.core ea.toNat = none →
    scope ≠ .pool → scope ≠ .system → markStalls u s.me ea.toNat w = false →
    exec (.atom op dword ord scope gd imm rc rb ra rd) s = .next (advance 8
      ((match atomNew op w old ((s.g rb).val.toNat % 2 ^ (8 * w)) ((s.g rc).val.toNat % 2 ^ (8 * w))
          (modeFtz s.core.rg.mode) with
        | none => m
        | some n => stashPut s.me ea.toNat (leBytes w n) p m).setG rd
          ⟨BitVec.ofNat 64 old, p⟩))) ∧
  (∀ (op : AtomOp) (dword : Bool) (ord : Order) (scope : Scope) (gd : Guard) (imm : BitVec 16) (rc rb ra rd : Reg)
    (s : State),
    let f : SeqForm := ⟨8, 0, [rd, ra, rb, rc], gd⟩
    let i : Instr := .atom op dword ord scope gd imm rc rb ra rd
    let ea := (s.g ra).val + imm.signExtend 64
    let w := if dword then 8 else 4
    let u := if ord = .plain then s else releaseAt scope s.me s
    let poison (bad : Bool) : Bool := bad || (s.g rb).bad || (decide (op = .cas) && (s.g rc).bad)
    let new (old : Nat) : Option Nat := atomNew op w old ((s.g rb).val.toNat % 2 ^ (8 * w)) ((s.g rc).val.toNat % 2 ^ (8 * w))
      (modeFtz s.core.rg.mode)
    f.runs s = true → u.me = s.me → u.core.ctx = s.core.ctx →
    ((s.g ra).bad = true → exec i s = .next (takeTrap { cause := cPoison, addr := 0 } s)) ∧
    ((s.g ra).bad = false →
      (∀ c, addressFault u.core ea w = some c → exec i s = .next (takeTrap { cause := c, addr := ea } s)) ∧
      (inScratch u ea w → winOfStash u.core ea.toNat = none → scope = .pool ∨ scope = .system →
        exec i s = .next (takeTrap { cause := cProt, addr := ea } s)) ∧
      (inGlobal u ea w →
        (∀ t, translate u.me u.core.ctx ea.toNat .atomic u = .error (.trap t) →
          exec i s = .next (takeTrap { t with addr := ea } (countTrap t s))) ∧
        ∀ t x, translate u.me u.core.ctx ea.toNat .atomic u = .ok (t, x) → t.core.ctx = u.core.ctx → t.me = u.me →
          let refused := (s.g rb).bad = true ∧ poisonRefused t t.core.ctx x = true
          let allowed := ((x.region = .lcl ∨ x.region = .poolBi) ∧ scope ≠ .system) ∨
            (x.region = .host ∧ scope = .system ∧ (op = .add ∨ op = .xchg ∨ op = .cas) ∧ Config.atomicRouting = true)
          (refused → exec i s = .next (faultsAt s cPoison ea (startedWalk u.me u t))) ∧
          (¬refused → ¬allowed → exec i s = .next (faultsAt s cProt ea (startedWalk u.me u t))) ∧
          (¬refused → allowed → markStalls t t.me ea.toNat w = false →
            let d := drainBefore x w t
            let r := homeRead x.loc x.region w false d
            requestLost d x.loc x.region = false →
            (∀ v, new (leVal r.2.1) = some v → poison r.2.2 = true → poisonRefused r.1 r.1.core.ctx x = false) →
            let done := match new (leVal r.2.1) with
              | none => r.1
              | some v =>
                let h := homeWrite x.loc x.region x.comp (leBytes w v) (poison r.2.2) r.1
                if h.2 then h.1 else setWerr h.1.me ea h.1
            exec i s = .next (advance 8 (done.setG rd ⟨BitVec.ofNat 64 (leVal r.2.1), poison r.2.2⟩)))) ∧
      ∀ n d a x, inWindow u ea w n d a → drainGran u.me (a / 64) u = u → granFind u u.me (a / 64) = some x → x.rd = true →
        ((s.g rb).bad = false ∨ poisonBarred u u.core.ctx x.region x.owner = false) →
        (d.writes = false → narrowScope scope = true → exec i s = .next (takeTrap { cause := cProt, addr := ea } s)) ∧
        (d.writes = true → x.wr = true → scope = .system → exec i s = .next (takeTrap { cause := cProt, addr := ea } s)) ∧
        (d.writes = true → x.wr = true → narrowScope scope = true → markStalls u u.me a w = false →
          let old := leVal (u.core.stash.bytes a w)
          let p := poison (u.core.stash.poisoned a w)
          let m := markSlots u.me a w u
          (p = true → poisonBarred u u.core.ctx x.region x.owner = false) →
          exec i s = .next (advance 8 ((match new old with
            | none => m
            | some v => markDirty u.me a w (stashPut u.me a (leBytes w v) p m)).setG rd ⟨BitVec.ofNat 64 old, p⟩))))) ∧
  (∀ (w : Nat) (a b c : BitVec (8 * w)) (ftz : Bool), w = 4 ∨ w = 8 →
    let new (op : AtomOp) : Option (BitVec (8 * w)) :=
      (atomNew op w a.toNat b.toNat c.toNat ftz).map (BitVec.ofNat (8 * w))
    new .add = some (a + b) ∧ new .and = some (a &&& b) ∧ new .or = some (a ||| b) ∧ new .xor = some (a ^^^ b) ∧
    new .min = some (if a.sle b then a else b) ∧ new .max = some (if b.sle a then a else b) ∧
    new .minu = some (if a ≤ b then a else b) ∧ new .maxu = some (if b ≤ a then a else b) ∧
    new .xchg = some b ∧ new .cas = (if a = c then some b else none))

/-! ### Control flow -/

/-- R161, R163: J and JL with a target that the mode may reach go there; JL writes the address behind it to the architected g31,
and neither touches boost state. Their words are J form, op6 0x0D and 0x0E. -/
def Obligations.Jumps : Prop :=
  (∀ (off : BitVec 24) (s : State), targetOk s ((s.pc.toNat : Int) + off.toInt * 4) →
    let pc := BitVec.ofInt 16 ((s.pc.toNat : Int) + off.toInt * 4)
    exec (.j off) s = .next (goTo pc false s) ∧
    exec (.jl off) s = .next (goTo pc false (s.updRg fun x => { x with g := vset (31 : Reg) (⟨s.pc.setWidth 64 + 4, false⟩ : PReg) x.g })) ∧
    (goTo pc false s).core.rg.boost = s.core.rg.boost ∧
    (unlooped s → goTo pc false s = s.updRg fun x => { x with pc := pc, bound := false })) ∧
  ∀ (off : BitVec 24) (v lit : Unit32),
    decodeControl (off ++ 0x0D#6 ++ 0#2) v lit = .ok (.j off) ∧ decodeControl (off ++ 0x0E#6 ++ 0#2) v lit = .ok (.jl off)

/-- R160, R163: BR without a hint, or in supervisor mode, follows its condition, read from architected predicates: to the target
if it is taken, behind it if not. JR goes to its register, read before the link is written, and discards boost state.
R94, R162, R163: a poisoned condition or target, a misaligned target, a target outside control memory and a user-mode target
in supervisor code stop BR, J, JL and JR with their faults, TRAPADDR holding the target. -/
def Obligations.Branches : Prop :=
  ((∀ (hint : Hint) (gd : Guard) (off : BitVec 18) (s : State), hint = .none ∨ s.core.rg.sup = true →
    (s.k gd.kg).bad = false →
    let taken := (s.k gd.kg).val != gd.kn
    let t := (s.pc.toNat : Int) + off.toInt * 4
    (taken = true → targetOk s t) →
    exec (.br hint gd off) s = .next (goTo (if taken then BitVec.ofInt 16 t else s.pc + 4) (!taken) s)) ∧
  ∀ (ra rd : Reg) (s : State), (plainForm 4 [ra, rd]).passes s = true → (s.g ra).bad = false →
    (s.g ra).val.toNat % 4 = 0 → targetOk s (s.g ra).val.toNat →
    exec (.jr ra rd) s = .next (goTo ((s.g ra).val.setWidth 16) false
      ((s.setG rd ⟨s.pc.setWidth 64 + 4, false⟩).updRg fun x =>
        { x with boost := if s.core.rg.sup then x.boost else [] }))) ∧
  (∀ (s : State) (gd : Guard) (hint : Hint) (o18 : BitVec 18) (o24 : BitVec 24) (ra rd : Reg),
    let at18 := (s.pc.toNat : Int) + o18.toInt * 4
    let at24 := (s.pc.toNat : Int) + o24.toInt * 4
    let trap (c : Cause) (a : Word) : Host.Outcome State Fault Refusal := .next (takeTrap { cause := c, addr := a } s)
    let taken := (s.k gd.kg).val != gd.kn
    ((s.k gd.kg).bad = true → exec (.br hint gd o18) s = trap cPoison 0) ∧
    ((s.k gd.kg).bad = false → taken = true → (at18 < 0 ∨ 0x10000 ≤ at18) →
      exec (.br hint gd o18) s = trap cIllegalInstr (wrap64 at18)) ∧
    ((s.k gd.kg).bad = false → taken = true → s.core.rg.sup = false → 0xE000 ≤ at18 → at18 < 0x10000 →
      exec (.br hint gd o18) s = trap cPriv (wrap64 at18)) ∧
    ((at24 < 0 ∨ 0x10000 ≤ at24) → exec (.j o24) s = trap cIllegalInstr (wrap64 at24) ∧
      exec (.jl o24) s = trap cIllegalInstr (wrap64 at24)) ∧
    (s.core.rg.sup = false → 0xE000 ≤ at24 → at24 < 0x10000 → exec (.j o24) s = trap cPriv (wrap64 at24) ∧
      exec (.jl o24) s = trap cPriv (wrap64 at24)) ∧
    ((plainForm 4 [ra, rd]).passes s = true →
      ((s.g ra).bad = true → exec (.jr ra rd) s = trap cPoison 0) ∧
      ((s.g ra).bad = false → (s.g ra).val.toNat % 4 ≠ 0 → exec (.jr ra rd) s = trap cAlign (s.g ra).val) ∧
      ((s.g ra).bad = false → (s.g ra).val.toNat % 4 = 0 → 0x10000 ≤ (s.g ra).val.toNat →
        exec (.jr ra rd) s = trap cIllegalInstr (s.g ra).val) ∧
      ((s.g ra).bad = false → (s.g ra).val.toNat % 4 = 0 → s.core.rg.sup = false → 0xE000 ≤ (s.g ra).val.toNat →
        (s.g ra).val.toNat < 0x10000 → exec (.jr ra rd) s = trap cPriv (s.g ra).val)))

/-- R39, R160: a BR with a hint, in user mode and outside a loop record. Against its hint it discards all boost state. As hinted,
with every level-1 result a register or predicate without a fault, each of them reaches its architected place, levels 2 and 3
move down, and registers without a level-1 shadow keep their values. Either way the branch takes its direction.
R42, R175: the commit releases the level-1 requests of the boost buffer in program order, each after the core's stores; at one without a free slot the branch
stalls, and none behind it is released. -/
def Obligations.BoostCommit : Prop :=
  (∀ (hint : Hint) (gd : Guard) (off : BitVec 18) (s : State), hint ≠ .none → s.core.rg.sup = false →
    s.core.rg.loops = [] → (s.k gd.kg).bad = false →
    let taken := (s.k gd.kg).val != gd.kn
    let t := (s.pc.toNat : Int) + off.toInt * 4
    let pc := if taken then BitVec.ofInt 16 t else s.pc + 4
    (taken = true → targetOk s t) →
    (taken ≠ decide (hint = .taken) → exec (.br hint gd off) s =
      .next (s.updRg fun x => { x with boost := [], pc := pc, bound := false })) ∧
    (taken = decide (hint = .taken) →
      (∀ x ∈ s.core.rg.boost, x.lvl = 1 → x.fault = none ∧ ∀ p, x.dst ≠ .put p) →
      ∃ u, exec (.br hint gd off) s = .next u ∧ onlyRegs s u ∧ u.pc = pc ∧ u.core.rg.boost = lowered s.core.rg.boost ∧
        u.core.rg.mode = s.core.rg.mode ∧ u.core.rg.sup = false ∧
        (∀ r : Reg, r ≠ 0 → u.g r = match lastShadow s (.g r) with
          | some x => ⟨x.val, x.bad⟩
          | none => s.g r) ∧
        (∀ r : BitVec 3, r ≠ 0 → u.k r = match lastShadow s (.k r) with
          | some x => ⟨x.val.getLsbD 0, x.bad⟩
          | none => s.k r))) ∧
  ∀ (hint : Hint) (gd : Guard) (off : BitVec 18) (s : State), hint ≠ .none → s.core.rg.sup = false →
    s.core.rg.loops = [] → (s.k gd.kg).bad = false →
    let taken := (s.k gd.kg).val != gd.kn
    let t := (s.pc.toNat : Int) + off.toInt * 4
    let pc := if taken then BitVec.ofInt 16 t else s.pc + 4
    let puts : List HeldPut := (s.core.rg.boost.filter fun x => decide (x.lvl = 1) && x.fault.isNone).filterMap fun x =>
      match x.dst with
      | .put p => some p
      | _ => none
    (taken = true → targetOk s t) → taken = decide (hint = .taken) →
    (∀ p rest, puts = p :: rest → 16 ≤ slotsTaken s.core p.eng → exec (.br hint gd off) s = .next s) ∧
    ((∀ e, slotsTaken s.core e + (puts.filter fun p => decide (p.eng = e)).length ≤ 16) →
      (∀ x ∈ s.core.rg.boost, x.lvl = 1 → x.fault = none) →
      ∃ u, exec (.br hint gd off) s = .next u ∧ u.pc = pc ∧ u.core.rg.boost = lowered s.core.rg.boost ∧ u.order = s.order + puts.length ∧
        u.core.reqs = s.core.reqs ++ ((List.range puts.length).zip puts).map fun ip =>
          ⟨ip.2.eng, ip.2.obj, (objectOf s s.me ip.2.eng ip.2.obj.toNat).getD ip.2.obj.toNat, ip.2.sub, ip.2.a, ip.2.b, ip.2.nores,
            s.order + ip.1, none⟩)

/-- R38, R40, R41, R159: a boosted LDX whose address does not decode, or is misaligned, or lies in a HOST or HOST_WC page, also
through a window of its core, takes no trap: its fault stands in its shadow with a free value, the architected registers and all
memory are as before, and the PC moves on.
R39, R41, R207, R209: when a resolving branch goes as hinted and a level-1 result carries a fault, BOOST_DEFERRED is taken for
the first such result, with its cause, address and instruction, and it returns to the branch's destination; a register whose
level-1 results all carry faults keeps its value.
R402, R403, R206: in user mode the oldest pending engine fault of a running core is taken as a trap at the boundary: it leaves the
pending ones, joins the delivered ones, and its unit's number stands in SRC; in supervisor mode it waits. That a deferred fault is kept also for g0, whose
writes are discarded, is the model's reading (log entry 33). -/
def Obligations.DeferredFaults : Prop :=
  (∀ (sz : LoadSize) (acq : Bool) (scope : Scope) (gd : Guard) (bl : BitVec 2) (imm : BitVec 16) (rb ra rd : Reg) (s : State),
    let f : SeqForm := ⟨8, bl, [rd, ra, rb], gd⟩
    let ea := (readG s.core bl.toNat ra).val + (readG s.core bl.toNat rb).val + imm.signExtend 64
    f.runs s = true → bl ≠ 0 → cleanAt s bl.toNat [ra, rb] →
    let deferred (cause : Cause) : State := advance 8 (putShadow
      ⟨bl, .g rd, Config.freeWord s.free, false, some (cause, ea), s.pc⟩ { s with free := s.free + 1 })
    (2 ^ 52 ≤ ea.toNat → exec (.ldx sz acq scope gd bl imm rb ra rd) s = .next (deferred cXlate)) ∧
    (ea.toNat < 2 ^ 52 → ea.toNat % loadWidth sz ≠ 0 →
      exec (.ldx sz acq scope gd bl imm rb ra rd) s = .next (deferred cAlign)) ∧
    (∀ t x, inGlobal s ea (loadWidth sz) → translate s.me s.core.ctx ea.toNat .read s = .ok (t, x) →
      (x.region = .host ∨ x.region = .hostWc) →
      exec (.ldx sz acq scope gd bl imm rb ra rd) s = .next (deferred cProt)) ∧
    (∀ g, ea.toNat % loadWidth sz = 0 → ea.toNat < 0x100000 → s.core.decl.stash ≤ ea.toNat →
      granFind s s.me (ea.toNat / 64) = some g → (g.region = .host ∨ g.region = .hostWc) →
      exec (.ldx sz acq scope gd bl imm rb ra rd) s = .next (deferred cProt))) ∧
  (∀ (hint : Hint) (gd : Guard) (off : BitVec 18) (s : State) (x : Shadow) (cause : Cause) (addr : Word), hint ≠ .none →
    s.core.rg.sup = false → (s.k gd.kg).bad = false →
    let taken := (s.k gd.kg).val != gd.kn
    let t := (s.pc.toNat : Int) + off.toInt * 4
    let pc := if taken then BitVec.ofInt 16 t else s.pc + 4
    (taken = true → targetOk s t) → taken = decide (hint = .taken) →
    (∀ y ∈ s.core.rg.boost, y.lvl = 1 → ∀ p, y.dst ≠ .put p) →
    (s.core.rg.boost.filter fun y => decide (y.lvl = 1) && y.fault.isSome).head? = some x → x.fault = some (cause, addr) →
    ∃ u, exec (.br hint gd off) s = .next u ∧ u.core.rg.sup = true ∧ u.pc = s.core.sys.trapvec.setWidth 16 ∧
      u.core.sys.trappc = pc.setWidth 64 ∧ u.core.sys.trapaddr = addr ∧
      u.core.sys.trapcause.extractLsb' 0 8 = cBoostDeferred ∧ u.core.sys.trapcause.extractLsb' 8 8 = cause ∧
      u.core.sys.boostinfo.extractLsb' 0 16 = x.pc ∧ u.core.rg.boost = lowered s.core.rg.boost ∧
      ∀ r : Reg, r ≠ 0 → (∀ y ∈ s.core.rg.boost, y.lvl = 1 → y.dst = .g r → y.fault ≠ none) → u.g r = s.g r) ∧
  (∀ (s : State) (f : EngFault) (rest : List EngFault), s.core.pend = f :: rest →
    (s.core.rg.sup = false → s.core.rg.status = .running →
      ∃ t, exec .pendingFaultTaken s = .next t ∧ t.core.pend = rest ∧ t.core.taken = s.core.taken ++ [f] ∧
        t.core.rg.sup = true ∧ t.pc = s.core.sys.trapvec.setWidth 16 ∧ t.core.sys.trappc = s.pc.setWidth 64 ∧
        t.core.sys.trapaddr = f.addr ∧ t.core.sys.trapcause.extractLsb' 0 8 = f.cause ∧
        t.core.sys.trapcause.extractLsb' 30 4 = BitVec.ofNat 4 f.unit_.src ∧
        t.core.rg.g = s.core.rg.g ∧ t.core.rg.k = s.core.rg.k ∧ t.core.eng = s.core.eng) ∧
    (s.core.rg.sup = true → exec .pendingFaultTaken s = .next s))

/-- R164, R32, R33: LOOP in user mode, with its guard true and a clean, legal record in the declared scratchpad, discards boost state,
pushes the record with the address behind LOOP as its return address, and goes to PSTART.
R34: what the innermost record does when user code reaches an address. At ESTART with iterations left the kernel repeats, with
the index register stepped; the last iteration falls into the epilogue; KSTART ends a prologue; with TRIP = 0 a fall-through to
KSTART goes to ESTART from any part of the record; EEND pops the record and returns;
elsewhere nothing but the PC moves.
R36, R165: LEXIT in user mode under a record, with k = g[ra] + imm. In the epilogue it only discards boost state. Otherwise, k
below the current iteration discards the later iterations and goes to ESTART; k between lowers TRIP; a larger k has no effect.
R36, R37: the discard of LEXIT keeps exactly the vector-queue and FIFO entries that no later iteration pushed, counts the queue
entries it removes in LDISC, and touches no MXQ entry and no copy channel. -/
def Obligations.HardwareLoops : Prop :=
  (∀ (gd : Guard) (imm : BitVec 16) (ra : Reg) (s : State),
    let f : SeqForm := ⟨8, 0, [ra], gd⟩
    let ea := (s.g ra).val + imm.signExtend 64
    let bs := s.core.stash.bytes ea.toNat 32
    let r := loopRecord bs ((s.pc + 8).setWidth 32)
    f.runs s = true → s.core.rg.sup = false → (s.g ra).bad = false → inScratch s ea 32 →
    markStalls s s.me ea.toNat 32 = false → s.core.stash.poisoned ea.toNat 32 = false → loopOffsetsOk r = true →
    loopReservedOk bs = true → s.core.rg.loops.length < 4 → (r.ixen = true → regDeclared s.core.decl r.ixreg = true) →
    (r.estart = r.kstart → r.trip = 0) →
    exec (.loop gd imm ra) s = .next (goTo (r.pstart.setWidth 16) (decide (r.pstart = r.kstart))
      ((countLoad (markSlots s.me ea.toNat 32 s)).updRg fun x => { x with boost := [], loops := r :: x.loops }))) ∧
  (∀ (s : State) (r : LoopRec) (rest : List LoopRec) (t : BitVec 16) (fall : Bool), s.core.rg.sup = false →
    s.core.rg.loops = r :: rest →
    let stepped := if r.ixen then s.setG r.ixreg (lift1 (· + r.ixstep.signExtend 64) (s.g r.ixreg)) else s
    let next := r.iter + 1
    (r.phase ≠ .epilogue → t.setWidth 32 = r.estart → r.iter.toNat + 1 < r.trip.toNat →
      goTo t fall s = atRecord stepped { r with iter := next, phase := .kernel } rest (r.kstart.setWidth 16) true) ∧
    (r.phase ≠ .epilogue → t.setWidth 32 = r.estart → r.iter.toNat + 1 = r.trip.toNat → r.estart ≠ r.eend →
      goTo t fall s = atRecord stepped { r with iter := next, phase := .epilogue } rest t true) ∧
    (r.phase = .prologue → t.setWidth 32 = r.kstart → r.kstart ≠ r.estart → r.trip ≠ 0 →
      goTo t true s = atRecord s { r with phase := .kernel } rest t true) ∧
    (r.trip = 0 → t.setWidth 32 = r.kstart → r.kstart ≠ r.estart → r.estart.toNat < 0x10000 → r.estart ≠ r.eend →
      (r.phase ≠ .epilogue → goTo t true s = atRecord s { r with phase := .epilogue } rest (r.estart.setWidth 16) true) ∧
      (r.phase = .epilogue → goTo t true s = atRecord s r rest (r.estart.setWidth 16) false)) ∧
    (r.kstart.toNat ≤ r.estart.toNat → r.estart.toNat ≤ r.eend.toNat →
      r.phase = .epilogue ∨ (r.eend ≠ r.estart ∧ r.eend ≠ r.kstart) → t.setWidth 32 = r.eend → rest = [] →
      goTo t true s = s.updRg fun x => { x with loops := [], pc := r.ret.setWidth 16, bound := false }) ∧
    (t.setWidth 32 ≠ r.estart → t.setWidth 32 ≠ r.kstart → t.setWidth 32 ≠ r.eend →
      goTo t fall s = s.updRg fun x => { x with pc := t, bound := false })) ∧
  (∀ (imm : BitVec 14) (ra : Reg) (s : State) (r : LoopRec) (rest : List LoopRec),
    (plainForm 4 [ra]).passes s = true → s.core.rg.sup = false → s.core.rg.loops = r :: rest → (s.g ra).bad = false →
    let k := ((s.g ra).val + imm.signExtend 64).setWidth 32
    let u := s.updRg fun x => { x with boost := [] }
    let inEpilogue := r.estart.toNat ≤ s.pc.toNat ∧ s.pc.toNat < r.eend.toNat
    let cut (s : State) (r : LoopRec) : State := s.updRg fun x => { x with loops := r :: rest }
    let v := discardAfter k.toNat u
    let undone := if r.ixen then v.setG r.ixreg (lift1 (fun a => a -
      BitVec.ofNat 64 (r.iter.toNat - k.toNat - 1) * r.ixstep.signExtend 64) (v.g r.ixreg)) else v
    (inEpilogue → exec (.lexit imm ra) s = .next (advance 4 u)) ∧
    (¬inEpilogue → k.toNat < r.iter.toNat → exec (.lexit imm ra) s =
      .next (goTo (r.estart.setWidth 16) false (cut undone { r with trip := k + 1, iter := k + 1 }))) ∧
    (¬inEpilogue → r.iter.toNat ≤ k.toNat → k.toNat + 1 < r.trip.toNat →
      exec (.lexit imm ra) s = .next (advance 4 (cut u { r with trip := k + 1 }))) ∧
    (¬inEpilogue → r.iter.toNat ≤ k.toNat → r.trip.toNat ≤ k.toNat + 1 → exec (.lexit imm ra) s = .next (advance 4 u))) ∧
  (∀ (k : Nat) (s : State),
    let t := discardAfter k s
    let late (g : IterTag) : Bool := match g with
      | .iter n => decide (k < n.toNat)
      | _ => false
    (∀ q, (t.core.eng.queue q).entries = (s.core.eng.queue q).entries.filter fun e => !late e.cap.tag) ∧
    t.core.eng.fifos = s.core.eng.fifos.map (fun f => f.filter fun e => !late e.tag) ∧
    t.core.eng.mxq = s.core.eng.mxq ∧ t.core.chans = s.core.chans ∧ t.core.rg.g = s.core.rg.g ∧
    t.core.rg.ldisc.extractLsb' 0 16 = BitVec.ofNat 16
      ((s.core.eng.vlq.entries ++ s.core.eng.vaq.entries ++ s.core.eng.vsq.entries).countP fun e => late e.cap.tag))

/-! ### Traps, mode, system registers -/

/-- R401, R206, R209, R211, R127: in user mode TRAP, ILL and an encoding that is no instruction take their trap: TRAPPC, TRAPCAUSE and
TRAPADDR are written, the mode is supervisor and the PC is TRAPVEC; a run in progress is frozen. No register, predicate, loop record or boost entry changes,
nor any other system register, memory or core. -/
def Obligations.TrapEntry : Prop :=
  ∀ (code : BitVec 14) (x : BitVec 24) (u : Unit32) (s : State), s.core.rg.sup = false →
    let entry (cause : Cause) (c : BitVec 14) (ret addr : Word) (fell : Option (BitVec 16)) : State :=
      s.upd fun k => { k with
        sys := { k.sys with trappc := ret, trapaddr := addr,
                            trapcause := 0#34 ++ c ++ 0#8 ++ cause },
        chans := k.chans.map fun ch => { ch with stopAt := false },
        rg := { k.rg with sup := true, pc := k.sys.trapvec.setWidth 16, bound := false, fellTo := fell,
                          boundAt := if k.rg.bound then some k.rg.pc else none,
                          run := k.rg.run.map fun r => { r with live := false } } }
    (s.pc.toNat + 4 < 65536 → exec (.trap code) s = .next (entry 0x09 code (s.pc.setWidth 64 + 4) 0 (some (s.pc + 4)))) ∧
    exec (.ill x) s = .next (entry 0x01 0 (s.pc.setWidth 64) (s.pc.setWidth 64) none) ∧
    exec (.reservedOpcode u) s = .next (entry 0x01 0 (s.pc.setWidth 64) (s.pc.setWidth 64) none)

/-- R210, R43, R166, R403: ERET in supervisor mode with a legal TRAPPC returns there in user mode, with registers, predicates and boost
state as they are, and each unit whose fault was delivered resumes, as does a run frozen at that address; a kernel-iteration boundary
at which the trap was taken is one again (R44). Whether the return counts as a fall-through, so that loop addresses apply, is the model's reading of R34, R209 and R210
(log entry 35). A misaligned TRAPPC kills with ALIGN, one in supervisor code
with PRIV; in user mode ERET takes PRIV. -/
def Obligations.ReturnFromTrap : Prop :=
  ∀ s : State,
    (s.core.rg.sup = true → s.core.sys.trappc.toNat % 4 = 0 → s.core.sys.trappc.toNat < 0xE000 →
      let pc := s.core.sys.trappc.setWidth 16
      let v := (s.core.taken.foldl (fun s f => resumeUnit s.me f s) s).upd fun k =>
        { k with taken := [], rg := { k.rg with sup := false, fellTo := none, boundAt := none,
                                                run := k.rg.run.map fun r => { r with live := decide (r.pc = pc) } } }
      exec .eret s = .next ((goTo pc (decide (s.core.rg.fellTo = some pc)) v).updRg fun x =>
        { x with bound := x.bound || decide (s.core.rg.boundAt = some x.pc) }) ∧ v.core.rg.g = s.core.rg.g ∧ v.core.rg.k = s.core.rg.k ∧
        v.core.rg.boost = s.core.rg.boost ∧ v.core.rg.loops = s.core.rg.loops ∧ v.core.sys = s.core.sys) ∧
    (s.core.rg.sup = true → s.core.sys.trappc.toNat % 4 ≠ 0 → exec .eret s = .next (killNodeOf s.me cAlign s)) ∧
    (s.core.rg.sup = true → s.core.sys.trappc.toNat % 4 = 0 → 0xE000 ≤ s.core.sys.trappc.toNat →
      exec .eret s = .next (killNodeOf s.me cPriv s)) ∧
    (s.core.rg.sup = false → exec .eret s = .next (takeTrap { cause := cPriv, addr := zext64 s.pc } s))

/-- R51, R205: in user mode SHED, a SYSW of any register but MODE and a SYSR of a supervisor register take PRIV, before any other
check.
R51, R405: a fault raised in supervisor mode kills the node: on a core without a gang the sequencer is killed, every queue is
empty, and the error log takes an entry with the cause and the core, if it has room; a core of a gang takes every member with it, and the node is FAILED.
R212, R414: SHED in supervisor mode with a clean selector that names an engine of the core's cluster resets that engine; a selector that
names none is a fault in supervisor mode and kills the node. -/
def Obligations.PrivilegeAndSupervisorFaults : Prop :=
  (∀ (s : State) (reg : SysReg) (r : Reg), s.core.rg.sup = false →
    let priv : Host.Outcome State Fault Refusal := .next (takeTrap { cause := cPriv, addr := zext64 s.pc } s)
    exec (.shed r) s = priv ∧ (reg ≠ .mode → exec (.sysw reg r) s = priv) ∧
    (reg ∈ [.trapvec, .trappc, .trapcause, .trapaddr, .boostinfo, .sscr0, .sscr1, .sscr2, .sscr3, .relquery, .winsel,
      .windesc0, .windesc1, .windesc2, .windesc3, .engarea] → exec (.sysr reg r) s = priv)) ∧
  (∀ (x : BitVec 24) (s : State), s.core.rg.sup = true → gangOf s s.me = none →
    ∃ t, exec (.ill x) s = .next t ∧ t.core.rg.status = .killed ∧ (∀ q, (t.core.eng.queue q).entries = []) ∧
      t.core.eng.mxq = [] ∧ t.core.rg.boost = [] ∧
      ((s.log.widx - s.log.ridx).toNat ≠ 4096 → t.log.widx = s.log.widx + 1 ∧
        (kget 0 t.log.ring (s.log.widx.toNat % 4096)).extractLsb' 136 8 = (0x01 : BitVec 8) ∧
        (kget 0 t.log.ring (s.log.widx.toNat % 4096)).extractLsb' 160 16 = BitVec.ofNat 16 s.me.val)) ∧
  (∀ (x : BitVec 24) (g : Gang) (s : State), s.core.rg.sup = true → gangOf s s.me = some g →
    ∃ t, exec (.ill x) s = .next t ∧ t = killGang g cIllegalInstr s.me.val s ∧
      (∀ c ∈ g.members, (t.coreAt c).rg.status = .killed ∧ (∀ q, ((t.coreAt c).eng.queue q).entries = []) ∧ (t.coreAt c).eng.mxq = [] ∧
        (t.coreAt c).boot.state = 5 ∧ (t.coreAt c).boot.code = 0x01) ∧
      (∀ c, c ∉ g.members → (t.coreAt c).rg = (s.coreAt c).rg) ∧ (∀ h ∈ t.sched.gangs, h.num = g.num → h.state = .killed) ∧
      ∀ n, findNode s g.node = some n → (∀ m ∈ t.sched.nodes, m.id ≠ g.node) ∧
        ((s.log.widx - s.log.ridx).toNat ≠ 4096 → t.log.widx = s.log.widx + 1 ∧
          (kget 0 t.log.ring (s.log.widx.toNat % 4096)).extractLsb' 136 8 = (0x01 : BitVec 8) ∧
          (kget 0 t.log.ring (s.log.widx.toNat % 4096)).extractLsb' 160 16 = BitVec.ofNat 16 s.me.val)) ∧
  (∀ (ga : Reg) (s : State), s.core.rg.sup = true → (s.g ga).bad = false →
    (selectorOk (s.g ga).val = true → selectorNear s.me (s.g ga).val = true →
      exec (.shed ga) s = .next (advance 4 (shedEngine (s.g ga).val s))) ∧
    (selectorOk (s.g ga).val = false → exec (.shed ga) s = .next (killNodeOf s.me cIllegalInstr s)) ∧
    (selectorOk (s.g ga).val = true → selectorNear s.me (s.g ga).val = false →
      exec (.shed ga) s = .next (killNodeOf s.me cPriv s)))

/-- R37, R205: SYSR of a register that the mode may read writes what it reads to its destination, clean. CORE_ID is the core's number,
DCC the cycle counter, LITER the depth and iteration of the loop stack. RELQUERY reads so while its round's tracking is defined;
otherwise its two counts are free.
R9, R79, R96, R118, R205, R206, R208, R458: SYSW of every register but WINDESC2 in supervisor mode, and of MODE in either mode:
the register then reads as its rule says, no other register reads otherwise, and nothing outside the core's own control state
changes. A poisoned source gives its value, and the poison is dropped: the model's choice (log entry 61). -/
def Obligations.SystemRegisters : Prop :=
  (∀ (reg : SysReg) (rd : Reg) (s : State), (plainForm 4 [rd]).passes s = true →
    (s.core.rg.sup = true ∨ reg ∈ [.coreId, .gangId, .ctxId, .nodeArg, .dcc, .mode, .srseed, .liter, .ldisc, .mxmiss, .werr]) →
    (reg ≠ .relquery ∨ s.core.sys.relfree = false →
      exec (.sysr reg rd) s = .next (advance 4 (s.setG rd ⟨sysRead s reg, false⟩))) ∧
    (reg = .relquery → s.core.sys.relfree = true → ∃ w : Word, w.extractLsb' 32 32 = (sysRead s reg).extractLsb' 32 32 ∧
      exec (.sysr reg rd) s = .next (advance 4 ({ s with free := s.free + 1 }.setG rd ⟨w, false⟩))) ∧
    (sysRead s .coreId).toNat = s.me.val ∧ sysRead s .dcc = s.dcc ∧ sysRead s .mode = s.core.rg.mode ∧
    sysRead s .trappc = s.core.sys.trappc ∧ sysRead s .trapcause = s.core.sys.trapcause ∧
    (s.core.rg.loops.length ≤ 4 → (sysRead s .liter).extractLsb' 32 3 = BitVec.ofNat 3 s.core.rg.loops.length ∧
      (sysRead s .liter).extractLsb' 0 32 = ((s.core.rg.loops.head?).map (·.iter)).getD 0)) ∧
  (∀ (reg : SysReg) (ra : Reg) (s : State), (plainForm 4 [ra]).passes s = true → reg ≠ .windesc2 →
    (s.core.rg.sup = true ∨ reg = .mode) →
    ∃ t, exec (.sysw reg ra) s = .next (advance 4 t) ∧
      sysRead t reg = sysAfter s reg (sysRead s reg) (s.g ra).val ∧
      (∀ q, sysLinked reg q = false → sysRead t q = sysRead s q) ∧
      (∃ rg sys wins, t = s.upd fun k => { k with rg := rg, sys := sys, wins := wins }) ∧
      t.core.rg.g = s.core.rg.g ∧ t.core.rg.k = s.core.rg.k ∧ t.pc = s.pc ∧ t.core.rg.sup = s.core.rg.sup)

/-- R57, R60, R208: SYSW of WINDESC2 performs the core's earlier stores, unmaps the selected window if it was VALID, and puts the
new descriptor in place; a descriptor with VALID that breaks R57 is refused with STASH_BOUNDS: nothing of it is put in place, and as the
instruction is of supervisor mode the fault kills the node (R51). A poisoned source gives its value, for SRSEED too: the model's choice (log entry 61).
R118, R203: SETMODE writes the fields that it selects and leaves every other bit of MODE and SRSEED. -/
def Obligations.WindowsAndModes : Prop :=
  (∀ (ra : Reg) (s : State), s.core.rg.sup = true →
    let d := { selectedWin s.core with w2 := (s.g ra).val }
    let u := drainStores s.me s
    let v := if (selectedWin u.core).valid then unmapWindow u.me u.core.sys.winsel u else u
    ((d.valid = true → windowOk s.core s.core.sys.winsel.toNat d = true) →
      exec (.sysw .windesc2 ra) s = .next (advance 4 (v.upd fun k => { k with wins := vset k.sys.winsel d k.wins }))) ∧
    (d.valid = true → windowOk s.core s.core.sys.winsel.toNat d = false →
      exec (.sysw .windesc2 ra) s = .next (killNodeOf s.me cStashBounds s))) ∧
  (∀ (fields : BitVec 4) (gd : Guard) (imm : BitVec 16) (ra : Reg) (s : State),
    let f : SeqForm := ⟨8, 0, [ra], gd⟩
    f.runs s = true →
    ∃ m seed, exec (.setmode fields gd imm ra) s = .next (advance 8 (s.updRg fun x => { x with mode := m, srseed := seed })) ∧
      seed = (if fields.getLsbD 3 then (s.g ra).val else s.core.rg.srseed) ∧
      ∀ i, m.getLsbD i =
        if i < 3 ∧ fields.getLsbD 0 = true ∨ (i = 3 ∨ i = 4) ∧ fields.getLsbD 1 = true ∨
          (i = 5 ∨ i = 6) ∧ fields.getLsbD 2 = true then imm.getLsbD i else s.core.rg.mode.getLsbD i)

/-- R48, R167, R177 to R179, R211: NOP falls through; HALT of user code discards boost state and halts; YIELD in supervisor mode and
under a loop record falls through, without its boost state in user mode; outside one it asks for its gang's stop where the ready pool wants the cores, and the core stops
there if it may (R47); WAIT with its counts met falls through; FENCEM sets its
markers, that of the channels at the record that each channel in WALK walks; JOIN falls through when they are reached, which it consumes, and waits until then; MARK
performs the core's stores. -/
def Obligations.ControlCompletes : Prop :=
  ∀ s : State,
    exec .nop s = .next (advance 4 s) ∧
    (s.core.rg.sup = false → exec .halt s = .next (s.updRg fun x => { x with boost := [], status := .halted })) ∧
    (s.core.rg.sup = true → exec .halt s = .next (killNodeOf s.me (s.core.sys.trapcause.setWidth 8) s)) ∧
    (s.core.rg.sup = true → exec .yield s = .next (advance 4 s)) ∧
    (s.core.rg.sup = false → s.core.rg.loops ≠ [] → exec .yield s =
      .next (advance 4 (s.updRg fun x => { x with boost := [] }))) ∧
    (s.core.rg.sup = false → s.core.rg.loops = [] →
      let u := s.updRg fun x => { x with boost := [], pc := x.pc + 4, bound := false }
      (gangOf s s.me = none → exec .yield s = .next u) ∧
      ∀ g, gangOf s s.me = some g →
        (g.state ≠ .running ∨ yieldWanted u g = false → exec .yield s = .next u) ∧
        (g.state = .running → yieldWanted u g = true →
          let v := requestStops [g] u
          let stops := (∃ h, findGang v g.num = some h ∧ h.state = .stopping) ∧ atPoint v s.me = true ∧ s.core.pend = []
          (stops → exec .yield s = .next (stopCore s.me v)) ∧ (¬stops → exec .yield s = .next v))) ∧
    (∀ mx cp st ld : BitVec 6, (ld = 63 ∨ s.core.loadsOut ≤ ld.toNat) →
      (gathering s.core = true ∨ st = 63 ∨ s.core.stores.length ≤ st.toNat) →
      (cp = 63 ∨ (s.core.chans.toList.countP fun ch => decide (ch.state = .walk ∨ ch.state = .tail)) ≤ cp.toNat) →
      (mx = 63 ∨ s.core.eng.mxq.length ≤ mx.toNat) → exec (.wait mx cp st ld) s = .next (advance 4 s)) ∧
    (∀ (mask : BitVec 6) (rel : Bool) (scope : Scope), ∃ fence : Fence,
      exec (.fencem mask rel scope) s = .next (advance 4 (s.upd fun k => { k with fence := some fence })) ∧
      fence.mask = mask ∧ fence.rel = (if rel then some scope else none) ∧ fence.psn = s.core.rg.psn.toNat ∧ fence.store = s.core.storeNo ∧
      ∀ n e, (n, e) ∈ fence.chans ↔ (vget n s.core.chans).state = .walk ∧ e = (vget n s.core.chans).ended) ∧
    (∀ (k : Core) (f : Fence), fenceReached k f = true ↔
      (f.mask.getLsbD 0 = true → ∀ e ∈ k.eng.vlq.entries, f.psn ≤ e.cap.psn) ∧ (f.mask.getLsbD 1 = true → ∀ e ∈ k.eng.vaq.entries, f.psn ≤ e.cap.psn) ∧
      (f.mask.getLsbD 2 = true → ∀ e ∈ k.eng.vsq.entries, f.psn ≤ e.cap.psn) ∧ (f.mask.getLsbD 3 = true → ∀ e ∈ k.eng.mxq, f.psn ≤ e.cap.psn) ∧
      (f.mask.getLsbD 4 = true → ∀ ne ∈ f.chans, ne.2 < (vget ne.1 k.chans).ended) ∧
      (f.mask.getLsbD 5 = true → ∀ p ∈ k.stores, f.store ≤ p.seqno) ∧
      (f.rel = some .system → gathering k = false → ∀ p ∈ k.stores, p.region = .hostWc → f.store ≤ p.seqno)) ∧
    (∀ f, s.core.fence = some f → fenceReached s.core f = true →
      exec .join s = .next (advance 4 (s.upd fun k => { k with fence := none }))) ∧
    (∀ f, s.core.fence = some f → fenceReached s.core f = false → exec .join s = .next s) ∧
    (s.core.fence = none → exec .join s = .next (advance 4 s)) ∧
    exec .mark s = .next (advance 4 (drainStores s.me s))

/-! ### Barriers, mailboxes, events, tokens -/

/-- R182: BAR.INIT of a declared barrier sets INIT and EXPECT and clears every other field. An arrival of the sequencer, at its own
barrier or at one of its gang's cores, first performs the core's stores, then adds its increment, saturating at 65,535 with an
error.
R17, R49, R181, R182: a barrier index outside the declaration, INIT with EXPECT 0, an arrival at a barrier that is not initialised, and
an arrival at a core outside the gang or above 319 take BARRIER_BOUNDS with the barrier's index; so does an arrival at a barrier that the target core has not
declared or initialised. A poisoned count or increment gives its value (log entry 33), and in gathered-count mode the arrival orders only the issue of stores (log entry
57): the model's readings. -/
def Obligations.BarrierArrivals : Prop :=
  (∀ (b : BitVec 6) (n : Bool) (gb ga : Reg) (s : State), (plainForm 4 [ga, gb]).passes s = true →
    let inc := if n then ((s.g gb).val.extractLsb' 0 16).toNat else 1
    let e := (s.g ga).val.extractLsb' 0 16
    let u := releaseStores s.me s
    (b.toNat < s.core.decl.barriers → e ≠ 0 → exec (.barInit b ga) s = .next (advance 4 (s.upd fun k =>
      { k with bars := vset b ⟨0, 0, 0, e, 0, false, false, true⟩ k.bars }))) ∧
    (b.toNat < s.core.decl.barriers → (vget b u.core.bars).init = true → exec (.barArrive b n gb) s = .next (advance 4
      (u.upd fun k => { k with bars := vset b (arrived (vget b k.bars) inc false 0 s.me.val) k.bars }))) ∧
    (∀ c : CoreId, (s.g ga).bad = false → (s.g ga).val.extractLsb' 0 10 = BitVec.ofNat 10 c.val → sameGang s s.me c = true →
      b.toNat < (s.coreAt c).decl.barriers → (vget b (u.coreAt c).bars).init = true →
      exec (.barArriver b n gb ga) s = .next (advance 4 (u.updCore c fun k =>
        { k with bars := vset b (arrived (vget b k.bars) inc false 0 s.me.val) k.bars })))) ∧
  (∀ (b : BitVec 6) (n : Bool) (gb ga : Reg) (s : State), (plainForm 4 [ga, gb]).passes s = true →
    let bounds : Host.Outcome State Fault Refusal :=
      .next (takeTrap { cause := cBarrierBounds, addr := BitVec.ofNat 64 b.toNat } s)
    (s.core.decl.barriers ≤ b.toNat → exec (.barInit b ga) s = bounds ∧ exec (.barArrive b n gb) s = bounds ∧
      exec (.barWait b ga) s = bounds ∧ exec (.barCnt b ga) s = bounds) ∧
    ((s.g ga).val.extractLsb' 0 16 = 0 → exec (.barInit b ga) s = bounds) ∧
    ((vget b (releaseStores s.me s).core.bars).init = false → exec (.barArrive b n gb) s = bounds) ∧
    ((s.g ga).bad = false → 320 ≤ ((s.g ga).val.extractLsb' 0 10).toNat → exec (.barArriver b n gb ga) s = bounds) ∧
    (∀ c : CoreId, (s.g ga).bad = false → (s.g ga).val.extractLsb' 0 10 = BitVec.ofNat 10 c.val →
      (sameGang s s.me c = false ∨ (s.coreAt c).decl.barriers ≤ b.toNat ∨ (vget b ((releaseStores s.me s).coreAt c).bars).init = false →
        exec (.barArriver b n gb ga) s = bounds)))

/-- R183, R49: BAR.WAIT and BAR.CNT of a declared barrier. WAIT with enough arrivals reads the word, takes EXPECT arrivals, toggles PHASE
and clears the error fields, as one step, an error raising no fault; with too few it waits without effect; not initialised it
takes BARRIER_BOUNDS. CNT reads the counts, 0 if the barrier is not initialised. -/
def Obligations.BarrierReads : Prop :=
  ∀ (b : BitVec 6) (ga : Reg) (s : State), (plainForm 4 [ga]).passes s = true → b.toNat < s.core.decl.barriers →
    let x := vget b s.core.bars
    (x.init = false → exec (.barWait b ga) s =
      .next (takeTrap { cause := cBarrierBounds, addr := BitVec.ofNat 64 b.toNat } s)) ∧
    (x.init = true → x.arrived < x.expect → exec (.barWait b ga) s = .next s) ∧
    (x.init = true → x.expect ≤ x.arrived → exec (.barWait b ga) s = .next (advance 4 ((s.upd fun k =>
      { k with bars := vset b ⟨x.cntw, 0, 0, x.expect, x.arrived - x.expect, false, !x.phase, true⟩ k.bars }).setG ga
        ⟨BitVec.ofBool x.err ++ 0#7 ++ x.estat ++ 0#6 ++ x.esrc ++ x.cntw, false⟩))) ∧
    exec (.barCnt b ga) s = .next (advance 4 (s.setG ga
      ⟨if x.init then x.expect ++ x.arrived ++ x.cntw else 0, false⟩))

/-- R17, R184, R94: MBX on a mailbox of the gang. SEND appends g[gb] above g[ga] while fewer than 8 entries are held, after the core's
stores, and waits at 8; RECV removes the oldest entry into its two registers and waits on an empty mailbox; POLL reads the number
held. Poison travels with the entry, but stops a SEND to a mailbox that the host sees. A mailbox not assigned to the gang takes
BARRIER_BOUNDS with 0x100 above its number.
R185, R386, R387: EVT.SIGNAL of an event that the context owns performs the core's stores and adds to the count, saturating at
2^32 - 1; EVT.READ reads the count; another event takes PROT with its number. In gathered-count mode SEND and SIGNAL order only the issue of the
stores (R79; the model's choice, log entry 57). -/
def Obligations.MailboxesAndEvents : Prop :=
  (∀ (m : BitVec 4) (gb ga : Reg) (s : State), (plainForm 4 [ga, gb]).passes s = true →
    (∀ (i : BitVec 4) (x : MBox), mailboxOf s m = some (i, x) →
      let bad := (s.g ga).bad || (s.g gb).bad
      let put (u : State) (l : List (BitVec 128 × Bool)) : State :=
        u.updCluster (clusterOf s.me) fun k => { k with mbox := vset i { x with fifo := l } k.mbox }
      ((bad = true → hostMailboxes s = false) → x.fifo.length < 8 → exec (.mbxSend m gb ga) s = .next (advance 4
        (put (releaseStores s.me s) (x.fifo ++ [((s.g gb).val ++ (s.g ga).val, bad)])))) ∧
      (bad = true → hostMailboxes s = true →
        exec (.mbxSend m gb ga) s = .next (takeTrap { cause := cPoison, addr := 0 } s)) ∧
      ((bad = true → hostMailboxes s = false) → 8 ≤ x.fifo.length → exec (.mbxSend m gb ga) s = .next s) ∧
      (∀ e p rest, x.fifo = (e, p) :: rest → exec (.mbxRecv m gb ga) s = .next (advance 4
        (((put s rest).setG ga ⟨e.extractLsb' 0 64, p⟩).setG gb ⟨e.extractLsb' 64 64, p⟩))) ∧
      (x.fifo = [] → exec (.mbxRecv m gb ga) s = .next s) ∧
      exec (.mbxPoll m ga) s = .next (advance 4 (s.setG ga ⟨BitVec.ofNat 64 x.fifo.length, false⟩))) ∧
    (mailboxOf s m = none →
      let bounds : Host.Outcome State Fault Refusal :=
        .next (takeTrap { cause := cBarrierBounds, addr := BitVec.ofNat 64 (0x100 + m.toNat) } s)
      exec (.mbxSend m gb ga) s = bounds ∧ exec (.mbxRecv m gb ga) s = bounds ∧ exec (.mbxPoll m ga) s = bounds)) ∧
  (∀ (gb ga : Reg) (s : State), (plainForm 4 [ga, gb]).passes s = true → (s.g ga).bad = false → (s.g gb).bad = false →
    let e := ((s.g ga).val.extractLsb' 0 16).toNat
    let f := ((s.g gb).val.extractLsb' 0 16).toNat
    let inc := (s.g gb).val.extractLsb' 0 32
    (ownsEvent (s.ctx s.core.ctx) e = true →
      exec (.evtSignal gb ga) s = .next (advance 4 (signalEvent e inc (releaseStores s.me s)))) ∧
    (∀ u, (evGet (signalEvent e inc u) e).count.toNat = min ((evGet u e).count.toNat + inc.toNat) (2 ^ 32 - 1)) ∧
    (ownsEvent (s.ctx s.core.ctx) e = false →
      exec (.evtSignal gb ga) s = .next (takeTrap { cause := cProt, addr := BitVec.ofNat 64 e } s)) ∧
    (ownsEvent (s.ctx s.core.ctx) f = true →
      exec (.evtRead gb ga) s = .next (advance 4 (s.setG ga ⟨(evGet s f).count.setWidth 64, false⟩))) ∧
    (ownsEvent (s.ctx s.core.ctx) f = false →
      exec (.evtRead gb ga) s = .next (takeTrap { cause := cProt, addr := BitVec.ofNat 64 f } s)))

/-- R186: on an S core TOK.SIG waits until the count has room for n, then adds it after the core's stores; TOK.WAITT waits until the count
reaches n, then takes it; n = 0 completes at once. On an M core both are ILLEGAL_INSTR. That a poisoned count does not fault is the model's reading of
R94 (log entry 33). Their words are page 1, op6 0x0A,
sub-operations 0 and 1. -/
def Obligations.Tokens : Prop :=
  (∀ (t : BitVec 3) (ga : Reg) (s : State),
    let n := ((s.g ga).val.extractLsb' 0 16).toNat
    let x := (vget t s.core.xs.tk).toNat
    let put (u : State) (v : Nat) : State :=
      u.upd fun k => { k with xs := { k.xs with tk := vset t (BitVec.ofNat 16 v) k.xs.tk } }
    (8 ≤ s.me.val % 10 → (plainForm 4 [ga]).passes s = true →
      (x + n ≤ 65535 → exec (.tokSig t ga) s = .next (advance 4 (put (drainStores s.me s) (x + n)))) ∧
      (65535 < x + n → exec (.tokSig t ga) s = .next s) ∧
      (n ≤ x → exec (.tokWaitt t ga) s = .next (advance 4 (put s (x - n)))) ∧
      (x < n → exec (.tokWaitt t ga) s = .next s)) ∧
    (s.me.val % 10 < 8 → exec (.tokSig t ga) s = .next (takeTrap { cause := cIllegalInstr, addr := zext64 s.pc } s) ∧
      exec (.tokWaitt t ga) s = .next (takeTrap { cause := cIllegalInstr, addr := zext64 s.pc } s))) ∧
  ∀ (t : BitVec 3) (ga : Reg) (v lit : Unit32),
    decodeControl (0#8 ++ (0#3 ++ t) ++ 0#5 ++ ga ++ 0x0A#6 ++ 1#2) v lit = .ok (.tokSig t ga) ∧
    decodeControl (1#8 ++ (0#3 ++ t) ++ 0#5 ++ ga ++ 0x0A#6 ++ 1#2) v lit = .ok (.tokWaitt t ga)

/-! ### Requests -/

/-- R171 to R173, R76: a page-1 request to an engine whose feature is accepted, on an assigned object, takes a slot behind the core's
earlier requests after its stores; with all 16 slots taken it waits without effect; an unassigned object takes BARRIER_BOUNDS with
its engine's code.
R171, R175, R42: PUT forms the request from g[ga] and g[gb]: the object in bits [63:58], the argument in the rest. Without its boost flag
it issues like a page-1 request; with it, in user mode and with fewer than 4 held, the request waits in the boost buffer, and the
engine has seen nothing. -/
def Obligations.RequestsIssued : Prop :=
  (∀ (i : Instr) (o : ReqOp) (s : State), reqOp i = some o → engineFeature s o.eng = true →
    (plainForm 4 [o.ga, o.gb]).passes s = true →
    (∀ t, objectOf s s.me o.eng o.obj.toNat = some t → slotsOf s.core o.eng < 16 →
      exec i s = .next (advance 4 (issued o.eng o.obj t o.sub o.nores (s.g o.ga) (s.g o.gb) s))) ∧
    (∀ t, objectOf s s.me o.eng o.obj.toNat = some t → 16 ≤ slotsOf s.core o.eng → exec i s = .next s) ∧
    (objectOf s s.me o.eng o.obj.toNat = none → exec i s =
      .next (takeTrap { cause := cBarrierBounds, addr := BitVec.ofNat 64 (objectBase o.eng + o.obj.toNat) } s))) ∧
  (∀ (eng : EngineId) (sub : BitVec 4) (nores : Bool) (gb ga : Reg) (s : State), engineFeature s eng = true →
    (plainForm 4 [ga, gb]).passes s = true →
    (∀ t, (s.g ga).bad = false →
      objectOf s s.me eng ((s.g ga).val.extractLsb' 58 6).toNat = some t → slotsOf s.core eng < 16 →
      exec (.put eng sub nores false gb ga) s = .next (advance 4 (issued eng ((s.g ga).val.extractLsb' 58 6) t sub nores
        ⟨((s.g ga).val.extractLsb' 0 58).setWidth 64, (s.g ga).bad⟩ (s.g gb) s))) ∧
    (∀ t, s.core.rg.sup = false →
      (s.core.rg.boost.countP fun x => match x.dst with
        | .put _ => true
        | _ => false) < 4 →
      (readG s.core 1 ga).bad = false → objectOf s s.me eng ((readG s.core 1 ga).val.extractLsb' 58 6).toNat = some t →
      let a := readG s.core 1 ga
      let p : HeldPut := ⟨eng, sub, nores, a.val.extractLsb' 58 6, ⟨(a.val.extractLsb' 0 58).setWidth 64, a.bad⟩,
        readG s.core 1 gb⟩
      exec (.put eng sub nores true gb ga) s = .next (advance 4 (s.updRg fun x =>
        { x with boost := x.boost ++ [⟨1, .put p, 0, false, none, s.pc⟩] }))))

/-- R174: GET without an unpopped request that has a result is ILLEGAL_INSTR with TRAPADDR 0x600 plus the engine's number, requests with
nores not counting; it waits for the oldest such request's element, then pops it into its register with its poison and frees the
slot. Its word is Q form, op6 0x14. -/
def Obligations.GetResults : Prop :=
  (∀ (eng : EngineId) (ga : Reg) (s : State), (plainForm 4 [ga]).passes s = true →
    ((∀ r ∈ s.core.reqs, r.eng = eng → r.nores = true) → exec (.get eng ga) s =
      .next (takeTrap { cause := cIllegalInstr, addr := 0x600 + eng.code.setWidth 64 } s)) ∧
    (∀ r before after, s.core.reqs = before ++ r :: after → r.eng = eng → r.nores = false →
      (∀ x ∈ before, x.eng = eng → x.nores = true) →
      (r.result = none → exec (.get eng ga) s = .next s) ∧
      (∀ e bad, r.result = some (e, bad) → exec (.get eng ga) s = .next (advance 4 ((s.upd fun k =>
        { k with reqs := k.reqs.filter fun x => decide (x.order ≠ r.order) }).setG ga ⟨e, bad⟩))))) ∧
  ∀ (eng : EngineId) (ga : Reg) (v lit : Unit32),
    decodeControl (0#8 ++ eng.code ++ 0#5 ++ ga ++ 0x14#6 ++ 0#2) v lit = .ok (.get eng ga)

/-! ### Channels, runs, subscriptions, ranges -/

/-- R188, R189, R80: CPS.STAT reads state, status and record address; CPS.WMARK the watermark in WALK, 0 elsewhere; CPS.START, with a clean
aligned head and the channel not walking, ends a record halted by COPY_XLATE and walks from the head, or goes IDLE at head 0; CPS.STOP turns TAIL to
STOPPED, leaves the other resting states, and in WALK lets the current record complete first.
R20 to R22, R169, R137, R138: VRUN, and MRUN on an M core, whose words all pass their checks complete where the queues have room for them: they
perform the core's stores and push every word in order, each with what it captures at its
moment; a count of 0 only falls through; a run that is in progress at the PC pushes the words it has left, and a word that finds its queue full keeps the sequencer in
the run; words beyond the word memory are ILLEGAL_INSTR with the first word's number.
R20 to R22, R35, R119, R250: a vector word is pushed where every queue of its class holds fewer than 32 entries, and only there. It stands last in each of them, with
the values of the registers that it names, the mode bits, the seed, the shape,
the iteration tag and the push sequence number and vector order index of the moment, which advance; VMODE first changes the fields of the mode and the seed that it
selects; nothing else changes in the whole device. A matrix word stands last in MXQ, which holds 16, with the mode bits, the seed, the tag and the push sequence number;
it names no register.
R170, R13: XRUN on an S core, with first below 4,096 and at most 65,535 runs, appends one entry after the core's stores while fewer than 4
are held, and waits at 4; 0 runs only fall through; larger arguments are ILLEGAL_INSTR with first; an M core takes
ILLEGAL_INSTR. -/
def Obligations.EngineRuns : Prop :=
  (∀ (c : BitVec 3) (ga : Reg) (s : State), (plainForm 4 [ga]).passes s = true →
    let ch := vget c s.core.chans
    let code : BitVec 4 := match ch.state with
      | .idle => 0
      | .walk => 1
      | .tail => 2
      | .idleTail => 3
      | .stopped => 4
      | .halted => 5
    let put (u : State) (x : Chan → Chan) : State :=
      u.upd fun k => { k with chans := vset c (x (vget c k.chans)) k.chans }
    let d := drainStores s.me s
    let u := if ch.state = .halted then endRecord s.me c d else d
    exec (.cpsStat c ga) s = .next (advance 4 (s.setG ga ⟨code ++ ch.status ++ ch.va.extractLsb' 0 52, false⟩)) ∧
    exec (.cpsWmark c ga) s = .next (advance 4 (s.setG ga
      ⟨if ch.state = .walk then BitVec.ofNat 64 ch.wmark else 0, false⟩)) ∧
    ((s.g ga).bad = false → (s.g ga).val.toNat % 128 = 0 → ch.state ≠ .walk → exec (.cpsStart c ga) s = .next (advance 4
      (put u fun x => { x with state := if (s.g ga).val = 0 then .idle else .walk,
                               head := if (s.g ga).val = 0 then x.head else (s.g ga).val,
                               va := if (s.g ga).val = 0 then x.va else (s.g ga).val,
                               wmark := 0, twait := false, reread := 0, stopAt := false, resume := none }))) ∧
    ((s.g ga).bad = false → (s.g ga).val.toNat % 128 = 0 → ch.state = .walk → exec (.cpsStart c ga) s = .next s) ∧
    (ch.state ≠ .walk → exec (.cpsStop c) s = .next (advance 4 (put s fun x =>
      { x with state := if x.state = .tail then .stopped else x.state, stopAt := false }))) ∧
    (ch.state = .walk → exec (.cpsStop c) s = .next (put s fun x => { x with stopAt := true }))) ∧
  (∀ (imm8 : BitVec 8) (gb ga : Reg) (s : State), (plainForm 4 [ga, gb]).passes s = true →
    (∀ r ∈ s.core.rg.run, r.pc = s.pc → r.live = false) → (s.g ga).bad = false → (imm8 = 0 → (s.g gb).bad = false) →
    let first := (s.g ga).val.toNat
    let count := if imm8 = 0 then (s.g gb).val.toNat else imm8.toNat
    let pushed (push : Nat → State → Option State) : Option State :=
      (List.range count).foldl (fun u i => u.bind (push (first + i))) (some (drainStores s.me s))
    let done (u : State) : State := advance 4 (u.updRg fun x => { x with run := x.run.filter fun r => decide (r.pc ≠ x.pc) })
    (count = 0 → exec (.vrun imm8 gb ga) s = .next (advance 4 s)) ∧
    (4096 < first + count → count ≠ 0 →
      exec (.vrun imm8 gb ga) s = .next (takeTrap { cause := cIllegalInstr, addr := (s.g ga).val } s)) ∧
    (count ≠ 0 → first + count ≤ 4096 → checkVectors count first s.core.eng.shape s = .ok () →
      ((∀ q, (s.core.eng.queue q).entries.length + count ≤ 32) →
        ∃ u, pushed pushVector = some u ∧ exec (.vrun imm8 gb ga) s = .next (done u)) ∧
      (∀ u, pushed pushVector = some u → exec (.vrun imm8 gb ga) s = .next (done u)) ∧
      ∀ j u, j < count → (List.range j).foldl (fun u i => u.bind (pushVector (first + i))) (some (drainStores s.me s)) = some u →
        pushVector (first + j) u = none → exec (.vrun imm8 gb ga) s = .next (u.updRg fun x => { x with
          run := ⟨x.pc, first + j, first + count, true⟩ :: x.run.filter fun r => decide (r.pc ≠ x.pc) })) ∧
    (s.me.val % 10 < 8 →
      (count = 0 → exec (.mrun imm8 gb ga) s = .next (advance 4 s)) ∧
      (count ≠ 0 → first + count ≤ 1024 → checkMatrices count first s = .ok () →
        (s.core.eng.mxq.length + count ≤ 16 → ∃ u, pushed pushMatrix = some u ∧ exec (.mrun imm8 gb ga) s = .next (done u)) ∧
        ∀ u, pushed pushMatrix = some u → exec (.mrun imm8 gb ga) s = .next (done u))) ∧
    (8 ≤ s.me.val % 10 →
      exec (.mrun imm8 gb ga) s = .next (takeTrap { cause := cIllegalInstr, addr := zext64 s.pc } s))) ∧
  (∀ (imm8 : BitVec 8) (gb ga : Reg) (s u : State) (r : RunIdx),
    (s.core.rg.run.find? fun x => decide (x.pc = s.pc) && x.live) = some r →
    (List.range (r.stop - r.next)).foldl (fun u i => u.bind (pushVector (r.next + i))) (some (drainStores s.me s)) = some u →
    exec (.vrun imm8 gb ga) s =
      .next (advance 4 (u.updRg fun x => { x with run := x.run.filter fun r => decide (r.pc ≠ x.pc) }))) ∧
  (∀ (i : Nat) (s : State) (word : Instr), decodeVector (kget 0 s.core.vmem i) = .ok word →
    let op := (wordOf word).1
    let w := (wordOf word).2
    let qs := queuesOf op
    let reg (n : Nat) : Word := match (namedRegs op w)[n]? with
      | some r => (s.g r).val
      | none => 0
    ((∃ q ∈ qs, 32 ≤ (s.core.eng.queue q).entries.length) → pushVector i s = none) ∧
    ((∀ q ∈ qs, (s.core.eng.queue q).entries.length < 32) → ∃ m seed : Word,
      (op ≠ 0xC5 → m = s.core.rg.mode ∧ seed = s.core.rg.srseed) ∧
      (op = 0xC5 → seed = (if w.aux.getLsbD 3 then (s.g (w.aux.extractLsb' 11 5)).val else s.core.rg.srseed) ∧
        ∀ j, m.getLsbD j =
          if j < 3 ∧ w.aux.getLsbD 0 = true ∨ (j = 3 ∨ j = 4) ∧ w.aux.getLsbD 1 = true ∨ (j = 5 ∨ j = 6) ∧ w.aux.getLsbD 2 = true then
            w.aux.getLsbD (j + 4) else s.core.rg.mode.getLsbD j) ∧
      let e : VEntry := ⟨word, ⟨i, reg 0, reg 1, m.extractLsb' 0 7, seed, s.core.rg.psn.toNat, tagNow s.core⟩, s.core.rg.voi.toNat, s.core.eng.shape⟩
      let add (q : VQ) (x : VQueue) : VQueue := if q ∈ qs then { x with entries := x.entries ++ [e] } else x
      pushVector i s = some ((s.updEng fun g =>
        { g with vlq := add .vlq g.vlq, vaq := add .vaq g.vaq, vsq := add .vsq g.vsq, shape := shapeAfter op w g.shape }).updRg fun x =>
          { x with mode := m, srseed := seed, psn := x.psn + 1, voi := x.voi + 1 }))) ∧
  (∀ (i : Nat) (s : State) (word : Instr), decodeMatrix (kget 0 s.core.mmem i) = .ok word →
    (16 ≤ s.core.eng.mxq.length → pushMatrix i s = none) ∧
    (s.core.eng.mxq.length < 16 →
      let c : Capture := ⟨i, 0, 0, s.core.rg.mode.extractLsb' 0 7, s.core.rg.srseed, s.core.rg.psn.toNat, tagNow s.core⟩
      pushMatrix i s = some ((s.updEng fun g => { g with mxq := g.mxq ++ [⟨word, c, false, none⟩] }).updRg fun x => { x with psn := x.psn + 1 }))) ∧
  (∀ (imm8 : BitVec 8) (gb ga : Reg) (s : State),
    let n := if imm8 = 0 then (s.g gb).val else imm8.setWidth 64
    (8 ≤ s.me.val % 10 → (plainForm 4 [ga, gb]).passes s = true → (s.g ga).bad = false → (imm8 = 0 → (s.g gb).bad = false) →
      ((s.g ga).val.toNat < 4096 → n.toNat ≤ 65535 → n ≠ 0 → s.core.xs.runs.length < 4 →
        exec (.xrun imm8 gb ga) s = .next (advance 4 ((drainStores s.me s).upd fun k =>
          { k with xs := { k.xs with runs := k.xs.runs ++
              [⟨(s.g ga).val.setWidth 12, n.toNat, 0, k.rg.mode.extractLsb' 0 7, k.rg.srseed⟩] } }))) ∧
      ((s.g ga).val.toNat < 4096 → n = 0 → exec (.xrun imm8 gb ga) s = .next (advance 4 s)) ∧
      ((s.g ga).val.toNat < 4096 → n.toNat ≤ 65535 → n ≠ 0 → 4 ≤ s.core.xs.runs.length →
        exec (.xrun imm8 gb ga) s = .next s) ∧
      (4096 ≤ (s.g ga).val.toNat ∨ 65535 < n.toNat →
        exec (.xrun imm8 gb ga) s = .next (takeTrap { cause := cIllegalInstr, addr := (s.g ga).val } s))) ∧
    (s.me.val % 10 < 8 →
      exec (.xrun imm8 gb ga) s = .next (takeTrap { cause := cIllegalInstr, addr := zext64 s.pc } s)))

/-- R200, R195, R196, R76: KVC with clean arguments on a ready barrier performs the core's stores and hands the commit to its
cluster's unit. RFLUSH and RINVAL with a clean, legal record in the declared scratchpad and a ready barrier do so and hand the range to
their die's cache walker while it holds fewer than 64, and wait at 64. A barrier that is not ready takes BARRIER_BOUNDS at each of the three.
R81, R82, R87, R193, R194: LDSTAND with its feature, a free aligned slot address in the declared stash and a word of LOCAL or
POOL_BI memory ends the slot's old subscription and subscribes it, writing its 8 bytes; UNSTAND writes the pushes in flight, clears
ACTIVE and leaves no entry of the slot at any home. -/
def Obligations.CommitsRangesSubscriptions : Prop :=
  (∀ (b : BitVec 6) (gb ga : Reg) (s : State), (plainForm 4 [ga, gb]).passes s = true → (s.g ga).bad = false →
    (s.g gb).bad = false →
    let a := (s.g ga).val
    let m := markSlots s.me a.toNat 32 s
    let w (i : Nat) : Word := BitVec.ofNat 64 (leVal (s.core.stash.bytes (a.toNat + 8 * i) 8))
    let base := ((w 0).extractLsb' 0 52).toNat
    let rowlen := ((w 1).extractLsb' 0 32).toNat
    let count := ((w 1).extractLsb' 32 32).toNat
    let handed (inval : Bool) : State := (drainStores s.me m).updDie (dieOf s.me) fun d => { d with walker := d.walker ++
      [⟨s.me, s.core.ctx, inval, b, BitVec.ofNat 64 base, rowlen, count, (w 2).toInt⟩] }
    (barReady s.core b = true → exec (.kvc b gb ga) s = .next (advance 4 ((drainStores s.me s).updCluster (clusterOf s.me)
      fun k => { k with kvc := k.kvc ++ [⟨s.me, a, (s.g gb).val.extractLsb' 0 32, b, s.core.ctx, s.core.gang⟩] }))) ∧
    (barReady s.core b = false → exec (.kvc b gb ga) s =
      .next (takeTrap { cause := cBarrierBounds, addr := BitVec.ofNat 64 b.toNat } s)) ∧
    (inScratch s a 32 → markStalls s s.me a.toNat 32 = false → s.core.stash.poisoned a.toNat 32 = false →
      (w 0).extractLsb' 52 12 = 0 → w 3 = 0 → rangeOk base rowlen count (w 2).toInt = true → barReady s.core b = true →
      (s.die (dieOf s.me)).walker.length < 64 →
      exec (.rflush b ga) s = .next (advance 4 (handed false)) ∧ exec (.rinval b ga) s = .next (advance 4 (handed true))) ∧
    (inScratch s a 32 → markStalls s s.me a.toNat 32 = false → s.core.stash.poisoned a.toNat 32 = false →
      (w 0).extractLsb' 52 12 = 0 → w 3 = 0 → rangeOk base rowlen count (w 2).toInt = true →
      (barReady s.core b = true → 64 ≤ (s.die (dieOf s.me)).walker.length →
        exec (.rflush b ga) s = .next s ∧ exec (.rinval b ga) s = .next s) ∧
      (barReady s.core b = false →
        exec (.rflush b ga) s = .next (takeTrap { cause := cBarrierBounds, addr := BitVec.ofNat 64 b.toNat } s) ∧
        exec (.rinval b ga) s = .next (takeTrap { cause := cBarrierBounds, addr := BitVec.ofNat 64 b.toNat } s)))) ∧
  ((∀ (slot : BitVec 4) (acq : Bool) (scope : Scope) (gd : Guard) (imm : BitVec 16) (rc rb ra : Reg) (s t : State) (x : Xl),
    let f : SeqForm := ⟨8, 0, [ra, rb, rc], gd⟩
    let ea := (s.g ra).val + (s.g rb).val + imm.signExtend 64
    let sa := (s.g rc).val + BitVec.ofNat 64 (8 * slot.toNat)
    f.runs s = true → s.feature 0 = true → cleanAt s 0 [ra, rb, rc] → sa.toNat % 8 = 0 →
    sa.toNat + 8 ≤ s.core.decl.stash →
    (∀ i : BitVec 4, i ≠ slot → (vget i s.core.slots).active = true → (vget i s.core.slots).sa.toNat ≠ sa.toNat) →
    0x100000 ≤ ea.toNat → ea.toNat < 2 ^ 52 → ea.toNat % 4 = 0 →
    translate s.me s.core.ctx ea.toNat .read s = .ok (t, x) → x.region = .lcl ∨ x.region = .poolBi →
    markStalls t s.me ea.toNat 4 = false →
    exec (.ldstand slot acq scope gd imm rc rb ra) s = .next (advance 8 (countLoad
      (subscribe s.me slot ea (sa.setWidth 20) scope acq x.loc x.region (drainBefore x 4 (unsubscribe s.me slot t)))))) ∧
  ∀ (slot : BitVec 4) (s : State),
    exec (.unstand slot) s = .next (advance 4 (unsubscribe s.me slot s)) ∧
    (vget slot (unsubscribe s.me slot s).core.slots).active = false ∧
    ((vget slot s.core.slots).active = true →
      ∀ u ∈ (unsubscribe s.me slot s).subs, ¬(u.core = s.me ∧ u.slot = slot)))

/-- R201, R346: APPROX.BEGIN of a declared region, with the feature accepted, performs the core's stores. Without a record, or in a state that
runs the true code, it opens an invocation and falls through; where the region serves and the invocation is not sampled, the surrogate's
results go to the OUT locations and the PC goes behind END; in VALIDATE, and sampled in SERVE, BEGIN evaluates the surrogate. APPROX.END without an open invocation of its region falls through; with one, in
OBSERVE or TRAIN, it closes it and appends a clean sample.
R347, R349, R351: in VALIDATE END takes a clean sample with its error, and the VSAMP-th decides between SERVE with its counters 0 and TRAIN. A sampled invocation of SERVE with clean inputs sets SAMPLED
and LASTERR; an error that is NaN or above TRIP also counts in TRIPS, makes the region FALLBACK, or INVALID without weights, signals EVT[N], and raises FIT_TRIP behind END
where FLAGS says so. An END in FALLBACK, OFF or INVALID, of an invocation that is not clean in VALIDATE or SERVE, or of one whose region has left the state it began in, only falls through. That an event
which the context does not own is not signalled is the model's reading (log entry 14). -/
def Obligations.ApproximableRegions : Prop :=
  (∀ (region : BitVec 4) (s : State), s.feature 1 = true → objectOf s s.me .fe region.toNat ≠ none →
    (let b := bindRegion s.me region (drainStores s.me s)
     let opened (i : Invocation) (u : State) : State := advance 4 (u.upd fun k => { k with inv := some i })
     ((∀ r, b.2 ≠ .record r) → exec (.approxBegin region) s = .next (opened ⟨region, 0, false, false, [], []⟩ b.1)) ∧
     ∀ r, b.2 = .record r → (plainForm 4 (placeRegs r.desc.ins)).passes b.1 = true →
      let ins := readPlaces b.1 r.desc.ins
      let n := (r.invoc + 1) % 2 ^ 28
      let u := putRecord (clusterOf b.1.me) { r with invoc := n } b.1
      let goesTo : Int := (r.desc.end_.toNat + 4 : Nat)
      let sur := surrogate r.desc r.weights ins.1
      (r.state ≠ 4 → r.state ≠ 5 → exec (.approxBegin region) s =
        .next (opened ⟨region, r.state, false, ins.2, ins.1, if r.state = 3 then sur else []⟩ b.1)) ∧
      (r.state = 5 → exec (.approxBegin region) s = .next (opened ⟨region, 5, false, ins.2, ins.1, []⟩ u)) ∧
      (r.state = 4 → (ins.2 = false ∨ n % 2 ^ r.sexp = 0) →
        exec (.approxBegin region) s = .next (opened ⟨region, 4, true, ins.2, ins.1, sur⟩ u)) ∧
      (r.state = 4 → ins.2 = true → n % 2 ^ r.sexp ≠ 0 → targetOk u goesTo →
        (plainForm 4 (placeRegs r.desc.outs)).passes u = true →
        exec (.approxBegin region) s = .next (goTo (BitVec.ofInt 16 goesTo) false
          (((r.desc.outs.zip sur).foldl (fun v p => writePlace p.1 p.2 v) u).upd fun k =>
            { k with inv := none })))) ∧
    ((∀ i, s.core.inv = some i → i.region ≠ region) → exec (.approxEnd region) s = .next (advance 4 s)) ∧
    ∀ i r, s.core.inv = some i → i.region = region →
      let v := (drainStores s.me s).upd fun k => { k with inv := none }
      (v.core.gang.bind fun g => findRecord v (clusterOf v.me) g region) = some r →
      (plainForm 4 (placeRegs r.desc.outs)).passes v = true →
      (i.state = 1 ∨ i.state = 2) → (r.state = 1 ∨ r.state = 2) → i.clean = true →
      (readPlaces v r.desc.outs).2 = true →
      exec (.approxEnd region) s = .next (advance 4
        (putRecord (clusterOf v.me) (captureSample r (i.ins ++ (readPlaces v r.desc.outs).1)) v))) ∧
  (∀ (region : BitVec 4) (s : State) (i : Invocation) (r : FeRec), s.feature 1 = true → objectOf s s.me .fe region.toNat ≠ none →
    s.core.inv = some i → i.region = region →
    let v := (drainStores s.me s).upd fun k => { k with inv := none }
    let put (x : FeRec) : State := putRecord (clusterOf v.me) x v
    (v.core.gang.bind fun g => findRecord v (clusterOf v.me) g region) = some r →
    (plainForm 4 (placeRegs r.desc.outs)).passes v = true →
    let outs := readPlaces v r.desc.outs
    let e := sampleError i.sur outs.1
    let trips := (val32 e).isNan = true ∨ fltVal (val32 r.trip) (val32 e) = true
    (i.state = 3 → r.state = 3 → i.clean = true → outs.2 = true → exec (.approxEnd region) s =
      .next (advance 4 (put (validateSample r (i.ins ++ outs.1) e)))) ∧
    (i.state = 3 → r.state = 3 → i.clean = false ∨ outs.2 = false → exec (.approxEnd region) s = .next (advance 4 v)) ∧
    (i.state = 4 → r.state = 4 → i.sampled = true → i.clean = true →
      let r1 : FeRec := { r with sampled := (r.sampled + 1) % 2 ^ 24, lasterr := e }
      let r2 : FeRec := { r1 with trips := (r.trips + 1) % 2 ^ 32, state := if r.flags.getLsbD 0 then 6 else 5,
                                  weights := if r.flags.getLsbD 0 then [] else r.weights }
      let w := signalTrip region (put r2)
      (¬trips → exec (.approxEnd region) s = .next (advance 4 (put r1))) ∧
      (trips → r.flags.getLsbD 1 = false → exec (.approxEnd region) s = .next (advance 4 w)) ∧
      (trips → r.flags.getLsbD 1 = true → exec (.approxEnd region) s = .next (takeTrap
        { cause := cFitTrip, addr := BitVec.ofNat 64 (region.toNat * 2 ^ 32 + e.toNat), src := 8,
          ret := some (w.pc + 4).toNat, fall := true } w))) ∧
    (i.state = 4 → r.state = 4 → i.sampled = false ∨ i.clean = false → exec (.approxEnd region) s = .next (advance 4 v)) ∧
    (r.state = 0 ∨ 5 ≤ r.state → exec (.approxEnd region) s = .next (advance 4 v)) ∧
    (i.state ≠ r.state → ¬((i.state = 1 ∨ i.state = 2) ∧ (r.state = 1 ∨ r.state = 2)) →
      exec (.approxEnd region) s = .next (advance 4 v))) ∧
  (∀ (r : FeRec) (x : List (BitVec 32)) (e : BitVec 32), r.state = 3 →
    let t := validateSample r x e
    let worst := maxError r.lasterr e
    t.nval = r.nval + 1 ∧ t.lasterr = worst ∧ t.vbuf = putSample r.vbuf r.nval x ∧ t.weights = r.weights ∧
    (r.nval + 1 < r.desc.vsamp → t.state = 3 ∧ t.invoc = r.invoc ∧ t.sampled = r.sampled) ∧
    (r.desc.vsamp ≤ r.nval + 1 → fltVal (val32 worst) (val32 r.desc.valt) = true → t.state = 4 ∧ t.invoc = 0 ∧ t.sampled = 0) ∧
    (r.desc.vsamp ≤ r.nval + 1 → fltVal (val32 worst) (val32 r.desc.valt) = false →
      t.state = 2 ∧ t.stepsDone = 0 ∧ t.ncap = 0)) ∧
  ∀ (n : BitVec 4) (s t : State) (bs : List Byte) (bad : Bool),
    globalRead s.me s.core.ctx ((s.ctx s.core.ctx).fearea.toNat + 2 * n.toNat) 2 s = .ok (t, bs, bad) →
    signalTrip n s = if leVal bs ≠ 0xFFFF ∧ ownsEvent (t.ctx s.core.ctx) (leVal bs) = true then signalEvent (leVal bs) 1 t else t

/-! ### Vector words -/

/-- R20 to R30, R215, R216, R219: a compute word at the head of its queue that may begin and is not passed over reads its sources, gives
every enabled element its new code, writes D, sets INV and OVF as some enabled element does, and leaves its queue; nothing else changes. The
first element that raises CONVERT_TRAP halts the queue with the element's number and nothing is written. A source FIFO that is empty makes
the word wait.
R30, R224, R231 to R237: the words on rows, masks and groups, of the types that they offer, complete likewise with what they give for D,
X and m. A word of either kind that is passed over pops its source FIFOs, pushes an empty entry to a D FIFO with room, and
writes nothing else. -/
def Obligations.VectorRowWords : Prop :=
  (∀ (i : Instr) (f : VIn → Nat → Nat → Nat → Nat → Conv) (e : VEntry) (s : State),
    elementFn i = some f → e.word = i → headReady s e → passedOver s e = false →
    (sourcesOf e s.core.eng = .error .stall → exec i s = .next s) ∧
    ∀ (g : Engines) (a b : List Row), sourcesOf e s.core.eng = .ok (g, a, b) →
      let w := (wordOf i).2
      let v := inputOf e (enables s e) g a b
      let n := e.shape.rows * e.shape.cols
      let cell (j : Nat) : Conv := cellAt f (sourceHalf e) v (j / e.shape.cols) (j % e.shape.cols)
      ((∀ j < n, enabled v.en j = true → cell j ≠ .trap) → roomFor w.d g →
        ∃ g', putDest w.d (halfBytes v.t) e.shape.cols v.en (cellBlock f (sourceHalf e) v) e.cap.tag g = .ok g' ∧
          exec i s = .next (dropHead (orFlags s.me (someCell f (sourceHalf e) v invOf) (someCell f (sourceHalf e) v ovfOf)
            (s.updEng fun _ => g')))) ∧
      ∀ j < n, enabled v.en j = true → cell j = .trap → (∀ k < j, enabled v.en k = true → cell k ≠ .trap) →
        exec i s = .next (queueFault { cause := cConvertTrap, addr := BitVec.ofNat 64 j } s)) ∧
  ((∀ (i : Instr) (f : VIn → R VOut) (e : VEntry) (s : State) (g : Engines) (a b : List Row),
    rowFn i = some f → e.word = i → headReady s e → passedOver s e = false →
    sourcesOf e s.core.eng = .ok (g, a, b) → (computeForm (wordOf i).1).ty (wordOf i).2.type.toNat = true →
    roomFor (wordOf i).2.d g →
    ∃ o g', f (inputOf e (enables s e) g a b) = .ok o ∧ putOut (inputOf e (enables s e) g a b) o = .ok g' ∧
      exec i s = .next (dropHead (orFlags s.me o.inv o.ovf (s.updEng fun _ => g')))) ∧
  ∀ (i : Instr) (e : VEntry) (s : State) (g : Engines) (a b : List Row),
    (elementFn i ≠ none ∨ rowFn i ≠ none) → e.word = i → headReady s e → passedOver s e = true →
    sourcesOf e s.core.eng = .ok (g, a, b) → roomFor (wordOf i).2.d g →
    let w := (wordOf i).2
    let toFifo := w.d.kind = true ∧ (computeForm (wordOf i).1).d = .regFifo
    let x := emptyEntry (destHalf (wordOf i).1 w) e.shape.rows e.cap.tag
    exec i s = .next (dropHead (s.updEng fun _ =>
      if toFifo then fifoSet w.d.index.toNat (fifoGet g w.d.index.toNat ++ [x]) g else g)))

/-- R214 to R216, R26, R30, R93: an element of a row that is written keeps every other element; a block written to a register changes the rows
of its descriptor that have an enabled element and no other row, with the poison that R93 gives; a FIFO takes entries in order and gives the
oldest back, and an element size or row count that differs is ILLEGAL_INSTR.
R105, R114, R122, R221, R222, R227: on integer elements a sum, difference or product is taken modulo 2^w, or clamped to the type's range with OVF
under sat; the lesser and the greater compare as numbers; a shift by the width or more gives 0 or the sign. A NaN among the operands of an FL
word gives the canonical NaN, and INV if one is signalling. -/
def Obligations.VectorArithmetic : Prop :=
  ((∀ (half base : Nat) (en : BitVec 4096) (vals : List Nat) (old : BitVec 512) (c : Nat),
    half = 1 ∨ half = 2 ∨ half = 4 ∨ half = 8 → vals.length * half ≤ 128 → c * half + half ≤ 128 →
    elemAt half (putElems half base en vals old) c =
      if c < vals.length ∧ enabled en (base + c) = true then vals.getD c 0 % 2 ^ (4 * half) else elemAt half old c) ∧
  (∀ (half cols : Nat) (en : BitVec 4096) (b : Block) (d : Desc) (g : Engines) (r row : Nat),
    kwf ⟨0, false⟩ g.v = true → d.step.toNat < 4 → d.offset.toNat + (b.length - 1) * stepOf d ≤ 31 → r < 32 → row < 32 →
    let g' := putBlock half cols en b d.index.toNat (descRow d) g
    ((∀ i < b.length, r = d.index.toNat → row = descRow d i → anyEnabled (i * cols) cols en = false) →
      vRow g' r row = vRow g r row) ∧
    ∀ (i : Nat) (x : List Nat × Bool), b[i]? = some x → anyEnabled (i * cols) cols en = true →
      vRow g' d.index.toNat (descRow d i) =
        ⟨putElems half (i * cols) en x.1 (vRow g d.index.toNat (descRow d i)).bits,
         x.2 || ((vRow g d.index.toNat (descRow d i)).bad &&
           !(decide (cols * half = 128) && allEnabled (i * cols) cols en))⟩) ∧
  ∀ (d : Desc) (half cols rows idx : Nat) (en : BitVec 4096) (b : Block) (tag : IterTag) (g : Engines),
    (d.kind = false → putDest d half cols en b tag g = .ok (putBlock half cols en b d.index.toNat (descRow d) g) ∧
      source .regFifo d half rows idx g = .ok (g, regRows g d d.index.toNat rows, BitVec.allOnes 4096)) ∧
    (d.kind = true → d.index.toNat < 6 →
      ((fifoGet g d.index.toNat).length < 4 → ∃ g', putDest d half cols en b tag g = .ok g' ∧
        fifoGet g' d.index.toNat = fifoGet g d.index.toNat ++ [fifoBlock half cols en b tag] ∧
        ∀ j < 6, j ≠ d.index.toNat → fifoGet g' j = fifoGet g j) ∧
      (4 ≤ (fifoGet g d.index.toNat).length → putDest d half cols en b tag g = .error .stall) ∧
      (fifoGet g d.index.toNat = [] → source .regFifo d half rows idx g = .error .stall) ∧
      ∀ x rest, fifoGet g d.index.toNat = x :: rest →
        (x.half = half → x.rows.length = rows → ∃ g', source .regFifo d half rows idx g = .ok (g', x.rows, x.en) ∧
          fifoGet g' d.index.toNat = rest) ∧
        (¬(x.half = half ∧ x.rows.length = rows) →
          source .regFifo d half rows idx g = .error (.trap { cause := cIllegalInstr, addr := BitVec.ofNat 64 idx })))) ∧
  ((∀ (v : VIn) (n a b x : Nat), 9 ≤ v.t → v.t ≤ 15 → a < 2 ^ widthOf v.t → b < 2 ^ widthOf v.t → x < 2 ^ widthOf v.t →
    let w := widthOf v.t
    (v.w.sat = false →
      arith2 0 v n a b x = .ok ((a + b) % 2 ^ w) false false ∧
      arith2 1 v n a b x = .ok ((a + (2 ^ w - b)) % 2 ^ w) false false ∧
      arith2 2 v n a b x = .ok (a * b % 2 ^ w) false false ∧
      arith3 v n a b x = .ok ((a * b + x) % 2 ^ w) false false ∧
      shiftLeft v n a b x = .ok (if b < w then a * 2 ^ b % 2 ^ w else 0) false false) ∧
    (v.w.sat = true → ∀ (op : Nat) (r : Int), op < 3 →
      r = (if op = 0 then intOf v.t a + intOf v.t b else if op = 1 then intOf v.t a - intOf v.t b
        else intOf v.t a * intOf v.t b) →
      intOf v.t (arith2 op v n a b x).code = max (intMin v.t) (min (intMax v.t) r) ∧
      ovfOf (arith2 op v n a b x) = decide (r < intMin v.t ∨ intMax v.t < r)) ∧
    (∀ mx : Bool, intOf v.t (minMax mx v n a b x).code =
      if mx then max (intOf v.t a) (intOf v.t b) else min (intOf v.t a) (intOf v.t b)) ∧
    (shiftRight v n a b x).code = (if b < w then a / 2 ^ b else 0) ∧
    (isSigned v.t = true → intOf v.t (shiftArith v n a b x).code = intOf v.t a / (2 ^ min b w : Nat))) ∧
  ∀ (v : VIn) (op n a b x : Nat), v.t ≤ 2 → (decodeNum v.t a).isNan = true ∨ (decodeNum v.t b).isNan = true →
    arith2 op v n a b x = .ok (nanCode v.t) (isSNaN v.t a || isSNaN v.t b) false)

/-- R238 to R244, R93: VLD, VLDX and VLDB whose enabled elements lie in the declared scratchpad give D the elements of each row, little-endian, 0 for
a row whose index is 0xFFFF, with the poison of the bytes read. VST and VSTX write the enabled elements there and no other
byte, and pop a source FIFO. Nothing else changes.
R242, R30: VLDZ reads from the declared scratchpad one record for each row, an 8-byte mask and the bytes of its ones, each behind the one before;
VSTZ writes such records. A load that is passed over pushes an empty entry to a D FIFO with room and reads nothing. -/
def Obligations.StashRowWords : Prop :=
  (∀ (i : Instr) (op8 : Nat) (w : VWord) (e : VEntry) (s : State), wordOf i = (op8, w) → e.word = i → headReady s e →
    unwatched s →
    (i = .vld w ∨ i = .vldx w ∨ i = .vldb w →
      let ix := indexRow s.core.eng w.a
      (passedOver s e = false → piecesOk s op8 w e (enables s e) ix → roomFor w.d s.core.eng →
        ∃ g', putDest w.d (halfBytes w.type.toNat) e.shape.cols (enables s e)
            ((List.range e.shape.rows).map (loadedRow s.core.stash op8 w e (enables s e) ix)) e.cap.tag s.core.eng = .ok g' ∧
          exec i s = .next (dropHead (s.updEng fun _ => g')))) ∧
    (i = .vst w ∨ i = .vstx w →
      ∀ (g : Engines) (rows : List Row) (fen : BitVec 4096),
        source .regFifo w.a (halfBytes w.type.toNat) e.shape.rows e.cap.idx s.core.eng = .ok (g, rows, fen) →
        let ix := indexRow g w.b
        let ps := storedPieces op8 w e (enables s e &&& fen) ix rows
        (passedOver s e = false → rows.length = e.shape.rows → piecesOk s op8 w e (enables s e &&& fen) ix →
          exec i s = .next (dropHead (stashWrites s.me ps (s.updEng fun _ => g))) ∧
          ∀ b, s.core.stash.wf = true → (∀ p ∈ ps, b < p.1 ∨ p.1 + p.2.1.length ≤ b) →
            (dropHead (stashWrites s.me ps (s.updEng fun _ => g))).core.stash.byte b = s.core.stash.byte b) ∧
        (passedOver s e = true → exec i s = .next (dropHead (s.updEng fun _ => g))))) ∧
  ((∀ (w : VWord) (e : VEntry) (s : State), e.word = .vldz w → headReady s e → unwatched s → passedOver s e = false →
    roomFor w.d s.core.eng →
    let m := s.core.stash
    let a := (memBase w e.cap).toNat
    let at_ (i : Nat) : Nat := recordFrom m a i
    at_ e.shape.rows ≤ s.core.decl.stash → s.core.decl.stash ≤ 0x100000 →
    ∃ g', putDest w.d (halfBytes w.type.toNat) e.shape.cols (enables s e)
        ((List.range e.shape.rows).map fun i =>
          (rowCodes w.type.toNat e.shape.cols (recordAt m (at_ i)).1, (recordAt m (at_ i)).2.1))
        e.cap.tag s.core.eng = .ok g' ∧
      exec (.vldz w) s = .next (dropHead (s.updEng fun _ => g'))) ∧
  (∀ (w : VWord) (e : VEntry) (s : State) (g : Engines) (rows : List Row) (fen : BitVec 4096),
    e.word = .vstz w → headReady s e → passedOver s e = false →
    source .regFifo w.a (halfBytes w.type.toNat) e.shape.rows e.cap.idx s.core.eng = .ok (g, rows, fen) →
    rows.length = e.shape.rows →
    let en := enables s e &&& fen
    let recs := ((List.range e.shape.rows).zip rows).map fun ir => (packRecord (storeImage w.type.toNat
      e.shape.cols (ir.1 * e.shape.cols) en true ir.2), ir.2.bad)
    let a := (memBase w e.cap).toNat
    a + (recs.map fun r => r.1.length).sum ≤ s.core.decl.stash → s.core.decl.stash ≤ 0x100000 →
    exec (.vstz w) s = .next (dropHead (stashWrites s.me (recordPieces a recs) (s.updEng fun _ => g)))) ∧
  ∀ (i : Instr) (w : VWord) (e : VEntry) (s : State), (i = .vld w ∨ i = .vldx w ∨ i = .vldb w ∨ i = .vldz w) →
    e.word = i → headReady s e → passedOver s e = true → roomFor w.d s.core.eng →
    let x := emptyEntry (halfBytes w.type.toNat) e.shape.rows e.cap.tag
    exec i s = .next (dropHead (s.updEng fun g =>
      if w.d.kind then fifoSet w.d.index.toNat (fifoGet g w.d.index.toNat ++ [x]) g else g)))

/-- R28, R29, R31, R119, R213, R246 to R252: the copies of the vector-control words at the head of a queue. VAQ evaluates a mask word or VSKIP and sends the new
top, or the decision, to the copies in VLQ and VSQ, which wait for it and take it; a ninth level, or an empty stack, is ILLEGAL_INSTR. A
skipped mask word, VSKIP or VSIGNAL only leaves; that a skipped VSHAPE takes effect all the same is the model's reading (log entry 38). VSIGNAL arrives for each queue that it selects. -/
def Obligations.VectorControlWords : Prop :=
  ∀ (w : VWord) (e : VEntry) (s : State), headReady s e →
    let q := s.queue
    let ones := BitVec.allOnes 4096
    let fault (c : Cause) (a : Nat) : Host.Outcome State Fault Refusal :=
      .next (queueFault { cause := c, addr := BitVec.ofNat 64 a } s)
    let evaluated (l : List (BitVec 4096)) : Host.Outcome State Fault Refusal :=
      .next (dropHead (forwardMsg (.top e.voi (l.headD ones)) (s.updQueue fun q => { q with masks := l })))
    let copied (l : List (BitVec 4096)) : Host.Outcome State Fault Refusal :=
      .next (dropHead (takeMsg e.voi (s.updQueue fun q => { q with masks := l })))
    let passed := s.updQueue fun q => { q with skipTo := some (e.voi + auxBits w 0 8) }
    (e.word = .vnop w → exec (.vnop w) s = .next (dropHead s)) ∧
    (e.word = .vmode w → exec (.vmode w) s = .next (dropHead s)) ∧
    (e.word = .vshape w → exec (.vshape w) s =
      .next (dropHead (s.updQueue fun q => { q with shape := ⟨auxBits w 0 5 + 1, auxBits w 5 8⟩ }))) ∧
    (∀ i, (i = .vmpush w ∨ i = .vminv w ∨ i = .vmpop w ∨ i = .vskip w ∨ i = .vsignal w) → e.word = i → skipped q e = true →
      exec i s = .next (dropHead s)) ∧
    (skipped q e = false → s.focus.vq = .vaq →
      (e.word = .vmpush w → exec (.vmpush w) s =
        if q.masks.length < 8 then evaluated ((q.masks.headD ones &&& vget (w.aux.extractLsb' 0 3) s.core.eng.m) :: q.masks)
        else fault cIllegalInstr e.cap.idx) ∧
      (e.word = .vminv w → exec (.vminv w) s = match q.masks with
        | [] => fault cIllegalInstr e.cap.idx
        | t :: rest => evaluated ((rest.headD ones &&& ~~~t) :: rest)) ∧
      (e.word = .vmpop w → exec (.vmpop w) s = match q.masks with
        | [] => fault cIllegalInstr e.cap.idx
        | _ :: rest => evaluated rest) ∧
      (e.word = .vskip w → exec (.vskip w) s = .next (dropHead
        (forwardMsg (.skip e.voi (decide (q.masks.headD ones = 0))) (if q.masks.headD ones = 0 then passed else s))))) ∧
    (skipped q e = false → s.focus.vq ≠ .vaq →
      (∀ i, (i = .vmpush w ∨ i = .vminv w ∨ i = .vmpop w ∨ i = .vskip w) → e.word = i → findMsg q e.voi = none →
        exec i s = .next s) ∧
      (∀ n m, findMsg q e.voi = some (.top n m) →
        (e.word = .vmpush w → exec (.vmpush w) s = copied (m :: q.masks)) ∧
        (e.word = .vminv w → exec (.vminv w) s = copied (m :: q.masks.tail)) ∧
        (e.word = .vmpop w → exec (.vmpop w) s = copied q.masks.tail)) ∧
      ∀ n yes, findMsg q e.voi = some (.skip n yes) → e.word = .vskip w →
        exec (.vskip w) s = .next (dropHead (takeMsg e.voi (if yes then passed else s)))) ∧
    (e.word = .vsignal w → skipped q e = false →
      let b := w.aux.extractLsb' 0 6
      let bit := match s.focus.vq with
        | .vlq => w.aux.getLsbD 6
        | .vaq => w.aux.getLsbD 7
        | .vsq => w.aux.getLsbD 8
      (bit = false → exec (.vsignal w) s = .next (dropHead s)) ∧
      (bit = true → ∀ c : CoreId, (if w.aux.getLsbD 14 then bits e.cap.r1 9 0 = c.val else c = s.me) →
        (sameGang s s.me c = true → b.toNat < (s.coreAt c).decl.barriers → (vget b (s.coreAt c).bars).init = true →
          exec (.vsignal w) s = .next (dropHead (s.updCore c fun k =>
            { k with bars := vset b (arrived (vget b k.bars) 1 false 0 s.me.val) k.bars }))) ∧
        (sameGang s s.me c = false ∨ (s.coreAt c).decl.barriers ≤ b.toNat ∨ (vget b (s.coreAt c).bars).init = false →
          exec (.vsignal w) s = fault cBarrierBounds b.toNat)))

/-! ### The matrix engine -/

/-- R124, R254, R257 to R260, R262 to R265, R269: a matrix word at the head of MXQ whose latch is full gives its rows from the latch, leaves the queue,
and changes nothing else. A stamp ahead of DCC holds it unless a stop token is in the core; one that has passed is a schedule miss, which faults, or issues late
and is counted. -/
def Obligations.MatrixWords : Prop :=
  (∀ (i : Instr) (e : MEntry) (s : State), e.word = i → matrixReady s e → (stampGate e s = .go ∨ stampGate e s = .late) →
    let g := s.core.eng
    let gives (a : BitVec 2) (row : Nat → (List Nat × Bool × Bool) × Bool) : Host.Outcome State Fault Refusal :=
      .next (leavesMxq s e (putAcc a.toNat ((List.range 96).map row) s))
    (∀ w, i = .mzero w → exec i s = .next (leavesMxq s e (s.updEng fun g =>
      (List.range 96).foldl (fun g r => accSet w.acc.toNat r ⟨0, false⟩ g) g))) ∧
    (∀ w, i = .msync w → exec i s = .next (leavesMxq s e s)) ∧
    (∀ w l, i = .mma w → e.latch = some l → w.afmt ≠ 15 → w.bfmt ≠ 15 →
      exec i s = gives w.acc (mmaRow w w.afmt.toNat w.bfmt.toNat (modeFtz e.cap.mode) l g)) ∧
    (∀ w l, i = .mma w → e.latch = some l → ∃ fa fb, exec i s = gives w.acc (mmaRow w fa fb (modeFtz e.cap.mode) l g)) ∧
    (∀ w l, i = .mlda w → e.latch = some l → exec i s = gives w.acc fun r =>
      let a := mAbase w + r * w.apitch.toNat
      (((List.range 96).map (stashElem l.mem a 8), false, false), l.mem.poisoned a 384)) ∧
    (∀ w l, i = .madda w → e.latch = some l → exec i s = gives w.acc fun r =>
      addedRow e.cap l w.afmt.toNat (mAbase w + r * w.apitch.toNat) (accGet g w.acc.toNat r)) ∧
    (∀ w l, i = .mbias w → e.latch = some l → exec i s = gives w.acc fun r =>
      addedRow e.cap l w.bfmt.toNat (mBbase w) (accGet g w.acc.toNat r)) ∧
    (∀ w, i = .mxfr w →
      let rows : List Row := (List.range ((w.aaddr.extractLsb' 13 6).toNat + 1)).map fun q =>
        let r := accGet g w.acc.toNat ((w.aaddr.extractLsb' 6 7).toNat + q)
        ⟨r.bits.extractLsb' (512 * (w.aaddr.extractLsb' 19 3).toNat) 512, r.bad⟩
      let d := (w.aaddr.extractLsb' 0 5).toNat
      (w.aaddr.getLsbD 5 = false → exec i s = .next (leavesMxq s e (s.updEng fun g =>
        ((List.range rows.length).zip rows).foldl (fun g qr => setVRow d ((w.aaddr.extractLsb' 22 5).toNat + qr.1) qr.2 g) g))) ∧
      (w.aaddr.getLsbD 5 = true → (fifoGet g d).length < 4 → exec i s = .next (leavesMxq s e (s.updEng fun g =>
        fifoSet d (fifoGet g d ++ [⟨rows, BitVec.ofNat 4096 (2 ^ (16 * rows.length) - 1), 8, e.cap.tag⟩]) g))) ∧
      (w.aaddr.getLsbD 5 = true → 4 ≤ (fifoGet g d).length → exec i s = .next s))) ∧
  (∀ (i : Instr) (e : MEntry) (s : State), e.word = i → matrixParts i ≠ none → (∀ w, i ≠ .msta w) → matrixReady s e →
    (stampGate e s = .hold → exec i s = .next s) ∧
    (stampGate e s = .miss → exec i s =
      .next (matrixFault { cause := cScheduleMiss, addr := zext64 (mwordOf i).stamp } (countMiss s)))) ∧
  ∀ (e : MEntry) (s : State),
    let w := mwordOf e.word
    let d := (w.stamp - s.dcc.setWidth 32).toNat
    (w.stamp = 0 ∨ e.stampLost = true ∨ s.core.rg.status = .stopped → stampGate e s = .go) ∧
    (w.stamp ≠ 0 → e.stampLost = false → s.core.rg.status ≠ .stopped →
      stampGate e s = if d = 0 then .go else if d < 2 ^ 31 then .hold else if w.missp then .late else .miss)

/-- R124, R214, R259, R260: the integer product. With named integer formats, dense A and no index vector, element (i, j) of the accumulator
becomes its old value plus the sum over k of A(i, k) × B(k, j), modulo 2^32; a row written has its 96 elements and its poison, every other row
of every accumulator stands; an added integer row adds element by element.
R257 to R261, R264: LATCH_FILL of the head of MXQ, or of the word behind it where the head is on the array and does not write the
stash (the model's reading of when that is, log entry 41), takes the stash and its tags as they stand, where every byte that the word reads lies in the declared scratchpad. MSTA
converts every element before it writes any, then writes its rows. -/
def Obligations.ProductsLatchesAndStores : Prop :=
  ((∀ (w : MWord) (l : Latch) (g : Engines) (i j : Nat), 9 ≤ w.afmt.toNat → w.afmt.toNat ≠ 15 → 9 ≤ w.bfmt.toNat → w.bfmt.toNat ≠ 15 →
    w.sparse = false → w.gather = false → i < 96 → j < 96 →
    let fa := w.afmt.toNat
    let fb := w.bfmt.toNat
    let term (k : Nat) : Int := intOf fa (stashElem l.mem (mAbase w + i * w.apitch.toNat) (halfBytes fa) k) *
      intOf fb (bElem w l.mem (halfBytes fb) k j)
    (mmaRow w fa fb false l g i).1.1.getD j 0 =
      intCode 14 (((List.range (mDepth w)).map term).sum + accElem (accGet g w.acc.toNat i) j)) ∧
  (∀ (cap : Capture) (l : Latch) (fmt at_ j : Nat) (old : AccRow), 9 ≤ fmt → j < 96 →
    (addedRow cap l fmt at_ old).1.1.getD j 0 =
      intCode 14 (accElem old j + intOf fmt (stashElem l.mem at_ (halfBytes fmt) j))) ∧
  ∀ (a b r : Nat) (rows : List ((List Nat × Bool × Bool) × Bool)) (s : State), kwf ⟨0, false⟩ s.core.eng.acc = true →
    rows.length = 96 → (∀ x ∈ rows, x.1.1.length = 96 ∧ ∀ c ∈ x.1.1, c < 2 ^ 32) → r < 96 →
    let t := putAcc a rows s
    (b ≠ a → accGet t.core.eng b r = accGet s.core.eng b r) ∧
    ∀ x, rows[r]? = some x → (accGet t.core.eng a r).bad = x.2 ∧
      ∀ j < 96, accElem (accGet t.core.eng a r) j = x.1.1.getD j 0) ∧
  ((∀ (e : MEntry) (rest : List MEntry) (s : State), s.core.eng.mxHalted = false → unwatched s →
    let filled (x : MEntry) : MEntry := { x with latch := some ⟨s.core.stash, s.core.tags, []⟩ }
    let fits (x : MEntry) : Prop := needsLatch x.word = true ∧ x.latch = none ∧ latchLegal s.core.stash x.word ∧
      ∀ r ∈ latchRanges s.core.stash x.word, r.1 + r.2 ≤ s.core.decl.stash
    (s.core.eng.mxq = e :: rest → fits e → exec .latchFill s = .next (s.updMxq fun _ => filled e :: rest)) ∧
    (∀ f more, s.core.eng.mxq = e :: f :: more → onArray e s = true → (∀ w, e.word ≠ .msta w) →
      fits f → exec .latchFill s = .next (s.updMxq fun _ => e :: filled f :: more))) ∧
  ∀ (w : MWord) (e : MEntry) (s : State), e.word = .msta w → matrixReady s e → (stampGate e s = .go ∨ stampGate e s = .late) →
    unwatched s → (∀ i < 96, mAbase w + i * w.apitch.toNat + rowBytes (halfBytes w.afmt.toNat) 96 ≤ s.core.decl.stash) →
    (w.kg.getLsbD 3 = true → mXbase w + 384 ≤ s.core.decl.stash) →
    let row (i : Nat) : List Conv × Bool := mstaRow w e.cap s.core.stash s.core.eng i
    let flag (p : Conv → Bool) : Bool := (List.range 96).any fun i => (row i).1.any p
    ((∀ i < 96, Conv.trap ∉ (row i).1) → exec (.msta w) s = .next (leavesMxq s e (orFlags s.me (flag invOf) (flag ovfOf)
      (stashWrites s.me ((List.range 96).flatMap fun i => granuleWrites (mAbase w + i * w.apitch.toNat)
        (packElems (halfBytes w.afmt.toNat) ((row i).1.map Conv.code)) (row i).2) s)))) ∧
    ∀ n < 96 * 96, ((row (n / 96)).1.getD (n % 96) .trap = .trap) →
      (∀ m < n, (row (m / 96)).1.getD (m % 96) .trap ≠ .trap) →
      exec (.msta w) s = .next (matrixFault { cause := cConvertTrap, addr := BitVec.ofNat 64 n } s))

/-! ### Copy channels -/

/-- R271, R274 to R282, R64: a record of a row or element kind whose checks pass and whose bytes lie in the scratchpad moves them in destination
order, REDUCE adding, MULTICAST into each target's stash with its arrivals, and ends OK with its RESULT. A record that is ill formed or fails its
checks ends COPY_RANGE and moves nothing; a channel that does not walk stands. That a TENSOR with an extent of 0 ends OK whatever its PAD is the model's choice (log entry 58), and that
the receivers' arrivals come before the record's end its reading (log entry 42). -/
def Obligations.CopyRecords : Prop :=
  (∀ (i : Instr) (p : CopyPlan) (s : State), copyInstr p.chan p.rec_ = .ok i →
    copyPlan (atStart s p.chan) i = some p → recordReady s p.chan p.rec_ →
    let s0 := atStart s p.chan
    let c := s.me
    (p.legal = true → planInStash s0 p →
      (p.rec_.kind = 4 → p.rec_.kindAux.getLsbD 38 = true → ∀ t ∈ p.targets.getD [],
        (vget (fld p.rec_.kindAux 32 6) (s0.coreAt t).bars).init = true) →
      exec i s = .next (endCopy c p.chan p.rec_ (.done 0 p.result)
        (targetArrivals c p (movedPieces c p.chan p p.moves 0 s0)))) ∧
    (p.legal = false → (p.rec_.kind = 3 → planInStash s0 { p with moves := [] }) →
      exec i s = .next (endCopy c p.chan p.rec_ (.done cCopyRange 0) s0))) ∧
  (∀ (i : Instr) (n : BitVec 3) (r : CopyRec) (s : State), copyInstr n r = .ok i → r.kind < 10 →
    ((vget n s.core.chans).state ≠ .walk → exec i s = .next s) ∧
    ((vget n s.core.chans).state = .walk → (vget n s.core.chans).resume = none → recordOk r = false →
      exec i s = .next (endCopy s.me n r (.done cCopyRange 0) (atStart s n)))) ∧
  ∀ a b : Nat, reduceSum 2 a b = (a + b) % 2 ^ 32

/-- R283, R284: EXPAND between disjoint ranges of the scratchpad releases the 4,096 bytes of each chunk of a good stream, in order, and RESULT is
their number. R285, R448: DECRYPT with an armed slot of the context's tag and counters never used opens each chunk, releases it once its tag is
right, and records the last counter; a counter already used is GCM_REPLAY, a wrong tag of the first chunk TAG_FAIL, and neither moves a byte.
R140, R188, R189, R271, R273, R278: a record in the scratchpad ends with RESULT, then ctl with STATUS and OWN = 0, then its arrival; the channel
halts on an error, stops if CPS.STOP waits, which then completes, waits in TAIL for a next field of 0, or walks on. A barrier that is not ready makes it
BARRIER_BOUNDS without an arrival. A re-read of TAIL walks to a next field, or the record whose OWN is now 1, or counts; a next field that is no
multiple of 128 halts the channel with COPY_RANGE (the model's choice, log entry 58). -/
def Obligations.CopyStreams : Prop :=
  ((∀ (n : BitVec 3) (r : CopyRec) (s : State) (offs : Nat → Nat) (outs : List (List Byte)), recordReady s n r → r.kind = 6 →
    s.core.stash.wf = true → outs ≠ [] → r.e0.toNat = 4096 * outs.length → r.e1 ≠ 0 →
    cleanStash s r.src.toNat r.e1.toNat → r.dst.toNat + r.e0.toNat ≤ s.core.decl.stash →
    apart r.src.toNat r.e1.toNat r.dst.toNat r.e0.toNat → offs 0 = 0 →
    (∀ k out, outs[k]? = some out → chunkGood s.core.stash r (offs k) (offs (k + 1)) out) →
    exec (.expand n r) s = .next (endCopy s.me n r (.done 0 (BitVec.ofNat 64 outs.length))
      (releasedChunks s.me n r.dst.toNat outs 0 (atStart s n)))) ∧
  ∀ (n : BitVec 3) (r : CopyRec) (s : State), recordReady s n r → r.kind = 7 → s.feature 9 = true →
    s.core.stash.wf = true → (fld r.ctl 0 8).toNat < 64 →
    let i : BitVec 6 := fld r.ctl 0 6
    let slot := vget i s.sec.keys
    let chunks := (r.e0.toNat + r.e1.toNat - 1) / r.e1.toNat
    let last := r.kindAux.toNat + chunks - 1
    let keys := vset i { slot with lastctr := BitVec.ofNat 64 last } s.sec.keys
    let used : State := { atStart s n with sec := { s.sec with keys := keys } }
    r.e0 ≠ 0 → 16 ≤ r.e1.toNat → r.e1.toNat ≤ 65536 → r.e1.toNat % 16 = 0 →
    cleanStash s r.src.toNat (r.e0.toNat + 16 * chunks) → r.dst.toNat + r.e0.toNat ≤ s.core.decl.stash →
    apart r.src.toNat (r.e0.toNat + 16 * chunks) r.dst.toNat r.e0.toNat →
    slot.state = 2 → slot.tag = (s.ctx s.core.ctx).tag → last < 2 ^ 64 →
    (slot.lastctr < r.kindAux → (∀ k < chunks, gcmGood s.core.stash slot.key r k) →
      exec (.decrypt n r) s = .next (endCopy s.me n r (.done 0 (BitVec.ofNat 64 chunks))
        (releasedChunks s.me n r.dst.toNat ((List.range chunks).map fun k => (gcmChunk s.core.stash slot.key r k).1) 0 used))) ∧
    (slot.lastctr < r.kindAux → ¬gcmGood s.core.stash slot.key r 0 →
      exec (.decrypt n r) s = .next (endCopy s.me n r (.done cTagFail 0) used)) ∧
    (r.kindAux ≤ slot.lastctr → exec (.decrypt n r) s = .next (endCopy s.me n r (.done cGcmReplay 0) (atStart s n)))) ∧
  ((∀ (n : BitVec 3) (r : CopyRec) (st : Byte) (res : Word) (s : State),
    let c := s.me
    let va := (vget n s.core.chans).va.toNat
    let ended (st : Byte) (res : Word) : State := stashWrites c [(va + 120, bvBytes 8 res, false),
      (va + 8, bvBytes 8 (ctlDone r.ctl st), false)] s
    let stops (st : Byte) : Bool := decide (st = 0) && (vget n s.core.chans).stopAt
    let goes (st : Byte) (u : State) : State := (if stops st then advance 4 else id) <| updChan c n (fun ch =>
      let d := { ch with status := st, resume := none, ended := ch.ended + 1, stopAt := false }
      if st ≠ 0 then { d with state := .halted }
      else if ch.stopAt then { d with state := .stopped, wmark := 0 }
      else if r.next = 0 then { d with state := .tail, twait := true, reread := 0, wmark := 0 }
      else { d with state := .walk, va := r.next, wmark := 0 }) u
    va % 128 = 0 → va + 128 ≤ s.core.decl.stash → s.core.decl.stash ≤ 0x100000 →
    (∀ t b, barTarget s c r = some (t, b) →
      endCopy c n r (.done st res) s = goes st ((ended st res).updCore t fun k =>
        let x := vget b k.bars
        let y := if r.kind = 2 ∧ st = 0 then { x with cntw := res.setWidth 32 } else x
        { k with bars := vset b (arrived y 1 (decide (st ≠ 0)) st c.val) k.bars })) ∧
    (barTarget s c r = none → endCopy c n r (.done st res) s =
      goes (if st = 0 then cBarrierBounds else st)
        (ended (if st = 0 then cBarrierBounds else st) (if st = 0 then 0 else res)))) ∧
  (∀ (w : Word) (st : Byte), (ctlDone w st).extractLsb' 48 8 = st ∧ (ctlDone w st).getLsbD 63 = false ∧
    (ctlDone w st).extractLsb' 0 48 = w.extractLsb' 0 48 ∧ (ctlDone w st).extractLsb' 56 7 = w.extractLsb' 56 7) ∧
  ∀ (n : BitVec 3) (s : State),
    let ch := vget n s.core.chans
    let u (f : Chan → Chan) : Host.Outcome State Fault Refusal := .next (updChan s.me n f s)
    let counted (x : Chan) : Chan := if 2 ^ 16 ≤ x.reread + 1 then { x with state := .idleTail, reread := 0, twait := false }
      else { x with reread := x.reread + 1 }
    ch.state = .tail → cleanStash s ch.va.toNat 16 →
    let at_ (a : Nat) : Word := BitVec.ofNat 64 (leVal (s.core.stash.bytes a 8))
    let next := at_ ch.va.toNat
    let ctl := at_ (ch.va.toNat + 8)
    (ch.twait = true → next = 0 → exec (.channelTailReread n) s = u counted) ∧
    (ch.twait = true → next ≠ 0 → next.toNat % 128 = 0 → exec (.channelTailReread n) s =
      u fun x => { x with state := .walk, va := next, twait := false, reread := 0, wmark := 0 }) ∧
    (ch.twait = true → next.toNat % 128 ≠ 0 → exec (.channelTailReread n) s =
      u fun x => { x with state := .halted, status := cCopyRange, twait := false }) ∧
    (ch.twait = false → ctl.getLsbD 63 = true → exec (.channelTailReread n) s =
      u fun x => { x with state := .walk, reread := 0 }) ∧
    (ch.twait = false → ctl.getLsbD 63 = false → exec (.channelTailReread n) s = u counted))

/-! ### The transform sequencer -/

/-- R139, R170, R288, R289, R290, R292, R293, R296: on an S core whose run is active, HALT ends the run, LOOP, ENDL and BRNZ move TPC, SETH, ADDH and
SETAG write a register or a generator, TOKW and TOKS wait for their token and take or add a count. A field outside its rule, a fifth loop, an ENDL without a loop or a reserved
opcode is ILLEGAL_INSTR at the word. A run starts with its number in h0 at its first word.
R294, R295, R297, R120: a transfer with legal fields and a clean count, all of whose elements lie in the scratchpad, does elements XPROG to
n − 1 in order, ORs its flags into MODE and goes to the next word; illegal fields are ILLEGAL_INSTR. MOVE with TOH writes one
element to a register. -/
def Obligations.TransformSequencer : Prop :=
  ((∀ (s : State) (e : XRunEntry) (rest : List XRunEntry), s.core.xs.runs = e :: rest → s.core.xs.active = false →
    exec .transformRunStart s = .next (s.updXs fun x => { x with
      h := vset (0 : BitVec 3) ⟨BitVec.ofNat 64 e.num, false⟩ x.h, tpc := e.first.toNat, loops := [], xprog := 0, active := true })) ∧
  (∀ (w : XWord) (x : Unit32) (s : State), xActive s →
    let q := s.core.xs
    let goes (f : XSeq → XSeq) (n : Nat) : Host.Outcome State Fault Refusal := .next (s.updXs fun x => { f x with tpc := n })
    let n16 := w.imm.toNat
    let hs := vget w.hs q.h
    let c := if w.imm = 0 then (hs.val.extractLsb' 0 32).toNat else n16
    let n13 := (w.imm.extractLsb' 3 13).toNat
    let t := w.imm.extractLsb' 0 3
    let m := if n13 = 0 then (hs.val.extractLsb' 0 16).toNat else n13
    (exec (.xseqReservedOpcode x) s = xFault s) ∧
    (w = ⟨0, 0, 0, 0⟩ → exec (.xseqHalt w) s = .next (s.updXs fun x => { x with loops := [], active := false, runs := match x.runs with
      | [] => []
      | e :: rest => if e.left ≤ 1 then rest else { e with left := e.left - 1, num := e.num + 1 } :: rest })) ∧
    (w.hd = 0 → w.ag = 0 → (w.imm = 0 ∧ hs.bad = false) ∨ (w.imm ≠ 0 ∧ w.hs = 0) →
      (c ≠ 0 → q.loops.length < 4 →
        exec (.xseqLoop w) s = goes (fun x => { x with loops := (q.tpc + 1, c) :: q.loops }) (q.tpc + 1)) ∧
      (c ≠ 0 → 4 ≤ q.loops.length → exec (.xseqLoop w) s = xFault s) ∧
      (∀ n, c = 0 → xscan s 4096 (q.tpc + 1) 0 = some n → exec (.xseqLoop w) s = goes id n)) ∧
    (w = ⟨0, 0, 0, 0⟩ → (q.loops = [] → exec (.endl w) s = xFault s) ∧ ∀ start k rest, q.loops = (start, k) :: rest →
      exec (.endl w) s = if k ≤ 1 then goes (fun x => { x with loops := rest }) (q.tpc + 1)
        else goes (fun x => { x with loops := (start, k - 1) :: rest }) start) ∧
    (w.hd = 0 → w.ag = 0 → hs.bad = false →
      (hs.val = 0 → exec (.brnz w) s = goes id (q.tpc + 1)) ∧
      (hs.val ≠ 0 → 0 ≤ (q.tpc : Int) + w.imm.toInt → (q.tpc : Int) + w.imm.toInt < 4096 →
        exec (.brnz w) s = goes id ((q.tpc : Int) + w.imm.toInt).toNat)) ∧
    (w.ag = 0 → (w.hs = 0 → exec (.seth w) s =
        goes (fun x => { x with h := vset w.hd ⟨w.imm.signExtend 64, false⟩ x.h }) (q.tpc + 1)) ∧
      (∀ k : Nat, 1 ≤ k → k ≤ 3 → w.hs.toNat = k → ∃ v : Word, exec (.seth w) s =
        goes (fun x => { x with h := vset w.hd ⟨v, (vget w.hd q.h).bad⟩ x.h }) (q.tpc + 1) ∧
        v.extractLsb' (16 * k) 16 = w.imm ∧ ∀ j < 64, ¬(16 * k ≤ j ∧ j < 16 * k + 16) →
          v.getLsbD j = (vget w.hd q.h).val.getLsbD j) ∧
      (4 ≤ w.hs.toNat → exec (.seth w) s = xFault s)) ∧
    (w.ag = 0 → exec (.addh w) s =
      goes (fun x => { x with h := vset w.hd ⟨hs.val + w.imm.signExtend 64, hs.bad⟩ x.h }) (q.tpc + 1)) ∧
    (w.hd = 0 → (n16 ≤ 8 → hs.bad = false → exec (.setag w) s =
        goes (fun x => { x with ag := vset w.ag (setField n16 hs.val (vget w.ag x.ag)) x.ag }) (q.tpc + 1)) ∧
      (n16 = 9 → w.hs = 0 → exec (.setag w) s =
        goes (fun x => { x with ag := vset w.ag { vget w.ag x.ag with idx := Vector.replicate 4 0 } x.ag }) (q.tpc + 1)) ∧
      (9 < n16 → exec (.setag w) s = xFault s)) ∧
    (w.hd = 0 → w.ag = 0 → (n13 = 0 ∧ hs.bad = false) ∨ (n13 ≠ 0 ∧ w.hs = 0) →
      exec (.tokw w) s = (if m ≤ (vget t q.tk).toNat then
        goes (fun x => { x with tk := vset t (BitVec.ofNat 16 ((vget t q.tk).toNat - m)) x.tk }) (q.tpc + 1) else .next s) ∧
      exec (.toks w) s = (if (vget t q.tk).toNat + m ≤ 65535 then
        goes (fun x => { x with tk := vset t (BitVec.ofNat 16 ((vget t q.tk).toNat + m)) x.tk }) (q.tpc + 1) else .next s))) ∧
  ∀ (a : AddrGen), agAddr a = a.base + zext64 a.idx[0] * sext64 a.str[0] + zext64 a.idx[1] * sext64 a.str[1] +
      zext64 a.idx[2] * sext64 a.str[2] + zext64 a.idx[3] * sext64 a.str[3] ∧
    (a.idx[0] + 1 ≠ a.cnt[0] → agStep a = { a with idx := a.idx.set 0 (a.idx[0] + 1) }) ∧
    (a.idx[0] + 1 = a.cnt[0] → a.idx[1] + 1 ≠ a.cnt[1] →
      agStep a = { a with idx := (a.idx.set 0 0).set 1 (a.idx[1] + 1) })) ∧
  ((∀ (i : Instr) (o : XferOp) (s : State), xferOp i = some o → xActive s → unwatched s → (hGet s o.w.hs).bad = false →
    let n := ((hGet s o.w.hs).val.extractLsb' 0 32).toNat
    (∀ t, o.legal 0 = true → o.legal n = true → xferFrom o.one (n - s.core.xs.xprog) s.core.xs.xprog s = some t →
      exec i s = .next (finishTransfer t)) ∧
    (o.legal 0 = false ∨ o.legal n = false → exec i s = xFault s)) ∧
  ∀ (w : XWord) (s t : State) (bs : List Byte) (bad : Bool), xActive s → unwatched s → w.imm.getLsbD 6 = true →
    w.imm.extractLsb' 7 9 = 0 → w.hs = 0 → w.imm.extractLsb' 0 4 = 0 →
    xGet w.ag (2 ^ (w.imm.extractLsb' 4 2).toNat) s = some (t, bs, bad) →
    exec (.move w) s = .next (t.updXs fun x => { x with
      h := vset w.hd ⟨BitVec.ofNat 64 (leVal bs), bad⟩ x.h, tpc := x.tpc + 1 }))

/-! ### The sampler -/

/-- R139, R199, R299 to R308: an instruction on registers or the list of a running context has its effect and the SPC goes on; a field outside its rule, or a
reserved opcode, halts the context with ILLEGAL_INSTR. TOPK keeps the first k by rank, BRC branches, HALT ends the run and completes its request
with y0[55:0]. A start on an idle context with a good block in the scratchpad runs it.
R303, R305, R307, R309, R310: LDL, PEN, MSK and RES with clean operands read their lists from the scratchpad of the requesting core and give the entries their
new values; EMIT and CONF write an entry of the list there. -/
def Obligations.SamplerUnits : Prop :=
  ((∀ (i : Instr) (legal : Bool) (f : SmpCtx → SmpCtx) (s : State), smpEffect i = some (legal, f) → (smpCtx s).run = 1 →
    exec i s = if legal then smpNext { f (smpCtx s) with spc := (smpCtx s).spc } s else smpStop s) ∧
  (∀ (w : SWord) (x : Unit32) (s : State), (smpCtx s).run = 1 →
    let c := smpCtx s
    let k := if w.imm = 0 then (yGet c w.yb).val.toNat else w.imm.toNat
    let target : Int := if ((yGet c w.ya).val = 0) = (w.f = true) then c.spc + w.imm.toInt else c.spc + 1
    (exec (.smpReservedOpcode x) s = smpStop s) ∧
    (w.f = false → w.yd = 0 → w.ya = 0 → (w.imm = 0 ∧ (yGet c w.yb).bad = false) ∨ (w.imm ≠ 0 ∧ w.yb = 0) →
      exec (.topk w) s = if 1 ≤ k ∧ k ≤ 4096 then
        smpNext { putEntries (smpRanked (entries c)) c with nc := min c.nc k } s else smpStop s) ∧
    (w.yd = 0 → w.yb = 0 → yClean c [w.ya] → 0 ≤ target → target < 1024 →
      exec (.brc w) s = .next (setSmp { c with spc := target.toNat } s)) ∧
    (w = ⟨0, false, 0, 0, 0⟩ → ∀ r q, smpRunning s = some (r, q) → exec (.smpHalt w) s =
      .next (completeReq r q.order (element 0 (yGet c 0).val.toNat) (yGet c 0).bad (setSmp { c with run := 0 } s)))) ∧
  ∀ (r : CoreId) (q : Req) (s : State), smpWaiting s = some (r, q) →
    let m := (s.coreAt r).stash
    let a := q.a.val.toNat
    let word (i k : Nat) : Nat := leVal (m.bytes (a + i) k)
    ((smpCtx s).run = 1 → exec .samplerStart s = .next (completeReq r q.order (element 0x06 0) false s)) ∧
    ((smpCtx s).run ≠ 1 → q.a.bad = true → exec .samplerStart s = .next (completeReq r q.order (element 0x07 0) false s)) ∧
    ((smpCtx s).run ≠ 1 → q.a.bad = false → smpFits s r q.a.val 32 3 → m.poisoned a 96 = false →
      (word 0 4 ≤ 1023 → word 4 4 < 4 → word 0x58 8 = 0 →
        exec .samplerStart s = .next (setSmp (smpStart r (m.bytes a 96) (smpCtx s)) s)) ∧
      (1023 < word 0 4 ∨ 4 ≤ word 4 4 ∨ word 0x58 8 ≠ 0 →
        exec .samplerStart s = .next (completeReq r q.order (element 0x03 0) false s)))) ∧
  (∀ (w : SWord) (s : State), (smpCtx s).run = 1 →
    let x := smpCtx s
    let c := x.core
    let ya := (yGet x w.ya).val
    let yb := (yGet x w.yb).val
    let yd := yGet x w.yd
    let es := entries x
    let bit (e : Cand) : Bool := decide (e.id.toNat < yb.toNat) &&
      ((s.coreAt c).stash.byte (ya.toNat + e.id.toNat / 8)).getLsbD (e.id.toNat % 8)
    let bitBad (e : Cand) : Bool := decide (e.id.toNat < yb.toNat) && (s.coreAt c).stash.poisoned (ya.toNat + e.id.toNat / 8) 1
    (w.imm = 0 → yClean x [w.ya, w.yb] → yb.toNat ≤ 4096 → smpFits s c ya (if w.f then 2 else 4) yb.toNat →
      exec (.ldl w) s = smpNext { putEntries (((List.range yb.toNat).zip
        (smpValues s c ya (if w.f then 2 else 4) yb.toNat)).map fun iv =>
          (⟨BitVec.ofNat 32 (if w.f then (roundIeee 0 (decodeNum 1 iv.2.1) false .rne false).code else iv.2.1),
            yd.val.extractLsb' 0 32 + BitVec.ofNat 32 iv.1, iv.2.2 || yd.bad⟩ : Cand)) x with nc := yb.toNat } s) ∧
    (w.imm = 0 → yClean x [w.yb] → 4096 < yb.toNat → exec (.ldl w) s = smpStop s) ∧
    (w.f = false → w.imm = 0 → yClean x [w.ya, w.yb] → smpFits s c ya 4 (yb.toNat % 65536) →
      let ids := smpValues s c ya 4 (yb.toNat % 65536)
      let q := ids.any (·.2)
      let p := yF yd
      exec (.pen w) s = smpNext (putEntries (es.map fun e =>
        if ids.any (fun i => decide (i.1 = e.id.toNat)) then
          revalue e (if posF32 e.val.toNat then divF32 e.val.toNat p else mulF32 e.val.toNat p) (e.bad || q || yd.bad)
        else { e with bad := e.bad || q }) x) s) ∧
    (w.yd = 0 → w.imm = 0 → yClean x [w.ya, w.yb] → smpFits s c ya 1 ((yb.toNat + 7) / 8) →
      exec (.msk w) s = smpNext (putEntries (es.map fun e =>
        let d := { e with bad := e.bad || bitBad e }
        if bit e = w.f then { d with val := 0xFF800000 } else d) x) s) ∧
    (w.f = false → w.yd = 0 → w.yb = 0 → w.imm = 0 → yClean x [w.ya] → smpFits s c ya 4 x.nc →
      let qs := smpValues s c ya 4 x.nc
      let r := (es.zip qs).map fun eq => residual eq.1.val.toNat eq.2.1
      let sum := r.foldl addF32 0
      exec (.res w) s = smpNext (if posF32 sum then putEntries ((es.zip r).map fun er =>
        revalue er.1 (divF32 er.2 sum) (anyBad es || qs.any (·.2))) x else x) s) ∧
    (w.yd = 0 → w.imm = 0 → yClean x [w.ya, w.yb] → ya.toNat < x.nc → (cand x ya.toNat).bad = false →
      smpFits s c yb (if w.f then 4 else 8) 1 →
      let e := cand x ya.toNat
      exec (.emit w) s = smpNext x (stashWrites c [(yb.toNat,
        if w.f then leBytes 4 e.id.toNat else leBytes 8 (e.id.toNat + e.val.toNat * 2 ^ 32), false)] s)) ∧
    (w.yd = 0 → w.imm = 0 → yClean x [w.ya] → x.nc ≤ ya.toNat →
      exec (.emit w) s = .next (smpFault { cause := cIllegalInstr, addr := ya } s)) ∧
    (w.f = false → yClean x [w.yd, w.ya, w.yb] → w.imm.toNat < x.nc → (cand x w.imm.toNat).bad = false →
      let off := BitVec.ofNat 64 (4 * (yd.val.toNat % 65536))
      smpFits s c (ya + off) 4 1 → smpFits s c (yb + off) 4 1 →
      let e := cand x w.imm.toNat
      exec (.conf w) s = smpNext x (stashWrites c [((ya + off).toNat, leBytes 4 e.val.toNat, false),
        ((yb + off).toNat, leBytes 4 e.id.toNat, false)] s)))

/-! ### The shared engines -/

/-- R326, R328, R172: the oldest request of a tree of the requester's tag advances its clock and completes with what its operation answers, another tree
gives BADOBJ, an INSERT that finds no room leaves every state as it was. LOOKUP follows groups from the root; INSERT checks its length; REF and
UNREF count a legal node's REF and REF stamps it; EVICT takes eligible nodes in turn, writes each handle at b and answers how many.
Of a request that meets poison only the clock stays. -/
def Obligations.PrefixIndexRequests : Prop :=
  (∀ (i : Instr) (sub : Nat) (act : PixEnv → Req → PixM (Byte × Nat)) (c : CoreId) (q : Req) (s : State),
    pixOp i = some (sub, act) →
    (pixRequest sub s = none → exec i s = .next s) ∧
    (pixRequest sub s = some (c, q) →
      let t := vget s.focus.tree s.trees
      let ctx := (s.coreAt c).ctx
      let t' := { t with clock := t.clock + 1 }
      let s' : State := { s with trees := vset s.focus.tree t' s.trees }
      (t.installed = false ∨ t.tag ≠ (s.ctx ctx).tag → exec i s = .next (completeReq c q.order (element 0x03 0) false s)) ∧
      (t.installed = true → t.tag = (s.ctx ctx).tag →
        (∀ st v u, act ⟨t', c, ctx⟩ q s' = (.ok (st, v), u) → exec i s =
          .next (completeReq c q.order (element st v) false (if st = 0x02 ∧ sub = 1 then s else u))) ∧
        ∀ e u, act ⟨t', c, ctx⟩ q s' = (.error e, u) → exec i s = if requestStatus e = 0x07 then
          .next (completeReq c q.order (element 0x07 0) false s') else .next (completeReq c q.order (element 0x05 0) false u)))) ∧
  (∀ (e : PixEnv) (q : Req) (s s1 : State) (n ids hs : Nat), q.a.bad = false → q.b.bad = false →
    pixDesc e q.a.val.toNat s = (.ok (n, ids, hs), s1) →
    (∀ s2 i depth, lookupFrom e ids q.b.val.toNat (n / 16) 0 0 s1 = (.ok (i, depth), s2) →
      (depth = 0 → pixLookup e q s = (.ok (0, 0), s2)) ∧
      (depth ≠ 0 → ∀ s3 s4 r, nodeField e i 0x44 s2 = (.ok r, s3) → pixPut e (nodeVa e i + 0x44) 4 (r + 1) s3 = (.ok (), s4) →
        pixLookup e q s = (.ok (0, i * 2 ^ 32 + 16 * depth), s4))) ∧
    (n % 16 ≠ 0 ∨ n < 16 → pixInsert e q s = (.ok (0x03, 0), s1))) ∧
  (∀ (e : PixEnv) (ids b n i depth tok : Nat) (s s1 s2 : State), pixNum e (ids + 64 * depth) 64 s = (.ok tok, s1) →
    (matchChild e i tok s1 = (.ok none, s2) → lookupFrom e ids b (n + 1) i depth s = (.ok (i, depth), s2)) ∧
    (∀ c h s3 s4 s5, matchChild e i tok s1 = (.ok (some c), s2) → nodeHandle e c s2 = (.ok h, s3) →
      pixPut e (b + 8 * depth) 8 h s3 = (.ok (), s4) → stampNode e c s4 = (.ok (), s5) →
      lookupFrom e ids b (n + 1) i depth s = lookupFrom e ids b n c (depth + 1) s5)) ∧
  (∀ (e : PixEnv) (q : Req) (s : State) (i : Nat), q.a.bad = false → i = q.a.val.toNat % 2 ^ 20 →
    (i = 0 ∨ e.tree.nmax ≤ i → pixRef e q s = (.ok (0x03, 0), s) ∧ pixUnref e q s = (.ok (0x03, 0), s)) ∧
    ∀ v r s1 s2 s3, 0 < i → i < e.tree.nmax → nodeField e i 0x5C s = (.ok v, s1) →
      (v % 2 = 0 → pixRef e q s = (.ok (0x03, 0), s1) ∧ pixUnref e q s = (.ok (0x03, 0), s1)) ∧
      (v % 2 = 1 → nodeField e i 0x44 s1 = (.ok r, s2) →
        (r = 2 ^ 32 - 1 → pixRef e q s = (.ok (0x02, 0), s2)) ∧
        (r = 0 → pixUnref e q s = (.ok (0x04, 0), s2)) ∧
        (r ≠ 0 → pixPut e (nodeVa e i + 0x44) 4 (r - 1) s2 = (.ok (), s3) → pixUnref e q s = (.ok (0, r - 1), s3)) ∧
        ∀ s4, r ≠ 2 ^ 32 - 1 → pixPut e (nodeVa e i + 0x44) 4 (r + 1) s2 = (.ok (), s3) → stampNode e i s3 = (.ok (), s4) →
          pixRef e q s = (.ok (0, r + 1), s4))) ∧
  (∀ (e : PixEnv) (b n : Nat) (hs : List Nat) (s s1 : State),
    (evictPick e s = (.ok none, s1) → evictLoop e b (n + 1) hs s = (s1, hs, none)) ∧
    ∀ i h s2 s3 s4, evictPick e s = (.ok (some i), s1) → nodeHandle e i s1 = (.ok h, s2) →
      pixPut e (b + 8 * hs.length) 8 h s2 = (.ok (), s3) → freeNode e i s3 = (.ok (), s4) →
      evictLoop e b (n + 1) hs s = evictLoop e b n (hs ++ [h]) s4) ∧
  ∀ (e : PixEnv) (q : Req) (hs : List Nat) (s t : State), q.a.bad = false → q.b.bad = false →
    evictLoop e q.b.val.toNat (min (q.a.val.toNat % 2 ^ 32) e.tree.nmax) [] s = (t, hs, none) →
    pixEvict e q s = (.ok (0, hs.length), t)

/-- R333 to R337, R172, R198: CFG of a legal block masks every position, clears the round and the posted values, sets every dirty entry and writes MAPVA;
another block is BADOBJ. POST keeps the confidence and id of every masked position. ROUND writes the ids and positions it commits, unmasks them, mirrors the
bitmap, counts the round and marks its dirty entries. DIRTY lists a group's entries in the scratchpad, pads them, clears them and arrives with their
number. RESET unconfigures. A request on an unconfigured context is BADOBJ. -/
def Obligations.UnmaskingRequests : Prop :=
  (∀ (c : CoreId) (q : Req) (x : UmeCtx) (s s1 : State) (bs : List Byte), umeServing s 0 c q x → q.a.bad = false →
    globalRead c (s.coreAt c).ctx q.a.val.toNat 64 s = .ok (s1, bs, false) →
    (umeBlock bs (s.coreAt c).ctx = none → exec .umeCfgRequest s = umeEnds c q 0x03 0 x s1) ∧
    ∀ cfg s2, umeBlock bs (s.coreAt c).ctx = some cfg →
      globalWrite c (s.coreAt c).ctx cfg.mapva.toNat (mapBytes cfg.len (List.range cfg.len)) false s1 = .ok s2 →
      exec .umeCfgRequest s = umeEnds c q 0 0 ⟨some cfg, List.range cfg.len, 0, none,
        (List.range cfg.groups).flatMap fun g => (List.range cfg.len).map fun p => (p, g), x.gang⟩ s2) ∧
  (∀ (c : CoreId) (q : Req) (x : UmeCtx) (s : State), x.cfg = none →
    (umeServing s 1 c q x → exec .umePostRequest s = umeEnds c q 0x03 0 x s) ∧
    (umeServing s 2 c q x → exec .umeRoundRequest s = umeEnds c q 0x03 0 x s) ∧
    (umeServing s 3 c q x → exec .umeDirtyRequest s = umeEnds c q 0x03 0 x s) ∧
    (umeServing s 4 c q x → exec .umeResetRequest s = umeEnds c q 0x03 0 x s)) ∧
  (∀ (c : CoreId) (q : Req) (x : UmeCtx) (s t : State) (cfg : UmeCfg) (ps : List (Nat × BitVec 32 × BitVec 32)), umeServing s 1 c q x →
    x.cfg = some cfg → q.a.bad = false → q.b.bad = false → ps.map (·.1) = x.masked →
    (x.masked = [] → ps = [] → t = s → exec .umePostRequest s = umeEnds c q 0 0 { x with posted := some [] } s) ∧
    (ps.foldlM (fun (u : State) p => do
      let (u, v) ← umeWord c cfg.ctx (q.a.val.toNat + 4 * p.1) u
      let (u, i) ← umeWord c cfg.ctx (q.b.val.toNat + 4 * p.1) u
      if v = p.2.1 ∧ i = p.2.2 then .ok u else .error .stall) s = .ok t →
      exec .umePostRequest s = umeEnds c q 0 x.masked.length { x with posted := some ps } t)) ∧
  (∀ (c : CoreId) (q : Req) (x : UmeCtx) (s s1 s2 s3 : State) (cfg : UmeCfg) (ps : List (Nat × BitVec 32 × BitVec 32)),
    umeServing s 2 c q x → x.cfg = some cfg → x.posted = some ps → q.a.bad = false →
    let n := roundCount cfg ps
    let win := (ps.foldl (fun l p => rankInsert p l) []).take n
    let pos := (List.range cfg.len).filter fun p => win.any fun w => decide (w.1 = p)
    let masked := x.masked.filter fun p => !pos.contains p
    putTokens c cfg.ctx cfg.tokva.toNat (win.map fun w => (w.1, w.2.2)) s = .ok s1 →
    (if pos = [] then .ok s1 else globalWrite c cfg.ctx q.a.val.toNat ((pos.map fun p => leBytes 2 p).flatten) false s1) = .ok s2 →
    globalWrite c cfg.ctx cfg.mapva.toNat (mapBytes cfg.len masked) false s2 = .ok s3 →
    exec .umeRoundRequest s = umeEnds c q 0 n ⟨x.cfg, masked, x.round + 1, none,
      addDirty x.dirty (roundDirty cfg pos (x.round + 1)), x.gang⟩ s3) ∧
  (∀ (c : CoreId) (q : Req) (x : UmeCtx) (s : State) (cfg : UmeCfg), umeServing s 3 c q x → x.cfg = some cfg →
    q.a.bad = false → q.b.bad = false →
    let a := q.a.val.toNat
    let g := (q.b.val.extractLsb' 0 6).toNat
    let b := q.b.val.extractLsb' 8 6
    let xs := (List.range cfg.len).filter fun p => x.dirty.contains (p, g)
    let n := (xs.length + 95) / 96 * 96
    let bytes := ((xs ++ List.replicate (n - xs.length) 0xFFFF).map fun p => leBytes 2 p).flatten
    (a % 64 ≠ 0 ∨ cfg.groups ≤ g ∨ (s.coreAt c).decl.barriers ≤ b.toNat ∨ (vget b (s.coreAt c).bars).init = false →
      exec .umeDirtyRequest s = umeEnds c q 0x03 0 x s) ∧
    (a % 64 = 0 → g < cfg.groups → b.toNat < (s.coreAt c).decl.barriers → (vget b (s.coreAt c).bars).init = true →
      (a + 2 * n ≤ (s.coreAt c).decl.stash → exec .umeDirtyRequest s =
        umeEnds c q 0 xs.length { x with dirty := x.dirty.filter fun e => decide (e.2 ≠ g) }
          ((if xs = [] then s else stashPut c a bytes false s).updCore c fun k =>
            { k with bars := vset b (arrived { vget b k.bars with cntw := BitVec.ofNat 32 xs.length } 1 false 0 c.val) k.bars })) ∧
      ((s.coreAt c).decl.stash < a + 2 * n →
        exec .umeDirtyRequest s = .next (completeReq c q.order (element 0x05 0) false s)))) ∧
  ∀ (c : CoreId) (q : Req) (x : UmeCtx) (s : State), umeServing s 4 c q x → x.cfg ≠ none →
    exec .umeResetRequest s = umeEnds c q 0 0 ⟨none, [], 0, none, [], x.gang⟩ s

/-- R202, R343, R347, R349, R352: with its record bound, INV makes a region INVALID and drops its weights after the step in progress, unless it is OFF; STAT
writes the record and answers its state, invocations and samples; SETT replaces the thresholds and takes FALLBACK to OBSERVE with its counters cleared; without an
FE area STAT and INV answer 0 and SETT BADOBJ; a record bound elsewhere is BUSY. FE_SGD_STEP completes the step in progress on the named region and no
other: the weights are those of one SGD step over the batch taken, STEPSDONE counts it, the last step moves to VALIDATE with NVAL and LASTERR 0, any other
begins the next step where a batch is complete by then. A region without a step in progress stays as it is. Written out for the smallest network, one input and one
identity unit: the forward pass gives z = round(b + w × x), and a step over one sample of true result t takes the gradients of d = round(round(z − t) × 1). -/
def Obligations.FittingRequests : Prop :=
  (∀ (c : CoreId) (q : Req) (s t : State) (b : Bound), bindRegion c (q.obj.setWidth 4) s = (t, b) →
    let ends (v : Word) (u : State) : Host.Outcome State Fault Refusal := .next (completeReq c q.order v false u)
    let k := clusterOf c
    (b = .off → (feRequest 0 s = some (c, q) → exec .feInvRequest s = ends 0 t) ∧
      (feRequest 1 s = some (c, q) → exec .feStatRequest s = ends 0 t) ∧
      (feRequest 2 s = some (c, q) → exec .feSettRequest s = ends (0x03#64 <<< 56) t)) ∧
    (b = .busy → (feRequest 0 s = some (c, q) → exec .feInvRequest s = ends (0x06#64 <<< 56) t) ∧
      (feRequest 1 s = some (c, q) → exec .feStatRequest s = ends (0x06#64 <<< 56) t) ∧
      (feRequest 2 s = some (c, q) → exec .feSettRequest s = ends (0x06#64 <<< 56) t)) ∧
    ∀ r, b = .record r →
      (feRequest 0 s = some (c, q) → exec .feInvRequest s =
        let r' := completeStep (completeStep r)
        ends 0 (putRecord k (if r'.state = 0 then r' else { r' with state := 6, weights := [] }) t)) ∧
      (∀ u, feRequest 1 s = some (c, q) → writeRecord c r true t = .ok u → exec .feStatRequest s =
        ends (BitVec.ofNat 64 ((r.state + r.invoc % 2 ^ 28 * 2 ^ 4 + r.sampled % 2 ^ 24 * 2 ^ 32) % 2 ^ 56)) u) ∧
      (feRequest 2 s = some (c, q) → q.a.bad = false → q.b.bad = false →
        (r.state ≠ 6 → settOk q.a.val q.b.val = true → exec .feSettRequest s = ends 0 (putRecord k (settRecord r q.a.val q.b.val) t)) ∧
        (r.state = 6 ∨ settOk q.a.val q.b.val = false → exec .feSettRequest s = ends (0x03#64 <<< 56) t))) ∧
  (∀ (r : FeRec) (a b : Word),
    let u := settRecord r a b
    u.trip = a.extractLsb' 0 32 ∧ u.sexp = (b.extractLsb' 0 4).toNat ∧ u.flags = b.extractLsb' 4 2 ∧ u.trips = r.trips ∧
      u.weights = r.weights ∧ (r.state = 5 → u.state = 1 ∧ u.invoc = 0 ∧ u.stepsDone = 0 ∧ u.ncap = 0) ∧
      (r.state ≠ 5 → u.state = r.state ∧ u.invoc = r.invoc ∧ u.ncap = r.ncap)) ∧
  (∀ (cluster : BitVec 5) (ctx : BitVec 6) (region : BitVec 4) (s : State), exec (.feSgdStep cluster ctx region) s =
    .next (s.updCluster cluster.toFin fun cl => { cl with fe := cl.fe.map fun r =>
      if r.ctx = ctx ∧ r.region = region then completeStep r else r })) ∧
  (∀ r : FeRec, (r.batch = none → completeStep r = r) ∧
    ∀ b, r.batch = some b →
      let t := completeStep r
      t.weights = sgdStep r.desc r.weights b ∧ t.stepsDone = r.stepsDone + 1 ∧
      t = { r with weights := t.weights, stepsDone := t.stepsDone, batch := t.batch, ncap := t.ncap, state := t.state,
                   nval := t.nval, lasterr := t.lasterr } ∧
      (r.stepsDone + 1 = r.desc.steps → t.state = 3 ∧ t.nval = 0 ∧ t.lasterr = 0 ∧ t.batch = none ∧ t.ncap = r.ncap) ∧
      (r.stepsDone + 1 ≠ r.desc.steps → t.state = r.state ∧ t.nval = r.nval ∧ t.lasterr = r.lasterr ∧
        (r.ncap = r.desc.batch → t.batch = some (r.capture.take r.desc.batch) ∧ t.ncap = 0) ∧
        (r.ncap ≠ r.desc.batch → t.batch = none ∧ t.ncap = r.ncap))) ∧
  ∀ (d : Region319) (w b x t : BitVec 32), d.nin = 1 → d.widths = [1] → d.acts = [0] →
    let z := round32 (fadd (val32 b) (exactSum [(fmul (val32 w) (val32 x)).1]).1 false).1
    let e := round32 (fadd (val32 z) (val32 t).negate false).1
    let dl := round32 (fmul (val32 e) (val32 0x3F800000)).1
    let gw := round32 (exactSum [(fmul (val32 dl) (val32 x)).1]).1
    let gb := round32 (exactSum [val32 dl]).1
    surrogate d [w, b] [x] = [z] ∧ sgdStep d [w, b] [[x, t]] = [stepWeight d w gw, stepWeight d b gb]

/-- R324, R196, R90, R411, R412, R451: the commit unit takes its oldest commit, writes CNTW and arrives with its status; a bad address is status 0x05 and LEN 0, a
bad descriptor 0x03, too many accepted tokens 0x04, poison 0x07, and only a good commit writes: TENT 0, GEN + 1, STOPPED and LEN, which ends behind the
first stop id; the commit runs under the context that issued it, and its arrival is dropped with a gang that has ended (the model's choice, log
entry 63). A walker visits every line of every row of its oldest range on behalf of its core and arrives. A page walk changes no memory that no window
holds dirty, fills both TLBs from the tables and the walk cache, uses what they hold, and is counted, also where it fails.
R90, R196: a walked line of POOL_SWF memory leaves its dirty bytes at its device, clean in the LLC after RFLUSH and gone from it after RINVAL; RINVAL drops the tag of an HBM line. The granules
of the issuing core's windows in the block stay, clean; one dirty one alone has written its bytes back as a recall does. An untranslatable page, or one of another owner, is skipped, and the first
such cause is the status. -/
def Obligations.CommitsAndWalks : Prop :=
  (∀ (cluster : BitVec 5) (x : Commit) (rest : List Commit) (s : State), (s.cluster cluster.toFin).kvc = x :: rest →
    let u := s.updCluster cluster.toFin fun k => { k with kvc := rest }
    let e := commit x.core x.ctx x.desc x.acc.toNat u
    ((u.coreAt x.core).gang ≠ x.gang → exec (.kvcCommit cluster) s = .next e.st) ∧
    ((u.coreAt x.core).gang = x.gang → (vget x.bar (e.st.coreAt x.core).bars).init = true →
    let arrival (k : Core) : Barrier :=
      arrived { vget x.bar k.bars with cntw := BitVec.ofNat 32 e.len } 1 (decide (e.status ≠ 0)) e.status x.core.val
    exec (.kvcCommit cluster) s = .next (e.st.updCore x.core fun k => { k with bars := vset x.bar (arrival k) k.bars }))) ∧
  (∀ (c : CoreId) (ctx : BitVec 6) (d : Word) (a : Nat) (s : State),
    (d.toNat % 64 ≠ 0 ∨ d.toNat < 0x100000 ∨ 2 ^ 52 ≤ d.toNat → commit c ctx d a s = ⟨0x05, 0, s⟩) ∧
    ∀ (s1 s2 : State) (x : Xl) (bs : List Byte) (bad : Bool), d.toNat % 64 = 0 → 0x100000 ≤ d.toNat → d.toNat < 2 ^ 52 →
      translate c ctx d.toNat .read s = .ok (s1, x) →
      (x.region ≠ .lcl → x.region ≠ .poolBi → commit c ctx d a s = ⟨0x05, 0, s1⟩) ∧
      ((x.region = .lcl ∨ x.region = .poolBi) → globalRead c ctx d.toNat 64 s1 = .ok (s2, bs, bad) →
        commit c ctx d a s = commitOn c ctx d.toNat a bs bad s2)) ∧
  (∀ (c : CoreId) (ctx : BitVec 6) (d a : Nat) (bs : List Byte) (bad : Bool) (s : State),
    let f (i : Nat) : Nat := leVal ((bs.drop i).take 4)
    let len := f 0
    let flags := f 0x20
    let legal := flags < 8 ∧ flags ≤ 5 ∧ leVal ((bs.drop 0x28).take 24) = 0 ∧ len + f 0x10 ≤ f 4
    (¬legal → commitOn c ctx d a bs bad s = ⟨0x03, len, s⟩) ∧
    (legal → f 0x10 < a → commitOn c ctx d a bs bad s = ⟨0x04, len, s⟩) ∧
    ∀ (s1 s2 : State) (ids : List (BitVec 32)) (q : Bool), legal → a ≤ f 0x10 →
      commitIds c ctx (leVal ((bs.drop 0x18).take 8)) len a s = .ok (s1, ids, q) → ids.length = a →
      (bad = true ∨ q = true → commitOn c ctx d a bs bad s = ⟨0x07, len, s1⟩) ∧
      (bad = false → q = false →
        ((f 0x14 = 0xFFFFFFFF ∨ ∀ i ∈ ids, i.toNat ≠ f 0x14) → commitWrite c ctx d (len + a) (f 0x24) flags s1 = .ok s2 →
          commitOn c ctx d a bs bad s = ⟨0, len + a, s2⟩) ∧
        ∀ n, f 0x14 ≠ 0xFFFFFFFF → ids[n]? = some (BitVec.ofNat 32 (f 0x14)) → (∀ m < n, ids[m]? ≠ some (BitVec.ofNat 32 (f 0x14))) →
          commitWrite c ctx d (len + n + 1) (f 0x24) (flags + 8) s1 = .ok s2 →
          commitOn c ctx d a bs bad s = ⟨0, len + n + 1, s2⟩)) ∧
  (∀ (die : BitVec 2) (r : WalkRange) (rest : List WalkRange) (s : State), (s.die die.toFin).walker = r :: rest →
    let u := s.updDie die.toFin fun x => { x with walker := rest }
    let e := ((List.range r.count).flatMap (rowBlocks r)).foldl (walkVa r) (u, 0)
    (vget r.bar (e.1.coreAt r.core).bars).init = true →
    exec (.cacheWalkerRange die) s = .next (e.1.updCore r.core fun k =>
      { k with bars := vset r.bar (arrived (vget r.bar k.bars) 1 (decide (e.2 ≠ 0)) e.2 r.core.val) k.bars })) ∧
  (∀ (r : WalkRange) (va : Nat) (st : Byte) (s : State),
    (∀ u x, walkerLoc r va s = .ok (u, x) → walkVa r (s, st) va = (walkLine r.inval x (walkGranules r.core x u), st)) ∧
    (∀ t, leafFor r.core r.ctx va s = .error (.trap t) → walkVa r (s, st) va = (countTrap t s, if st = 0 then t.cause else st)) ∧
    ∀ e, (s.coreAt r.core).tlb.find? (tlbHit r.ctx va) = some e →
      (pteOwner e.leaf ≠ 0 → pteOwner e.leaf ≠ (s.ctx r.ctx).tag → walkVa r (s, st) va = (s, if st = 0 then cProt else st)) ∧
      ((pteOwner e.leaf = 0 ∨ pteOwner e.leaf = (s.ctx r.ctx).tag) →
        let a := pteAddr e.leaf + if e.size = 3 then va % 2 ^ 30 else va % 2 ^ 19
        (regionOf (pteClass e.leaf) = .host ∨ regionOf (pteClass e.leaf) = .hostWc → walkerLoc r va s = .ok (s, ⟨.host, a⟩)) ∧
        ∀ x, regionOf (pteClass e.leaf) ≠ .host → regionOf (pteClass e.leaf) ≠ .hostWc →
          physical s (regionOf (pteClass e.leaf)) a (BitVec.ofNat 64 va) = .ok x → walkerLoc r va s = .ok (s, x))) ∧
  (∀ (inval : Bool) (x : Loc) (s : State),
    let t := walkLine inval x s
    (∀ c, t.coreAt c = s.coreAt c) ∧ t.grans = s.grans ∧
    (x.space = .hbm → t.hbm = s.hbm ∧ (inval = false → t = s) ∧
      (inval = true → rising (s.llcTags.map (·.1)) = true → kget? t.llcTags (x.addr / 128) = none)) ∧
    (x.space = .host → t = s) ∧
    ∀ p l, x.space = .pool p → llcFind s p (x.addr / 128) = some l →
      llcFind t p (x.addr / 128) = (if inval then none else some { l with dirty := false }) ∧
      (l.dirty = false → t.mem x.space = s.mem x.space) ∧
      (l.dirty = true → locSilent s x = false → (s.mem x.space).wf = true →
        ∀ i < 128, (t.mem x.space).byte (x.addr / 128 * 128 + i) = l.data.extractLsb' (8 * i) 8)) ∧
  (∀ (c : CoreId) (x : Loc) (s : State),
    let t := walkGranules c x s
    let hit (g : Gran) : Bool := decide (g.core = c) && decide (g.home.space = x.space) && decide (g.home.addr / 64 = x.addr / 64)
    t.grans = s.grans.map (fun g => if hit g then { g with dirty := 0 } else g) ∧
    (s.grans.filter hit = [] → t = s) ∧
    ∀ g, s.grans.filter hit = [g] → ∀ sp, t.mem sp = (granWriteBack g s).mem sp) ∧
  (∀ (cluster : BitVec 5) (die : BitVec 2) (s : State),
    ((s.cluster cluster.toFin).kvc = [] → exec (.kvcCommit cluster) s = .next s) ∧
    ((s.die die.toFin).walker = [] → exec (.cacheWalkerRange die) s = .next s)) ∧
  ∀ (ctx : BitVec 6) (va : Word) (s : State), ∃ t, exec (.pageWalk ctx va) s = .next t ∧
    (∀ c, (t.coreAt c).stash = (s.coreAt c).stash) ∧
    ((∀ g ∈ s.grans, g.home.space = .hbm → g.dirty = 0) → t.hbm = s.hbm ∧ t.host = s.host) ∧
    (va.toNat < 2 ^ 52 →
      (s.core.tlb.find? (tlbHit ctx va.toNat) ≠ none → t = s) ∧
      (∀ e, s.core.tlb.find? (tlbHit ctx va.toNat) = none →
        (s.cluster (clusterOf s.me)).tlb.find? (tlbHit ctx va.toNat) = some e →
        t = s.upd fun k => { k with tlb := tlbAdd 64 e k.tlb }) ∧
      (∀ f, s.core.tlb.find? (tlbHit ctx va.toNat) = none → (s.cluster (clusterOf s.me)).tlb.find? (tlbHit ctx va.toNat) = none →
        walkFrom (some (dieOf s.me)) ctx va.toNat (countWalk (dieOf s.me) s) = .error (.trap f) → t = countWalk (dieOf s.me) s) ∧
      ∀ u leaf size, s.core.tlb.find? (tlbHit ctx va.toNat) = none →
        (s.cluster (clusterOf s.me)).tlb.find? (tlbHit ctx va.toNat) = none →
        walkFrom (some (dieOf s.me)) ctx va.toNat (countWalk (dieOf s.me) s) = .ok (u, leaf, size) →
        let e : TlbEntry := ⟨ctx, va.toNat / 2 ^ 19, size, leaf⟩
        t = (u.updCore s.me fun k => { k with tlb := tlbAdd 64 e k.tlb }).updCluster (clusterOf s.me) fun k =>
          { k with tlb := tlbAdd 4096 e k.tlb })

/-! ### Events of the memory system -/

/-- R59, R81, R83, R84, R86, R431: a recall takes a granule's dirty bytes home, for write it drops the granule, for read it leaves it clean; a push
writes VALUE, advances SEQ by the stores it stands for, sets OVR if the slot was not read, keeps the sticky flags and clears the mark; a
back-invalidation of a line held recalls its granules and forgets it.
R405, R450, R451, R93: a corrected error advances ECCCE and nothing else; an uncorrectable one in state that carries poison poisons that piece and no other,
counts in ECCUE and changes no value; in a TLB or the walk cache it drops the entry; g0 and k0 take no poison; in state that carries none it kills the node, and the second of a
core takes it out of service with an error-log entry. The model's readings: a write-back that its home does not take sets WERR, and where the tag has changed the granule goes (log entry 55);
an error changes no value, and one of a TLB is not counted (log entry 49). -/
def Obligations.MemoryEvents : Prop :=
  ((∀ (granule : BitVec 14) (write : Bool) (s : State),
    (granFind s s.me granule.toNat = none → exec (.windowRecall granule write) s = .next s) ∧
    ∀ g, granFind s s.me granule.toNat = some g → ∃ t, exec (.windowRecall granule write) s = .next t ∧
      (∀ sp, t.mem sp = (granWriteBack g s).mem sp) ∧ (∀ c, t.coreAt c = (granWriteBack g s).coreAt c) ∧
      (write = true ∨ (g.dirty ≠ 0 ∧ granTagOk g s = false) → granFind t s.me granule.toNat = none) ∧
      (write = false → g.dirty = 0 ∨ granTagOk g s = true →
        granFind t s.me granule.toNat = some { g with dirty := 0 })) ∧
  (∀ (g : Gran) (s : State),
    (granBarred g s = true → g.dirty ≠ 0 → granWriteBack g s = setWerr g.core (BitVec.ofNat 64 g.va) s) ∧
    ∀ i, g.home.space = .hbm → s.hbm.wf = true → i < 64 → granBarred g s = false → badBlockHit s g.home g.comp 64 = false →
      (granWriteBack g s).hbm.byte (g.home.addr + i) =
        if g.dirty.getLsbD i then (s.coreAt g.core).stash.byte (64 * g.gran + i) else s.hbm.byte (g.home.addr + i)) ∧
  (∀ (slot : BitVec 4) (s : State),
    (s.subs.find? (fun u => decide (u.core = s.me) && decide (u.slot = slot)) = none → exec (.subscriptionPush slot) s = .next s) ∧
    ∀ u, s.subs.find? (fun u => decide (u.core = s.me) && decide (u.slot = slot)) = some u →
      (u.pending = 0 → exec (.subscriptionPush slot) s = .next s) ∧
      (u.pending ≠ 0 → 
        let r := subValue u s
        let v := r.2.1
        let clear (x : Sub) : Sub := if x.core = s.me ∧ x.slot = slot then { x with pending := 0, coal := false, last := v } else x
        let subs := r.1.subs.map clear
        exec (.subscriptionPush slot) s = .next (pushSlot s.me slot v r.2.2 u.pending u.coal { r.1 with subs := subs }))) ∧
  (∀ (c : CoreId) (slot : BitVec 4) (v : BitVec 32) (n : Nat) (bad coal : Bool) (s : State), (s.coreAt c).stash.wf = true →
    let old := slotWord (s.coreAt c) slot
    let t := pushSlot c slot v bad n coal s
    let new := slotWord (t.coreAt c) slot
    (bad = true → (t.coreAt c).stash.poisoned (vget slot (s.coreAt c).slots).sa.toNat 8 = true) ∧
    new.extractLsb' 0 32 = v ∧ new.extractLsb' 32 16 = old.extractLsb' 32 16 + BitVec.ofNat 16 n ∧
      new.getLsbD 60 = (old.getLsbD 60 || !(vget slot (s.coreAt c).slots).read) ∧
      new.getLsbD 61 = (old.getLsbD 61 || coal) ∧ new.getLsbD 62 = old.getLsbD 62 ∧ new.getLsbD 63 = old.getLsbD 63 ∧
      (vget slot (t.coreAt c).slots).read = false) ∧
  ∀ (port : BitVec 2) (line : Nat) (s : State),
    (s.pool.filter.contains (port, line) = false → requestInFlight port line s = false →
      exec (.backInvalidation port line) s = .next s) ∧
    (requestInFlight port line s = true → ∃ t, exec (.backInvalidation port line) s = .next t ∧
      t.pool.crossed.contains (port, line) = true ∧ (filterNote port line t).pool.filter = t.pool.filter) ∧
    (s.pool.filter.contains (port, line) = true → ∃ t, exec (.backInvalidation port line) s = .next t ∧
      (∀ g ∈ t.grans, g.home ≠ ⟨.pool port, line * 128⟩ ∧ g.home ≠ ⟨.pool port, line * 128 + 64⟩) ∧
      ((∀ u ∈ s.subs, ¬(u.word.space = .pool port ∧ u.word.addr / 128 = line)) →
        t.pool.filter.contains (port, line) = false))) ∧
  ((∀ (die : BitVec 2) (s : State), exec (.softErrorCorrected die) s =
    .next (s.updDie die.toFin fun x => { x with eccce := x.eccce + 1 })) ∧
  (∀ (p : SramPlace) (s : State), ∃ t, exec (.sramErrorPoisoned p) s = .next t ∧
    (∀ sp, t.mem sp = s.mem sp) ∧ (∀ c, c ≠ s.me → t.coreAt c = s.coreAt c) ∧
    (∀ i, i ≠ dieOf s.me → t.die i = s.die i) ∧
    (t.die (dieOf s.me)).eccue = (s.die (dieOf s.me)).eccue + (if placeIsTlb p then 0 else 1) ∧
    (∀ a, t.core.stash.byte a = s.core.stash.byte a) ∧ (∀ r, (t.g r).val = (s.g r).val) ∧ (∀ r, (t.k r).val = (s.k r).val) ∧
    t.core.rg.pc = s.core.rg.pc ∧ t.core.rg.status = s.core.rg.status) ∧
  (∀ (g : BitVec 14) (s t : State), exec (.sramErrorPoisoned (.stashGranule g)) s = .next t →
    (∀ h, h ∈ t.core.stash.bad ↔ h = g.toNat ∨ h ∈ s.core.stash.bad) ∧ t.core.eng = s.core.eng ∧ t.core.rg = s.core.rg) ∧
  (∀ (r : BitVec 10) (s t : State), exec (.sramErrorPoisoned (.vectorRow r)) s = .next t →
    kget ⟨0, false⟩ t.core.eng.v r.toNat = { kget ⟨0, false⟩ s.core.eng.v r.toNat with bad := true } ∧
      (∀ i, i ≠ r.toNat → kget ⟨0, false⟩ t.core.eng.v i = kget ⟨0, false⟩ s.core.eng.v i) ∧
      t.core.eng.acc = s.core.eng.acc ∧ t.core.stash = s.core.stash ∧ t.core.rg = s.core.rg) ∧
  (∀ (r : BitVec 9) (s t : State), exec (.sramErrorPoisoned (.accRow r)) s = .next t → r.toNat < 384 →
    kget ⟨0, false⟩ t.core.eng.acc r.toNat = { kget ⟨0, false⟩ s.core.eng.acc r.toNat with bad := true } ∧
      (∀ i, i ≠ r.toNat → kget ⟨0, false⟩ t.core.eng.acc i = kget ⟨0, false⟩ s.core.eng.acc i) ∧
      t.core.eng.v = s.core.eng.v ∧ t.core.stash = s.core.stash ∧ t.core.rg = s.core.rg) ∧
  (∀ (r q : Reg) (s t : State), exec (.sramErrorPoisoned (.gReg r)) s = .next t →
    (t.g q).bad = ((s.g q).bad || decide (q = r ∧ r ≠ 0)) ∧ (∀ i, t.k i = s.k i)) ∧
  (∀ (r q : BitVec 3) (s t : State), exec (.sramErrorPoisoned (.kReg r)) s = .next t →
    (t.k q).bad = ((s.k q).bad || decide (q = r ∧ r ≠ 0)) ∧ (∀ i, t.g i = s.g i)) ∧
  (∀ (i : BitVec 6) (s t : State), exec (.sramErrorPoisoned (.l1Tlb i)) s = .next t →
    t.core = { s.core with tlb := s.core.tlb.take i.toNat ++ s.core.tlb.drop (i.toNat + 1) }) ∧
  (∀ (i : BitVec 12) (s t : State), exec (.sramErrorPoisoned (.l2Tlb i)) s = .next t →
    t.core = s.core ∧ let l := (s.cluster (clusterOf s.me)).tlb
      (t.cluster (clusterOf s.me)).tlb = l.take i.toNat ++ l.drop (i.toNat + 1)) ∧
  (∀ (i : BitVec 10) (s t : State), exec (.sramErrorPoisoned (.walkCache i)) s = .next t →
    t.core = s.core ∧ let l := (s.die (dieOf s.me)).wcache
      (t.die (dieOf s.me)).wcache = l.take i.toNat ++ l.drop (i.toNat + 1)) ∧
  ∀ (s : State),
    let u := s.updDie (dieOf s.me) fun x => { x with eccue := x.eccue + 1 }
    let v := (if s.core.rg.status = .off ∧ s.core.gang = none then u else killNodeOf s.me cSramUe u).upd fun k =>
      { k with ueCount := k.ueCount + 1 }
    exec .sramUe s = .next (if v.core.ueCount = 2 then
      logError 4 cSramUe 0 0 v.me.val (v.updCore v.me fun k => { k with inSvc := false }) else v))

/-! ### Decoding and the step -/

/-- R126, R50, R127: where the sequencer of a core is the next mover, the core runs, no fault waits and the bytes at its PC decode to a well-formed
instruction within the fetch range of its mode, the step is that instruction's exec at the state with the sequencer taken off the agenda, the window
granules that served one access only dropped, and what the hang detector has seen of the last move noted; an encoding that is no instruction is the step RESERVED_OPCODE; a last unit at 0x1_0000 or above is
ILLEGAL_INSTR, and in user mode one at 0xE000 or above PRIV unless the decoding is refused first; a core with a deferred fault takes it. For every other mover the step is exec of the row that it performs at the
state as it finds it, and a move that performs no row leaves the state as prepared. -/
def Obligations.StepRunsDecoded : Prop :=
  (∀ (c : CoreId) (rest : List Agent) (s : State), s.powered = true → s.agenda = .seq c :: rest →
    let u := focusCore c (noteProgress (dropTransient { s with agenda := rest }))
    let pc := u.pc.toNat
    let word (n : Nat) : Unit32 := controlUnit u.core (pc + 4 * n)
    let last := pc + 4 * (unitCount (word 0) - 1)
    u.core.rg.status = .running →
    ((u.core.rg.sup = true ∨ u.core.pend = []) → last < 0x10000 →
      (∀ i, decodeControl (word 0) (word 1) (word 2) = .ok i →
        (u.core.rg.sup = true ∨ last < 0xE000 ∨ decodeRefused c i = true → step s = exec i u) ∧
        (u.core.rg.sup = false → 0xE000 ≤ last → decodeRefused c i = false →
          step s = .next (takeTrap { cause := cPriv, addr := zext64 u.pc } u))) ∧
      (∀ e, decodeControl (word 0) (word 1) (word 2) = .error e → step s = exec (.reservedOpcode (word 0)) u)) ∧
    ((u.core.rg.sup = true ∨ u.core.pend = []) → 0x10000 ≤ last →
      step s = .next (takeTrap { cause := cIllegalInstr, addr := zext64 u.pc } u)) ∧
    (u.core.rg.sup = false → u.core.pend ≠ [] → step s = exec .pendingFaultTaken u)) ∧
  (∀ (a : Agent) (rest : List Agent) (s t : State), s.powered = true → s.agenda = a :: rest →
    (∀ i, prepare a { s with agenda := rest } = (t, some i) → step s = exec i t) ∧
    (prepare a { s with agenda := rest } = (t, none) → step s = .next t)) ∧
  ∀ (a : Agent) (rest : List Agent) (s : State), s.powered = false → s.agenda = a :: rest →
    (powersUp a = false → step s = .fault .poweredOff) ∧
    ∀ c, a = .event c .powerUp → step s = exec .powerUp (focusCore c (noteProgress (dropTransient { s with agenda := rest })))

/-- R126, R128, R130, R131, R133, R135, R139, R140, R254: words written out from the encoding tables decode to the instructions they stand for. -/
def Obligations.WordsDecode : Prop :=
  decodeControl 0xFFEC4108#32 0 0 = .ok (.addi (-5) 2 1) ∧
  decodeControl 0x2E0C4104#32 0 0 = .ok (.alu .andn ⟨4, true⟩ 3 2 1) ∧
  decodeControl 0xFFD52728#32 0 0 = .ok (.ld .hs (-2) 9 7) ∧
  decodeControl 0xFFFF2B30#32 0 0 = .ok (.br .taken ⟨3, true⟩ (-4)) ∧
  decodeControl 0x9008A64C#32 0 0 = .ok (.put .sampler 0 true true 5 6) ∧
  decodeControl 0x212C0058#32 0 0 = .ok (.fencem 0x21 true .device) ∧
  decodeControl 0x111C0064#32 0 0 = .ok (.barArrive 7 true 0) ∧
  decodeControl 0x00840480#32 0 0 = .ok (.sysr .trappc 4) ∧
  decodeControl 0x040C8501#32 0 0 = .ok (.pixEvict 3 false 4 5) ∧
  decodeControl 0x0831040A#32 0x00089532 0 = .ok (.atom .cas false .acqRel .device ⟨2, false⟩ 8 4 3 2 1) ∧
  decodeControl 0x4002D82F#32 0x00005001 0x89ABCDEF = .ok (.cmpl .tst ⟨1, false⟩ 1 0x89ABCDEF 5 (Combine.ofCode 2) 6) ∧
  decodeVector 0x000000000F8211F7E8A35403#96 =
    .ok (.vmad ⟨3, ⟨7, 0, true, 1⟩, ⟨0, 31, false, 31⟩, ⟨5, 2, true, 3⟩, false, true, 1, 4⟩) ∧
  decodeMatrix 0x00000007000001400000010000C000800030004021A69500#192 =
    .ok (.mma ⟨7, 0x140, 0x100, 0xC0, 0x80, 0x00300040, 33, true, false, true, false, false, true, 2, 9, 5⟩) ∧
  decodeTransform 0x12349283#32 = .ok (.setag ⟨0x1234, 9, 1, 2⟩) ∧
  decodeSampler 0xFFFE8452#32 = .ok (.addsImmediate ⟨0xFFFE, true, 0, 2, 1⟩) ∧
  (∀ (c : BitVec 3) (w : BitVec 1024), let r := recFields w
    r.next = w.extractLsb' 0 64 ∧ r.ctl = w.extractLsb' 64 64 ∧ r.src = w.extractLsb' 128 64 ∧ r.dst = w.extractLsb' 192 64 ∧
      r.e0 = w.extractLsb' 256 32 ∧ r.e3 = w.extractLsb' 352 32 ∧ r.s0 = w.extractLsb' 384 64 ∧ r.d0 = w.extractLsb' 640 64 ∧
      r.d3 = w.extractLsb' 832 64 ∧ r.kindAux = w.extractLsb' 896 64 ∧
      (r.ctl.extractLsb' 40 8 = 0x05#8 → copyInstr c r = .ok (.reduce c r)) ∧
      (r.ctl.extractLsb' 40 8 = 0x09#8 → copyInstr c r = .ok (.note c r)) ∧
      (r.ctl.extractLsb' 40 8 = 0x0A#8 → copyInstr c r = .error .opcode))

/-! ### Encoding and decoding agree -/

/-- R126 to R134: a well-formed instruction of the control stream decodes from its own units, whatever stands behind them, and has as many units as its first
unit says; conversely what the decoder accepts is well formed and encodes to the units it was read from. -/
def Obligations.ControlRoundTrip : Prop :=
  (∀ (i : Instr) (us : List Unit32) (x y : Unit32), i.wellFormed = true → encodeControl i = some us →
    decodeControl (us.getD 0 0) (us.getD 1 x) (us.getD 2 y) = .ok i ∧ us.length = unitCount (us.getD 0 0)) ∧
  ∀ (u v lit : Unit32) (i : Instr), decodeControl u v lit = .ok i →
    i.wellFormed = true ∧ encodeControl i = some ([u, v, lit].take (unitCount u))

/-- R135, R136, R138, R139, R254, R290, R302: vector, matrix, transform and sampler words decode from their own bits and, where the decoder accepts them, encode
to the bits they were read from; for the sampler, f tells MOV from its immediate form and ADDS from its. -/
def Obligations.StreamRoundTrips : Prop :=
  (∀ (i : Instr) (w : BitVec 96), encodeVector i = some w ↔ decodeVector w = .ok i) ∧
  (∀ (i : Instr) (w : BitVec 192), encodeMatrix i = some w ↔ decodeMatrix w = .ok i) ∧
  (∀ (i : Instr) (u : Unit32), encodeTransform i = some u ↔ decodeTransform u = .ok i) ∧
  (∀ (i : Instr) (u : Unit32), decodeSampler u = .ok i → encodeSampler i = some u) ∧
  ∀ (i : Instr) (u : Unit32), (∀ w, i = .mov w ∨ i = .adds w → w.f = false) → (∀ w, i = .movi w ∨ i = .addsImmediate w → w.f = true) →
    encodeSampler i = some u → decodeSampler u = .ok i

/-! ### The scheduler -/

/-- R379, R385, R443, R380, R415: a root joins its context's mailbox, or is dropped with OVF when 16 are queued, VALID is 0 or BASE is not accepted; ABORT clears
MODELOK, the queued roots and the context's graphs, discards its nodes, and where none of them has run and no gang of it is in flight, logs nothing and leaves the
other contexts' nodes, the counts of events, every core and memory; before READY both are ignored. The walker takes the header of the context whose turn it is: a legal one is a graph in
flight, any other is logged and consumed. -/
def Obligations.SubmissionsAndHeaders : Prop :=
  (∀ (ctx : BitVec 6) (root : Word) (s : State),
    let m := vget ctx s.sched.submits
    (s.ident.phase ≠ 5 → exec (.submitRoot ctx root) s = .next s ∧ exec (.abort ctx) s = .next s) ∧
    (s.ident.phase = 5 → s.feature 127 = true → (s.ctx ctx).valid = true → m.roots.length < 16 →
      exec (.submitRoot ctx root) s = .next (withSubmit ctx { m with roots := m.roots ++ [root] } s)) ∧
    (s.ident.phase = 5 → (s.feature 127 = false ∨ (s.ctx ctx).valid = false ∨ 16 ≤ m.roots.length) →
      exec (.submitRoot ctx root) s = .next (withSubmit ctx { m with ovf := true } s)) ∧
    (s.ident.phase = 5 → ∃ t, exec (.abort ctx) s = .next t ∧ (t.ctx ctx).modelok = false ∧
      (vget ctx t.sched.submits).roots = [] ∧ (∀ g ∈ t.sched.graphs, g.ctx ≠ ctx) ∧
      ((∀ n ∈ s.sched.nodes, n.ctx = ctx → n.gang = none ∧ n.run = 0 ∧ n.state ≠ .placed ∧ n.state ≠ .running) →
        (∀ g ∈ s.sched.gangs, g.ctx ≠ ctx) →
        (∀ n ∈ t.sched.nodes, n ∈ s.sched.nodes ∧ n.ctx ≠ ctx) ∧ t.ctx ctx = { s.ctx ctx with modelok := false } ∧
        (∀ d, d ≠ ctx → t.ctx d = s.ctx d ∧ vget d t.sched.submits = vget d s.sched.submits) ∧
        (vget ctx t.sched.submits).ovf = m.ovf ∧ (∀ e, evCount t e = evCount s e) ∧ t.sched.gangs = s.sched.gangs ∧
        t.cores = s.cores ∧ t.log = s.log ∧ ∀ sp, t.mem sp = s.mem sp))) ∧
  (∀ (ctx : BitVec 6) (s : State), ((vget ctx s.sched.submits).roots = [] ∨ walkerTurn s ≠ some ctx) →
    exec (.graphHeaderRead ctx) s = .next s) ∧
  (∀ (ctx : BitVec 6) (root : Word) (rest : List Word) (s : State), (vget ctx s.sched.submits).roots = root :: rest →
    walkerTurn s = some ctx →
    let u := withSubmit ctx { (vget ctx s.sched.submits) with roots := rest } s
    let t : State := { u with sched := { u.sched with rr := ctx + 1 } }
    (readHeader ctx root s = none → exec (.graphHeaderRead ctx) s = .next (logError 2 0 0 ctx.toNat 0xFFFF t)) ∧
    ∀ g, readHeader ctx root s = some g → exec (.graphHeaderRead ctx) s =
      .next (retireGraphs g.doneev { t with sched := { t.sched with graphs := t.sched.graphs ++ [g], nextId := t.sched.nextId + 1 } })) ∧
  (∀ (ctx : BitVec 6) (root : Word) (s s1 s2 : State) (x : Xl) (h : List Byte) (bad : Bool),
    hubTranslate ctx root.toNat .read s = .ok (s1, x) → hubBytes ctx root.toNat 64 s = .ok (s2, h, bad) →
    (headerLegal (s.ctx ctx) root x.region h bad → readHeader ctx root s = some
      { id := s.sched.nextId, ctx := ctx, nnodes := leAt h 0 4, nodes := BitVec.ofNat 64 (leAt h 8 8), doneev := leAt h 0x10 2,
        failev := if leAt h 0x12 2 = 0xFFFF then none else some (leAt h 0x12 2), donecnt := leAt h 0x14 4, next := 0,
        retired := false }) ∧
    (¬headerLegal (s.ctx ctx) root x.region h bad → readHeader ctx root s = none)) ∧
  ∀ (ctx : BitVec 6) (s : State), walkerTurn s = some ctx →
    s.sched.run = true ∧ (s.ident.tdi ≠ 3 ∨ (s.ctx ctx).tag = 0) ∧ (vget ctx s.sched.submits).roots ≠ [] ∧
      ∀ g ∈ s.sched.graphs, g.ctx = ctx → g.nnodes ≤ g.next

/-- R381, R384, R387, R388: the walker reads a graph's next descriptor: a malformed one is FAILED at once, one whose waits find no room waits, any other node is in
flight, ELIGIBLE if all its waits are met. A wait that is met is registered nowhere, the others in the pool while it has room and then in the ring, with SPILL
set. R386: EVENT_SET sets COUNT and EVENT_ADD adds to it, saturating, both write HOSTVIS and VEC, and no other event's count moves. R379, R380, R385: SUBMIT_ROOT
completes with its root queued, ABORT with the context's roots and graphs gone, and the walker's header read with the header consumed. That EVENT_SET raises no vector is the model's reading (log entry 24). -/
def Obligations.NodesAndEvents : Prop :=
  (∀ (graph : Nat) (s : State),
    (∀ g ∈ s.sched.graphs, g.id ≠ graph) → exec (.nodeDescriptorRead graph) s = .next s) ∧
  (∀ (graph : Nat) (g : Graph) (s : State), s.sched.graphs.find? (fun g => decide (g.id = graph)) = some g →
    let va := g.nodes + BitVec.ofNat 64 (128 * g.next)
    let u := withGraph graph (fun h => { h with next := h.next + 1 }) s
    let node (d : NodeDesc) : Node :=
      { id := s.sched.nextId, graph := some graph, slot := none, idx := g.next, ctx := g.ctx, va := va, desc := d, state := .waiting,
        run := 0, order := 0, since := 0, gang := none, pred := none }
    (walkerReads g.ctx s = false ∨ g.nnodes ≤ g.next ∨ waitRoom s = 0 → exec (.nodeDescriptorRead graph) s = .next s) ∧
    (walkerReads g.ctx s = true → g.next < g.nnodes → 0 < waitRoom s → g.retired = true → exec (.nodeDescriptorRead graph) s =
      .next (dropGraphs (withGraph graph (fun h => { h with next := h.nnodes }) s))) ∧
    (walkerReads g.ctx s = true → g.next < g.nnodes → 0 < waitRoom s → g.retired = false →
      (readDesc g.ctx va s = none → exec (.nodeDescriptorRead graph) s =
        .next (dropGraphs (nodeFailed s.sched.nextId 2 0 0xFFFF { u with sched := { u.sched with
          nodes := u.sched.nodes ++ [node NodeDesc.none], nextId := u.sched.nextId + 1 } }))) ∧
      ∀ d, readDesc g.ctx va s = some d →
        (waitRoom s < (d.waits.filter fun w => decide (evCount s w.1 < w.2)).length →
          exec (.nodeDescriptorRead graph) s = .next s) ∧
        ((d.waits.filter fun w => decide (evCount s w.1 < w.2)).length ≤ waitRoom s →
          exec (.nodeDescriptorRead graph) s = .next (enterNode (node d) u)))) ∧
  (∀ (n : Node) (s : State), n.state = .waiting → n.desc.kind ≠ 2 → (∀ w ∈ n.desc.waits, w.2 ≤ evCount s w.1) → (∀ x ∈ s.sched.nodes, x.id ≠ n.id) →
    (∀ w ∈ s.sched.waits ++ s.sched.spill, w.node ≠ n.id) → (∀ x ∈ s.sched.nodes, x.state ≠ .waiting) →
    findNode (enterNode n s) n.id = some { n with state := .eligible, order := s.order } ∧
      (enterNode n s).sched.waits = s.sched.waits ∧ (enterNode n s).sched.spill = s.sched.spill) ∧
  (∀ (w : Wait) (s : State),
    (w.thr ≤ evCount s w.ev → registerWait w s = s) ∧
    (evCount s w.ev < w.thr → s.sched.waits.length < 8192 →
      registerWait w s = { s with sched := { s.sched with waits := s.sched.waits ++ [w] } }) ∧
    (evCount s w.ev < w.thr → 8192 ≤ s.sched.waits.length →
      (registerWait w s).sched.spill = s.sched.spill ++ [w] ∧ (registerWait w s).sched.waits = s.sched.waits ∧
      (registerWait w s).sched.spills = s.sched.spills + 1 ∧ evGet (registerWait w s) w.ev = { evGet s w.ev with spill := true } ∧
      ∀ e, e ≠ w.ev → evGet (registerWait w s) e = evGet s e)) ∧
  (∀ (waits spill : List Wait) (s : State),
    waitRoom s = (8192 - s.sched.waits.length) + (s.sched.spilln - s.sched.spill.length) ∧
    (putWaits waits spill s).sched.waits = waits ++ spill.take (8192 - waits.length) ∧
    (putWaits waits spill s).sched.spill = spill.drop (8192 - waits.length)) ∧
  (∀ (e : BitVec 16) (v : Word) (s : State),
    (s.ident.phase ≠ 5 → exec (.eventSet e v) s = .next s ∧ exec (.eventAdd e v) s = .next s) ∧
    (s.ident.phase = 5 → ∃ t u, exec (.eventSet e v) s = .next t ∧ exec (.eventAdd e v) s = .next u ∧
      (evGet t e.toNat).count = v.extractLsb' 0 32 ∧
      (evGet u e.toNat).count = BitVec.ofNat 32 (min (evCount s e.toNat + v.toNat % 2 ^ 32) (2 ^ 32 - 1)) ∧
      (evGet t e.toNat).hostvis = v.getLsbD 62 ∧ (evGet t e.toNat).vec = v.extractLsb' 48 11 ∧
      (evGet u e.toNat).hostvis = v.getLsbD 62 ∧ (evGet u e.toNat).vec = v.extractLsb' 48 11 ∧
      t.msix = s.msix ∧ u.msix.raised = s.msix.raised ++ (if v.getLsbD 62 then [(v.extractLsb' 48 11).toNat] else []) ∧
      (∀ i, i ≠ e.toNat → { evGet t i with spill := (evGet s i).spill } = evGet s i ∧
        { evGet u i with spill := (evGet s i).spill } = evGet s i) ∧
      ((∀ n ∈ s.sched.nodes, n.desc.kind = 2 → n.state ≠ .waiting) → t.cores = s.cores ∧ u.cores = s.cores ∧
        ∀ sp, t.mem sp = s.mem sp ∧ u.mem sp = s.mem sp))) ∧
  (∀ (ctx : BitVec 6) (root : Word) (s : State), s.ident.phase = 5 → s.feature 127 = true → (s.ctx ctx).valid = true →
    (vget ctx s.sched.submits).roots.length < 16 → ∃ t, exec (.submitRoot ctx root) s = .next t ∧
      (vget ctx t.sched.submits).roots = (vget ctx s.sched.submits).roots ++ [root] ∧ t.cores = s.cores ∧
      ∀ sp, t.mem sp = s.mem sp) ∧
  (∀ (ctx : BitVec 6) (s : State), s.ident.phase = 5 → ∃ t, exec (.abort ctx) s = .next t ∧
    (vget ctx t.sched.submits).roots = [] ∧ (∀ g ∈ t.sched.graphs, g.ctx ≠ ctx)) ∧
  ∀ (ctx : BitVec 6) (root : Word) (rest : List Word) (s : State), walkerTurn s = some ctx →
    (vget ctx s.sched.submits).roots = root :: rest → ∃ t, exec (.graphHeaderRead ctx) s = .next t ∧
      (vget ctx t.sched.submits).roots = rest ∧ ∀ sp, t.mem sp = s.mem sp

/-- R383, R389: a CONDITIONAL acts on the predicate that was read when its last wait was met and makes SIG0 and SIG1, or SIG2 and SIG3; a poisoned or unreadable
word makes it FAILED;
HOST_SIGNAL raises its vector and, like JOIN, makes its signals in order; a node that is not ELIGIBLE or of another kind does nothing. A node that is DONE
leaves, but a LOOP with runs left is ELIGIBLE again (the model's readings, log entry 47 here and 50 on the order of the shares). R384, R390: a node enters READY in the order of eligibility while the pool and its partition's share have
room, with its time; a partition's first node that has waited 1 ms in READY begins its hold. -/
def Obligations.NodesWithoutCores : Prop :=
  (∀ (node : Nat) (s : State),
    (noEligible s node 2 → exec (.conditionalNode node) s = .next s) ∧
    (noEligible s node 3 → exec (.hostSignalNode node) s = .next s) ∧
    (noEligible s node 4 → exec (.joinNode node) s = .next s)) ∧
  (∀ (node : Nat) (n : Node) (s : State), eligibleNode s node 2 n →
    (n.pred = none → exec (.conditionalNode node) s = .next s) ∧
    (∀ w, n.pred = some (.word w) → exec (.conditionalNode node) s =
      .next (dropGraphs (dropNode node (makeSignals n (if w = 0 then n.desc.sigs.drop 2 else n.desc.sigs.take 2) s)))) ∧
    (∀ code, n.pred = some (.failed code) → exec (.conditionalNode node) s =
      .next (dropGraphs (nodeFailed node 1 code 0xFFFF s)))) ∧
  (∀ (n : Node) (s : State), (n.desc.kind ≠ 2 → readPredicate n s = s) ∧
    (n.desc.kind = 2 → findNode s n.id = some n →
      (∀ u bs, hubRead n.ctx n.desc.aux.toNat 4 s = .ok (u, bs, false) →
        findNode (readPredicate n s) n.id = some { n with pred := some (.word (BitVec.ofNat 32 (leVal bs))) }) ∧
      (∀ u bs, hubRead n.ctx n.desc.aux.toNat 4 s = .ok (u, bs, true) →
        findNode (readPredicate n s) n.id = some { n with pred := some (.failed cPoison) }) ∧
      ∀ t, hubRead n.ctx n.desc.aux.toNat 4 s = .error (.trap t) →
        findNode (readPredicate n s) n.id = some { n with pred := some (.failed t.cause) })) ∧
  (∀ (node : Nat) (n : Node) (s : State),
    (eligibleNode s node 3 n → exec (.hostSignalNode node) s =
      .next (dropGraphs (nodeDone node (raiseMsix (n.desc.aux.extractLsb' 0 11) s)))) ∧
    (eligibleNode s node 4 n → exec (.joinNode node) s = .next (dropGraphs (nodeDone node s)))) ∧
  (∀ (node : Nat) (n : Node) (s : State), findNode s node = some n →
    let t := makeSignals n n.desc.sigs s
    let live := n.graph = none ∨ ∃ h ∈ s.sched.graphs, n.graph = some h.id ∧ h.retired = false
    (live → t = n.desc.sigs.foldl (fun s x => signalEvent x.1 (BitVec.ofNat 32 x.2) s) s) ∧
    (¬live → t = s) ∧
    (n.desc.kind ≠ 1 → nodeDone node s = dropNode node (freeList n t)) ∧
    (∀ x ∈ (dropNode node t).sched.nodes, x.id ≠ node) ∧
    (n.desc.kind = 1 → n.graph = none → n.desc.sigs = [] →
      (n.run + 1 < n.desc.aux.toNat % 2 ^ 32 →
        findNode (nodeDone node s) node = some { n with state := .eligible, run := n.run + 1, order := s.order, gang := none }) ∧
      (n.desc.aux.toNat % 2 ^ 32 ≤ n.run + 1 → findNode (nodeDone node s) node = none))) ∧
  (∀ (node : Nat) (s : State),
    (findNode s node = none → exec (.nodeEnterReady node) s = .next s) ∧
    ∀ n, findNode s node = some n →
      (¬entersReady s n → exec (.nodeEnterReady node) s = .next s) ∧
      (entersReady s n → ∃ t, exec (.nodeEnterReady node) s = .next t ∧
        findNode t node = some { n with state := .ready, since := s.dcc } ∧
        (∀ i, i ≠ node → findNode t i = findNode s i) ∧ t.cores = s.cores ∧ ∀ sp, t.mem sp = s.mem sp)) ∧
  ∀ (part : BitVec 3) (s : State), ∃ t, exec (.placementHold part) s = .next t ∧
    t = { s with sched := { s.sched with holds := t.sched.holds } } ∧ (∀ i ∈ s.sched.holds, i ∈ t.sched.holds) ∧
    (∀ n rest, (readyRanked s).filter (fun x => decide ((s.ctx x.ctx).part = part)) = n :: rest → pausedNode s n = false →
      (650000 ≤ waited s n → n.id ∈ t.sched.holds) ∧ (waited s n < 650000 → t.sched.holds = s.sched.holds)) ∧
    ∀ i ∈ t.sched.holds, i ∈ s.sched.holds ∨ ∃ n ∈ s.sched.nodes, n.id = i ∧ n.state = .ready ∧ (s.ctx n.ctx).part = part ∧
      650000 ≤ waited s n ∧ pausedNode s n = false

/-- R390, R391, R392, R395, R450: the dispatcher places the first node in rank order that fits, all or nothing: its cores are the gang's, in index order with their
boot mailboxes written and GO set, the gang has a number that is not 0, the node is PLACED and its hold ends, and no other core changes; with RUN 0 it does
nothing, and with nothing that fits it only notes the holds that are due. The effective priority grows by one every 2 ms up to 6; 7 stays 7. R393, R406: a node unplaced for 1 ms asks the victims of the first cluster where
that makes it placeable to stop, if there are save slots for all their members; one that stops already is not asked again. The model's readings: a gang with a tree that is not installed fails with CODE 0 (log entry 36); CODE SRAM_UE, and a stopping gang counts
among the victims (log entry 50); its choice: the 1 ms and the 2 ms run from READY (log entry 32). -/
def Obligations.PlacementAndPreemption : Prop :=
  (∀ (s : State), s.sched.run = false → exec .nodePlacement s = .next s) ∧
  (∀ (s : State), s.sched.run = true →
    let u := noteHolds s
    let p := pickNode u (readyRanked u) []
    u = { s with sched := { s.sched with holds := u.sched.holds } } ∧
    (p = none → exec .nodePlacement s = .next u) ∧
    ∀ n k ms, p = some (n, k, ms) →
      (gangBroken u n = true → exec .nodePlacement s = .next (failReady n cSramUe u)) ∧
      (gangBroken u n = false → treesOk u n = false → exec .nodePlacement s = .next (failReady n 0 u)) ∧
      (gangBroken u n = false → treesOk u n = true → (∀ g, n.gang.bind (findGang u) = some g → exec .nodePlacement s = .next (placeSaved n g k u)) ∧
        (n.gang.bind (findGang u) = none → exec .nodePlacement s = .next (placeNew n k ms u)))) ∧
  (∀ (n : Node) (k : Fin 32) (ms : List CoreId) (s : State), ms.Nodup →
    let t := placeNew n k ms s
    let num := nextNumber s
    (∀ i, (h : i < ms.length) → t.coreAt ms[i] = { s.coreAt ms[i] with
      gang := some num, boot := placedBox n num i ms.length (s.ctx n.ctx).part (s.coreAt ms[i]).boot }) ∧
    (∀ c, c ∉ ms → t.coreAt c = s.coreAt c) ∧ num ≠ 0 ∧ n.id ∉ t.sched.holds ∧
    (∀ x, findNode s n.id = some x → findNode t n.id = some { x with state := .placed, gang := some num }) ∧
    (∃ g, t.sched.gangs = s.sched.gangs ++ [g] ∧ g.num = num ∧ g.node = n.id ∧ g.members = ms ∧ g.state = .placed ∧
      g.cluster.toFin = k ∧ g.prio = n.desc.prio ∧ g.ctx = n.ctx ∧ g.slots = [] ∧ g.done = []) ∧
    ∀ sp, t.mem sp = s.mem sp) ∧
  (∀ (n : Node) (s : State), waited s n = (s.dcc - n.since).toNat ∧
    effPrio s n = if n.desc.prio = 7 then 7 else min 6 (n.desc.prio + waited s n / 1300000)) ∧
  (∀ (n : Node) (k : Fin 32) (g : Gang) (s : State), g ∈ victims s n k → g ∈ s.sched.gangs ∧ g.cluster.toFin = k ∧ (g.state = .running ∨ g.state = .stopping) ∧
    g.prio + 2 ≤ effPrio s n ∧ g.retry ≤ s.dcc) ∧
  (∀ (node : Nat) (s : State),
    (findNode s node = none → exec (.preemptRequest node) s = .next s) ∧
    ∀ n, findNode s node = some n →
      (s.sched.run = false ∨ n.state ≠ .ready ∨ waited s n < 650000 ∨ pausedNode s n = true →
        exec (.preemptRequest node) s = .next s) ∧
      (s.sched.run = true → n.state = .ready → 650000 ≤ waited s n → pausedNode s n = false →
        let gs := (List.finRange 32).findSome? fun k => enoughVictims s n k [] (victims s n k)
        (gs = none → exec (.preemptRequest node) s = .next s) ∧
        ∀ l, gs = some l → exec (.preemptRequest node) s = .next (requestStops (l.filter fun g => decide (g.state = .running)) s))) ∧
  ∀ (gs : List Gang) (s : State),
    ((freeSlots s).length < (gs.map fun g => g.members.length).sum → requestStops gs s = s) ∧
    (∀ g, (s.sched.gangs.filter fun h => decide (h.num = g.num)) = [g] → gs = [g] → g.members.length ≤ (freeSlots s).length →
      findGang (requestStops gs s) g.num = some { g with state := .stopping, slots := (freeSlots s).take g.members.length }) ∧
    (requestStops gs s).cores = s.cores ∧ ∀ i ∈ freeSlots s, i < s.sched.saven ∧ ∀ g ∈ s.sched.gangs, i ∉ g.slots

/-- R395, R397, R16: a gang starts in one step: every member that had not finished runs, its boot mailbox reads 2 and GO 0, no other core's mailbox or sequencer
changes; a fault that the gang holds for a finished member kills it instead (the model's reading, log entry 50). GO loads a gang that is placed and starts it unless it is STAMPED and its cluster is
not at P0, which P0_REACHED starts; a mailbox without GO does nothing, nor does P0_REACHED where no gang waits for it. R187: a stop request is withdrawn while some
member has not stopped. R406, R409, R450: GANG_SAVE saves a stopping gang once all its members are idle, GANG_RESTORE restores a saved one that is placed again; otherwise
both do nothing. R407, R409: a restored member holds in g0 to g31, k0 to k7, its PC, MODE and counters, its system registers, loop stack depth, shape, barriers, channels and stash what its save
area lists at their offsets, in user mode, without boost state, buffered stores or faults; a gang of one member whose images are resident starts so, no other core changed. What
R407 does not list (phases, requests, counts) is kept beside the area (log entry 25). -/
def Obligations.GangStartsAndSaves : Prop :=
  (∀ (g h : Gang) (s : State), findGang s g.num = some h →
    (∀ c f, fatalPending h = some (c, f) → startGang g s = killGang h f.cause c.val s) ∧
    (fatalPending h = none →
      let t := startGang g s
      (∀ c, c ∈ h.members → c ∉ h.done → (t.coreAt c).rg = { (s.coreAt c).rg with status := .running } ∧
        (t.coreAt c).boot = { (s.coreAt c).boot with state := 2, code := 0, go := false }) ∧
      (∀ c, (c ∉ h.members ∨ c ∈ h.done) → (t.coreAt c).rg = (s.coreAt c).rg ∧ (t.coreAt c).boot = (s.coreAt c).boot) ∧
      (∀ c, (t.coreAt c).eng = (s.coreAt c).eng ∧ (t.coreAt c).stash = (s.coreAt c).stash ∧ (t.coreAt c).bars = (s.coreAt c).bars) ∧
      findGang t g.num = some { h with state := .running, start := s.dcc, slots := [], kept := [], pending := [] } ∧
      (∀ n, findNode s h.node = some n → findNode t h.node = some { n with state := .running }) ∧ ∀ sp, t.mem sp = s.mem sp)) ∧
  (∀ (core : CoreId) (s : State),
    ((s.coreAt core).boot.go = false ∨ (baseOff s = true ∧ s.sched.bringup = false) → exec (.bootGo core) s = .next s) ∧
    ((s.coreAt core).boot.go = true → baseOff s = false ∨ s.sched.bringup = true →
      (∀ g, gangOf s core = some g → g.state = .placed → exec (.bootGo core) s = .next (loadGang g s)) ∧
      (∀ g, gangOf s core = some g → g.state ≠ .placed → exec (.bootGo core) s = .next s) ∧
      (gangOf s core = none → s.sched.bringup = false → exec (.bootGo core) s = .next s) ∧
      (gangOf s core = none → s.sched.bringup = true → exec (.bootGo core) s = .next (bringup core s)))) ∧
  (∀ (g : Gang) (s u : State) (ls : List Launch) (l : Launch) (rest : List Launch),
    checkMembers ((findNode s g.node).map fun n => (n.desc.gangm, n.desc.gangs, n.desc.cls)) g.members s = .ok (u, ls) →
    ls = l :: rest →
    let v := loadSegment g.cluster.toFin g.ctx l.box.handle (l.img.sects.getD 4 [])
      (ls.foldl (fun s l => s.updCore l.core (launchCore l (u.ctx g.ctx))) u)
    (g.stamped = true → (v.cluster g.cluster.toFin).pstate ≠ 0 →
      loadGang g s = { v with sched := { v.sched with gangs := v.sched.gangs.map fun h =>
        if h.num = g.num then { h with state := .waitP0 } else h } }) ∧
    (g.stamped = false ∨ (v.cluster g.cluster.toFin).pstate = 0 → loadGang g s = startGang g v)) ∧
  (∀ (cluster : BitVec 5) (s : State),
    let u := s.updCluster cluster.toFin fun k => { k with pstate := 0 }
    ((∀ g ∈ s.sched.gangs, g.cluster = cluster → g.state ≠ .waitP0) → exec (.p0Reached cluster) s = .next s) ∧
    ∀ g, (s.sched.gangs.filter fun g => decide (g.cluster = cluster) && decide (g.state = .waitP0)) = [g] →
      exec (.p0Reached cluster) s = .next (startGang g u)) ∧
  (∀ (gang : Nat) (s : State), findGang s gang = none →
    exec (.gangSave gang) s = .next s ∧ exec (.gangRestore gang) s = .next s ∧ exec (.preemptWithdraw gang) s = .next s) ∧
  ∀ (gang : Nat) (g : Gang) (s : State), findGang s gang = some g →
    (canSave g s = false → exec (.gangSave gang) s = .next s) ∧
    (canSave g s = true → exec (.gangSave gang) s = .next (saveGang g s) ∧
      (∀ c ∈ g.members, ((saveGang g s).coreAt c).gang = none ∧ ((saveGang g s).coreAt c).rg.status = .off) ∧
      (∀ h ∈ (saveGang g s).sched.gangs, h.num = g.num → h.state = .saved ∧ h.smp = []) ∧
      (∀ n ∈ (saveGang g s).sched.nodes, n.id = g.node → n.state = .saved)) ∧
    (g.state ≠ .placed ∨ g.slots = [] → exec (.gangRestore gang) s = .next s) ∧
    (g.state = .placed → g.slots ≠ [] → exec (.gangRestore gang) s = .next (restoreGang g s)) ∧
    let late := ∃ c ∈ g.members, c ∉ g.done ∧ (s.coreAt c).rg.status ≠ .stopped
    (¬(g.state = .stopping ∧ late) → exec (.preemptWithdraw gang) s = .next s) ∧
    (g.state = .stopping → late → ∃ t, exec (.preemptWithdraw gang) s = .next t ∧
      (∀ h ∈ t.sched.gangs, h.num = gang → h.state = .running ∧ h.slots = [] ∧ h.pending = [] ∧
        h.retry = s.dcc + 65000) ∧
      (∀ c ∈ g.members, (s.coreAt c).rg.status = .stopped → (t.coreAt c).rg = { (s.coreAt c).rg with status := .running }) ∧
      (∀ c, (c ∉ g.members ∨ (s.coreAt c).rg.status ≠ .stopped) → (t.coreAt c).rg = (s.coreAt c).rg)) ∧
    (∀ c i kp, g.members = [c] → g.slots = [i] → g.done = [] → (g.kept.find? fun x => decide (x.core = c)) = some kp → kp.area = none →
      holdsImage g.ctx g.image (s.coreAt c) = true →
      (segmentOf g.cluster.toFin g.ctx g.image s).any (·.loaded) = true →
      (∀ j < 16, (BitVec.ofNat 64 (leVal (s.hbm.bytes (slotBase s i + 0x710 + 16 * j) 8))).getLsbD 63 = false) →
      (g.stamped = false ∨ (s.cluster g.cluster.toFin).pstate = 0) →
      ∃ u box, restoreGang g s = startGang g u ∧ (∀ d, d ≠ c → u.coreAt d = s.coreAt d) ∧
        u.coreAt c = restoreCore c s.hbm (slotBase s i) kp g.ctx (s.ctx g.ctx) { s.coreAt c with boot := box }) ∧
    ∀ (c : CoreId) (m : Mem) (b : Nat) (kp : Kept) (ctxNum : BitVec 6) (ctx : Ctx) (k : Core),
      let t := restoreCore c m b kp ctxNum ctx k
      let at_ (o : Nat) : Word := BitVec.ofNat 64 (leVal (m.bytes (b + o) 8))
      (∀ r : Reg, vget r t.rg.g = ⟨at_ (0x100 + 8 * r.toNat), (at_ 0x0B0).getLsbD r.toNat⟩) ∧
      (∀ r : BitVec 3, vget r t.rg.k = ⟨decide (m.byte (b + 0x200 + r.toNat) ≠ 0), (at_ 0x0B0).getLsbD (32 + r.toNat)⟩) ∧
      t.rg.pc = (at_ 0x008).setWidth 16 ∧ t.rg.sup = false ∧ t.rg.boost = [] ∧ t.rg.mode = at_ 0x208 ∧ t.rg.srseed = at_ 0x0A8 ∧
      t.rg.psn = at_ 0x098 ∧ t.rg.voi = at_ 0x0A0 ∧ t.rg.ldisc = at_ 0x0B8 ∧ t.sys.mxmiss = at_ 0x0C0 ∧ t.sys.werr = at_ 0x0C8 ∧
      t.sys.relquery = at_ 0x0D0 ∧ t.rg.loops.length = ((at_ 0x090).extractLsb' 20 3).toNat ∧
      t.eng.shape = ⟨((at_ 0x090).extractLsb' 0 5).toNat + 1, ((at_ 0x090).extractLsb' 8 8).toNat⟩ ∧
      (∀ n : BitVec 6, let w := BitVec.ofNat 128 (leVal (m.bytes (b + 0x310 + 16 * n.toNat) 16))
        let x := vget n t.bars
        x.init = w.getLsbD 0 ∧ x.phase = w.getLsbD 1 ∧ x.err = w.getLsbD 2 ∧ x.arrived = w.extractLsb' 32 16 ∧
        x.expect = w.extractLsb' 48 16 ∧ x.esrc = w.extractLsb' 64 10 ∧ x.estat = w.extractLsb' 88 8 ∧ x.cntw = w.extractLsb' 96 32) ∧
      (∀ n : BitVec 3, let x := vget n t.chans
        x.head = at_ (0x210 + 32 * n.toNat) ∧ x.va = at_ (0x218 + 32 * n.toNat) ∧ x.wmark = (at_ (0x220 + 32 * n.toNat)).toNat ∧
        x.status = (at_ (0x228 + 32 * n.toNat)).extractLsb' 48 8 ∧ x.twait = (at_ (0x228 + 32 * n.toNat)).getLsbD 40 ∧
        x.reread = 0) ∧
      (k.stash.wf = true → k.decl.stash % 64 = 0 → ∀ a < k.decl.stash, t.stash.byte a = m.byte (b + 0x35000 + a)) ∧
      t.stores = [] ∧ t.loadsOut = 0 ∧ t.pend = [] ∧ t.taken = [] ∧ t.inv = none ∧ t.decl = k.decl ∧ t.cmem = k.cmem

/-- R44, R45, R350: a member of a stopping gang stops at its pre-emption point with no fault pending, and an open invocation is abandoned. R27, R46: a FIFO wait
that nothing can end, or a stop token that has not come back, kills the node with FIFO_STALL. R48, R176, R404: a halted core with nothing under way is off with its boot mailbox at 4, its unpopped
elements gone and stopped channels IDLE; a killed core is off once its requests have completed. -/
def Obligations.CoresStopAndEnd : Prop :=
  (∀ (s : State),
    (gangOf s s.me = none → exec .preemptionStop s = .next s) ∧
    ∀ g, gangOf s s.me = some g →
      (g.state = .stopping ∧ s.core.rg.status = .running ∧ atPoint s s.me = true ∧ s.core.pend = [] → ∃ t, exec .preemptionStop s = .next t ∧
        t.core.rg = { s.core.rg with status := .stopped } ∧ t.core.inv = none ∧ t.core.eng = s.core.eng ∧ t.core.stash = s.core.stash ∧
        (∀ c, c ≠ s.me → t.coreAt c = s.coreAt c) ∧ t.sched = s.sched ∧ ∀ sp, t.mem sp = s.mem sp) ∧
      (g.state ≠ .stopping ∨ s.core.rg.status ≠ .running ∨ atPoint s s.me = false ∨ s.core.pend ≠ [] →
        exec .preemptionStop s = .next s)) ∧
  (∀ (c : CoreId) (s : State), atPoint s c = true ↔ (s.coreAt c).rg.sup = false ∧ (s.coreAt c).rg.boost = [] ∧
    (∀ r ∈ (s.coreAt c).rg.run, r.live = false) ∧ ((s.coreAt c).rg.loops = [] ∨ (s.coreAt c).rg.bound = true) ∧
    ∀ x ∈ (s.cluster (clusterOf c)).kvc, x.core ≠ c) ∧
  (∀ (s : State),
    let k := s.core
    let live := k.rg.status ≠ .off ∧ k.rg.status ≠ .killed
    let blocked := (∃ q ∈ allQueues, waitsOnFifo k q = true) ∧ ∀ q ∈ allQueues, canBegin q s = false
    let left := k.rg.status = .halted ∧ queuesEmpty k = true ∧ ∃ f ∈ k.eng.fifos.toList, f ≠ []
    (live ∧ (blocked ∨ left) → exec .fifoStall s = .next (killNodeOf s.me cFifoStall s)) ∧
    (¬(live ∧ (blocked ∨ left)) → exec .fifoStall s = .next s) ∧
    let held := (∃ q ∈ allQueues, (k.eng.queue q).entries ≠ []) ∨ ∃ f ∈ k.eng.fifos.toList, f ≠ []
    (k.rg.status = .stopped → held → exec .stopTokenTimeout s = .next (killNodeOf s.me cFifoStall s)) ∧
    (k.rg.status ≠ .stopped ∨ ¬held → exec .stopTokenTimeout s = .next s)) ∧
  (∀ (u : StallUnit) (s : State),
    let n := noteProgress s
    ((s.stallt = 0 ∨ holdsWork u s = false) → exec (.engineStallDetected u) s = .next n) ∧
    (s.stallt ≠ 0 → holdsWork u s = true →
      (watchOf u n = none → exec (.engineStallDetected u) s = .next { n with watches := n.watches ++ [⟨u, underWay u s, s.dcc⟩] }) ∧
      ∀ w, watchOf u n = some w →
        let due := max 0x100000 s.stallt.toNat ≤ (s.dcc - w.since).toNat ∧ isHung u s = false
        (due → exec (.engineStallDetected u) s = .next (logError 4 0 0 0 (stallCore u) (setHung u n))) ∧
        (¬due → exec (.engineStallDetected u) s = .next n))) ∧
  (∀ (s : State), noteProgress s = { s with watches := (noteProgress s).watches } ∧
    ∀ w ∈ (noteProgress s).watches, holdsWork w.unit s = true ∧ w.seen = underWay w.unit s ∧
      ∃ old ∈ s.watches, old.unit = w.unit ∧ w.since = if old.seen.all (underWay w.unit s).contains then old.since else s.dcc) ∧
  (∀ (s : State), (s.core.rg.status ≠ .halted ∧ s.core.rg.status ≠ .killed → exec .coreFinish s = .next s) ∧
    (s.core.rg.status = .halted → canFinish s.core = false → exec .coreFinish s = .next s) ∧
    (s.core.rg.status = .halted → canFinish s.core = true →
      let t := setBoot s.me 4 0 (finishCore s.me s)
      (gangOf t s.me = none → exec .coreFinish s = .next t) ∧
      (∀ g, gangOf t s.me = some g → exec .coreFinish s = .next (finishMember g s.me t)) ∧
      (t.coreAt s.me).rg.status = .off ∧ (t.coreAt s.me).boot.state = 4 ∧ (t.coreAt s.me).reqs = [] ∧
      (t.coreAt s.me).fence = none ∧ ∀ ch ∈ (t.coreAt s.me).chans.toList, ch.state ≠ .stopped ∧ ch.state ≠ .halted)) ∧
  (∀ (k : Core), canFinish k = true ↔ (∀ q ∈ allQueues, (k.eng.queue q).entries = []) ∧ k.eng.mxq = [] ∧ k.xs.runs = [] ∧
    (∀ f ∈ k.eng.fifos.toList, f = []) ∧ (∀ r ∈ k.reqs, r.result ≠ none) ∧
    ∀ ch ∈ k.chans.toList, ch.state ≠ .walk ∧ ch.state ≠ .tail) ∧
  ∀ (s : State), s.core.rg.status = .killed → s.core.gang = none →
    ((∀ r ∈ s.core.reqs, r.nores = true ∧ r.result ≠ none) → exec .coreFinish s =
      .next (s.upd fun k => { k with reqs := [], rg := { k.rg with status := .off } })) ∧
    ((∃ r ∈ s.core.reqs, r.result = none) → ∃ t, exec .coreFinish s = .next t ∧ t.core.rg.status = .killed)

/-! ### Host registers, pool, security, resets -/

/-- R396: a coalescer slot that is active counts the requests its tail shows for the first time with their arrival time, and emits a gather list and its node once
B wait or the oldest has waited T. R397, R456: a die publishes its BUDGET of the cap less the thermal reduction, and steps its clusters down when it draws more and
up when it draws less than 15/16 of it. R326, R413, R414: TREE_INSTALL, TLBINV and SHEDSEL act once PHASE is READY; a legal control block becomes the installed
tree, its root node 0 written with zeros, every other node marked free, its clock 0; TLBINV leaves no covered entry in any TLB or walk
cache. R456, R418, R378, R415: CAP_WRITE, DRVACC_WRITE, CONTEXT_VALID_WRITE and an aligned REGISTER_WRITE of 8 bytes complete with their registers written. The
thermal reduction between its thresholds and the illegal selector that is ignored and logged are the model's readings (log entry 48), the context of a coalescer's addresses its
choice (log entry 23). -/
def Obligations.HostDrivenUnits : Prop :=
  (∀ (slot : BitVec 10) (s : State),
    (kget? s.coal slot.toNat = none → exec (.coalescerTailPoll slot) s = .next s ∧ exec (.coalescerEmit slot) s = .next s) ∧
    ∀ c, kget? s.coal slot.toNat = some c →
      (coalActive c = false → exec (.coalescerTailPoll slot) s = .next s) ∧
      (∀ u bs, coalActive c = true → hubRead (Config.coalContext slot.toNat) c.tailva.toNat 4 s = .ok (u, bs, false) →
        let new := (BitVec.ofNat 32 (leVal bs) - c.head - BitVec.ofNat 32 c.arrivals.length).toNat
        ∃ t, exec (.coalescerTailPoll slot) s = .next t ∧ t.sched = u.sched ∧
          kget? t.coal slot.toNat = some { c with arrivals := c.arrivals ++ List.replicate new u.dcc } ∧
          ∀ i, i ≠ slot.toNat → kget? t.coal i = kget? u.coal i) ∧
      ((coalActive c = false ∨ c.busy = 15 ∨ walkerReads (Config.coalContext slot.toNat) s = false ∨
          (c.arrivals.length < c.b.toNat ∧ ∀ a rest, c.arrivals = a :: rest → (s.dcc - a).toNat < 650 * c.t.toNat)) →
        exec (.coalescerEmit slot) s = .next s) ∧
      ∀ l, coalActive c = true → walkerReads (Config.coalContext slot.toNat) s = true →
        (c.b.toNat ≤ c.arrivals.length ∨ ∃ a rest, c.arrivals = a :: rest ∧ 650 * c.t.toNat ≤ (s.dcc - a).toNat) →
        l < 4 → c.busy.getLsbD l = false → (∀ i < l, c.busy.getLsbD i = true) →
        let n := min c.b.toNat c.arrivals.length
        let list := c.glist + BitVec.ofNat 64 (2056 * l)
        let c' := { c with head := c.head + BitVec.ofNat 32 n, arrivals := c.arrivals.drop n, busy := c.busy ||| (1#4 <<< l) }
        (∀ e, hubPut (Config.coalContext slot.toNat) list.toNat (gatherBytes c n s.dcc) s = .error e →
          exec (.coalescerEmit slot) s = .next s) ∧
        ∀ u, hubPut (Config.coalContext slot.toNat) list.toNat (gatherBytes c n s.dcc) s = .ok u →
          exec (.coalescerEmit slot) s = .next (emitNode slot.toNat l c list { u with coal := kput u.coal slot.toNat c' })) ∧
  (∀ (die : BitVec 2) (s : State),
    let d : Fin 4 := die.toFin
    let n := (s.die d).periods
    let w := (min s.power.cap.toNat Config.powerlim.toNat - 200) * 16 / 4
    let b := w * (8 - ((Config.hottest n die).toNat - s.power.throttle.toNat)) / 8
    let p := Config.measuredPower n die
    ∃ t, exec (.budgetPublish die) s = .next t ∧ (t.die d).budget = BitVec.ofNat 32 b ∧ (t.die d).temp = Config.hottest n die ∧
      (t.die d).periods = n + 1 ∧ (t.die d).energy = (s.die d).energy + p ∧ (∀ e, e ≠ d → t.die e = s.die e) ∧
      (∀ k, (dieOfCluster k ≠ d ∨ holdsStamped s k = true) → t.cluster k = s.cluster k) ∧
      (∀ k, dieOfCluster k = d → holdsStamped s k = false → (t.cluster k).pstate =
        let q := (s.cluster k).pstate
        if b < p then (if q = 7 then 7 else q + 1) else if 16 * p < 15 * b then (if q = 0 then 0 else q - 1) else q) ∧
      (t.die d).stepdn = (s.die d).stepdn + (if b < p ∧ ∃ k, dieOfCluster k = d ∧ holdsStamped s k = false ∧ (s.cluster k).pstate ≠ 7
        then 1 else 0) ∧ t.cores = s.cores) ∧
  (∀ (tree : BitVec 3) (block : BitVec 256) (v : Word) (s : State), s.ident.phase ≠ 5 →
    exec (.treeInstall tree block) s = .next s ∧ exec (.shedsel v) s = .next s ∧ exec (.tlbinv v) s = .next s) ∧
  (∀ (tree : BitVec 3) (block : BitVec 256) (s : State), s.ident.phase = 5 → ∃ t, exec (.treeInstall tree block) s = .next t ∧
    (vget tree t.trees).nodebase = block.extractLsb' 0 64 ∧ (vget tree t.trees).htab = block.extractLsb' 64 64 ∧
    (vget tree t.trees).tag = block.extractLsb' 160 8 ∧ (vget tree t.trees).clock = 0 ∧
    (treeLegal block = false ∨ ctxOfTag s (block.extractLsb' 160 8) = none → (vget tree t.trees).installed = false) ∧
    ∀ ctx u, treeLegal block = true → ctxOfTag s (block.extractLsb' 160 8) = some ctx →
      clearNodes ctx (treeOf block) s = .ok u →
        t = { u with trees := vset tree { treeOf block with installed := true } u.trees }) ∧
  (∀ (ctx : BitVec 6) (r : Tree) (s v w u : State) (x : Xl), hubTranslate ctx r.nodebase.toNat .write s = .ok (v, x) → x.region = .lcl →
    hubWrite ctx r.nodebase.toNat (List.replicate 128 0) false s = .ok w →
    ((List.range r.nmax).drop 1).foldlM (fun s i => hubWrite ctx (r.nodebase.toNat + 128 * i + 0x5C) [0, 0, 0, 0] false s) w = .ok u →
    clearNodes ctx r s = .ok u) ∧
  (∀ (v : Word) (s : State), s.ident.phase = 5 →
    (selectorOk v = true → selectorExists v = true → exec (.shedsel v) s = .next (shedEngine v s)) ∧
    ((selectorOk v = false ∨ selectorExists v = false) → exec (.shedsel v) s = .next (logHostWrite s))) ∧
  (∀ (v : Word) (s : State), s.ident.phase = 5 →
    (v.getLsbD 63 = false ∨ 4 ≤ (v.extractLsb' 60 3).toNat → exec (.tlbinv v) s = .next { s with tlbinv := v &&& 0x73FFFFFFFFF80000 }) ∧
    (v.getLsbD 63 = true → (v.extractLsb' 60 3).toNat < 4 → ∃ t, exec (.tlbinv v) s = .next t ∧
      let covered (e : TlbEntry) : Bool := tlbCovered (v.extractLsb' 52 6) (v.extractLsb' 60 3).toNat (v.extractLsb' 19 33).toNat e
      (∀ c, ∀ e ∈ (t.coreAt c).tlb, covered e = false) ∧ (∀ k, ∀ e ∈ (t.cluster k).tlb, covered e = false) ∧
      ∀ d, ∀ e ∈ (t.die d).wcache, e.ctx = v.extractLsb' 52 6 →
        (v.extractLsb' 60 3).toNat ≠ 0 ∧ e.key ≠ ptrKey e.level ((v.extractLsb' 19 33).toNat * 2 ^ 19))) ∧
  (∀ (v : Word) (s : State), s.ident.phase = 5 → ∃ t, exec (.capWrite v) s = .next t ∧ t.power.cap =
    (if Config.powerlim < v.extractLsb' 0 16 then Config.powerlim else if v.extractLsb' 0 16 < 600 then 600 else v.extractLsb' 0 16) ∧
    t.cores = s.cores ∧ ∀ sp, t.mem sp = s.mem sp) ∧
  (∀ (high : Bool) (v : Word) (s : State), tdiLocked s = false → (∀ n, (s.ctx n).valid = false) →
    ∃ t, exec (.drvaccWrite high v) s = .next t ∧ t.ident.devcap = s.ident.devcap ∧
      t.ident.drvacc = (if high then v ++ s.ident.drvacc.extractLsb' 0 64 else s.ident.drvacc.extractLsb' 64 64 ++ v) &&& s.ident.devcap) ∧
  (∀ (n : BitVec 6) (v : Word) (s : State), s.ident.phase = 5 → tdiLocked s = false → (v.getLsbD 63 = true → (s.ctx n).modelok = true) →
    ∃ t, exec (.contextValidWrite n v) s = .next t ∧ (t.ctx n).valid = v.getLsbD 63 ∧ ∀ i, i ≠ n → t.ctx i = s.ctx i) ∧
  ∀ (off : BitVec 26) (v : Word) (s : State), off.toNat % 8 = 0 → tdiLocked s = false →
    exec (.registerWrite off 8 v) s = .next (regWrite off.toNat v v 0xFFFFFFFFFFFFFFFF s)

/-- R415: a host write of 4 or 8 aligned bytes acts; any other is dropped and logged. R425: one to a locked field moves the TDI to ERROR and changes no register.
R418, R440: DRVACC takes what DEVCAP offers, not while a context is valid. R378, R443: VALID is set only with MODELOK, PARTITION and TAG change only while it is 0,
and VALID = 0 clears MODELOK. R456: CAP lies between 600 and POWERLIM. R419: plain registers read back what was written. That any other write of PARTITION and TAG is
ignored is the model's reading (log entry 26). -/
def Obligations.HostRegisterWrites : Prop :=
  (∀ (off : BitVec 26) (size : BitVec 4) (v : Word) (s : State),
    (¬(size = 8 ∧ off.toNat % 8 = 0) ∧ ¬(size = 4 ∧ off.toNat % 4 = 0) → exec (.registerWrite off size v) s = .next (logHostWrite s)) ∧
    (size = 8 → off.toNat % 8 = 0 →
      (tdiLocked s = true → touchesLocked s off.toNat 0xFFFFFFFFFFFFFFFF = true → exec (.registerWrite off size v) s = .next (tdiError s)) ∧
      ((tdiLocked s = false ∨ touchesLocked s off.toNat 0xFFFFFFFFFFFFFFFF = false) →
        exec (.registerWrite off size v) s = .next (regWrite off.toNat v v 0xFFFFFFFFFFFFFFFF s)))) ∧
  (∀ (off : BitVec 26) (v : Word) (s : State), off.toNat % 4 = 0 → spansHalves (off.toNat / 8 * 8) = true → s.ident.phase = 5 →
    exec (.registerWrite off 4 v) s = .next (logHostWrite s)) ∧
  (∀ (off : BitVec 26) (v : Word) (s : State), off.toNat % 4 = 0 → tdiLocked s = false → spansHalves (off.toNat / 8 * 8) = false →
    let r := off.toNat / 8 * 8
    let m : Word := if off.toNat % 8 = 0 then 0xFFFFFFFF else 0xFFFFFFFF00000000
    let w : Word := if off.toNat % 8 = 0 then v else v <<< 32
    exec (.registerWrite off 4 v) s = .next (regWrite r ((regStored s r &&& ~~~m) ||| (w &&& m)) (w &&& m) m s)) ∧
  (∀ (r : Nat) (s : State), (r < 0x501000 → regStored s r = regRead s r) ∧ (0x501200 ≤ r → r < 0x700000 → regStored s r = regRead s r) ∧
    ∀ i : BitVec 4, r = 0x501018 + 32 * i.toNat → (regStored s r).getLsbD 63 = (vget i s.pool.wins).en) ∧
  (∀ (s : State), (tdiError s).ident.tdi = 3 ∧ ∀ i : BitVec 6, (vget i s.sec.keys).tag ≠ 0 → vget i (tdiError s).sec.keys = KeySlot.empty) ∧
  (∀ (high : Bool) (v : Word) (s : State),
    let d := s.ident.drvacc
    let new := (if high then v ++ d.extractLsb' 0 64 else d.extractLsb' 64 64 ++ v) &&& s.ident.devcap
    (tdiLocked s = true → exec (.drvaccWrite high v) s = .next (tdiError s)) ∧
    (tdiLocked s = false → (∃ n, (s.ctx n).valid = true) → exec (.drvaccWrite high v) s = .next (logHostWrite s)) ∧
    (tdiLocked s = false → (∀ n, (s.ctx n).valid = false) → ∃ t, exec (.drvaccWrite high v) s = .next t ∧
      t.ident = { s.ident with drvacc := new, tdi := if new.getLsbD 10 then s.ident.tdi else 0 } ∧
      (new = d → t = { s with ident := t.ident }) ∧ (new ≠ d → t.sec = { s.sec with
        mr := vset (4 : BitVec 4) (extendMr (vget (4 : BitVec 4) s.sec.mr) (bvBytes 16 new)) s.sec.mr, fresh := false }) ∧
      t.cores = s.cores ∧ t.sched = s.sched ∧ ∀ sp, t.mem sp = s.mem sp)) ∧
  (∀ (n : BitVec 6) (v : Word) (s : State), s.ident.phase = 5 → (tdiLocked s = false ∨ (s.ctx n).tag = 0) →
    let c := s.ctx n
    (v.getLsbD 63 = true → c.modelok = false → exec (.contextValidWrite n v) s = .next (logError 3 0 0 n.toNat 0xFFFF s)) ∧
    ((v.getLsbD 63 = false ∨ c.modelok = true) → ∃ t, exec (.contextValidWrite n v) s = .next t ∧
      (t.ctx n).valid = v.getLsbD 63 ∧ (t.ctx n).modelok = (c.modelok && v.getLsbD 63) ∧
      (t.ctx n).part = (if c.valid then c.part else v.extractLsb' 8 3) ∧ (t.ctx n).tag = (if c.valid then c.tag else v.extractLsb' 0 8) ∧
      (t.ctx n).ptroot = c.ptroot ∧ (t.ctx n).engarea = c.engarea ∧ (t.ctx n).fearea = c.fearea ∧ (t.ctx n).evbase = c.evbase ∧
      (t.ctx n).evcnt = c.evcnt ∧ (∀ i, i ≠ n → t.ctx i = s.ctx i) ∧ t.cores = s.cores ∧ t.sched = s.sched ∧ t.log = s.log)) ∧
  (∀ (n : BitVec 6) (v : Word) (s : State), tdiLocked s = true → (s.ctx n).tag ≠ 0 → exec (.contextValidWrite n v) s = .next (tdiError s)) ∧
  (∀ (v : Word) (s : State),
    (s.ident.phase ≠ 5 → exec (.capWrite v) s = .next s) ∧
    (s.ident.phase = 5 → exec (.capWrite v) s = .next { s with power := { s.power with cap :=
      let c := v.extractLsb' 0 16
      if Config.powerlim < c then Config.powerlim else if c < 600 then 600 else c } })) ∧
  ∀ (v : Word) (s : State), s.ident.phase = 5 → tdiLocked s = false →
    (s.sched.run = false → ∃ t, exec (.registerWrite 0x101008 8 v) s = .next t ∧ regRead t 0x101008 = v &&& 0xFFFFFFFFF000) ∧
    (s.sched.run = true → ∃ t, exec (.registerWrite 0x101008 8 v) s = .next t ∧ regRead t 0x101008 = regRead s 0x101008) ∧
    (s.sched.run = false → ∃ t, exec (.registerWrite 0x101018 8 v) s = .next t ∧ regRead t 0x101018 = v &&& 0xFFFFFFC00000) ∧
    (∃ t, exec (.registerWrite 0x400010 8 v) s = .next t ∧ regRead t 0x400010 = v &&& 0xFFFFFFFF) ∧
    (∃ t, exec (.registerWrite 0x200038 8 v) s = .next t ∧ regRead t 0x200038 = v &&& 0xFF)

/-- R435, R436: a port that is declared dead, by the device or by KILL, is DEAD with LOSSCNT advanced and CHG set; nothing of its device stays cached, mapped or subscribed; its windows fail
over or are LOST. R437, R455: it is RETRAINED when its device answers, ADMIT makes it UP and its LOST windows REVAL, VALIDATE makes those OK.
R433, R434, R417: offered extents take FREE entries as OFFERED and raise DCEV; ACCEPT and REJECT of an OFFERED one give ACCEPTED and FREE; RELEASE of an
ACCEPTED one leaves nothing of its range cached, mapped or subscribed and frees the entry; a write in another XSTATE is ignored and logged; a RELEASE_REQUEST
leaves the extent usable. The model's readings: KILL of a DOWN port kills it, PORT_DEAD of one does nothing (log entry 27); an offer to a port that is not UP is ignored
(log entry 51). -/
def Obligations.PoolPortsAndCapacity : Prop :=
  ((∀ (p : BitVec 2) (s : State), (s.port p).state = 3 → losePort p s = s) ∧
  (∀ (p : BitVec 2) (s : State), (s.port p).state ≠ 3 →
    let t := losePort p s
    t.port p = { s.port p with state := 3, losscnt := (s.port p).losscnt + 1 } ∧ (∀ q, q ≠ p → t.port q = s.port q) ∧
      t.pool.chg = s.pool.chg ||| (1#4 <<< p) ∧ (∀ g ∈ t.grans, g.home.space ≠ .pool p) ∧ (∀ l ∈ t.llc, l.port ≠ p) ∧
      (∀ x ∈ t.pool.filter, x.1 ≠ p) ∧ (∀ u ∈ t.subs, u.word.space ≠ .pool p) ∧
      (∀ c, ∀ x ∈ (t.coreAt c).stores, x.loc.space ≠ .pool p) ∧ (∀ sp, t.mem sp = s.mem sp) ∧
      ∀ i : BitVec 4, vget i t.pool.wins =
        let w := vget i s.pool.wins
        let serves (q : BitVec 2) : Bool := decide (q ≠ p) && decide ((if w.act then w.rport else w.port) = q) &&
          decide ((s.port q).state = 2)
        if w.port ≠ p ∧ w.rport ≠ p then w
        else if w.repl = true ∧ w.port = p ∧ w.rport ≠ p ∧ (s.port w.rport).state ≠ 3 then { w with act := true }
        else if serves w.port || serves w.rport then w
        else { w with wstate := 1 }) ∧
  (∀ (p : BitVec 2) (s : State), exec (.portDead p) s = .next (if (s.port p).state = 0 then s else losePort p s) ∧
    exec (.kill p) s = .next (if s.ident.phase = 5 then losePort p s else s)) ∧
  (∀ (p : BitVec 2) (s : State),
    ((s.port p).state ≠ 3 → exec (.portRetrain p) s = .next s) ∧
    ((s.port p).state = 3 → ∃ t, exec (.portRetrain p) s = .next t ∧ t.port p = { s.port p with state := 4 } ∧
      (∀ q, q ≠ p → t.port q = s.port q) ∧ t.pool.wins = s.pool.wins ∧ t.pool.chg = s.pool.chg ||| (1#4 <<< p) ∧
      t.msix.raised = s.msix.raised ++ [s.pool.vec.toNat] ∧ t.cores = s.cores ∧ ∀ sp, t.mem sp = s.mem sp) ∧
    ((s.ident.phase ≠ 5 ∨ (s.port p).state ≠ 4) → exec (.admitPort p) s = .next s) ∧
    (s.ident.phase = 5 → (s.port p).state = 4 → ∃ t, exec (.admitPort p) s = .next t ∧ t.port p = { s.port p with state := 2 } ∧
      (∀ q, q ≠ p → t.port q = s.port q) ∧ t.cores = s.cores ∧ (∀ sp, t.mem sp = s.mem sp) ∧
      ∀ i : BitVec 4, vget i t.pool.wins =
        let w := vget i s.pool.wins
        if w.wstate = 1 ∧ (w.port = p ∨ (w.repl = true ∧ w.rport = p)) then { w with wstate := 2 } else w)) ∧
  ∀ (i : BitVec 4) (s : State),
    (tdiLocked s = true → exec (.validate i) s = .next (tdiError s)) ∧
    (tdiLocked s = false → s.ident.phase ≠ 5 → exec (.validate i) s = .next s) ∧
    (tdiLocked s = false → s.ident.phase = 5 → ∃ t, exec (.validate i) s = .next t ∧
      (vget i t.pool.wins =
        let w := vget i s.pool.wins
        if w.wstate = 2 then { w with wstate := 0 }
        else if w.wstate = 0 ∧ w.repl = true ∧ w.act = true ∧ (s.port w.port).state = 2 then { w with act := false } else w) ∧
      (∀ j, j ≠ i → vget j t.pool.wins = vget j s.pool.wins) ∧ t.pool.ports = s.pool.ports ∧ t.cores = s.cores ∧
      ∀ sp, t.mem sp = s.mem sp)) ∧
  ((∀ (p : BitVec 2) (xs : List Extent) (s : State),
    ((s.feature 8 = false ∨ (s.port p).dcap = false ∨ (s.port p).state ≠ 2 ∨ xs = [] ∨ ∀ e < 256, xstateOf s p e ≠ 0) →
      exec (.addCapacityEvent p xs) s = .next s) ∧
    (s.feature 8 = true → (s.port p).dcap = true → (s.port p).state = 2 → ∀ x rest, xs = x :: rest → ∀ e, e < 256 → xstateOf s p e = 0 →
      (∀ i < e, xstateOf s p i ≠ 0) → ∃ t, exec (.addCapacityEvent p xs) s = .next t ∧ xstateOf t p e = 1 ∧
        kget? (t.port p).ext e = some x ∧ e ∈ (t.port p).owed ∧ t.pool.dcev = true ∧
        (∀ i, xstateOf s p i ≠ 0 → xstateOf t p i = xstateOf s p i) ∧ (∀ q, q ≠ p → t.port q = s.port q) ∧ t.cores = s.cores)) ∧
  (∀ (p : BitVec 2) (e : BitVec 8) (s : State),
    (xstateOf s p e.toNat ≠ 2 → exec (.releaseRequest p e) s = .next s) ∧
    (xstateOf s p e.toNat = 2 → ∃ t, exec (.releaseRequest p e) s = .next t ∧ xstateOf t p e.toNat = 2 ∧ e.toNat ∈ (t.port p).rqrel ∧
      t.pool.dcev = true ∧ t.cores = s.cores ∧ ∀ sp, t.mem sp = s.mem sp) ∧
    (s.ident.phase ≠ 5 → exec (.accept p e) s = .next s ∧ exec (.reject p e) s = .next s ∧ exec (.release p e) s = .next s) ∧
    (s.ident.phase = 5 → xstateOf s p e.toNat ≠ 1 →
      exec (.accept p e) s = .next (logHostWrite s) ∧ exec (.reject p e) s = .next (logHostWrite s)) ∧
    (s.ident.phase = 5 → xstateOf s p e.toNat = 1 → ∃ t, exec (.accept p e) s = .next t ∧ xstateOf t p e.toNat = 2 ∧
      (t.port p).ext = (s.port p).ext ∧ e.toNat ∉ (t.port p).owed ∧ (∀ i, i ≠ e.toNat → xstateOf t p i = xstateOf s p i) ∧
      t.cores = s.cores ∧ ∀ sp, t.mem sp = s.mem sp) ∧
    (s.ident.phase = 5 → xstateOf s p e.toNat = 1 → ∃ t, exec (.reject p e) s = .next t ∧ e.toNat ∉ (t.port p).owed ∧
      e.toNat ∉ (t.port p).rqrel ∧ t.cores = s.cores ∧ (∀ sp, t.mem sp = s.mem sp) ∧ t.pool.dcev = true ∧
      (∀ i, i ≠ e.toNat → xstateOf t p i = xstateOf s p i) ∧ (((s.port p).xstate.map (·.1)).Nodup → xstateOf t p e.toNat = 0)) ∧
    (s.ident.phase = 5 → xstateOf s p e.toNat ≠ 2 → exec (.release p e) s = .next (logHostWrite s)) ∧
    (s.ident.phase = 5 → xstateOf s p e.toNat = 2 → ∃ t, exec (.release p e) s = .next t ∧
      let x := kget ⟨0, 0, 0⟩ (s.port p).ext e.toNat
      let lo := x.start.toNat * 2 ^ 19
      let hi := (x.start.toNat + x.length.toNat) * 2 ^ 19
      (∀ g ∈ t.grans, inRange p lo hi g.home = false) ∧ (∀ l ∈ t.llc, ¬(l.port = p ∧ lo ≤ 128 * l.line ∧ 128 * l.line < hi)) ∧
      (∀ u ∈ t.subs, inRange p lo hi u.word = false) ∧ (∀ y ∈ t.pool.filter, ¬(y.1 = p ∧ lo ≤ 128 * y.2 ∧ 128 * y.2 < hi)) ∧
      t.pool.dcev = true ∧ e.toNat ∉ (t.port p).rqrel ∧
      (∀ i, i ≠ e.toNat → xstateOf t p i = xstateOf s p i) ∧ (((s.port p).xstate.map (·.1)).Nodup → xstateOf t p e.toNat = 0))))

/-- R441, R442, R443, R440: GO starts the command in OPCODE, BUSY reads 1 from then until it ends, and GO is ignored meanwhile; a row acts on its own command alone.
Each mailbox command leaves its RESULT and a vector; LOAD_MODEL needs an unlocked TDI, legal arguments, FRESH and loaded slots of the
context's tag, and then extends the register, arms the slots, sets MODELOK and clears FRESH; EXTEND takes MR5 to MR7; READ_MEAS and SLOT_STATE fill OUT; CLEAR_SLOT
empties a slot; a refused command changes nothing else. LOCKED before the argument checks, ARGS read when the command executes, and CLEAR_SLOT clearing the tag are
the model's readings (log entry 52). R425, R417: TDISP requests move the TDI round; any other request, and every one without TDISP, is answered with an error. -/
def Obligations.SecurityCommands : Prop :=
  (∀ (v : Word) (s : State),
    exec (.registerWrite 0x10000 8 v) s = .next (withSec (fun x => { x with
      opcode := v.extractLsb' 0 16,
      busy := if v.getLsbD 63 = true ∧ x.busy = none then some (v.extractLsb' 0 16) else x.busy }) s) ∧
    (regRead s 0x10008).getLsbD 63 = s.sec.busy.isSome) ∧
  (∀ (op : BitVec 16) (i : Instr) (s : State), (op, i) ∈ ([(1, .loadModel), (2, .extend), (3, .readMeas), (4, .slotState), (5, .clearSlot)] :
    List (BitVec 16 × Instr)) → s.sec.busy ≠ some op → exec i s = .next s) ∧
  (∀ (s : State),
    let n := (argByte s 0).toNat
    let r := (argByte s 1).toNat
    let i := BitVec.ofNat 6 n
    let slots := (List.range 64).filter fun j => (argByte s (8 + j / 8)).getLsbD (j % 8)
    let ready := ∀ j ∈ slots, (vget (BitVec.ofNat 6 j) s.sec.keys).state = 1 ∧ (vget (BitVec.ofNat 6 j) s.sec.keys).tag = (s.ctx i).tag
    let ends (op : BitVec 16) (i : Instr) (t : State) (res : Byte) : Prop :=
      s.sec.busy = some op → exec i s = .next (commandDone (t, res))
    (tdiLocked s = true → ends 1 .loadModel s resLocked ∧ ends 2 .extend s resLocked ∧ ends 5 .clearSlot s resLocked) ∧
    (tdiLocked s = false → (64 ≤ n ∨ r < 8 ∨ 16 ≤ r) → ends 1 .loadModel s resBadArg) ∧
    (tdiLocked s = false → n < 64 → 8 ≤ r → r < 16 → s.sec.fresh = false → ends 1 .loadModel s resNoFresh) ∧
    (tdiLocked s = false → n < 64 → 8 ≤ r → r < 16 → s.sec.fresh = true → ¬ready → ends 1 .loadModel s resSlotState) ∧
    (tdiLocked s = false → n < 64 → 8 ≤ r → r < 16 → s.sec.fresh = true → ready → s.sec.busy = some 1 → ∃ t,
      exec .loadModel s = .next (commandDone (t, resOk)) ∧
      vget (BitVec.ofNat 4 r) t.sec.mr = extendMr (vget (BitVec.ofNat 4 r) s.sec.mr) (argBytes s 16 48) ∧
      (∀ j, j ≠ BitVec.ofNat 4 r → vget j t.sec.mr = vget j s.sec.mr) ∧ t.sec.fresh = false ∧
      (∀ j ∈ slots, vget (BitVec.ofNat 6 j) t.sec.keys = { vget (BitVec.ofNat 6 j) s.sec.keys with state := 2 }) ∧
      (∀ j < 64, j ∉ slots → vget (BitVec.ofNat 6 j) t.sec.keys = vget (BitVec.ofNat 6 j) s.sec.keys) ∧
      t.ctx i = { s.ctx i with modelok := true } ∧ (∀ j, j ≠ i → t.ctx j = s.ctx j) ∧ t.cores = s.cores ∧ t.sched = s.sched ∧
      ∀ sp, t.mem sp = s.mem sp) ∧
    (tdiLocked s = false → (r < 5 ∨ 8 ≤ r) → ends 2 .extend s resBadArg) ∧
    (tdiLocked s = false → 5 ≤ r → r < 8 →
      let mr := vset (BitVec.ofNat 4 r) (extendMr (vget (BitVec.ofNat 4 r) s.sec.mr) (argBytes s 16 48)) s.sec.mr
      ends 2 .extend (withSec (fun x => { x with fresh := false, mr := mr }) s) resOk) ∧
    ends 3 .readMeas (withSec (fun x => { x with out := (x.mr.toList.map fun m => bvBytes 48 m).flatten }) s) resOk ∧
    (64 ≤ n → ends 4 .slotState s resBadArg) ∧
    (n < 64 →
      let k := vget i s.sec.keys
      let out := [k.state.setWidth 8, k.tag] ++ List.replicate 6 0 ++ bvBytes 8 k.lastctr
      ends 4 .slotState (withSec (fun x => { x with out := out }) s) resOk) ∧
    (tdiLocked s = false → 64 ≤ n → ends 5 .clearSlot s resBadArg) ∧
    (tdiLocked s = false → n < 64 → ends 5 .clearSlot (withSec (fun x => { x with keys := vset i ⟨0, 0, 0, 0⟩ x.keys }) s) resOk)) ∧
  (∀ (res : Byte) (s : State),
    let t := commandDone (s, res)
    t.sec = { s.sec with result := res, busy := none } ∧ t.msix.raised = s.msix.raised ++ [s.sec.vec.toNat] ∧ t.ctxs = s.ctxs ∧
      t.cores = s.cores ∧ t.sched = s.sched ∧ ∀ sp, t.mem sp = s.mem sp) ∧
  ∀ (r : TdispReq) (s : State),
    (s.feature 10 = false → exec (.tdispRequest r) s = .next { s with ident := { s.ident with tdiErr := some true } }) ∧
    (s.feature 10 = true →
      let tdi : Option (BitVec 2) := match r with
        | .lock => if s.ident.tdi = 0 then some 1 else none
        | .start => if s.ident.tdi = 1 then some 2 else none
        | .stop => some 0
      (∀ x, tdi = some x → exec (.tdispRequest r) s = .next { s with ident := { s.ident with tdi := x, tdiErr := some false } }) ∧
      (tdi = none → exec (.tdispRequest r) s = .next { s with ident := { s.ident with tdiErr := some true } }))

/-- R444, R445, R446: a request that is not the row's is left; a wrong version, a wrong turn, or a request of a session that did not come under its keys is answered
with its error, resets the transcript and ends the session; GET_VERSION is legal at any
time and resets it. In its turn each request is answered as its rule says, joins the transcript with its answer and moves the request order; a signed answer ends with
both signatures and sets FRESH; KEY_EXCHANGE and FINISH derive the session's keys; SET_KEY loads an EMPTY slot with LASTCTR 0 and refuses any other; END_SESSION leaves
the key slots; a message that comes while a mailbox command executes is answered with Busy. The layouts of the messages, the key schedule and the objects of IDE_KM are
those of the published formats (log entry 28), no rule of the spec. -/
def Obligations.AttestationRequests : Prop :=
  (∀ (i : Instr) (code : Byte) (phases : List SpdmPhase) (s : State), spdmRow i = some (code, phases) →
    ((s.sec.request.length < 4 ∨ requestCode s ≠ code) → exec i s = .next s) ∧
    (4 ≤ s.sec.request.length → requestCode s = code → (i = .setKey → isSnibex s.sec.request = true) →
      (i = .ideKm → isSnibex s.sec.request = false) →
      let ended := withSec (fun x => { x with trans := [], spdm := .start, session := none }) s
      (spdmVersionOk (s.sec.request.getD 0 0) = false → exec i s = spdmRefused 0x41 ended) ∧
      (spdmVersionOk (s.sec.request.getD 0 0) = true → s.sec.spdm ∉ phases ∨ ¬spdmCovered i s → exec i s = spdmRefused 0x04 ended))) ∧
  (∀ (s : State),
    let q := s.sec.request
    let v := q.getD 0 0
    let nonce := bvBytes 32 (Config.nonce s.sec.draws)
    let drawn (x : Security) : Security := { x with draws := x.draws + 1 }
    let summary (b : Byte) : List Byte := if b = 0 then [] else sha384 (measBlocks s)
    ((q.length < 4 ∨ requestCode s ≠ 0x84) → exec .getVersion s = .next s) ∧
    (4 ≤ q.length → requestCode s = 0x84 →
      let r : List Byte := [0x10, 0x04, 0, 0, 0, 2, 0, 0x12, 0, 0x13]
      exec .getVersion s = .next (withSec (fun x => { x with
        spdm := .version, trans := q ++ r, version := 0, session := none, reply := r, request := [] }) s)) ∧
    (spdmTurn .getCapabilities s →
      let size := leVal ((q.drop 12).take 4)
      (20 ≤ q.length ∧ 42 ≤ size ∧ size ≤ leVal ((q.drop 16).take 4) →
        exec .getCapabilities s = spdmAnswered ([v, 0x61, 0, 0, 0, 0, 0, 0] ++ leBytes 4 0x2D6 ++
          bvBytes 4 Config.spdmSize ++ bvBytes 4 Config.spdmSize) (withSec (fun x => { x with spdm := .caps, version := v }) s)) ∧
      (¬(20 ≤ q.length ∧ 42 ≤ size ∧ size ≤ leVal ((q.drop 16).take 4)) → exec .getCapabilities s = spdmRefused 0x01 s)) ∧
    (spdmTurn .negotiateAlgorithms s →
      let fits := 32 ≤ q.length ∧ leVal ((q.drop 4).take 2) = q.length ∧ (q.getD 9 0).getLsbD 1 = true ∧ (q.getD 12 0).getLsbD 1 = true
      (fits → ∃ r, exec .negotiateAlgorithms s = spdmAnswered r (withSec (fun x => { x with spdm := .algs }) s) ∧
        r.length = 44 ∧ r.take 2 = [v, 0x63]) ∧
      (¬fits → exec .negotiateAlgorithms s = spdmRefused 0x01 s)) ∧
    (spdmTurn .getDigests s → exec .getDigests s =
      spdmAnswered ([v, 0x01, 0, 3] ++ sha384 (Config.certChain 0) ++ sha384 (Config.certChain 1)) s) ∧
    (spdmTurn .getCertificate s → ∀ k : Fin 2, (q.getD 2 0).toNat % 16 = k.val →
      let chain := Config.certChain (BitVec.ofNat 1 k.val)
      let off := leVal ((q.drop 4).take 2)
      let n := min (min 1024 (leVal ((q.drop 6).take 2))) (chain.length - off)
      (8 ≤ q.length → off < chain.length → exec .getCertificate s = spdmAnswered ([v, 0x02, (q.getD 2 0) &&& 0xF, 0] ++ leBytes 2 n ++
        leBytes 2 (chain.length - off - n) ++ (chain.drop off).take n) s) ∧
      (q.length < 8 ∨ chain.length ≤ off → exec .getCertificate s = spdmRefused 0x01 s)) ∧
    (spdmTurn .getCertificate s → 2 ≤ (q.getD 2 0).toNat % 16 → exec .getCertificate s = spdmRefused 0x01 s) ∧
    (spdmTurn .challenge s →
      let fits := (q.getD 2 0).toNat < 2 ∧ (if v = 0x13 then 44 else 36) ≤ q.length ∧ summaryOk (q.getD 3 0) = true
      let fields := [v, 0x03, q.getD 2 0, 3] ++ sha384 (Config.certChain ((q.getD 2 0).setWidth 1)) ++ nonce ++ summary (q.getD 3 0)
      (fits → exec .challenge s = spdmAnswered (fields ++ signedTail s.sec v q (q.take 36) (transcriptHash s q fields))
        (withSec (fun x => { drawn x with fresh := true }) s)) ∧
      (¬fits → exec .challenge s = spdmRefused 0x01 s)) ∧
    (spdmTurn .getMeasurements s →
      (∀ e, measRecord s (q.getD 3 0) = .error e → exec .getMeasurements s = spdmRefused 0x01 s) ∧
      ∀ n rec_, measRecord s (q.getD 3 0) = .ok (n, rec_) →
        let sign := (q.getD 2 0).getLsbD 0
        let fits := (if v = 0x13 then 45 else 37) ≤ q.length ∧ (q.getD 36 0).toNat % 16 < 2
        let fields := [v, 0x60, if q.getD 3 0 = 0 then 16 else 0, (if sign then q.getD 36 0 else 0) &&& 0xF, BitVec.ofNat 8 n] ++
          leBytes 3 rec_.length ++ rec_ ++ nonce
        (sign = false → exec .getMeasurements s = spdmAnswered (fields ++ leBytes 2 0) (withSec drawn s)) ∧
        (sign = true → fits → exec .getMeasurements s =
          spdmAnswered (fields ++ signedTail s.sec v q (q.take 37) (transcriptHash s q fields)) (withSec (fun x => { drawn x with fresh := true }) s)) ∧
        (sign = true → ¬fits → exec .getMeasurements s = spdmRefused 0x01 s)) ∧
    (spdmTurn .keyExchange s →
      let fits := (q.getD 3 0).toNat < 2 ∧ 138 ≤ q.length ∧ summaryOk (q.getD 2 0) = true
      let id := (q.drop 4).take 2 ++ leBytes 2 s.sec.draws
      let dhe := bvBytes 48 (Config.dheSecret s.sec.draws ((q.drop 40).take 96))
      (fits → ∃ r,
        let th := transcriptHash s q r
        let x := handshakeSession v id dhe th
        exec .keyExchange s = spdmAnswered (r ++ responderVerify v x th) (withSec (fun y => { drawn y with spdm := .keyed, session := some x }) s)) ∧
      (¬fits → exec .keyExchange s = spdmRefused 0x01 s)) ∧
    (spdmTurn .finish s →
      let r : List Byte := [v, 0x65, 0, 0]
      let proved := ∃ x, s.sec.session = some x ∧ q.drop 4 = hmac384 x.finished (transcriptHash s (q.take 4) [])
      (proved → exec .finish s = spdmAnswered r (withSec (fun y => { y with
        spdm := .session, session := y.session.map fun x => applicationSession v x (transcriptHash s q r) }) s)) ∧
      (¬proved → exec .finish s = spdmRefused 0x01 s)) ∧
    (spdmTurn .endSession s → exec .endSession s =
      spdmAnswered [v, 0x6C, 0, 0] (withSec (fun x => { x with spdm := .algs, session := none }) s)) ∧
    (isSnibex q = true → exec .ideKm s = .next s) ∧ (isSnibex q = false → exec .setKey s = .next s)) ∧
  (∀ (s : State), spdmTurn .ideKm s →
    let q := s.sec.request
    let p := (vendorParts q).2.2
    let legal := (vendorParts q).2.1 = 1 ∧ p.getD 0 0xFF = 0 ∧ ∃ n, ideObjectLength (p.getD 1 0).toNat = some n ∧ n ≤ p.length
    (¬legal → exec .ideKm s = spdmRefused 0x01 s) ∧
    let stream := (p.getD 4 0).toNat
    let secure (l : List Nat) : State := { s with ident := { s.ident with ide := l } }
    let ack (o : Byte) : List Byte := vendorReply q ([0, o] ++ (p.drop 2).take 6)
    (legal → p.getD 1 0 = 0 → exec .ideKm s = spdmAnswered (vendorReply q ([0, 1] ++ (p.drop 2).take 2 ++ Config.ideQuery)) s) ∧
    (legal → p.getD 1 0 = 4 → exec .ideKm s =
      spdmAnswered (ack 6) (secure (if ideHasKeys s stream then ninsert stream s.ident.ide else s.ident.ide))) ∧
    (legal → p.getD 1 0 = 5 → exec .ideKm s = spdmAnswered (ack 6) (secure (s.ident.ide.filter fun i => decide (i ≠ stream)))) ∧
    (legal → p.getD 1 0 = 2 →
      let room := ideHasKeys s stream = true ∨ s.ident.ideKeys.length < 5
      let keys := kput s.ident.ideKeys stream (p.drop 5)
      (room → exec .ideKm s = spdmAnswered (ack 3) { s with ident := { s.ident with ideKeys := keys } }) ∧
      (¬room → exec .ideKm s = spdmRefused 0x01 s))) ∧
  (∀ (s : State), spdmTurn .setKey s →
    let p := (vendorParts s.sec.request).2.2
    let n := (p.getD 1 0).toNat
    let free := (vget (BitVec.ofNat 6 n) s.sec.keys).state = 0
    let k : KeySlot := ⟨1, p.getD 2 0, BitVec.ofNat 256 (leVal (p.drop 3)), 0⟩
    (p.length = 35 → p.getD 0 0 = 1 → n < 64 → free → exec .setKey s = spdmAnswered (vendorReply s.sec.request [1])
      (withSec (fun x => { x with keys := vset (BitVec.ofNat 6 n) k x.keys }) s)) ∧
    (¬(p.length = 35 ∧ p.getD 0 0 = 1 ∧ n < 64) ∨ ¬free → exec .setKey s = spdmRefused 0x01 s)) ∧
  ∀ (secured : Bool) (msg : List Byte) (s : State),
    let refused (v code : Byte) : State × Option Instr :=
      (withSec (fun x => { x with cover := none, reply := [v, 0x7F, code, 0], request := [] }) s, none)
    (s.sec.busy ≠ none → doeWork secured msg s = refused (msg.getD 0 0x12) 0x03) ∧
    (s.sec.busy = none → secured = true → (∀ x, s.sec.session = some x → openRecord x msg = none) →
      doeWork secured msg s = refused s.sec.version 0x01) ∧
    (s.sec.busy = none → secured = false → (doeWork secured msg s).1.sec.cover = none) ∧
    ∀ x m, s.sec.busy = none → secured = true → s.sec.session = some x → openRecord x msg = some m →
      (doeWork secured msg s).1.sec.cover = some (x.id, x.rsp) ∧
        (doeWork secured msg s).1.sec.session = some { x with req := x.req.next, rsp := x.rsp.next }

/-- R426, R427, R440, R447: power-up does nothing to a powered part, and like a cold reset runs the start-up: if the ROM refuses its own firmware or the hub's the part
stays as without power, a later step that fails leaves the device FAILED with that code,
no core in service and DEVCAP 0, and otherwise the state is that of reset with the host's and the pool's memory kept; loss of power leaves a part without power.
R439: an object is accepted if both signatures verify over its SHA-384 digest and its version is the minimum version or above, by the ROM only if the keys have the
hashes that it holds. A function-level or hot reset of a READY device frees every core and gang, clears DRVACC, HOSTCTL and contexts, and the LLC holds
nothing; of every device it clears key slots, sessions, FRESH and MR5 to MR15 and keeps MR0 to MR4. What a start-up and such a reset keep and what is freed at once are
the model's readings (log entry 53). -/
def Obligations.Resets : Prop :=
  (∀ (s : State), (s.powered = true → exec .powerUp s = .next s) ∧ (s.powered = false → exec .powerUp s = .next (startUp s)) ∧
    exec .coldReset s = .next (startUp s) ∧ exec .powerLoss s = .next { freshState s with powered := false }) ∧
  (∀ (s : State),
    let boot := s.ident.boots + 1
    let rom := romAccepts boot .securityFirmware && romAccepts boot .hubFirmware
    let ok (n : Nat) : Bool := match n with
      | 0 => Config.startupOk boot 0
      | 1 => Config.startupOk boot 1
      | 2 => recordAccepts boot .configRecord
      | _ => recordAccepts boot .firmware && recordAccepts boot .supervisor
    let t := startUp s
    t.host = s.host ∧ t.pool.mem = s.pool.mem ∧ t.agenda = s.agenda ∧
    (rom = false → t.powered = false) ∧
    (rom = true → t.powered = true ∧
      ((∀ n < 4, ok n = true) → t.ident.phase = 5 ∧ t.ident.fail = 0 ∧
        t.ident.devcap = Config.devcap ∧ t.cores = State.reset.cores ∧ t.sched = State.reset.sched ∧
        t.sec = { State.reset.sec with mr := startMr boot true true true } ∧
        t.hbm = Mem.empty ∧ t.log = State.reset.log ∧ t.dcc = 0) ∧
      (∀ n < 4, ok n = false → (∀ m < n, ok m = true) →
        t.ident.phase = 15 ∧ t.ident.fail = BitVec.ofNat 8 (n + 1) ∧ t.ident.devcap = 0 ∧ t.ident.drvacc = 0 ∧
        ∀ c, (t.coreAt c).inSvc = false))) ∧
  (∀ (boot : Nat) (o : BootObject),
    let x := Config.flash boot o
    let d := sha384 x.content
    let proved (k : List Byte × List Byte) : Prop :=
      Config.edVerify k.1 d x.edSig = true ∧ Config.mldsaVerify k.2 d x.mldsaSig = true ∧ Config.minVersion boot ≤ x.version
    (romAccepts boot o = true ↔ sha384 x.edKey = Config.romKeyHash 0 ∧ sha384 x.mldsaKey = Config.romKeyHash 1 ∧ proved (x.edKey, x.mldsaKey)) ∧
    (recordAccepts boot o = true ↔ proved (Config.recordKeys boot))) ∧
  (∀ (s : State), exec .functionLevelReset s = .next (functionReset s) ∧ exec .hotReset s = .next (functionReset s)) ∧
  ∀ (s : State),
    let t := functionReset s
    ((∀ i : BitVec 6, vget i t.sec.keys = ⟨0, 0, 0, 0⟩) ∧ t.sec.fresh = false ∧ t.sec.spdm = .start ∧ t.sec.trans = [] ∧ t.sec.session = none ∧
      ∀ i : BitVec 4, vget i t.sec.mr = if i.toNat < 5 then vget i s.sec.mr else 0) ∧
    (s.ident.phase ≠ 5 → t = { s with sec := t.sec }) ∧
    (s.ident.phase = 5 → t.ident.phase = 5 ∧ t.ident.drvacc = 0 ∧ t.ident.hostctl = 0 ∧ t.ident.tdi = 0 ∧ t.ident.devcap = s.ident.devcap ∧
      (∀ c, (t.coreAt c).rg.status = .off ∧ (t.coreAt c).gang = none ∧ (t.coreAt c).reqs = []) ∧ t.sched.gangs = [] ∧
      t.sched.nodes = [] ∧ t.sched.graphs = [] ∧ t.sched.run = false ∧ t.sched.events = [] ∧ t.llc = [] ∧
      ∀ n, t.ctx n = ⟨0, 0, 0, 0, 0, false, 0, 0, false⟩)

/-! ### Invariants -/

/-- The form of every memory and register file: cells at rising addresses, none equal to what an unlisted address reads as, poisoned granules rising; vector and
accumulator rows likewise. Every step keeps it (no rule of the spec: the model's own canonical form). -/
def Obligations.StepKeepsCanonicalMemory : Prop :=
  ∀ s t : State, s.canonical → step s = .next t → t.canonical

/-- R426, R418, R395, R419, R458, R14: after reset the device is powered and READY with nothing accepted, RUN clear, no core running, TRAPVEC 0xE000, no barrier
initialised, no event counted and no gang, node or context; the form of its memories is canonical. Registers for which the spec states no reset value read 0 (the
model's choice, log entry 4), and so does every byte of memory (the model's choice, log entry 5). -/
def Obligations.ResetState : Prop :=
  let s := State.reset
  s.canonical ∧ s.powered = true ∧ s.ident.phase = 5 ∧ s.ident.drvacc = 0 ∧ s.ident.hostctl = 0 ∧ s.ident.tdi = 0 ∧ s.sched.run = false ∧
    s.sched.gangs = [] ∧ s.sched.nodes = [] ∧ s.sched.graphs = [] ∧ s.sched.events = [] ∧ s.dcc = 0 ∧
    (∀ n, (s.ctx n).valid = false ∧ (s.ctx n).modelok = false) ∧
    (∀ c, (s.coreAt c).rg.status = .off ∧ (s.coreAt c).sys.trapvec = 0xE000 ∧ (s.coreAt c).boot.state = 0 ∧ (s.coreAt c).gang = none ∧
      (∀ b : BitVec 6, (vget b (s.coreAt c).bars).init = false) ∧ (∀ n : BitVec 3, (vget n (s.coreAt c).chans).state = .idle) ∧
      (∀ r : Reg, vget r (s.coreAt c).rg.g = ⟨0, false⟩)) ∧
    (∀ i : BitVec 6, vget i s.sec.keys = ⟨0, 0, 0, 0⟩) ∧ s.sec.spdm = .start ∧ s.sec.fresh = false ∧ (∀ e, evCount s e = 0) ∧
    ∀ sp a, (s.mem sp).byte a = 0
end

