-- ==== Sys2Proof/Laws/State.lean ====
section
/-!
SUPPORT. One lemma for each field of State and each of the shared updates, all true by unfolding the update: what an update
of a core, a cluster, a die, the scheduler or the PC leaves alone.
-/
namespace Sys2Proof.Machine

/-! ### State.updCore -/
@[simp] theorem State.updCore_focus (s : State) (c : CoreId) (f : Core → Core) : (s.updCore c f).focus = s.focus := rfl
@[simp] theorem State.updCore_agenda (s : State) (c : CoreId) (f : Core → Core) : (s.updCore c f).agenda = s.agenda := rfl
@[simp] theorem State.updCore_moves (s : State) (c : CoreId) (f : Core → Core) : (s.updCore c f).moves = s.moves := rfl
@[simp] theorem State.updCore_free (s : State) (c : CoreId) (f : Core → Core) : (s.updCore c f).free = s.free := rfl
@[simp] theorem State.updCore_order (s : State) (c : CoreId) (f : Core → Core) : (s.updCore c f).order = s.order := rfl
@[simp] theorem State.updCore_powered (s : State) (c : CoreId) (f : Core → Core) : (s.updCore c f).powered = s.powered := rfl
@[simp] theorem State.updCore_dcc (s : State) (c : CoreId) (f : Core → Core) : (s.updCore c f).dcc = s.dcc := rfl
@[simp] theorem State.updCore_cycle (s : State) (c : CoreId) (f : Core → Core) : (s.updCore c f).cycle = s.cycle := rfl
@[simp] theorem State.updCore_clusters (s : State) (c : CoreId) (f : Core → Core) : (s.updCore c f).clusters = s.clusters := rfl
@[simp] theorem State.updCore_dies (s : State) (c : CoreId) (f : Core → Core) : (s.updCore c f).dies = s.dies := rfl
@[simp] theorem State.updCore_hbm (s : State) (c : CoreId) (f : Core → Core) : (s.updCore c f).hbm = s.hbm := rfl
@[simp] theorem State.updCore_host (s : State) (c : CoreId) (f : Core → Core) : (s.updCore c f).host = s.host := rfl
@[simp] theorem State.updCore_badBlocks (s : State) (c : CoreId) (f : Core → Core) : (s.updCore c f).badBlocks = s.badBlocks := rfl
@[simp] theorem State.updCore_llc (s : State) (c : CoreId) (f : Core → Core) : (s.updCore c f).llc = s.llc := rfl
@[simp] theorem State.updCore_llcTags (s : State) (c : CoreId) (f : Core → Core) : (s.updCore c f).llcTags = s.llcTags := rfl
@[simp] theorem State.updCore_grans (s : State) (c : CoreId) (f : Core → Core) : (s.updCore c f).grans = s.grans := rfl
@[simp] theorem State.updCore_dir (s : State) (c : CoreId) (f : Core → Core) : (s.updCore c f).dir = s.dir := rfl
@[simp] theorem State.updCore_watches (s : State) (c : CoreId) (f : Core → Core) : (s.updCore c f).watches = s.watches := rfl
@[simp] theorem State.updCore_subs (s : State) (c : CoreId) (f : Core → Core) : (s.updCore c f).subs = s.subs := rfl
@[simp] theorem State.updCore_ctxs (s : State) (c : CoreId) (f : Core → Core) : (s.updCore c f).ctxs = s.ctxs := rfl
@[simp] theorem State.updCore_sched (s : State) (c : CoreId) (f : Core → Core) : (s.updCore c f).sched = s.sched := rfl
@[simp] theorem State.updCore_parts (s : State) (c : CoreId) (f : Core → Core) : (s.updCore c f).parts = s.parts := rfl
@[simp] theorem State.updCore_coal (s : State) (c : CoreId) (f : Core → Core) : (s.updCore c f).coal = s.coal := rfl
@[simp] theorem State.updCore_log (s : State) (c : CoreId) (f : Core → Core) : (s.updCore c f).log = s.log := rfl
@[simp] theorem State.updCore_trees (s : State) (c : CoreId) (f : Core → Core) : (s.updCore c f).trees = s.trees := rfl
@[simp] theorem State.updCore_tlbinv (s : State) (c : CoreId) (f : Core → Core) : (s.updCore c f).tlbinv = s.tlbinv := rfl
@[simp] theorem State.updCore_ident (s : State) (c : CoreId) (f : Core → Core) : (s.updCore c f).ident = s.ident := rfl
@[simp] theorem State.updCore_power (s : State) (c : CoreId) (f : Core → Core) : (s.updCore c f).power = s.power := rfl
@[simp] theorem State.updCore_fmt (s : State) (c : CoreId) (f : Core → Core) : (s.updCore c f).fmt = s.fmt := rfl
@[simp] theorem State.updCore_pool (s : State) (c : CoreId) (f : Core → Core) : (s.updCore c f).pool = s.pool := rfl
@[simp] theorem State.updCore_sec (s : State) (c : CoreId) (f : Core → Core) : (s.updCore c f).sec = s.sec := rfl
@[simp] theorem State.updCore_msix (s : State) (c : CoreId) (f : Core → Core) : (s.updCore c f).msix = s.msix := rfl
@[simp] theorem State.updCore_stallt (s : State) (c : CoreId) (f : Core → Core) : (s.updCore c f).stallt = s.stallt := rfl
@[simp] theorem State.updCore_sheds (s : State) (c : CoreId) (f : Core → Core) : (s.updCore c f).sheds = s.sheds := rfl
@[simp] theorem State.updCore_misses (s : State) (c : CoreId) (f : Core → Core) : (s.updCore c f).misses = s.misses := rfl

/-! ### State.upd -/
@[simp] theorem State.upd_focus (s : State) (f : Core → Core) : (s.upd f).focus = s.focus := rfl
@[simp] theorem State.upd_agenda (s : State) (f : Core → Core) : (s.upd f).agenda = s.agenda := rfl
@[simp] theorem State.upd_moves (s : State) (f : Core → Core) : (s.upd f).moves = s.moves := rfl
@[simp] theorem State.upd_free (s : State) (f : Core → Core) : (s.upd f).free = s.free := rfl
@[simp] theorem State.upd_order (s : State) (f : Core → Core) : (s.upd f).order = s.order := rfl
@[simp] theorem State.upd_powered (s : State) (f : Core → Core) : (s.upd f).powered = s.powered := rfl
@[simp] theorem State.upd_dcc (s : State) (f : Core → Core) : (s.upd f).dcc = s.dcc := rfl
@[simp] theorem State.upd_cycle (s : State) (f : Core → Core) : (s.upd f).cycle = s.cycle := rfl
@[simp] theorem State.upd_clusters (s : State) (f : Core → Core) : (s.upd f).clusters = s.clusters := rfl
@[simp] theorem State.upd_dies (s : State) (f : Core → Core) : (s.upd f).dies = s.dies := rfl
@[simp] theorem State.upd_hbm (s : State) (f : Core → Core) : (s.upd f).hbm = s.hbm := rfl
@[simp] theorem State.upd_host (s : State) (f : Core → Core) : (s.upd f).host = s.host := rfl
@[simp] theorem State.upd_badBlocks (s : State) (f : Core → Core) : (s.upd f).badBlocks = s.badBlocks := rfl
@[simp] theorem State.upd_llc (s : State) (f : Core → Core) : (s.upd f).llc = s.llc := rfl
@[simp] theorem State.upd_llcTags (s : State) (f : Core → Core) : (s.upd f).llcTags = s.llcTags := rfl
@[simp] theorem State.upd_grans (s : State) (f : Core → Core) : (s.upd f).grans = s.grans := rfl
@[simp] theorem State.upd_dir (s : State) (f : Core → Core) : (s.upd f).dir = s.dir := rfl
@[simp] theorem State.upd_watches (s : State) (f : Core → Core) : (s.upd f).watches = s.watches := rfl
@[simp] theorem State.upd_subs (s : State) (f : Core → Core) : (s.upd f).subs = s.subs := rfl
@[simp] theorem State.upd_ctxs (s : State) (f : Core → Core) : (s.upd f).ctxs = s.ctxs := rfl
@[simp] theorem State.upd_sched (s : State) (f : Core → Core) : (s.upd f).sched = s.sched := rfl
@[simp] theorem State.upd_parts (s : State) (f : Core → Core) : (s.upd f).parts = s.parts := rfl
@[simp] theorem State.upd_coal (s : State) (f : Core → Core) : (s.upd f).coal = s.coal := rfl
@[simp] theorem State.upd_log (s : State) (f : Core → Core) : (s.upd f).log = s.log := rfl
@[simp] theorem State.upd_trees (s : State) (f : Core → Core) : (s.upd f).trees = s.trees := rfl
@[simp] theorem State.upd_tlbinv (s : State) (f : Core → Core) : (s.upd f).tlbinv = s.tlbinv := rfl
@[simp] theorem State.upd_ident (s : State) (f : Core → Core) : (s.upd f).ident = s.ident := rfl
@[simp] theorem State.upd_power (s : State) (f : Core → Core) : (s.upd f).power = s.power := rfl
@[simp] theorem State.upd_fmt (s : State) (f : Core → Core) : (s.upd f).fmt = s.fmt := rfl
@[simp] theorem State.upd_pool (s : State) (f : Core → Core) : (s.upd f).pool = s.pool := rfl
@[simp] theorem State.upd_sec (s : State) (f : Core → Core) : (s.upd f).sec = s.sec := rfl
@[simp] theorem State.upd_msix (s : State) (f : Core → Core) : (s.upd f).msix = s.msix := rfl
@[simp] theorem State.upd_stallt (s : State) (f : Core → Core) : (s.upd f).stallt = s.stallt := rfl
@[simp] theorem State.upd_sheds (s : State) (f : Core → Core) : (s.upd f).sheds = s.sheds := rfl
@[simp] theorem State.upd_misses (s : State) (f : Core → Core) : (s.upd f).misses = s.misses := rfl

/-! ### State.updRg -/
@[simp] theorem State.updRg_focus (s : State) (f : SeqRegs → SeqRegs) : (s.updRg f).focus = s.focus := rfl
@[simp] theorem State.updRg_agenda (s : State) (f : SeqRegs → SeqRegs) : (s.updRg f).agenda = s.agenda := rfl
@[simp] theorem State.updRg_moves (s : State) (f : SeqRegs → SeqRegs) : (s.updRg f).moves = s.moves := rfl
@[simp] theorem State.updRg_free (s : State) (f : SeqRegs → SeqRegs) : (s.updRg f).free = s.free := rfl
@[simp] theorem State.updRg_order (s : State) (f : SeqRegs → SeqRegs) : (s.updRg f).order = s.order := rfl
@[simp] theorem State.updRg_powered (s : State) (f : SeqRegs → SeqRegs) : (s.updRg f).powered = s.powered := rfl
@[simp] theorem State.updRg_dcc (s : State) (f : SeqRegs → SeqRegs) : (s.updRg f).dcc = s.dcc := rfl
@[simp] theorem State.updRg_cycle (s : State) (f : SeqRegs → SeqRegs) : (s.updRg f).cycle = s.cycle := rfl
@[simp] theorem State.updRg_clusters (s : State) (f : SeqRegs → SeqRegs) : (s.updRg f).clusters = s.clusters := rfl
@[simp] theorem State.updRg_dies (s : State) (f : SeqRegs → SeqRegs) : (s.updRg f).dies = s.dies := rfl
@[simp] theorem State.updRg_hbm (s : State) (f : SeqRegs → SeqRegs) : (s.updRg f).hbm = s.hbm := rfl
@[simp] theorem State.updRg_host (s : State) (f : SeqRegs → SeqRegs) : (s.updRg f).host = s.host := rfl
@[simp] theorem State.updRg_badBlocks (s : State) (f : SeqRegs → SeqRegs) : (s.updRg f).badBlocks = s.badBlocks := rfl
@[simp] theorem State.updRg_llc (s : State) (f : SeqRegs → SeqRegs) : (s.updRg f).llc = s.llc := rfl
@[simp] theorem State.updRg_llcTags (s : State) (f : SeqRegs → SeqRegs) : (s.updRg f).llcTags = s.llcTags := rfl
@[simp] theorem State.updRg_grans (s : State) (f : SeqRegs → SeqRegs) : (s.updRg f).grans = s.grans := rfl
@[simp] theorem State.updRg_dir (s : State) (f : SeqRegs → SeqRegs) : (s.updRg f).dir = s.dir := rfl
@[simp] theorem State.updRg_watches (s : State) (f : SeqRegs → SeqRegs) : (s.updRg f).watches = s.watches := rfl
@[simp] theorem State.updRg_subs (s : State) (f : SeqRegs → SeqRegs) : (s.updRg f).subs = s.subs := rfl
@[simp] theorem State.updRg_ctxs (s : State) (f : SeqRegs → SeqRegs) : (s.updRg f).ctxs = s.ctxs := rfl
@[simp] theorem State.updRg_sched (s : State) (f : SeqRegs → SeqRegs) : (s.updRg f).sched = s.sched := rfl
@[simp] theorem State.updRg_parts (s : State) (f : SeqRegs → SeqRegs) : (s.updRg f).parts = s.parts := rfl
@[simp] theorem State.updRg_coal (s : State) (f : SeqRegs → SeqRegs) : (s.updRg f).coal = s.coal := rfl
@[simp] theorem State.updRg_log (s : State) (f : SeqRegs → SeqRegs) : (s.updRg f).log = s.log := rfl
@[simp] theorem State.updRg_trees (s : State) (f : SeqRegs → SeqRegs) : (s.updRg f).trees = s.trees := rfl
@[simp] theorem State.updRg_tlbinv (s : State) (f : SeqRegs → SeqRegs) : (s.updRg f).tlbinv = s.tlbinv := rfl
@[simp] theorem State.updRg_ident (s : State) (f : SeqRegs → SeqRegs) : (s.updRg f).ident = s.ident := rfl
@[simp] theorem State.updRg_power (s : State) (f : SeqRegs → SeqRegs) : (s.updRg f).power = s.power := rfl
@[simp] theorem State.updRg_fmt (s : State) (f : SeqRegs → SeqRegs) : (s.updRg f).fmt = s.fmt := rfl
@[simp] theorem State.updRg_pool (s : State) (f : SeqRegs → SeqRegs) : (s.updRg f).pool = s.pool := rfl
@[simp] theorem State.updRg_sec (s : State) (f : SeqRegs → SeqRegs) : (s.updRg f).sec = s.sec := rfl
@[simp] theorem State.updRg_msix (s : State) (f : SeqRegs → SeqRegs) : (s.updRg f).msix = s.msix := rfl
@[simp] theorem State.updRg_stallt (s : State) (f : SeqRegs → SeqRegs) : (s.updRg f).stallt = s.stallt := rfl
@[simp] theorem State.updRg_sheds (s : State) (f : SeqRegs → SeqRegs) : (s.updRg f).sheds = s.sheds := rfl
@[simp] theorem State.updRg_misses (s : State) (f : SeqRegs → SeqRegs) : (s.updRg f).misses = s.misses := rfl

/-! ### State.updSys -/
@[simp] theorem State.updSys_focus (s : State) (f : SysRegs → SysRegs) : (s.updSys f).focus = s.focus := rfl
@[simp] theorem State.updSys_agenda (s : State) (f : SysRegs → SysRegs) : (s.updSys f).agenda = s.agenda := rfl
@[simp] theorem State.updSys_moves (s : State) (f : SysRegs → SysRegs) : (s.updSys f).moves = s.moves := rfl
@[simp] theorem State.updSys_free (s : State) (f : SysRegs → SysRegs) : (s.updSys f).free = s.free := rfl
@[simp] theorem State.updSys_order (s : State) (f : SysRegs → SysRegs) : (s.updSys f).order = s.order := rfl
@[simp] theorem State.updSys_powered (s : State) (f : SysRegs → SysRegs) : (s.updSys f).powered = s.powered := rfl
@[simp] theorem State.updSys_dcc (s : State) (f : SysRegs → SysRegs) : (s.updSys f).dcc = s.dcc := rfl
@[simp] theorem State.updSys_cycle (s : State) (f : SysRegs → SysRegs) : (s.updSys f).cycle = s.cycle := rfl
@[simp] theorem State.updSys_clusters (s : State) (f : SysRegs → SysRegs) : (s.updSys f).clusters = s.clusters := rfl
@[simp] theorem State.updSys_dies (s : State) (f : SysRegs → SysRegs) : (s.updSys f).dies = s.dies := rfl
@[simp] theorem State.updSys_hbm (s : State) (f : SysRegs → SysRegs) : (s.updSys f).hbm = s.hbm := rfl
@[simp] theorem State.updSys_host (s : State) (f : SysRegs → SysRegs) : (s.updSys f).host = s.host := rfl
@[simp] theorem State.updSys_badBlocks (s : State) (f : SysRegs → SysRegs) : (s.updSys f).badBlocks = s.badBlocks := rfl
@[simp] theorem State.updSys_llc (s : State) (f : SysRegs → SysRegs) : (s.updSys f).llc = s.llc := rfl
@[simp] theorem State.updSys_llcTags (s : State) (f : SysRegs → SysRegs) : (s.updSys f).llcTags = s.llcTags := rfl
@[simp] theorem State.updSys_grans (s : State) (f : SysRegs → SysRegs) : (s.updSys f).grans = s.grans := rfl
@[simp] theorem State.updSys_dir (s : State) (f : SysRegs → SysRegs) : (s.updSys f).dir = s.dir := rfl
@[simp] theorem State.updSys_watches (s : State) (f : SysRegs → SysRegs) : (s.updSys f).watches = s.watches := rfl
@[simp] theorem State.updSys_subs (s : State) (f : SysRegs → SysRegs) : (s.updSys f).subs = s.subs := rfl
@[simp] theorem State.updSys_ctxs (s : State) (f : SysRegs → SysRegs) : (s.updSys f).ctxs = s.ctxs := rfl
@[simp] theorem State.updSys_sched (s : State) (f : SysRegs → SysRegs) : (s.updSys f).sched = s.sched := rfl
@[simp] theorem State.updSys_parts (s : State) (f : SysRegs → SysRegs) : (s.updSys f).parts = s.parts := rfl
@[simp] theorem State.updSys_coal (s : State) (f : SysRegs → SysRegs) : (s.updSys f).coal = s.coal := rfl
@[simp] theorem State.updSys_log (s : State) (f : SysRegs → SysRegs) : (s.updSys f).log = s.log := rfl
@[simp] theorem State.updSys_trees (s : State) (f : SysRegs → SysRegs) : (s.updSys f).trees = s.trees := rfl
@[simp] theorem State.updSys_tlbinv (s : State) (f : SysRegs → SysRegs) : (s.updSys f).tlbinv = s.tlbinv := rfl
@[simp] theorem State.updSys_ident (s : State) (f : SysRegs → SysRegs) : (s.updSys f).ident = s.ident := rfl
@[simp] theorem State.updSys_power (s : State) (f : SysRegs → SysRegs) : (s.updSys f).power = s.power := rfl
@[simp] theorem State.updSys_fmt (s : State) (f : SysRegs → SysRegs) : (s.updSys f).fmt = s.fmt := rfl
@[simp] theorem State.updSys_pool (s : State) (f : SysRegs → SysRegs) : (s.updSys f).pool = s.pool := rfl
@[simp] theorem State.updSys_sec (s : State) (f : SysRegs → SysRegs) : (s.updSys f).sec = s.sec := rfl
@[simp] theorem State.updSys_msix (s : State) (f : SysRegs → SysRegs) : (s.updSys f).msix = s.msix := rfl
@[simp] theorem State.updSys_stallt (s : State) (f : SysRegs → SysRegs) : (s.updSys f).stallt = s.stallt := rfl
@[simp] theorem State.updSys_sheds (s : State) (f : SysRegs → SysRegs) : (s.updSys f).sheds = s.sheds := rfl
@[simp] theorem State.updSys_misses (s : State) (f : SysRegs → SysRegs) : (s.updSys f).misses = s.misses := rfl

/-! ### State.updEng -/
@[simp] theorem State.updEng_focus (s : State) (f : Engines → Engines) : (s.updEng f).focus = s.focus := rfl
@[simp] theorem State.updEng_agenda (s : State) (f : Engines → Engines) : (s.updEng f).agenda = s.agenda := rfl
@[simp] theorem State.updEng_moves (s : State) (f : Engines → Engines) : (s.updEng f).moves = s.moves := rfl
@[simp] theorem State.updEng_free (s : State) (f : Engines → Engines) : (s.updEng f).free = s.free := rfl
@[simp] theorem State.updEng_order (s : State) (f : Engines → Engines) : (s.updEng f).order = s.order := rfl
@[simp] theorem State.updEng_powered (s : State) (f : Engines → Engines) : (s.updEng f).powered = s.powered := rfl
@[simp] theorem State.updEng_dcc (s : State) (f : Engines → Engines) : (s.updEng f).dcc = s.dcc := rfl
@[simp] theorem State.updEng_cycle (s : State) (f : Engines → Engines) : (s.updEng f).cycle = s.cycle := rfl
@[simp] theorem State.updEng_clusters (s : State) (f : Engines → Engines) : (s.updEng f).clusters = s.clusters := rfl
@[simp] theorem State.updEng_dies (s : State) (f : Engines → Engines) : (s.updEng f).dies = s.dies := rfl
@[simp] theorem State.updEng_hbm (s : State) (f : Engines → Engines) : (s.updEng f).hbm = s.hbm := rfl
@[simp] theorem State.updEng_host (s : State) (f : Engines → Engines) : (s.updEng f).host = s.host := rfl
@[simp] theorem State.updEng_badBlocks (s : State) (f : Engines → Engines) : (s.updEng f).badBlocks = s.badBlocks := rfl
@[simp] theorem State.updEng_llc (s : State) (f : Engines → Engines) : (s.updEng f).llc = s.llc := rfl
@[simp] theorem State.updEng_llcTags (s : State) (f : Engines → Engines) : (s.updEng f).llcTags = s.llcTags := rfl
@[simp] theorem State.updEng_grans (s : State) (f : Engines → Engines) : (s.updEng f).grans = s.grans := rfl
@[simp] theorem State.updEng_dir (s : State) (f : Engines → Engines) : (s.updEng f).dir = s.dir := rfl
@[simp] theorem State.updEng_watches (s : State) (f : Engines → Engines) : (s.updEng f).watches = s.watches := rfl
@[simp] theorem State.updEng_subs (s : State) (f : Engines → Engines) : (s.updEng f).subs = s.subs := rfl
@[simp] theorem State.updEng_ctxs (s : State) (f : Engines → Engines) : (s.updEng f).ctxs = s.ctxs := rfl
@[simp] theorem State.updEng_sched (s : State) (f : Engines → Engines) : (s.updEng f).sched = s.sched := rfl
@[simp] theorem State.updEng_parts (s : State) (f : Engines → Engines) : (s.updEng f).parts = s.parts := rfl
@[simp] theorem State.updEng_coal (s : State) (f : Engines → Engines) : (s.updEng f).coal = s.coal := rfl
@[simp] theorem State.updEng_log (s : State) (f : Engines → Engines) : (s.updEng f).log = s.log := rfl
@[simp] theorem State.updEng_trees (s : State) (f : Engines → Engines) : (s.updEng f).trees = s.trees := rfl
@[simp] theorem State.updEng_tlbinv (s : State) (f : Engines → Engines) : (s.updEng f).tlbinv = s.tlbinv := rfl
@[simp] theorem State.updEng_ident (s : State) (f : Engines → Engines) : (s.updEng f).ident = s.ident := rfl
@[simp] theorem State.updEng_power (s : State) (f : Engines → Engines) : (s.updEng f).power = s.power := rfl
@[simp] theorem State.updEng_fmt (s : State) (f : Engines → Engines) : (s.updEng f).fmt = s.fmt := rfl
@[simp] theorem State.updEng_pool (s : State) (f : Engines → Engines) : (s.updEng f).pool = s.pool := rfl
@[simp] theorem State.updEng_sec (s : State) (f : Engines → Engines) : (s.updEng f).sec = s.sec := rfl
@[simp] theorem State.updEng_msix (s : State) (f : Engines → Engines) : (s.updEng f).msix = s.msix := rfl
@[simp] theorem State.updEng_stallt (s : State) (f : Engines → Engines) : (s.updEng f).stallt = s.stallt := rfl
@[simp] theorem State.updEng_sheds (s : State) (f : Engines → Engines) : (s.updEng f).sheds = s.sheds := rfl
@[simp] theorem State.updEng_misses (s : State) (f : Engines → Engines) : (s.updEng f).misses = s.misses := rfl

/-! ### State.setPc -/
@[simp] theorem State.setPc_focus (s : State) (p : BitVec 16) : (s.setPc p).focus = s.focus := rfl
@[simp] theorem State.setPc_agenda (s : State) (p : BitVec 16) : (s.setPc p).agenda = s.agenda := rfl
@[simp] theorem State.setPc_moves (s : State) (p : BitVec 16) : (s.setPc p).moves = s.moves := rfl
@[simp] theorem State.setPc_free (s : State) (p : BitVec 16) : (s.setPc p).free = s.free := rfl
@[simp] theorem State.setPc_order (s : State) (p : BitVec 16) : (s.setPc p).order = s.order := rfl
@[simp] theorem State.setPc_powered (s : State) (p : BitVec 16) : (s.setPc p).powered = s.powered := rfl
@[simp] theorem State.setPc_dcc (s : State) (p : BitVec 16) : (s.setPc p).dcc = s.dcc := rfl
@[simp] theorem State.setPc_cycle (s : State) (p : BitVec 16) : (s.setPc p).cycle = s.cycle := rfl
@[simp] theorem State.setPc_clusters (s : State) (p : BitVec 16) : (s.setPc p).clusters = s.clusters := rfl
@[simp] theorem State.setPc_dies (s : State) (p : BitVec 16) : (s.setPc p).dies = s.dies := rfl
@[simp] theorem State.setPc_hbm (s : State) (p : BitVec 16) : (s.setPc p).hbm = s.hbm := rfl
@[simp] theorem State.setPc_host (s : State) (p : BitVec 16) : (s.setPc p).host = s.host := rfl
@[simp] theorem State.setPc_badBlocks (s : State) (p : BitVec 16) : (s.setPc p).badBlocks = s.badBlocks := rfl
@[simp] theorem State.setPc_llc (s : State) (p : BitVec 16) : (s.setPc p).llc = s.llc := rfl
@[simp] theorem State.setPc_llcTags (s : State) (p : BitVec 16) : (s.setPc p).llcTags = s.llcTags := rfl
@[simp] theorem State.setPc_grans (s : State) (p : BitVec 16) : (s.setPc p).grans = s.grans := rfl
@[simp] theorem State.setPc_dir (s : State) (p : BitVec 16) : (s.setPc p).dir = s.dir := rfl
@[simp] theorem State.setPc_watches (s : State) (p : BitVec 16) : (s.setPc p).watches = s.watches := rfl
@[simp] theorem State.setPc_subs (s : State) (p : BitVec 16) : (s.setPc p).subs = s.subs := rfl
@[simp] theorem State.setPc_ctxs (s : State) (p : BitVec 16) : (s.setPc p).ctxs = s.ctxs := rfl
@[simp] theorem State.setPc_sched (s : State) (p : BitVec 16) : (s.setPc p).sched = s.sched := rfl
@[simp] theorem State.setPc_parts (s : State) (p : BitVec 16) : (s.setPc p).parts = s.parts := rfl
@[simp] theorem State.setPc_coal (s : State) (p : BitVec 16) : (s.setPc p).coal = s.coal := rfl
@[simp] theorem State.setPc_log (s : State) (p : BitVec 16) : (s.setPc p).log = s.log := rfl
@[simp] theorem State.setPc_trees (s : State) (p : BitVec 16) : (s.setPc p).trees = s.trees := rfl
@[simp] theorem State.setPc_tlbinv (s : State) (p : BitVec 16) : (s.setPc p).tlbinv = s.tlbinv := rfl
@[simp] theorem State.setPc_ident (s : State) (p : BitVec 16) : (s.setPc p).ident = s.ident := rfl
@[simp] theorem State.setPc_power (s : State) (p : BitVec 16) : (s.setPc p).power = s.power := rfl
@[simp] theorem State.setPc_fmt (s : State) (p : BitVec 16) : (s.setPc p).fmt = s.fmt := rfl
@[simp] theorem State.setPc_pool (s : State) (p : BitVec 16) : (s.setPc p).pool = s.pool := rfl
@[simp] theorem State.setPc_sec (s : State) (p : BitVec 16) : (s.setPc p).sec = s.sec := rfl
@[simp] theorem State.setPc_msix (s : State) (p : BitVec 16) : (s.setPc p).msix = s.msix := rfl
@[simp] theorem State.setPc_stallt (s : State) (p : BitVec 16) : (s.setPc p).stallt = s.stallt := rfl
@[simp] theorem State.setPc_sheds (s : State) (p : BitVec 16) : (s.setPc p).sheds = s.sheds := rfl
@[simp] theorem State.setPc_misses (s : State) (p : BitVec 16) : (s.setPc p).misses = s.misses := rfl

/-! ### State.updCluster -/
@[simp] theorem State.updCluster_cores (s : State) (k : Fin 32) (f : Cluster → Cluster) : (s.updCluster k f).cores = s.cores := rfl
@[simp] theorem State.updCluster_focus (s : State) (k : Fin 32) (f : Cluster → Cluster) : (s.updCluster k f).focus = s.focus := rfl
@[simp] theorem State.updCluster_agenda (s : State) (k : Fin 32) (f : Cluster → Cluster) : (s.updCluster k f).agenda = s.agenda := rfl
@[simp] theorem State.updCluster_moves (s : State) (k : Fin 32) (f : Cluster → Cluster) : (s.updCluster k f).moves = s.moves := rfl
@[simp] theorem State.updCluster_free (s : State) (k : Fin 32) (f : Cluster → Cluster) : (s.updCluster k f).free = s.free := rfl
@[simp] theorem State.updCluster_order (s : State) (k : Fin 32) (f : Cluster → Cluster) : (s.updCluster k f).order = s.order := rfl
@[simp] theorem State.updCluster_powered (s : State) (k : Fin 32) (f : Cluster → Cluster) : (s.updCluster k f).powered = s.powered := rfl
@[simp] theorem State.updCluster_dcc (s : State) (k : Fin 32) (f : Cluster → Cluster) : (s.updCluster k f).dcc = s.dcc := rfl
@[simp] theorem State.updCluster_cycle (s : State) (k : Fin 32) (f : Cluster → Cluster) : (s.updCluster k f).cycle = s.cycle := rfl
@[simp] theorem State.updCluster_dies (s : State) (k : Fin 32) (f : Cluster → Cluster) : (s.updCluster k f).dies = s.dies := rfl
@[simp] theorem State.updCluster_hbm (s : State) (k : Fin 32) (f : Cluster → Cluster) : (s.updCluster k f).hbm = s.hbm := rfl
@[simp] theorem State.updCluster_host (s : State) (k : Fin 32) (f : Cluster → Cluster) : (s.updCluster k f).host = s.host := rfl
@[simp] theorem State.updCluster_badBlocks (s : State) (k : Fin 32) (f : Cluster → Cluster) : (s.updCluster k f).badBlocks = s.badBlocks := rfl
@[simp] theorem State.updCluster_llc (s : State) (k : Fin 32) (f : Cluster → Cluster) : (s.updCluster k f).llc = s.llc := rfl
@[simp] theorem State.updCluster_llcTags (s : State) (k : Fin 32) (f : Cluster → Cluster) : (s.updCluster k f).llcTags = s.llcTags := rfl
@[simp] theorem State.updCluster_grans (s : State) (k : Fin 32) (f : Cluster → Cluster) : (s.updCluster k f).grans = s.grans := rfl
@[simp] theorem State.updCluster_dir (s : State) (k : Fin 32) (f : Cluster → Cluster) : (s.updCluster k f).dir = s.dir := rfl
@[simp] theorem State.updCluster_watches (s : State) (k : Fin 32) (f : Cluster → Cluster) : (s.updCluster k f).watches = s.watches := rfl
@[simp] theorem State.updCluster_subs (s : State) (k : Fin 32) (f : Cluster → Cluster) : (s.updCluster k f).subs = s.subs := rfl
@[simp] theorem State.updCluster_ctxs (s : State) (k : Fin 32) (f : Cluster → Cluster) : (s.updCluster k f).ctxs = s.ctxs := rfl
@[simp] theorem State.updCluster_sched (s : State) (k : Fin 32) (f : Cluster → Cluster) : (s.updCluster k f).sched = s.sched := rfl
@[simp] theorem State.updCluster_parts (s : State) (k : Fin 32) (f : Cluster → Cluster) : (s.updCluster k f).parts = s.parts := rfl
@[simp] theorem State.updCluster_coal (s : State) (k : Fin 32) (f : Cluster → Cluster) : (s.updCluster k f).coal = s.coal := rfl
@[simp] theorem State.updCluster_log (s : State) (k : Fin 32) (f : Cluster → Cluster) : (s.updCluster k f).log = s.log := rfl
@[simp] theorem State.updCluster_trees (s : State) (k : Fin 32) (f : Cluster → Cluster) : (s.updCluster k f).trees = s.trees := rfl
@[simp] theorem State.updCluster_tlbinv (s : State) (k : Fin 32) (f : Cluster → Cluster) : (s.updCluster k f).tlbinv = s.tlbinv := rfl
@[simp] theorem State.updCluster_ident (s : State) (k : Fin 32) (f : Cluster → Cluster) : (s.updCluster k f).ident = s.ident := rfl
@[simp] theorem State.updCluster_power (s : State) (k : Fin 32) (f : Cluster → Cluster) : (s.updCluster k f).power = s.power := rfl
@[simp] theorem State.updCluster_fmt (s : State) (k : Fin 32) (f : Cluster → Cluster) : (s.updCluster k f).fmt = s.fmt := rfl
@[simp] theorem State.updCluster_pool (s : State) (k : Fin 32) (f : Cluster → Cluster) : (s.updCluster k f).pool = s.pool := rfl
@[simp] theorem State.updCluster_sec (s : State) (k : Fin 32) (f : Cluster → Cluster) : (s.updCluster k f).sec = s.sec := rfl
@[simp] theorem State.updCluster_msix (s : State) (k : Fin 32) (f : Cluster → Cluster) : (s.updCluster k f).msix = s.msix := rfl
@[simp] theorem State.updCluster_stallt (s : State) (k : Fin 32) (f : Cluster → Cluster) : (s.updCluster k f).stallt = s.stallt := rfl
@[simp] theorem State.updCluster_sheds (s : State) (k : Fin 32) (f : Cluster → Cluster) : (s.updCluster k f).sheds = s.sheds := rfl
@[simp] theorem State.updCluster_misses (s : State) (k : Fin 32) (f : Cluster → Cluster) : (s.updCluster k f).misses = s.misses := rfl

/-! ### State.updDie -/
@[simp] theorem State.updDie_cores (s : State) (d : Fin 4) (f : Die → Die) : (s.updDie d f).cores = s.cores := rfl
@[simp] theorem State.updDie_focus (s : State) (d : Fin 4) (f : Die → Die) : (s.updDie d f).focus = s.focus := rfl
@[simp] theorem State.updDie_agenda (s : State) (d : Fin 4) (f : Die → Die) : (s.updDie d f).agenda = s.agenda := rfl
@[simp] theorem State.updDie_moves (s : State) (d : Fin 4) (f : Die → Die) : (s.updDie d f).moves = s.moves := rfl
@[simp] theorem State.updDie_free (s : State) (d : Fin 4) (f : Die → Die) : (s.updDie d f).free = s.free := rfl
@[simp] theorem State.updDie_order (s : State) (d : Fin 4) (f : Die → Die) : (s.updDie d f).order = s.order := rfl
@[simp] theorem State.updDie_powered (s : State) (d : Fin 4) (f : Die → Die) : (s.updDie d f).powered = s.powered := rfl
@[simp] theorem State.updDie_dcc (s : State) (d : Fin 4) (f : Die → Die) : (s.updDie d f).dcc = s.dcc := rfl
@[simp] theorem State.updDie_cycle (s : State) (d : Fin 4) (f : Die → Die) : (s.updDie d f).cycle = s.cycle := rfl
@[simp] theorem State.updDie_clusters (s : State) (d : Fin 4) (f : Die → Die) : (s.updDie d f).clusters = s.clusters := rfl
@[simp] theorem State.updDie_hbm (s : State) (d : Fin 4) (f : Die → Die) : (s.updDie d f).hbm = s.hbm := rfl
@[simp] theorem State.updDie_host (s : State) (d : Fin 4) (f : Die → Die) : (s.updDie d f).host = s.host := rfl
@[simp] theorem State.updDie_badBlocks (s : State) (d : Fin 4) (f : Die → Die) : (s.updDie d f).badBlocks = s.badBlocks := rfl
@[simp] theorem State.updDie_llc (s : State) (d : Fin 4) (f : Die → Die) : (s.updDie d f).llc = s.llc := rfl
@[simp] theorem State.updDie_llcTags (s : State) (d : Fin 4) (f : Die → Die) : (s.updDie d f).llcTags = s.llcTags := rfl
@[simp] theorem State.updDie_grans (s : State) (d : Fin 4) (f : Die → Die) : (s.updDie d f).grans = s.grans := rfl
@[simp] theorem State.updDie_dir (s : State) (d : Fin 4) (f : Die → Die) : (s.updDie d f).dir = s.dir := rfl
@[simp] theorem State.updDie_watches (s : State) (d : Fin 4) (f : Die → Die) : (s.updDie d f).watches = s.watches := rfl
@[simp] theorem State.updDie_subs (s : State) (d : Fin 4) (f : Die → Die) : (s.updDie d f).subs = s.subs := rfl
@[simp] theorem State.updDie_ctxs (s : State) (d : Fin 4) (f : Die → Die) : (s.updDie d f).ctxs = s.ctxs := rfl
@[simp] theorem State.updDie_sched (s : State) (d : Fin 4) (f : Die → Die) : (s.updDie d f).sched = s.sched := rfl
@[simp] theorem State.updDie_parts (s : State) (d : Fin 4) (f : Die → Die) : (s.updDie d f).parts = s.parts := rfl
@[simp] theorem State.updDie_coal (s : State) (d : Fin 4) (f : Die → Die) : (s.updDie d f).coal = s.coal := rfl
@[simp] theorem State.updDie_log (s : State) (d : Fin 4) (f : Die → Die) : (s.updDie d f).log = s.log := rfl
@[simp] theorem State.updDie_trees (s : State) (d : Fin 4) (f : Die → Die) : (s.updDie d f).trees = s.trees := rfl
@[simp] theorem State.updDie_tlbinv (s : State) (d : Fin 4) (f : Die → Die) : (s.updDie d f).tlbinv = s.tlbinv := rfl
@[simp] theorem State.updDie_ident (s : State) (d : Fin 4) (f : Die → Die) : (s.updDie d f).ident = s.ident := rfl
@[simp] theorem State.updDie_power (s : State) (d : Fin 4) (f : Die → Die) : (s.updDie d f).power = s.power := rfl
@[simp] theorem State.updDie_fmt (s : State) (d : Fin 4) (f : Die → Die) : (s.updDie d f).fmt = s.fmt := rfl
@[simp] theorem State.updDie_pool (s : State) (d : Fin 4) (f : Die → Die) : (s.updDie d f).pool = s.pool := rfl
@[simp] theorem State.updDie_sec (s : State) (d : Fin 4) (f : Die → Die) : (s.updDie d f).sec = s.sec := rfl
@[simp] theorem State.updDie_msix (s : State) (d : Fin 4) (f : Die → Die) : (s.updDie d f).msix = s.msix := rfl
@[simp] theorem State.updDie_stallt (s : State) (d : Fin 4) (f : Die → Die) : (s.updDie d f).stallt = s.stallt := rfl
@[simp] theorem State.updDie_sheds (s : State) (d : Fin 4) (f : Die → Die) : (s.updDie d f).sheds = s.sheds := rfl
@[simp] theorem State.updDie_misses (s : State) (d : Fin 4) (f : Die → Die) : (s.updDie d f).misses = s.misses := rfl

/-! ### State.updSched -/
@[simp] theorem State.updSched_cores (s : State) (f : Sched → Sched) : (s.updSched f).cores = s.cores := rfl
@[simp] theorem State.updSched_focus (s : State) (f : Sched → Sched) : (s.updSched f).focus = s.focus := rfl
@[simp] theorem State.updSched_agenda (s : State) (f : Sched → Sched) : (s.updSched f).agenda = s.agenda := rfl
@[simp] theorem State.updSched_moves (s : State) (f : Sched → Sched) : (s.updSched f).moves = s.moves := rfl
@[simp] theorem State.updSched_free (s : State) (f : Sched → Sched) : (s.updSched f).free = s.free := rfl
@[simp] theorem State.updSched_order (s : State) (f : Sched → Sched) : (s.updSched f).order = s.order := rfl
@[simp] theorem State.updSched_powered (s : State) (f : Sched → Sched) : (s.updSched f).powered = s.powered := rfl
@[simp] theorem State.updSched_dcc (s : State) (f : Sched → Sched) : (s.updSched f).dcc = s.dcc := rfl
@[simp] theorem State.updSched_cycle (s : State) (f : Sched → Sched) : (s.updSched f).cycle = s.cycle := rfl
@[simp] theorem State.updSched_clusters (s : State) (f : Sched → Sched) : (s.updSched f).clusters = s.clusters := rfl
@[simp] theorem State.updSched_dies (s : State) (f : Sched → Sched) : (s.updSched f).dies = s.dies := rfl
@[simp] theorem State.updSched_hbm (s : State) (f : Sched → Sched) : (s.updSched f).hbm = s.hbm := rfl
@[simp] theorem State.updSched_host (s : State) (f : Sched → Sched) : (s.updSched f).host = s.host := rfl
@[simp] theorem State.updSched_badBlocks (s : State) (f : Sched → Sched) : (s.updSched f).badBlocks = s.badBlocks := rfl
@[simp] theorem State.updSched_llc (s : State) (f : Sched → Sched) : (s.updSched f).llc = s.llc := rfl
@[simp] theorem State.updSched_llcTags (s : State) (f : Sched → Sched) : (s.updSched f).llcTags = s.llcTags := rfl
@[simp] theorem State.updSched_grans (s : State) (f : Sched → Sched) : (s.updSched f).grans = s.grans := rfl
@[simp] theorem State.updSched_dir (s : State) (f : Sched → Sched) : (s.updSched f).dir = s.dir := rfl
@[simp] theorem State.updSched_watches (s : State) (f : Sched → Sched) : (s.updSched f).watches = s.watches := rfl
@[simp] theorem State.updSched_subs (s : State) (f : Sched → Sched) : (s.updSched f).subs = s.subs := rfl
@[simp] theorem State.updSched_ctxs (s : State) (f : Sched → Sched) : (s.updSched f).ctxs = s.ctxs := rfl
@[simp] theorem State.updSched_parts (s : State) (f : Sched → Sched) : (s.updSched f).parts = s.parts := rfl
@[simp] theorem State.updSched_coal (s : State) (f : Sched → Sched) : (s.updSched f).coal = s.coal := rfl
@[simp] theorem State.updSched_log (s : State) (f : Sched → Sched) : (s.updSched f).log = s.log := rfl
@[simp] theorem State.updSched_trees (s : State) (f : Sched → Sched) : (s.updSched f).trees = s.trees := rfl
@[simp] theorem State.updSched_tlbinv (s : State) (f : Sched → Sched) : (s.updSched f).tlbinv = s.tlbinv := rfl
@[simp] theorem State.updSched_ident (s : State) (f : Sched → Sched) : (s.updSched f).ident = s.ident := rfl
@[simp] theorem State.updSched_power (s : State) (f : Sched → Sched) : (s.updSched f).power = s.power := rfl
@[simp] theorem State.updSched_fmt (s : State) (f : Sched → Sched) : (s.updSched f).fmt = s.fmt := rfl
@[simp] theorem State.updSched_pool (s : State) (f : Sched → Sched) : (s.updSched f).pool = s.pool := rfl
@[simp] theorem State.updSched_sec (s : State) (f : Sched → Sched) : (s.updSched f).sec = s.sec := rfl
@[simp] theorem State.updSched_msix (s : State) (f : Sched → Sched) : (s.updSched f).msix = s.msix := rfl
@[simp] theorem State.updSched_stallt (s : State) (f : Sched → Sched) : (s.updSched f).stallt = s.stallt := rfl
@[simp] theorem State.updSched_sheds (s : State) (f : Sched → Sched) : (s.updSched f).sheds = s.sheds := rfl
@[simp] theorem State.updSched_misses (s : State) (f : Sched → Sched) : (s.updSched f).misses = s.misses := rfl

/-! ### Reading an updated core back -/
/-- The core that was updated. -/
@[simp] theorem State.coreAt_updCore (s : State) (c : CoreId) (f : Core → Core) :
    (s.updCore c f).coreAt c = f (s.coreAt c) := by
  simp [State.updCore, State.setCore, State.coreAt]

/-- Every other core. -/
theorem State.coreAt_updCore_ne (s : State) {c d : CoreId} (f : Core → Core) (h : d ≠ c) :
    (s.updCore c f).coreAt d = s.coreAt d := by
  have : c.val ≠ d.val := fun e => h (Fin.ext e.symm)
  simp [State.updCore, State.setCore, State.coreAt, Vector.getElem_set_ne, this]

/-- The current core after an update of it. -/
@[simp] theorem State.core_upd (s : State) (f : Core → Core) : (s.upd f).core = f s.core := by
  simp [State.upd, State.core]

/-- The sequencer registers after an update of them. -/
@[simp] theorem State.core_updRg (s : State) (f : SeqRegs → SeqRegs) :
    (s.updRg f).core = { s.core with rg := f s.core.rg } := by
  simp [State.updRg]

/-- The system registers after an update of them. -/
@[simp] theorem State.core_updSys (s : State) (f : SysRegs → SysRegs) :
    (s.updSys f).core = { s.core with sys := f s.core.sys } := by
  simp [State.updSys]

/-- The engines after an update of them. -/
@[simp] theorem State.core_updEng (s : State) (f : Engines → Engines) :
    (s.updEng f).core = { s.core with eng := f s.core.eng } := by
  simp [State.updEng]

/-- The PC after it is set. -/
@[simp] theorem State.pc_setPc (s : State) (p : BitVec 16) : (s.setPc p).pc = p := by
  simp [State.setPc, State.pc]

/-- Two updates of a core are one. -/
@[simp] theorem State.updCore_updCore (s : State) (c : CoreId) (f g : Core → Core) :
    (s.updCore c f).updCore c g = s.updCore c fun k => g (f k) := by
  simp [State.updCore, State.setCore, State.coreAt]

/-- Two updates of the current core are one. -/
theorem State.upd_upd (s : State) (f g : Core → Core) : (s.upd f).upd g = s.upd fun k => g (f k) := by
  simp [State.upd]

/-- Two updates of the sequencer registers are one. -/
theorem State.updRg_updRg (s : State) (f g : SeqRegs → SeqRegs) :
    (s.updRg f).updRg g = s.updRg fun r => g (f r) := by
  simp [State.updRg, State.upd]

/-- An update that changes nothing is none. -/
@[simp] theorem State.updCore_self (s : State) (c : CoreId) : (s.updCore c fun k => k) = s := by
  simp [State.updCore, State.setCore, State.coreAt]

/-- The cluster that was updated. -/
@[simp] theorem State.cluster_updCluster (s : State) (k : Fin 32) (f : Cluster → Cluster) :
    (s.updCluster k f).cluster k = f (s.cluster k) := by
  simp [State.updCluster, State.cluster]

/-- The die that was updated. -/
@[simp] theorem State.die_updDie (s : State) (d : Fin 4) (f : Die → Die) : (s.updDie d f).die d = f (s.die d) := by
  simp [State.updDie, State.die]

end Sys2Proof.Machine
end

