-- ==== Sys2Proof/Laws/Ops.lean ====
section
/-!
SUPPORT. One lemma per shared operation of the sequencer: reads and writes of registers and predicates, the PC outside a
loop, the frame of an instruction with its guard, the conclusion of a step, taking a trap, arriving at a barrier.
-/
namespace Sys2Proof.Machine

/-! ### Fixed-size tables -/

@[simp] theorem vget_vset {α : Type} {n : Nat} (i : BitVec n) (x : α) (v : Vector α (2 ^ n)) :
    vget i (vset i x v) = x := by
  simp [vget, vset]

theorem vget_vset_ne {α : Type} {n : Nat} {i j : BitVec n} (h : i ≠ j) (x : α) (v : Vector α (2 ^ n)) :
    vget j (vset i x v) = vget j v := by
  have : i.toNat ≠ j.toNat := fun h' => h (BitVec.eq_of_toNat_eq h')
  simp [vget, vset, this]

/-! ### Checks -/

@[simp] theorem need_true (c : Cause) (a : Word) : need true c a = .ok () := rfl
@[simp] theorem need_false (c : Cause) (a : Word) : need false c a = raise c a := rfl

/-- A passed check answers unit; a failed one answers its trap. -/
theorem need_ok {ok : Bool} {c : Cause} {a : Word} : need ok c a = .ok () ↔ ok = true := by
  cases ok <;> simp [need, raise]

@[simp] theorem ok_bind {ε α β : Type} (a : α) (f : α → Except ε β) : (Except.ok a >>= f) = f a := rfl
@[simp] theorem error_bind {ε α β : Type} (e : ε) (f : α → Except ε β) : (Except.error e >>= f) = Except.error e := rfl
@[simp] theorem raise_bind {α β : Type} (c : Cause) (a : Word) (f : α → R β) : ((raise c a : R α) >>= f) = raise c a := rfl
@[simp] theorem wait_bind {α β : Type} (f : α → R β) : ((wait : R α) >>= f) = wait := rfl

/-- A bind that completes has completed both parts. -/
theorem bind_ok {α β : Type} {x : R α} {f : α → R β} {b : β} (h : (x >>= f) = .ok b) :
    ∃ a, x = .ok a ∧ f a = .ok b := by
  cases x with
  | error e => simp at h
  | ok a => exact ⟨a, rfl, h⟩

@[simp] theorem conclude_ok (s t : State) : conclude s (.ok t) = .next t := rfl
@[simp] theorem conclude_wait (s : State) : conclude s wait = .next s := rfl
@[simp] theorem conclude_raise (s : State) (c : Cause) (a : Word) :
    conclude s (raise c a) = .next (takeTrap { cause := c, addr := a } s) := rfl
@[simp] theorem settle_eq (s : State) : settle s = .next s := rfl

@[simp] theorem clean_ok (w : Word) : clean ⟨w, false⟩ = .ok w := rfl
theorem clean_of {v : PReg} (h : v.bad = false) : clean v = .ok v.val := by simp [clean, h]
theorem clean_bad {v : PReg} (h : v.bad = true) : clean v = raise cPoison 0 := by simp [clean, h]

/-! ### Registers and predicates -/

@[simp] theorem readG_zero (k : Core) (l : Nat) : readG k l 0#5 = ⟨0, false⟩ := rfl
@[simp] theorem readK_zero (k : Core) (l : Nat) : readK k l 0#3 = ⟨true, false⟩ := rfl

theorem readG_arch (k : Core) {r : Reg} (h : r ≠ 0) : readG k 0 r = vget r k.rg.g := if_neg h
theorem readK_arch (k : Core) {t : BitVec 3} (h : t ≠ 0) : readK k 0 t = vget t k.rg.k := if_neg h

/-- Architected registers are read from the register file alone. -/
theorem State.g_eq (s : State) (r : Reg) : s.g r = if r = 0 then ⟨0, false⟩ else vget r s.core.rg.g := rfl
theorem State.k_eq (s : State) (t : BitVec 3) : s.k t = if t = 0 then ⟨true, false⟩ else vget t s.core.rg.k := rfl

@[simp] theorem State.setG_zero (s : State) (v : PReg) : s.setG 0#5 v = s := rfl
@[simp] theorem State.setK_zero (s : State) (v : PBit) : s.setK 0#3 v = s := rfl

theorem State.setG_of (s : State) {r : Reg} (h : r ≠ 0) (v : PReg) :
    s.setG r v = s.updRg fun x => { x with g := vset r v x.g } := if_neg h
theorem State.setK_of (s : State) {t : BitVec 3} (h : t ≠ 0) (v : PBit) :
    s.setK t v = s.updRg fun x => { x with k := vset t v x.k } := if_neg h

/-- A written register reads as written; another reads as before (R144). -/
theorem State.g_setG (s : State) (r q : Reg) (v : PReg) :
    (s.setG r v).g q = if q = r ∧ r ≠ 0 then v else s.g q := by
  by_cases hr : r = 0
  · rw [if_neg (fun h => h.2 hr), hr]; rfl
  · rw [State.setG_of _ hr, State.g_eq, State.g_eq, State.core_updRg]
    by_cases hq : q = 0
    · rw [if_pos hq, if_pos hq, if_neg (fun h : q = r ∧ r ≠ 0 => hr (h.1 ▸ hq))]
    · rw [if_neg hq, if_neg hq]
      by_cases h : r = q
      · rw [if_pos ⟨h.symm, hr⟩, h]; simp
      · rw [if_neg (fun h' : q = r ∧ r ≠ 0 => h h'.1.symm)]; exact vget_vset_ne h _ _

theorem State.k_setK (s : State) (r q : BitVec 3) (v : PBit) :
    (s.setK r v).k q = if q = r ∧ r ≠ 0 then v else s.k q := by
  by_cases hr : r = 0
  · rw [if_neg (fun h => h.2 hr), hr]; rfl
  · rw [State.setK_of _ hr, State.k_eq, State.k_eq, State.core_updRg]
    by_cases hq : q = 0
    · rw [if_pos hq, if_pos hq, if_neg (fun h : q = r ∧ r ≠ 0 => hr (h.1 ▸ hq))]
    · rw [if_neg hq, if_neg hq]
      by_cases h : r = q
      · rw [if_pos ⟨h.symm, hr⟩, h]; simp
      · rw [if_neg (fun h' : q = r ∧ r ≠ 0 => h h'.1.symm)]; exact vget_vset_ne h _ _

/-- A register write changes the registers alone. -/
theorem State.setG_rg (s : State) (r : Reg) (v : PReg) :
    s.setG r v = s.updRg fun x => { x with g := if r = 0 then x.g else vset r v x.g } := by
  by_cases h : r = 0
  · simp only [h, ↓reduceIte]
    exact (State.updCore_self s s.focus.core).symm
  · rw [State.setG_of _ h]; simp only [if_neg h]

theorem writeG_arch (r : Reg) (v : PReg) (s : State) : writeG 0 r v s = s.setG r v := rfl
theorem writeK_arch (t : BitVec 3) (v : PBit) (s : State) : writeK 0 t v s = s.setK t v := rfl

/-! ### The PC -/

/-- Outside a loop, and in supervisor mode, going to an address moves the PC and nothing else (R34, R166). -/
theorem goTo_plain {s : State} (h : s.core.rg.sup = true ∨ s.core.rg.loops = []) (t : BitVec 16) (fall : Bool) :
    goTo t fall s = s.updRg fun x => { x with pc := t, bound := false } := by
  unfold goTo
  simp only [State.core_updRg]
  split
  · rfl
  · rename_i hs
    have hl : s.core.rg.loops = [] := h.resolve_left (by simpa using hs)
    simp only [watchLoop, State.core_updRg, hl]

/-- Outside a loop the next instruction follows at the address after this one (R127). -/
theorem advance_plain {s : State} (h : s.core.rg.sup = true ∨ s.core.rg.loops = []) (n : Nat) :
    advance n s = s.updRg fun x => { x with pc := x.pc + BitVec.ofNat 16 n, bound := false } := by
  unfold advance
  rw [goTo_plain h]
  rfl

/-! ### Guards and the frame of an instruction -/

theorem checkRegs_ok {s : State} {rs : List Reg} (h : s.core.rg.sup = true ∨ rs.all (regDeclared s.core.decl) = true) :
    checkRegs s rs = .ok () := by
  rw [checkRegs, need_ok]
  simpa using h

theorem checkRegs_no {s : State} {rs : List Reg} (hs : s.core.rg.sup = false)
    (h : rs.all (regDeclared s.core.decl) = false) : checkRegs s rs = raise cIllegalReg (zext64 s.pc) := by
  simp [checkRegs, hs, h]

theorem guardHolds_clean {s : State} {l : Nat} {gd : Guard} (h : (readK s.core l gd.kg).bad = false) :
    guardHolds s l gd = .ok ((readK s.core l gd.kg).val != gd.kn) := by
  simp [guardHolds, h]

/-- The unguarded case always holds (R129). -/
@[simp] theorem guardHolds_plain (s : State) (l : Nat) : guardHolds s l ⟨0, false⟩ = .ok true := by
  simp [guardHolds]

/-- A body that completes does so at every boost level (R41). -/
theorem boosted_ok {bl : BitVec 2} {dst : ShadowDst} {body : State → R State} {s t : State} (h : body s = .ok t) :
    boosted bl dst body s = .ok t := by
  unfold boosted
  split
  · exact h
  · rw [h]

/-- An instruction whose checks pass and whose guard holds does what its body does, then falls through (R127, R129). -/
theorem instruction_true {len : Nat} {bl : BitVec 2} {dst : ShadowDst} {regs : List Reg} {gd : Guard}
    {body : State → R State} {s t : State} (hb : s.core.rg.sup = true → bl = 0)
    (hr : s.core.rg.sup = true ∨ regs.all (regDeclared s.core.decl) = true)
    (hg : guardHolds s bl.toNat gd = .ok true) (h : body s = .ok t) :
    instruction len bl dst regs gd body s = .ok (advance len t) := by
  have h1 : (!(decide (bl ≠ 0) && s.core.rg.sup)) = true := by
    cases hs : s.core.rg.sup <;> simp_all
  rw [instruction, h1, need_true, ok_bind, checkRegs_ok hr, ok_bind]
  rw [boosted_ok (t := t) (by rw [hg, ok_bind, if_pos rfl, h]), ok_bind]

/-- A false guard leaves only the fall-through (R129). -/
theorem instruction_false {len : Nat} {bl : BitVec 2} {dst : ShadowDst} {regs : List Reg} {gd : Guard}
    {body : State → R State} {s : State} (hb : s.core.rg.sup = true → bl = 0)
    (hr : s.core.rg.sup = true ∨ regs.all (regDeclared s.core.decl) = true)
    (hg : guardHolds s bl.toNat gd = .ok false) :
    instruction len bl dst regs gd body s = .ok (advance len s) := by
  have h1 : (!(decide (bl ≠ 0) && s.core.rg.sup)) = true := by
    cases hs : s.core.rg.sup <;> simp_all
  rw [instruction, h1, need_true, ok_bind, checkRegs_ok hr, ok_bind]
  rw [boosted_ok (t := s) (by rw [hg, ok_bind, if_neg (by decide)]), ok_bind]

/-- A register outside the declaration stops an instruction of user code before anything changes (R49, R127). -/
theorem instruction_regs {len : Nat} {bl : BitVec 2} {dst : ShadowDst} {regs : List Reg} {gd : Guard}
    {body : State → R State} {s : State} (hs : s.core.rg.sup = false)
    (hr : regs.all (regDeclared s.core.decl) = false) :
    instruction len bl dst regs gd body s = raise cIllegalReg (zext64 s.pc) := by
  rw [instruction, hs]
  simp [checkRegs_no hs hr]

/-- An instruction that is neither guarded nor boosted. -/
theorem plain_ok {len : Nat} {regs : List Reg} {body : State → R State} {s t : State}
    (hr : s.core.rg.sup = true ∨ regs.all (regDeclared s.core.decl) = true) (h : body s = .ok t) :
    plain len regs body s = .ok (advance len t) :=
  instruction_true (fun _ => rfl) hr (guardHolds_plain s _) h

/-- A body that waits or faults without a boost level does so as a whole. -/
theorem plain_error {len : Nat} {regs : List Reg} {body : State → R State} {s : State} {e : Stop}
    (hr : s.core.rg.sup = true ∨ regs.all (regDeclared s.core.decl) = true) (h : body s = .error e) :
    plain len regs body s = .error e := by
  rw [plain, instruction]
  have h1 : (!(decide ((0 : BitVec 2) ≠ 0) && s.core.rg.sup)) = true := by simp
  rw [h1, need_true, ok_bind, checkRegs_ok hr, ok_bind]
  rw [boosted, if_pos rfl, guardHolds_plain, ok_bind, if_pos rfl, h, error_bind]

/-! ### Traps -/

/-- What taking a trap in user mode leaves in the saved registers, and where it goes (R401, R206). -/
theorem takeTrap_user {t : TrapInfo} {s : State} (h : s.core.rg.sup = false) :
    let u := (takeTrap t s).core
    u.rg.sup = true ∧ u.rg.pc = s.core.sys.trapvec.setWidth 16 ∧
    u.sys.trapcause = trapCauseWord t ∧ u.sys.trapaddr = t.addr ∧
    u.sys.trappc = (match t.ret with
      | some a => BitVec.ofNat 64 a
      | none => zext64 s.pc) ∧
    u.rg.g = s.core.rg.g ∧ u.rg.k = s.core.rg.k ∧ u.rg.loops = s.core.rg.loops ∧ u.rg.boost = s.core.rg.boost := by
  cases hr : t.ret <;> simp [takeTrap, h, hr, State.updSys, State.updRg, State.core_upd]

/-! ### Barriers -/

/-- An arrival at an initialised barrier that neither overflows nor carries an error adds its count (R182). -/
theorem arrive_clean {c : CoreId} {b : BitVec 6} {inc : Nat} {status : Byte} {source : Nat} {s : State} {x : Barrier}
    (hx : vget b (s.coreAt c).bars = x) (hi : x.init = true) (hn : x.arrived.toNat + inc ≤ 65535) :
    arrive c b inc false status source s = some (s.updCore c fun k =>
      { k with bars := vset b { x with arrived := BitVec.ofNat 16 (x.arrived.toNat + inc) } k.bars }) := by
  simp [arrive, hx, hi, Nat.not_lt.mpr hn]

end Sys2Proof.Machine
end

