-- ==== Sys2Proof/Laws/Homes.lean ====
section
/-!
SUPPORT. One lemma per shared operation at a home and of the units beside it: write-back and recall of window granules, the
directories' and the LLC's plain cases, releases, the pool agent's filter, holds, a conditional's predicate, a gang's start.
-/
namespace Sys2Proof.Machine

/-! ### Window granules (R54, R59 to R62, R432) -/

@[simp] theorem granWriteBack_clean {g : Gran} (h : g.dirty = 0) (s : State) : granWriteBack g s = s := by
  simp [granWriteBack, h]

/-- A dirty granule whose home may not take it loses its bytes: the holder's WERR alone changes (R54, R94, R436). -/
theorem granWriteBack_barred {g : Gran} {s : State} (hd : g.dirty ≠ 0) (h : granBarred g s = true) :
    granWriteBack g s = setWerr g.core (BitVec.ofNat 64 g.va) s := by
  unfold granWriteBack
  rw [if_neg hd, if_pos h]

/-- Nothing stays from a step to the next where no granule served one access only and no request was crossed. -/
@[simp] theorem dropTransient_none {s : State} (h : s.grans.any (·.transient) = false) (hu : s.pool.used = []) :
    dropTransient s = s := by
  simp [dropTransient, endUses, h, hu]

/-- Where every granule stays, so does every entry of a directory. -/
theorem keepGrans_all {keep : Gran → Bool} {s : State} (h : ∀ g ∈ s.grans, keep g = true) : keepGrans keep s = s := by
  have : s.grans.all keep = true := by simpa using h
  simp [keepGrans, this]

/-- Only granules that meet the condition stay. -/
theorem keepGrans_keeps {keep : Gran → Bool} {s : State} : ∀ g ∈ (keepGrans keep s).grans, keep g = true := by
  intro g hg
  unfold keepGrans at hg
  split at hg
  · rename_i h
    exact List.all_eq_true.mp h g hg
  · exact (List.mem_filter.mp hg).2

/-- A recall for read of a block that no holder has changed does nothing. -/
theorem recallRead_clean {b : Loc} {s : State} (h : ∀ g ∈ s.grans, granConflict s b g = true → g.dirty = 0) :
    recallRead b s = s := by
  have hit (g : Gran) (hg : g ∈ s.grans) : (granConflict s b g && decide (g.dirty ≠ 0)) = false := by
    cases hc : granConflict s b g with
    | false => rfl
    | true => simp [h g hg hc]
  have h0 : (s.grans.filter fun g => granConflict s b g && decide (g.dirty ≠ 0)) = [] := by
    rw [List.filter_eq_nil_iff]
    intro g hg
    simp only [hit g hg]
    exact Bool.false_ne_true
  have h2 : (s.grans.map fun g => if (granConflict s b g && decide (g.dirty ≠ 0)) = true then { g with dirty := 0 } else g) = s.grans := by
    refine (List.map_congr_left fun g hg => ?_).trans (List.map_id _)
    simp only [hit g hg]
    rfl
  unfold recallRead
  simp only [h0, List.foldl_nil]
  rw [keepGrans_all fun g hg => by rw [hit g hg]; rfl]
  simp only [h2]

/-- A directory with room takes the granule, and the range that it begins as one entry. -/
theorem dirAdd_room {g : Gran} {e : DirRange} {s : State} (h : s.grans.length < 16384) :
    dirAdd g e s = { s with grans := g :: s.grans, dir := if !s.dir.any (fun x => x.covers g) then s.dir ++ [e] else s.dir } := by
  have : (g :: s.grans).length ≤ 16384 := by simpa using h
  simp only [dirAdd, if_pos this]

/-- Fewer granules than a directory has entries leave every entry a range entry. -/
theorem coarse_few {e : DirRange} {s : State} (h : s.grans.length ≤ 16384) : e.coarse s = false := by
  simp [DirRange.coarse, Nat.not_lt.mpr h]

/-- No set of the LLC is full where it holds fewer lines than a set has ways (R1). -/
theorem llcRoom_room {x : Loc} {s : State} (h : s.llc.length + s.llcTags.length < 16) : llcRoom x s = s := by
  simp [llcRoom, h]

/-! ### The pool agent's filter (R431, R432) -/

/-- A request that a back-invalidation crossed holds no line; the crossing is over after its step. -/
theorem filterNote_crossed {p : BitVec 2} {line : Nat} {s : State} (h : s.pool.crossed.contains (p, line) = true) :
    filterNote p line s = { s with pool := { s.pool with used := (p, line) :: s.pool.used } } := by
  simp only [filterNote, h, if_true]

/-- A line held stays held. -/
theorem filterNote_held {p : BitVec 2} {line : Nat} {s : State} (hc : s.pool.crossed.contains (p, line) = false)
    (h : s.pool.filter.contains (p, line) = true) : filterNote p line s = s := by
  simp only [filterNote, filterAdd, hc, h, if_true, if_false, Bool.false_eq_true]

/-! ### Releases (R78, R79, R92) -/

/-- In gathered-count mode a release orders issue only. -/
theorem releaseAt_gathering {sc : Scope} {c : CoreId} {s : State} (h : gathering (s.coreAt c) = true) : releaseAt sc c s = s := by
  simp [releaseAt, h]

/-- Only a core that reads a HOST page performs its HOST stores first. -/
theorem hostOrder_other {c : CoreId} {r : Region} (h : r ≠ .host) (s : State) : hostOrder c r s = s := by
  simp [hostOrder, h]

/-! ### Fetching (R50) -/

/-- Below 0xE000 the units are those of the core's control memory. -/
theorem controlUnit_user {k : Core} {a : Nat} (h : a < 0xE000) : controlUnit k a = k.cmem.u32 a := by
  have : decide (0xE000 ≤ a) = false := decide_eq_false (by omega)
  simp [controlUnit, this]

/-! ### The scheduler (R389, R390, R404, R409) -/

/-- Noting the holds that are due changes the list of holds alone, and ends none. -/
theorem noteHolds_frame (s : State) :
    noteHolds s = { s with sched := { s.sched with holds := (noteHolds s).sched.holds } } ∧
    ∀ i ∈ s.sched.holds, i ∈ (noteHolds s).sched.holds := by
  unfold noteHolds
  split
  · exact ⟨rfl, fun _ h => h⟩
  · exact ⟨rfl, fun _ h => List.mem_append_left _ h⟩

@[simp] theorem readPredicate_other {n : Node} (h : n.desc.kind ≠ 2) (s : State) : readPredicate n s = s := by
  simp [readPredicate, h]

/-- A gang with no fault for a finished member starts; such a fault kills it (R402, R406). -/
theorem startGang_starts {g h : Gang} {s : State} (hf : findGang s g.num = some h) (hp : fatalPending h = none) :
    startGang g s = startMembers h s := by
  simp only [startGang, hf, hp]

theorem startGang_killed {g h : Gang} {s : State} {c : CoreId} {f : EngFault} (hf : findGang s g.num = some h)
    (hp : fatalPending h = some (c, f)) : startGang g s = killGang h f.cause c.val s := by
  simp only [startGang, hf, hp]

/-! ### The matrix engine (R265, R266) -/

/-- No stamp holds a word of a core into which a stop token has gone. -/
theorem stampGate_stopped {e : MEntry} {s : State} (h : s.core.rg.status = .stopped) : stampGate e s = .go := by
  simp [stampGate, h]

end Sys2Proof.Machine
end

