-- ==== Sys2Proof/Laws/Memory.lean ====
section
/-!
SUPPORT. Byte memories: reading back what was written, what a write leaves alone, and that every operation keeps the canonical
form.
-/
namespace Sys2Proof.Machine

/-! ### Keyed maps -/

/-- The keys of a canonical map rise and no entry is the default. -/
theorem kwf_iff {α : Type} [DecidableEq α] (d : α) : ∀ m : KMap α,
    kwf d m = true ↔ (m.Pairwise fun x y => x.1 < y.1) ∧ ∀ x ∈ m, x.2 ≠ d
  | [] => by simp [kwf]
  | [(k, v)] => by simp [kwf]
  | (k, v) :: (k', v') :: m => by
    have ih := kwf_iff d ((k', v') :: m)
    simp only [kwf, Bool.and_eq_true, decide_eq_true_eq, ih, List.pairwise_cons, List.mem_cons, forall_eq_or_imp]
    constructor
    · rintro ⟨⟨h, hv⟩, ⟨hp, hm⟩, h1, h2⟩
      exact ⟨⟨⟨h, fun x hx => lt_trans h (hp x hx)⟩, hp, hm⟩, hv, h1, h2⟩
    · rintro ⟨⟨⟨h, -⟩, hp, hm⟩, hv, h1, h2⟩
      exact ⟨⟨h, hv⟩, ⟨hp, hm⟩, h1, h2⟩

/-- The entries after a put are the new one and old ones with other keys. -/
theorem mem_kput {α : Type} {m : KMap α} {k : Nat} {v : α} {x : Nat × α} (h : x ∈ kput m k v) :
    x = (k, v) ∨ x ∈ m := by
  induction m with
  | nil => simpa [kput] using h
  | cons y m ih =>
    obtain ⟨k', v'⟩ := y
    simp only [kput] at h
    split at h
    · simpa using h
    · split at h
      · simp only [List.mem_cons] at h ⊢
        tauto
      · simp only [List.mem_cons] at h ⊢
        rcases h with h | h
        · tauto
        · rcases ih h with h | h <;> tauto

/-- Putting an entry that is not the default keeps the canonical form. -/
theorem kwf_kput {α : Type} [DecidableEq α] {d : α} {m : KMap α} (h : kwf d m = true) {k : Nat} {v : α} (hv : v ≠ d) :
    kwf d (kput m k v) = true := by
  rw [kwf_iff] at h ⊢
  obtain ⟨hp, hd⟩ := h
  refine ⟨?_, fun x hx => ?_⟩
  · clear hd hv
    induction m with
    | nil => simp [kput]
    | cons y m ih =>
      obtain ⟨k', v'⟩ := y
      rw [List.pairwise_cons] at hp
      simp only [kput]
      split
      · rename_i hlt
        refine List.pairwise_cons.2 ⟨?_, List.pairwise_cons.2 hp⟩
        intro x hx
        rcases List.mem_cons.1 hx with rfl | hx
        · exact hlt
        · exact lt_trans hlt (hp.1 x hx)
      · split
        · rename_i heq
          subst heq
          exact List.pairwise_cons.2 hp
        · refine List.pairwise_cons.2 ⟨fun x hx => ?_, ih hp.2⟩
          rcases mem_kput hx with rfl | hx
          · simp only
            omega
          · exact hp.1 x hx
  · rcases mem_kput hx with rfl | hx
    · exact hv
    · exact hd x hx

/-- The entries after a removal are old ones. -/
theorem kdel_sublist {α : Type} (m : KMap α) (k : Nat) : (kdel m k).Sublist m := by
  induction m with
  | nil => simp [kdel]
  | cons y m ih =>
    simp only [kdel]
    split
    · exact List.sublist_cons_self y m
    · exact ih.cons_cons y

/-- Removing an entry keeps the canonical form. -/
theorem kwf_kdel {α : Type} [DecidableEq α] {d : α} {m : KMap α} (h : kwf d m = true) (k : Nat) :
    kwf d (kdel m k) = true := by
  rw [kwf_iff] at h ⊢
  exact ⟨h.1.sublist (kdel_sublist m k), fun x hx => h.2 x ((kdel_sublist m k).subset hx)⟩

/-- Setting a key keeps the canonical form. -/
theorem kwf_kset {α : Type} [DecidableEq α] {d : α} {m : KMap α} (h : kwf d m = true) (k : Nat) (v : α) :
    kwf d (kset d m k v) = true := by
  unfold kset
  split
  · exact kwf_kdel h k
  · exact kwf_kput h ‹_›

/-- Filtering keeps the canonical form. -/
theorem kwf_filter {α : Type} [DecidableEq α] {d : α} {m : KMap α} (h : kwf d m = true) (p : Nat × α → Bool) :
    kwf d (m.filter p) = true := by
  rw [kwf_iff] at h ⊢
  exact ⟨h.1.sublist List.filter_sublist, fun x hx => h.2 x (List.mem_of_mem_filter hx)⟩

/-- Reading a key after a put. -/
theorem kget_kput {α : Type} (d : α) (m : KMap α) (k : Nat) (v : α) (j : Nat) :
    kget d (kput m k v) j = if k = j then v else kget d m j := by
  induction m with
  | nil => simp [kput, kget]
  | cons y m ih =>
    obtain ⟨k', v'⟩ := y
    simp only [kput]
    split
    · simp [kget]
    · split
      · rename_i h
        subst h
        simp only [kget]
        split <;> rfl
      · simp only [kget, ih]
        split
        · rename_i h1 h2 h3
          rw [if_neg (by omega)]
        · rfl

/-- Reading a key after a removal. -/
theorem kget_kdel {α : Type} [DecidableEq α] {d : α} {m : KMap α} (h : kwf d m = true) (k j : Nat) :
    kget d (kdel m k) j = if k = j then d else kget d m j := by
  rw [kwf_iff] at h
  replace h := h.1
  induction m with
  | nil => simp [kdel, kget]
  | cons y m ih =>
    obtain ⟨k', v'⟩ := y
    rw [List.pairwise_cons] at h
    have miss : ∀ (l : KMap α), (∀ x ∈ l, k' < x.1) → kget d l k' = d := by
      intro l hl
      induction l with
      | nil => rfl
      | cons z l ihl =>
        obtain ⟨a, b⟩ := z
        have := hl (a, b) (by simp)
        simp only [kget]
        rw [if_neg (by simp only at this; omega), ihl fun x hx => hl x (by simp [hx])]
    simp only [kdel]
    split
    · rename_i hk
      subst hk
      simp only [kget]
      split
      · rename_i hj
        subst hj
        exact miss m h.1
      · rfl
    · rename_i hk
      simp only [kget, ih h.2]
      split
      · rename_i hj
        subst hj
        rw [if_neg hk]
      · rfl

/-- Reading a key after it or another is set. -/
theorem kget_kset {α : Type} [DecidableEq α] {d : α} {m : KMap α} (h : kwf d m = true) (k : Nat) (v : α) (j : Nat) :
    kget d (kset d m k v) j = if k = j then v else kget d m j := by
  unfold kset
  split
  · rename_i hv
    subst hv
    exact kget_kdel h k j
  · exact kget_kput d m k v j

/-! ### Rising lists -/

/-- A rising list in the library's terms. -/
theorem rising_iff : ∀ l : List Nat, rising l = true ↔ l.Pairwise (· < ·)
  | [] => by simp [rising]
  | [a] => by simp [rising]
  | a :: b :: l => by
    have ih := rising_iff (b :: l)
    simp only [rising, Bool.and_eq_true, decide_eq_true_eq, ih, List.pairwise_cons, List.mem_cons, forall_eq_or_imp]
    constructor
    · rintro ⟨h, hb, hl⟩
      exact ⟨⟨h, fun x hx => lt_trans h (hb x hx)⟩, hb, hl⟩
    · rintro ⟨⟨h, -⟩, hb, hl⟩
      exact ⟨h, hb, hl⟩

/-- The members after an insertion. -/
theorem mem_ninsert {n x : Nat} {l : List Nat} : x ∈ ninsert n l ↔ x = n ∨ x ∈ l := by
  induction l with
  | nil => simp [ninsert]
  | cons y l ih =>
    simp only [ninsert]
    split
    · simp
    · split
      · rename_i h
        subst h
        simp
      · simp only [List.mem_cons, ih]
        tauto

/-- An insertion keeps a list rising. -/
theorem rising_ninsert {l : List Nat} (h : rising l = true) (n : Nat) : rising (ninsert n l) = true := by
  rw [rising_iff] at h ⊢
  induction l with
  | nil => simp [ninsert]
  | cons y l ih =>
    rw [List.pairwise_cons] at h
    simp only [ninsert]
    split
    · rename_i hlt
      refine List.pairwise_cons.2 ⟨fun x hx => ?_, List.pairwise_cons.2 h⟩
      rcases List.mem_cons.1 hx with rfl | hx
      · exact hlt
      · exact lt_trans hlt (h.1 x hx)
    · split
      · exact List.pairwise_cons.2 h
      · refine List.pairwise_cons.2 ⟨fun x hx => ?_, ih h.2⟩
        rcases mem_ninsert.1 hx with rfl | hx
        · omega
        · exact h.1 x hx

/-- Filtering keeps a list rising. -/
theorem rising_filter {l : List Nat} (h : rising l = true) (p : Nat → Bool) : rising (l.filter p) = true := by
  rw [rising_iff] at h ⊢
  exact h.sublist List.filter_sublist

/-! ### Byte memories -/

/-- Writing bytes keeps the cells canonical. -/
theorem kwf_cellsWrite (bs : List Byte) : ∀ (cs : List Host.Cell) (a : Nat),
    kwf unsetByte cs = true → kwf unsetByte (cellsWrite cs a bs) = true := by
  induction bs with
  | nil => exact fun _ _ h => h
  | cons b bs ih => exact fun cs a h => ih _ _ (kwf_kset h a b)

/-- Marking poison keeps the granules rising. -/
theorem rising_badAfter {bad : List Nat} (h : rising bad = true) (a n : Nat) (p : Bool) :
    rising (badAfter bad a n p) = true := by
  unfold badAfter
  generalize granulesOf a n = gs
  induction gs generalizing bad with
  | nil => exact h
  | cons g gs ih =>
    refine ih ?_
    split
    · exact rising_ninsert h g
    · beta_reduce
      split
      · exact rising_filter h _
      · exact h

/-- An empty memory is canonical. -/
@[simp] theorem Mem.wf_empty : Mem.empty.wf = true := rfl

/-- A write keeps the canonical form. -/
theorem Mem.wf_write {m : Mem} (h : m.wf = true) (a : Nat) (bs : List Byte) (p : Bool) : (m.write a bs p).wf = true := by
  simp only [Mem.wf, Bool.and_eq_true] at h ⊢
  exact ⟨kwf_cellsWrite bs _ _ h.1, rising_badAfter h.2 a bs.length p⟩

/-- Poisoning a granule keeps the canonical form. -/
theorem Mem.wf_poison {m : Mem} (h : m.wf = true) (g : Nat) : (Mem.wf { m with bad := ninsert g m.bad }) = true := by
  simp only [Mem.wf, Bool.and_eq_true] at h ⊢
  exact ⟨h.1, rising_ninsert h.2 g⟩

/-- Dropping cells and granules keeps the canonical form. -/
theorem Mem.wf_filter {m : Mem} (h : m.wf = true) (p : Host.Cell → Bool) (q : Nat → Bool) :
    (Mem.wf ⟨m.cells.filter p, m.bad.filter q⟩) = true := by
  simp only [Mem.wf, Bool.and_eq_true] at h ⊢
  exact ⟨kwf_filter h.1 p, rising_filter h.2 q⟩

/-- A byte after a write: the byte written there, or the byte before. -/
theorem kget_cellsWrite (bs : List Byte) : ∀ (cs : List Host.Cell) (a j : Nat), kwf unsetByte cs = true →
    kget unsetByte (cellsWrite cs a bs) j =
      if a ≤ j ∧ j < a + bs.length then bs.getD (j - a) unsetByte else kget unsetByte cs j := by
  induction bs with
  | nil =>
    intro cs a j _
    rw [if_neg (by simp only [List.length_nil]; omega)]
    rfl
  | cons b bs ih =>
    intro cs a j h
    simp only [cellsWrite, List.length_cons]
    rw [ih _ _ _ (kwf_kset h a b), kget_kset h]
    by_cases h1 : a = j
    · subst h1
      rw [if_neg (by omega), if_pos rfl, if_pos (by omega)]
      simp
    · by_cases h2 : a + 1 ≤ j ∧ j < a + 1 + bs.length
      · rw [if_pos h2, if_pos (by omega)]
        obtain ⟨n, rfl⟩ : ∃ n, j = a + 1 + n := ⟨j - (a + 1), by omega⟩
        have e1 : a + 1 + n - (a + 1) = n := by omega
        have e2 : a + 1 + n - a = n + 1 := by omega
        rw [e1, e2]
        simp
      · rw [if_neg h2, if_neg h1, if_neg (by omega)]

/-- A byte after a write. -/
theorem Mem.byte_write {m : Mem} (h : m.wf = true) (a : Nat) (bs : List Byte) (p : Bool) (j : Nat) :
    (m.write a bs p).byte j = if a ≤ j ∧ j < a + bs.length then bs.getD (j - a) unsetByte else m.byte j := by
  simp only [Mem.wf, Bool.and_eq_true] at h
  exact kget_cellsWrite bs m.cells a j h.1

/-- A byte outside the written range is as before. -/
theorem Mem.byte_write_outside {m : Mem} (h : m.wf = true) (a : Nat) (bs : List Byte) (p : Bool) {j : Nat}
    (hj : j < a ∨ a + bs.length ≤ j) : (m.write a bs p).byte j = m.byte j := by
  rw [Mem.byte_write h, if_neg (by omega)]

/-- The bytes just written read back. -/
theorem Mem.bytes_write {m : Mem} (h : m.wf = true) (a : Nat) (bs : List Byte) (p : Bool) :
    (m.write a bs p).bytes a bs.length = bs := by
  apply List.ext_getElem
  · simp [Mem.bytes]
  · intro i h1 h2
    simp only [Mem.bytes, List.getElem_map, List.getElem_range]
    rw [Mem.byte_write h, if_pos ⟨by omega, by omega⟩]
    simp [h2]

/-! ### Values and bytes (R6) -/

@[simp] theorem leBytes_length (n v : Nat) : (leBytes n v).length = n := by
  induction n generalizing v with
  | zero => rfl
  | succ n ih => simp [leBytes, ih]

/-- The value of the low bytes of a number. -/
theorem leVal_leBytes (n v : Nat) : leVal (leBytes n v) = v % 256 ^ n := by
  induction n generalizing v with
  | zero => simp [leBytes, leVal, Nat.mod_one]
  | succ n ih =>
    have h : v % 256 ^ (n + 1) = v % 256 + 256 * (v / 256 % 256 ^ n) := by
      rw [pow_succ']
      exact Nat.mod_mul
    rw [leBytes, leVal, ih, BitVec.toNat_ofNat, h]

/-! ### The memories of a state -/

/-- The memory of a space after an update of a space. -/
theorem State.mem_updMem (s : State) (sp tp : Space) (f : Mem → Mem) :
    (s.updMem sp f).mem tp = if tp = sp then f (s.mem sp) else s.mem tp := by
  cases sp <;> cases tp <;> simp [State.updMem, State.mem]
  · rename_i p q
    by_cases h : q = p
    · subst h
      simp [vget, vset]
    · have : p.toNat ≠ q.toNat := fun e => h (BitVec.eq_of_toNat_eq e.symm)
      simp [vget, vset, Vector.getElem_set_ne, h, this]

/-- An update of a space that keeps its form keeps the form of every space. -/
theorem State.wf_updMem {s : State} (h : ∀ sp, (s.mem sp).wf = true) (sp : Space) {f : Mem → Mem}
    (hf : ∀ m : Mem, m.wf = true → (f m).wf = true) (tp : Space) : ((s.updMem sp f).mem tp).wf = true := by
  rw [State.mem_updMem]
  split
  · exact hf _ (h sp)
  · exact h tp

/-- Reset lists nothing in any memory, so every memory has its form. -/
theorem State.wf_reset (sp : Space) : (State.reset.mem sp).wf = true := by
  cases sp with
  | hbm => rfl
  | host => rfl
  | pool p => simp [State.mem, State.reset, Pool.reset, vget]

end Sys2Proof.Machine
end

