-- ==== Sys2Proof/Tests/Slice0.lean ====
section
/-!
SUPPORT. Tests. Expected results come from the spec: its encoding tables, its formulas worked by hand, or its sentences. A
theorem named witness_<statement> shows, clause by clause, a state and operands that meet the hypotheses of that statement.
-/
namespace Sys2Proof.Tests
open Sys2Proof Sys2Proof.Machine

-- one theorem at a time: each evaluation in a thread of its own would hold its own stack
set_option Elab.async false

/-! ### States for the tests -/

/-- The outcome is a next state with a property. -/
def after (o : Host.Outcome State Fault Refusal) (p : State → Bool) : Bool :=
  match o with
  | .next t => p t
  | _ => false

/-- Core `c` is the current core, changed by `f`. -/
def onCore (c : CoreId) (f : Core → Core) : State := { State.reset.updCore c f with focus := ⟨c, .vlq, (0, 0), 0, 0, 0⟩ }

/-- An image's declarations for the tests: 32 registers, 8 barriers, 4,096 bytes of scratchpad. -/
def testDecl : Decl := { Decl.none with stash := 4096, barriers := 8, mboxes := 2 }

/-- A running core in user mode at PC 0x100 with the test declarations. -/
def running (f : SeqRegs → SeqRegs) (k : Core) : Core :=
  { k with decl := testDecl, rg := f { k.rg with status := .running, pc := 0x100 } }

/-- A running M core, core 0. -/
def user (f : SeqRegs → SeqRegs) : State := onCore 0 (running f)

/-- The same in supervisor mode. -/
def super (f : SeqRegs → SeqRegs) : State := onCore 0 (running fun r => f { r with sup := true })

/-- A running S core, core 8. -/
def userS (f : SeqRegs → SeqRegs) : State := onCore 8 (running f)

/-- Registers g1 to g3. -/
def g123 (a b c : Word) (r : SeqRegs) : SeqRegs :=
  { r with g := vset (1 : Reg) ⟨a, false⟩ (vset (2 : Reg) ⟨b, false⟩ (vset (3 : Reg) ⟨c, false⟩ r.g)) }

/-- Registers g1 to g3 with g1 poisoned. -/
def poisoned1 (a : Word) (r : SeqRegs) : SeqRegs := { r with g := vset (1 : Reg) ⟨a, true⟩ r.g }

/-- Predicate k1. -/
def pred1 (v bad : Bool) (r : SeqRegs) : SeqRegs := { r with k := vset (1 : BitVec 3) ⟨v, bad⟩ r.k }

/-- A guard that holds always, and one on k1. -/
def gt : Guard := ⟨0, false⟩
def g1 : Guard := ⟨1, false⟩

/-! ### Ill-formed terms are refused (R131 to R134, R145, R153, R171, R190, R203) -/

theorem test_unary_takes_no_rb : (Instr.alu .clz gt 1 2 3).wellFormed = false ∧ (Instr.alux .ctz gt 0 1 2 3).wellFormed = false ∧
    (Instr.alu .popc gt 0 2 3).wellFormed = true := ⟨rfl, rfl, rfl⟩
theorem test_run_count_once : (Instr.vrun 1 1 0).wellFormed = false ∧ (Instr.mrun 1 1 0).wellFormed = false ∧
    (Instr.xrun 1 1 0).wellFormed = false ∧ (Instr.vrun 0 1 0).wellFormed = true := ⟨rfl, rfl, rfl, rfl⟩
theorem test_put_suboperation : (Instr.put .pix 5 false false 0 0).wellFormed = false ∧
    (Instr.put .ume 5 false false 0 0).wellFormed = false ∧ (Instr.put .sampler 1 false false 0 0).wellFormed = false ∧
    (Instr.put .fe 3 false false 0 0).wellFormed = false ∧ (Instr.put .fe 2 false false 0 0).wellFormed = true :=
  ⟨rfl, rfl, rfl, rfl, rfl⟩
theorem test_fencem_fields : (Instr.fencem 0 true .core).wellFormed = false ∧ (Instr.fencem 1 false .device).wellFormed = false ∧
    (Instr.fencem 1 true .device).wellFormed = true := ⟨rfl, rfl, rfl⟩
theorem test_bar_arrive_fields : (Instr.barArrive 0 false 1).wellFormed = false ∧
    (Instr.barArriver 0 false 1 2).wellFormed = false ∧ (Instr.barArrive 0 true 1).wellFormed = true := ⟨rfl, rfl, rfl⟩
theorem test_mbx_recv_two_registers : (Instr.mbxRecv 0 3 3).wellFormed = false ∧ (Instr.mbxRecv 0 0 0).wellFormed = true :=
  ⟨rfl, rfl⟩
theorem test_ldx_fields : (Instr.ldx .b false .device gt 0 0 0 0 1).wellFormed = false ∧
    (Instr.ldx .b true .device gt 1 0 0 0 1).wellFormed = false ∧ (Instr.ldx .b true .device gt 0 0 0 0 1).wellFormed = true :=
  ⟨rfl, rfl, rfl⟩
theorem test_stx_fields : (Instr.stx .b false .pool gt 0 0 0 1).wellFormed = false ∧
    (Instr.stx .b true .pool gt 0 0 0 1).wellFormed = true := ⟨rfl, rfl⟩
theorem test_atom_fields : (Instr.atom .fadd true .plain .core gt 0 0 1 2 3).wellFormed = false ∧
    (Instr.atom .add false .plain .core gt 0 4 1 2 3).wellFormed = false ∧
    (Instr.atom .cas false .plain .core gt 0 4 1 2 3).wellFormed = true := ⟨rfl, rfl, rfl⟩
theorem test_ldstand_fields : (Instr.ldstand 0 false .device gt 0 0 0 1).wellFormed = false ∧
    (Instr.ldstand 0 true .device gt 0 0 0 1).wellFormed = true := ⟨rfl, rfl⟩
theorem test_bit_field_limits : (Instr.bfx false false 0 0 gt 0 0 1 2).wellFormed = false ∧
    (Instr.bfx false false 65 0 gt 0 0 1 2).wellFormed = false ∧ (Instr.bfx false false 8 57 gt 0 0 1 2).wellFormed = false ∧
    (Instr.bfx false true 8 1 gt 0 3 1 2).wellFormed = false ∧ (Instr.bfi false 8 0 gt 0 3 1 2).wellFormed = false ∧
    (Instr.bfi false 8 56 gt 0 0 1 2).wellFormed = true := ⟨rfl, rfl, rfl, rfl, rfl, rfl⟩
theorem test_fsh_amount_once : (Instr.fsh true true 1 gt 0 4 1 2 3).wellFormed = false ∧
    (Instr.fsh true false 1 gt 0 4 1 2 3).wellFormed = false ∧ (Instr.fsh true true 0 gt 0 4 1 2 3).wellFormed = true :=
  ⟨rfl, rfl, rfl⟩
theorem test_setmode_fields : (Instr.setmode 0 gt 0 0).wellFormed = false ∧ (Instr.setmode 1 gt 128 0).wellFormed = false ∧
    (Instr.setmode 1 gt 6 0).wellFormed = false ∧ (Instr.setmode 2 gt 1 0).wellFormed = false ∧
    (Instr.setmode 1 gt 8 0).wellFormed = false ∧ (Instr.setmode 1 gt 32 0).wellFormed = false ∧
    (Instr.setmode 1 gt 5 1).wellFormed = false ∧ (Instr.setmode 1 gt 5 0).wellFormed = true :=
  ⟨rfl, rfl, rfl, rfl, rfl, rfl, rfl, rfl⟩

/-! ### Words written out from the encoding tables (R128 to R142) -/

/-- ADDI g1, g2, -5: op6 0x02 page 0, rd 1, ra 2, imm14 0x3FFB. -/
theorem test_decode_addi : decodeControl 0xFFEC4108 0 0 = .ok (.addi (-5) 2 1) := by decide
/-- ALU ANDN with guard k4 negated: fn5 5, rb 3, ra 2, rd 1. -/
theorem test_decode_alu : decodeControl 0x2E0C4104 0 0 = .ok (.alu .andn ⟨4, true⟩ 3 2 1) := by decide
/-- LD.HS g7, [g9 - 4]: size code 5, offset -2. -/
theorem test_decode_ld : decodeControl 0xFFD52728 0 0 = .ok (.ld .hs (-2) 9 7) := by decide
/-- BR with hint 10 on k3 negated, -4 units. -/
theorem test_decode_br : decodeControl 0xFFFF2B30 0 0 = .ok (.br .taken ⟨3, true⟩ (-4)) := by decide
/-- A unit whose op6 has no row, and one with a reserved size code, are no instructions. -/
theorem test_decode_refuses : (decodeControl 0x000000FC 0 0).toOption = none ∧ (decodeControl 0x001C0028 0 0).toOption = none := by
  decide
/-- PIX.EVICT of tree 3 on page 1. -/
theorem test_decode_page1 : decodeControl 0x040C8501 0 0 = .ok (.pixEvict 3 false 4 5) := by decide
/-- ATOM.CAS, an X form of two units. -/
theorem test_decode_atom : decodeControl 0x0831040A 0x00089532 0 =
    .ok (.atom .cas false .acqRel .device ⟨2, false⟩ 8 4 3 2 1) := by decide
/-- CMPL, an L form of three units. -/
theorem test_decode_cmpl : decodeControl 0x4002D82F 0x00005001 0x89ABCDEF =
    .ok (.cmpl .tst ⟨1, false⟩ 1 0x89ABCDEF 5 .or 6) := by decide
/-- VMAD: op8 0x03 and every field of the 96 bits. -/
theorem test_decode_vmad : decodeVector 0x000000000F8211F7E8A35403 =
    .ok (.vmad ⟨3, ⟨7, 0, true, 1⟩, ⟨0, 31, false, 31⟩, ⟨5, 2, true, 3⟩, false, true, 1, 4⟩) := by decide
/-- MMA: every field of the 192 bits. -/
theorem test_decode_mma : decodeMatrix 0x00000007000001400000010000C000800030004021A69500 =
    .ok (.mma ⟨7, 0x140, 0x100, 0xC0, 0x80, 0x00300040, 33, true, false, true, false, false, true, 2, 9, 5⟩) := by decide
/-- SETAG of the transform sequencer, and ADDS with its immediate of the sampler. -/
theorem test_decode_units : decodeTransform 0x12349283 = .ok (.setag ⟨0x1234, 9, 1, 2⟩) ∧
    decodeSampler 0xFFFE8452 = .ok (.addsImmediate ⟨0xFFFE, true, 0, 2, 1⟩) := by decide
/-- A copy record of kind 0x05 is REDUCE, one of kind 0x0A none. -/
theorem test_decode_record :
    (copyInstr 2 { recFields 0 with ctl := 0x0000050000000000 }).toOption =
      some (.reduce 2 { recFields 0 with ctl := 0x0000050000000000 }) ∧
    (copyInstr 2 { recFields 0 with ctl := 0x00000A0000000000 }).toOption = none := by decide +kernel
/-- R126: the step after reset runs the word laid at the PC. -/
theorem test_fetch_runs : after (step (State.reset.withFetchWord 32 0xFFEC4108)) (fun t => t.g 1 == ⟨-5, false⟩ && t.pc == 4) = true := by
  decide +kernel

/-! ### One step of a few instructions, worked by hand -/

/-- R146: the sum wraps; the PC moves by 4. -/
theorem test_alu_add_wraps : after (exec (.alu .add gt 2 1 3) (user (g123 0xFFFFFFFFFFFFFFFF 2 0)))
    (fun t => t.g 3 == ⟨1, false⟩ && t.pc == 0x104) = true := by decide +kernel
/-- R146: MULH of -1 and 2 is -1; DIV by 0 is all ones; -7 rem 2 is -1. -/
theorem test_alu_signed : aluResult .mulh (-1) 2 = -1 ∧ aluResult .div 5 0 = -1 ∧ aluResult .rem (-7) 2 = -1 ∧
    aluResult .div (-7) 2 = -3 := by decide
/-- R152: LT is signed and LTU is not. -/
theorem test_cmp_signed : after (exec (.cmp .lt gt 2 1 .set 1) (user (g123 (-1) 1 0))) (fun t => t.k 1 == ⟨true, false⟩) = true ∧
    after (exec (.cmp .ltu gt 2 1 .set 1) (user (g123 (-1) 1 0))) (fun t => t.k 1 == ⟨false, false⟩) = true := by decide +kernel
/-- R129: a clean false guard leaves the destination. -/
theorem test_guard_false : after (exec (.alu .add g1 2 1 3) (user (g123 1 2 9))) (fun t => t.g 3 == ⟨9, false⟩ && t.pc == 0x104) = true := by
  decide +kernel
/-- R129: a poisoned guard traps to 0xE000 in supervisor mode with cause 0x20. -/
theorem test_guard_poisoned : after (exec (.alu .add g1 2 1 3) (user (pred1 true true)))
    (fun t => t.pc == 0xE000 && t.core.rg.sup && t.core.sys.trapcause == 0x20 && t.core.sys.trappc == 0x100) = true := by decide +kernel
/-- R155, R6: a store and a load of the same word, lowest byte first. -/
theorem test_store_bytes : after (exec (.st .w 1 1 2) (user (g123 0x40 0x11223344 0)))
    (fun t => t.core.stash.bytes 0x44 4 == [0x44, 0x33, 0x22, 0x11]) = true := by decide +kernel
theorem test_load_signed : after (exec (.ld .hs 0 1 3) (onCore 0 fun k =>
    { running (g123 0x40 0 0) k with stash := k.stash.write 0x40 [0x01, 0x80] false })) (fun t => t.g 3 == ⟨0xFFFFFFFFFFFF8001, false⟩) = true := by
  decide +kernel
/-- R157: a load that is not aligned takes ALIGN, one beyond the declared scratchpad STASH_BOUNDS. -/
theorem test_load_faults : after (exec (.ld .w 0 1 3) (user (g123 0x42 0 0))) (fun t => t.core.sys.trapcause == 0x04 && t.core.sys.trapaddr == 0x42) = true ∧
    after (exec (.ld .w 0 1 3) (user (g123 0x1000 0 0))) (fun t => t.core.sys.trapcause == 0x07) = true := by decide +kernel
/-- R191: a CAS that finds its comparand writes, and gives the old value. -/
theorem test_cas : after (exec (.atom .cas false .plain .core gt 0 3 2 1 4) (user (g123 0x40 7 0)))
    (fun t => t.g 4 == ⟨0, false⟩ && t.core.stash.bytes 0x40 4 == [7, 0, 0, 0]) = true := by decide +kernel
/-- R161: JL writes the address behind it to g31. -/
theorem test_jl : after (exec (.jl (-2)) (user id)) (fun t => t.pc == 0xF8 && t.g 31 == ⟨0x104, false⟩) = true := by decide +kernel
/-- R43, R163: a jump of user code to 0xE000 takes PRIV with the target in TRAPADDR. -/
theorem test_jump_priv : after (exec (.j 0x37C0) (user id)) (fun t => t.core.sys.trapcause == 0x03 && t.core.sys.trapaddr == 0xE000) = true := by
  decide +kernel
/-- R211: TRAP returns behind itself and carries its code. -/
theorem test_trap : after (exec (.trap 0x123) (user id))
    (fun t => t.core.sys.trappc == 0x104 && t.core.sys.trapcause == 0x1230009 && t.core.rg.sup) = true := by decide +kernel
/-- R210: ERET returns to TRAPPC in user mode; in user mode it takes PRIV. -/
theorem test_eret : after (exec .eret (onCore 0 fun k =>
    { running (fun r => { r with sup := true, pc := 0xE000 }) k with sys := { k.sys with trappc := 0x200 } }))
    (fun t => t.pc == 0x200 && !t.core.rg.sup) = true ∧
    after (exec .eret (user id)) (fun t => t.core.sys.trapcause == 0x03) = true := by decide +kernel
/-- R205: CORE_ID of core 8 is 8. -/
theorem test_sysr : after (exec (.sysr .coreId 3) (userS id)) (fun t => t.g 3 == ⟨8, false⟩) = true := by decide +kernel
/-- R182, R183: INIT with EXPECT 2, two arrivals, WAIT takes them and toggles PHASE. -/
theorem test_barrier : after (exec (.barWait 1 3) (onCore 0 fun k =>
    { running id k with bars := vset (1 : BitVec 6) ⟨0, 0, 0, 2, 3, false, false, true⟩ k.bars }))
    (fun t => vget (1 : BitVec 6) t.core.bars == ⟨0, 0, 0, 2, 1, false, true, true⟩ && t.pc == 0x104) = true := by decide +kernel
/-- R186: token 2 of an S core counts up. -/
theorem test_token : after (exec (.tokSig 2 1) (userS (g123 5 0 0))) (fun t => vget (2 : BitVec 3) t.core.xs.tk == 5) = true := by decide +kernel
/-- R153: 8 bits from bit 4, sign-extended. -/
theorem test_bfx : bfxResult true 8 4 0xF80 = 0xFFFFFFFFFFFFFFF8 ∧ bfiResult 8 4 0xAB 0xFFFFF = 0xFFABF := by decide

/-- R104, R105: 17/16 in E4M3 (type 3) is a tie, which goes to the even significand, 1.0. -/
theorem test_round_tie : (convertFloat 0 (.fin false 17 (-4)) false 3 .rne 0 false false).code = 0x38 := by decide +kernel

/-- R375: the first unit of the resident handler is its SYSW of SSCR0 from g26, and its entry runs it. -/
theorem test_resident_handler : (decodeControl (controlUnit { (super id).core with sup := .fitTrap } 0xE000) 0 0).toOption = some (.sysw .sscr0 26) ∧
    after (step { onCore 0 (fun k => { running (fun r => { r with sup := true, pc := 0xE000, g := vset (26 : Reg) ⟨5, false⟩ r.g }) k with sup := .fitTrap })
      with agenda := [.seq 0] }) (fun t => t.core.sys.sscr[0] == 5 && t.pc == 0xE004) = true := by decide +kernel

/-! ### Witnesses: hypotheses that are met -/

theorem witness_IntegerInstructions :
    (∃ o, regOp (.alu .add gt 2 1 3) = some o ∧ o.form.runs (user id) = true ∧ o.form.bl = 0) ∧
    (∃ o, regOp (.li gt 2 0xFFFFFFFF 3) = some o ∧ o.form.runs (user id) = true ∧ o.form.bl ≠ 0) ∧
    (∃ c, cmpOp (.cmpl .tst gt 0 1 1 .andn 3) = some c ∧ c.form.runs (user id) = true ∧ c.form.bl = 0) ∧
    (∃ c, cmpOp (.cmpx .eq gt 3 1 2 .set 0) = some c ∧ c.form.runs (user id) = true) ∧
    unlooped (user id) ∧ unlooped (super id) :=
  ⟨⟨_, rfl, by decide +kernel, rfl⟩, ⟨_, rfl, by decide +kernel, by decide⟩, ⟨_, rfl, by decide +kernel, rfl⟩,
   ⟨_, rfl, by decide +kernel⟩, .inr (by decide +kernel), .inl (by decide +kernel)⟩

/-- A user core with 3 declared registers. -/
def fewRegs : State := onCore 0 fun k => { running id k with decl := { testDecl with gregs := 3 } }

theorem witness_GuardsAndDeclaredRegisters :
    (∃ f, guardedForm (.alu .add g1 2 1 3) = some f ∧ f.skips (user id) = true) ∧
    (∃ f, guardedForm (.alu .add g1 2 1 3) = some f ∧ fewRegs.core.rg.sup = false ∧
      f.regs.all (regDeclared fewRegs.core.decl) = false) ∧
    (∃ f, guardedForm (.alu .add g1 2 1 3) = some f ∧ f.passes (user (pred1 true true)) = true ∧ f.bl = 0 ∧
      (f.pred (user (pred1 true true))).bad = true) :=
  ⟨⟨_, rfl, by decide +kernel⟩, ⟨_, rfl, by decide +kernel, by decide +kernel⟩, ⟨_, rfl, by decide +kernel, rfl, by decide +kernel⟩⟩

/-- Shift amounts 0 and 63, widths 1 and 64, positions 0 and 63 stand within the ranges. -/
theorem witness_IntegerOperations : 1 ≤ 1 ∧ 1 ≤ 64 ∧ 64 ≤ 64 ∧ 0 < 64 ∧ 63 < 64 ∧ (0x8000000000000000 : Word) ≠ 0 := by decide

theorem witness_RegisterWrites : unlooped (user id) ∧ unlooped (super id) ∧ ((2 : Reg) ≠ 0) :=
  ⟨.inr (by decide +kernel), .inl (by decide +kernel), by decide⟩

/-- A 1 GiB page of LOCAL memory at address 0, readable and writable (R410). -/
def leaf1G : Word := 0xC3

/-- Page tables in HBM: the root at 0x10000 points to 0x20000, whose first entry is the page. -/
def tables : Mem := (Mem.empty.write 0x10000 (leBytes 8 0x20001) false).write 0x20000 (leBytes 8 0xC3) false

/-- A region of one input and one output. -/
def testRegion : Region319 :=
  { begin_ := 0x200, end_ := 0x240, nin := 1, nout := 1, widths := [1], acts := [], flags := 0, batch := 1, lrexp := 0,
    sexp := 2, vsamp := 1, trip := 0, valt := 0, steps := 1, weights := none, ins := [1], outs := [2] }

/-- Gang 1 of cores 0 and 1: sampler context 5, UME context 6, PIX tree 0, two mailboxes. -/
def testGang : Gang :=
  { num := 1, node := 7, ctx := 0, members := [0, 1], cluster := 0, smp := [5], ume := [6], pixmask := 1, hostmb := false,
    stamped := false, image := 0, prio := 3, state := .running, slots := [], pending := [], start := 0, done := [], kept := [],
    mboxes := 2, arg := 0, retry := 0 }

/-- A device with the gang running in context 0, every feature accepted, page tables, and events 0 to 15. -/
def dev (f : SeqRegs → SeqRegs) (h : Core → Core) : State :=
  let d : Decl := { testDecl with regions := [testRegion] }
  let s := State.reset.updCore 0 fun k => h { running f k with gang := some 1, decl := d }
  let s := s.updCore 1 fun k => { running id k with gang := some 1, decl := d }
  let s := s.updCluster 0 fun k =>
    { k with mbox := (k.mbox.set 0 ⟨some (1, 0), [(5, false)]⟩).set 1 ⟨some (1, 1), []⟩ }
  { s with ident := { s.ident with drvacc := BitVec.allOnes 128 }, hbm := tables,
           ctxs := vset (0 : BitVec 6) ⟨0x10000, 0, 0, 15, 0, true, 0, 0, true⟩ s.ctxs,
           sched := { s.sched with run := true, gangs := [testGang] } }

/-- An operation succeeds with a property of what it gives. -/
def okWith {α : Type} (r : R α) (p : α → Bool) : Bool := match r with
  | .ok x => p x
  | _ => false

theorem witness_Loads :
    (∃ o, loadOp (.ld .hs 0 1 3) = some o ∧ o.form.runs (user (g123 0xFFE 0 0)) = true ∧
      cleanAt (user (g123 0xFFE 0 0)) o.form.bl.toNat o.bases ∧
      inScratch (user (g123 0xFFE 0 0)) (o.ea (user (g123 0xFFE 0 0))) (loadWidth o.sz) ∧
      markStalls (user (g123 0xFFE 0 0)) (user (g123 0xFFE 0 0)).me (o.ea (user (g123 0xFFE 0 0))).toNat (loadWidth o.sz) = false) ∧
    (∃ o, loadOp (.ldx .d false .core gt 1 8 2 1 3) = some o ∧ o.form.runs (dev (g123 0x100000 8 0) id) = true ∧
      cleanAt (dev (g123 0x100000 8 0) id) o.form.bl.toNat o.bases ∧
      inGlobal (dev (g123 0x100000 8 0) id) (o.ea (dev (g123 0x100000 8 0) id)) (loadWidth o.sz) ∧
      okWith (translate 0 0 0x100010 .read (dev (g123 0x100000 8 0) id)) (fun tx => decide (tx.2.region ≠ .host) &&
        decide (tx.2.region ≠ .hostWc) && !markStalls tx.1 0 0x100010 8) = true) := by
  refine ⟨⟨_, rfl, ?_⟩, ⟨_, rfl, ?_⟩⟩ <;> simp only [cleanAt, inScratch, inGlobal] <;> decide +kernel

theorem witness_Stores :
    (∃ o, storeOp (.stx .d true .gang gt 0 0 1 2) = some o ∧ o.form.runs (user (g123 0xFF8 9 0)) = true ∧
      cleanAt (user (g123 0xFF8 9 0)) 0 o.bases ∧ inScratch (user (g123 0xFF8 9 0)) (o.ea (user (g123 0xFF8 9 0))) (storeWidth o.sz) ∧
      (releaseStores 0 (user (g123 0xFF8 9 0))).core.decl = testDecl ∧
      (releaseStores 0 (user (g123 0xFF8 9 0))).core.stash.wf = true) ∧
    (∃ o, storeOp (.st .w 0 1 2) = some o ∧ o.form.runs (dev (g123 0x100000 9 0) id) = true ∧
      cleanAt (dev (g123 0x100000 9 0) id) 0 o.bases ∧
      inGlobal (dev (g123 0x100000 9 0) id) (o.ea (dev (g123 0x100000 9 0) id)) (storeWidth o.sz) ∧
      okWith (translate 0 0 0x100000 .write (dev (g123 0x100000 9 0) id)) (fun ux =>
        decide (((countIssued 0 ux.1).coreAt 0).stores.length < 64)) = true ∧ ((dev (g123 0x100000 9 0) id).g 2).bad = false) ∧
    (∃ p, (dev id fun k => { k with stores := [⟨⟨.hbm, 0x100000⟩, .lcl, false, 0x100000, [1, 2], false, 0, none, none⟩] }).core.stores[0]? =
      some p ∧ p.loc.space = .hbm ∧ p.region = .lcl) ∧
    (dev id id).grans = [] ∧ (dev id id).badBlocks = [] ∧ (dev id id).hbm.wf = true := by
  refine ⟨⟨_, rfl, ?_⟩, ⟨_, rfl, ?_⟩, ⟨⟨⟨.hbm, 0x100000⟩, .lcl, false, 0x100000, [1, 2], false, 0, none, none⟩, ?_⟩, ?_⟩ <;> (try simp only [cleanAt, inScratch, inGlobal]) <;> decide +kernel

theorem witness_Atomics :
    SeqForm.runs ⟨8, 0, [4, 1, 2, 3], gt⟩ (user (g123 0xFF8 5 6)) = true ∧ ((user (g123 0xFF8 5 6)).g 1).bad = false ∧
    inScratch (user (g123 0xFF8 5 6)) 0xFF8 8 ∧ winOfStash (user (g123 0xFF8 5 6)).core 0xFF8 = none ∧
    markStalls (user (g123 0xFF8 5 6)) 0 0xFF8 8 = false ∧ (Scope.device ≠ .pool ∧ Scope.device ≠ .system) := by
  unfold inScratch; decide +kernel

theorem witness_Jumps : targetOk (user id) 0xDFFC ∧ targetOk (super id) 0xFFFC ∧ targetOk (user id) 0 := by
  unfold targetOk; decide +kernel

theorem witness_Branches :
    (targetOk (user id) 0x100 ∧ ((user id).k 0).bad = false ∧ (super id).core.rg.sup = true) ∧
    ((plainForm 4 [1, 3]).passes (user (g123 0xDFFC 0 0)) = true ∧ targetOk (user (g123 0xDFFC 0 0)) 0xDFFC) ∧
    ((user (pred1 true true)).k 1).bad = true ∧
    (((user (pred1 true false)).k 1).val = true ∧ (0x100 : Int) + (-65 : BitVec 18).toInt * 4 < 0) ∧
    (0x10000 ≤ (0x100 : Int) + (0x3FC0 : BitVec 24).toInt * 4 ∧ 0xE000 ≤ (0x100 : Int) + (0x37C0 : BitVec 24).toInt * 4 ∧
      (0x100 : Int) + (0x37C0 : BitVec 24).toInt * 4 < 0x10000) ∧
    ((user (poisoned1 4)).g 1).bad = true ∧ ((user (g123 2 0 0)).g 1).val.toNat % 4 ≠ 0 ∧
    0x10000 ≤ ((user (g123 0x10000 0 0)).g 1).val.toNat ∧ 0xE000 ≤ ((user (g123 0xE000 0 0)).g 1).val.toNat := by
  unfold targetOk; decide +kernel

/-- A user core with a level-1 and a level-2 shadow of g4. -/
def boosted2 (r : SeqRegs) : SeqRegs :=
  { r with boost := [⟨1, .g 4, 9, false, none, 0x80⟩, ⟨2, .g 4, 8, false, none, 0x84⟩] }

/-- A user core with a deferred fault for g4. -/
def deferred1 (r : SeqRegs) : SeqRegs := { r with boost := [⟨1, .g 4, 9, false, some (cXlate, 0x123), 0x80⟩] }

theorem witness_BoostCommit : (user boosted2).core.rg.sup = false ∧ (user boosted2).core.rg.loops = [] ∧
    ((user boosted2).k 0).bad = false ∧ targetOk (user boosted2) 0x104 ∧
    (∀ x ∈ (user boosted2).core.rg.boost, x.lvl = 1 → x.fault = none) ∧
    ((user boosted2).core.rg.boost.all fun x => match x.dst with | .put _ => false | _ => true) = true := by
  unfold targetOk; decide +kernel

/-- The tables with a HOST page in place of the LOCAL one, and a device that maps it. -/
def hostTables : Mem := (Mem.empty.write 0x10000 (leBytes 8 0x20001) false).write 0x20000 (leBytes 8 0xE3) false
def hosting (f : SeqRegs → SeqRegs) : State := { dev f id with hbm := hostTables }

/-- A granule of window 0 of core 0: VA 1 MiB, in a class and owner tag of its own. -/
def gran0 (region : Region) (owner : Byte) (dirty : BitVec 64) : Gran :=
  { core := 0, win := 0, gran := 0x40, va := 0x100000, home := ⟨.hbm, 0x100000⟩, region := region, owner := owner, comp := false,
    rd := true, wr := true, transient := false, dirty := dirty }

/-- A window granule over a HOST page: no boosted load reads it (R40). -/
theorem witness_DeferredFaults_host :
    (SeqForm.runs ⟨8, 1, [3, 1, 2], gt⟩ (hosting (g123 0x100000 0 0)) = true ∧ cleanAt (hosting (g123 0x100000 0 0)) 1 [1, 2] ∧
      inGlobal (hosting (g123 0x100000 0 0)) 0x100000 8 ∧
      okWith (translate 0 0 0x100000 .read (hosting (g123 0x100000 0 0))) (fun tx => decide (tx.2.region = .host)) = true) ∧
    ((0x1000 : Nat) % loadWidth .d = 0 ∧ (0x1000 : Nat) < 0x100000 ∧ testDecl.stash ≤ 0x1000 ∧
      granFind { dev id id with grans := [gran0 .host 0 0] } 0 (0x1000 / 64) = some (gran0 .host 0 0)) := by
  unfold cleanAt inGlobal; decide +kernel

theorem witness_DeferredFaults :
    (SeqForm.runs ⟨8, 1, [3, 1, 2], gt⟩ (user (g123 0x100001 0 0)) = true ∧ cleanAt (user (g123 0x100001 0 0)) 1 [1, 2] ∧
      (0x100001 : Word).toNat % loadWidth .d ≠ 0 ∧ 2 ^ 52 ≤ (0x10000000000000 : Word).toNat) ∧
    (((user deferred1).core.rg.boost.filter fun y => decide (y.lvl = 1) && y.fault.isSome).head? =
      some ⟨1, .g 4, 9, false, some (cXlate, 0x123), 0x80⟩ ∧ targetOk (user deferred1) 0x104) ∧
    ((onCore 0 fun k => { running id k with pend := [⟨.mx, cScheduleMiss, 5, 0⟩] }).core.pend = [⟨.mx, cScheduleMiss, 5, 0⟩] ∧
      (user id).core.rg.status = .running) := by
  unfold cleanAt targetOk; decide +kernel

/-- The loop record of 32 bytes: PSTART 0x200, KSTART 0x210, ESTART 0x220, EEND 0x230, TRIP 5, no index register (R32). -/
def loopBytes : List Byte :=
  leBytes 4 0x200 ++ leBytes 4 0x210 ++ leBytes 4 0x220 ++ leBytes 4 0x230 ++ leBytes 4 5 ++ leBytes 12 0

/-- A core at the end of iteration 3 of 5 of that record. -/
def inLoop (phase : LoopPhase) (pc : BitVec 16) (r : SeqRegs) : SeqRegs :=
  { r with pc := pc, loops := [⟨0x200, 0x210, 0x220, 0x230, 5, 0, false, 0, 3, 0x108, phase⟩] }

/-- A running core with the record in its scratchpad at 0x40. -/
def loopCore (k : Core) : Core := { running (g123 0x40 0 0) k with stash := k.stash.write 0x40 loopBytes false }

theorem witness_HardwareLoops :
    (SeqForm.runs ⟨8, 0, [1], gt⟩ (onCore 0 loopCore) = true ∧ inScratch (onCore 0 loopCore) 0x40 32 ∧
      markStalls (onCore 0 loopCore) 0 0x40 32 = false ∧ (onCore 0 loopCore).core.stash.poisoned 0x40 32 = false ∧
      loopOffsetsOk (loopRecord ((onCore 0 loopCore).core.stash.bytes 0x40 32) 0x108) = true ∧
      loopReservedOk ((onCore 0 loopCore).core.stash.bytes 0x40 32) = true ∧
      (loopRecord ((onCore 0 loopCore).core.stash.bytes 0x40 32) 0x108).ixen = false ∧
      (loopRecord ((onCore 0 loopCore).core.stash.bytes 0x40 32) 0x108).estart ≠
        (loopRecord ((onCore 0 loopCore).core.stash.bytes 0x40 32) 0x108).kstart) ∧
    (((user (inLoop .kernel 0x21C)).core.rg.loops.head?.map fun r => (r.phase, r.estart, r.iter.toNat + 1, r.trip.toNat)) =
      some (.kernel, 0x220, 4, 5)) ∧
    ((plainForm 4 [1]).passes (user (inLoop .kernel 0x214)) = true ∧
      ((user (inLoop .kernel 0x214)).g 1).bad = false ∧ (0x230 ≠ 0x220 ∧ 0x230 ≠ 0x210) ∧ ¬(0x220 ≤ (user (inLoop .kernel 0x214)).pc.toNat) ∧
      0x220 ≤ (user (inLoop .epilogue 0x224)).pc.toNat ∧ (user (inLoop .epilogue 0x224)).pc.toNat < 0x230) := by
  unfold inScratch; decide +kernel

theorem witness_TrapEntry : (user id).core.rg.sup = false ∧ (user id).pc.toNat + 4 < 65536 := by decide +kernel

theorem witness_ReturnFromTrap :
    (super id).core.rg.sup = true ∧ (super id).core.sys.trappc.toNat % 4 = 0 ∧ (super id).core.sys.trappc.toNat < 0xE000 ∧
    (onCore 0 fun k => { running (fun r => { r with sup := true }) k with sys := { k.sys with trappc := 2 } }).core.sys.trappc.toNat % 4 ≠ 0 ∧
    0xE000 ≤ (onCore 0 fun k => { running (fun r => { r with sup := true }) k with
      sys := { k.sys with trappc := 0xE000 } }).core.sys.trappc.toNat := by decide +kernel

theorem witness_PrivilegeAndSupervisorFaults :
    (user id).core.rg.sup = false ∧ (super id).core.rg.sup = true ∧ gangOf (super id) 0 = none ∧
    (SysReg.trappc ≠ .mode) ∧ ((super (g123 0 0 0)).g 1).bad = false ∧
    (selectorOk 0x0000000000000000 = true ∧ selectorNear 0 0x0000000000000000 = true) ∧
    selectorOk 0xFFFFFFFFFFFFFFFF = false := by decide +kernel

theorem witness_SystemRegisters : (plainForm 4 [3]).passes (user id) = true ∧ (super id).core.rg.sup = true ∧
    (plainForm 4 [1]).passes (super id) = true ∧ (user id).core.rg.loops.length ≤ 4 ∧ (super id).core.sys.relfree = false ∧
    (onCore 0 fun k => { running (fun r => { r with sup := true }) k with sys := { k.sys with relfree := true } }).core.sys.relfree = true := by
  decide +kernel

/-- A descriptor that R57 admits: one row of 64 bytes of VA 1 MiB behind the declared scratchpad, VALID. -/
def goodWin : WinDesc := ⟨0x100000, 0x100000040, 0x2010000040, 0⟩

theorem witness_WindowsAndModes :
    (super id).core.rg.sup = true ∧
    ({ selectedWin (super id).core with w2 := 0 } : WinDesc).valid = false ∧
    (∃ d : WinDesc, d.valid = true ∧ windowOk (super id).core 0 d = true) ∧
    (∃ d : WinDesc, d.valid = true ∧ windowOk (super id).core 0 d = false) ∧
    SeqForm.runs ⟨8, 0, [1], gt⟩ (user id) = true := by
  refine ⟨by decide +kernel, by decide +kernel, ?_, ?_, by decide +kernel⟩
  · exact ⟨goodWin, by decide +kernel⟩
  · exact ⟨{ goodWin with w0 := 0x100001 }, by decide +kernel⟩

/-- A core with one unreached store, a load in flight and a fence that waits for stores. -/
def busyCore (k : Core) : Core :=
  { running id k with stores := [⟨⟨.hbm, 0x100000⟩, .lcl, false, 0x100000, [1], false, 0, none, none⟩], loadsOut := 1, storeNo := 1,
                      fence := some ⟨32, 0, 0, [], none⟩ }

theorem witness_ControlCompletes :
    (user id).core.rg.sup = false ∧ (super id).core.rg.sup = true ∧
    (user (inLoop .kernel 0x214)).core.rg.loops ≠ [] ∧
    (onCore 0 busyCore).core.loadsOut ≤ (1 : BitVec 6).toNat ∧ (onCore 0 busyCore).core.stores.length ≤ (1 : BitVec 6).toNat ∧
    (onCore 0 busyCore).core.fence = some ⟨32, 0, 0, [], none⟩ ∧
    fenceReached (onCore 0 busyCore).core ⟨32, 0, 0, [], none⟩ = true ∧ (user id).core.fence = none := by decide +kernel

/-- Barrier 1 initialised with EXPECT 2 and 2 arrivals, barrier 2 with fewer. -/
def barred (k : Core) : Core :=
  { k with bars := vset (2 : BitVec 6) ⟨0, 0, 0, 2, 1, false, false, true⟩ (vset (1 : BitVec 6) ⟨7, 0, 0, 2, 2, true, false, true⟩ k.bars) }

theorem witness_BarrierArrivals :
    (plainForm 4 [1, 2]).passes (dev (g123 1 0 0) barred) = true ∧
    (7 : BitVec 6).toNat < (dev (g123 1 0 0) barred).core.decl.barriers ∧
    ((dev (g123 1 0 0) barred).g 1).val.extractLsb' 0 16 ≠ 0 ∧
    (vget (1 : BitVec 6) (releaseStores 0 (dev (g123 1 0 0) barred)).core.bars).init = true ∧
    ((dev (g123 0 0 0) barred).g 1).val.extractLsb' 0 10 = BitVec.ofNat 10 (0 : CoreId).val ∧
    sameGang (dev (g123 0 0 0) barred) 0 0 = true ∧ sameGang (dev (g123 0 0 0) barred) 0 1 = true ∧
    (dev (g123 1 0 0) barred).core.decl.barriers ≤ (8 : BitVec 6).toNat ∧
    ((dev (g123 0x10000 0 0) barred).g 1).val.extractLsb' 0 16 = 0 ∧
    (vget (3 : BitVec 6) (releaseStores 0 (dev (g123 1 0 0) barred)).core.bars).init = false ∧
    320 ≤ (((dev (g123 320 0 0) barred).g 1).val.extractLsb' 0 10).toNat ∧
    ((dev (g123 2 0 0) barred).g 1).val.extractLsb' 0 10 = BitVec.ofNat 10 (2 : CoreId).val ∧
    sameGang (dev (g123 2 0 0) barred) 0 2 = false := by decide +kernel

theorem witness_BarrierReads :
    (plainForm 4 [1]).passes (dev id barred) = true ∧ (3 : BitVec 6).toNat < (dev id barred).core.decl.barriers ∧
    (vget (3 : BitVec 6) (dev id barred).core.bars).init = false ∧
    (vget (2 : BitVec 6) (dev id barred).core.bars).arrived < (vget (2 : BitVec 6) (dev id barred).core.bars).expect ∧
    (vget (1 : BitVec 6) (dev id barred).core.bars).init = true ∧
    (vget (1 : BitVec 6) (dev id barred).core.bars).expect ≤ (vget (1 : BitVec 6) (dev id barred).core.bars).arrived := by
  decide +kernel

theorem witness_MailboxesAndEvents :
    (plainForm 4 [1, 2]).passes (dev (g123 15 15 0) id) = true ∧
    mailboxOf (dev id id) 0 = some (0, ⟨some (1, 0), [(5, false)]⟩) ∧ mailboxOf (dev id id) 1 = some (1, ⟨some (1, 1), []⟩) ∧
    mailboxOf (dev id id) 2 = none ∧ hostMailboxes (dev id id) = false ∧
    hostMailboxes { dev (poisoned1 0) id with sched := { (dev id id).sched with gangs := [{ testGang with hostmb := true }] } } = true ∧
    mailboxOf { dev id id with clusters := (dev id id).clusters.set 0 { (dev id id).cluster 0 with
      mbox := Vector.replicate 16 ⟨some (1, 0), List.replicate 8 (1, false)⟩ } } 0 = some (0, ⟨some (1, 0), List.replicate 8 (1, false)⟩) ∧
    ((dev (g123 15 15 0) id).g 1).bad = false ∧ ownsEvent ((dev id id).ctx 0) 15 = true ∧
    ownsEvent ((dev id id).ctx 0) 16 = false := by decide +kernel

theorem witness_Tokens :
    8 ≤ (userS id).me.val % 10 ∧ (plainForm 4 [1]).passes (userS id) = true ∧ (user id).me.val % 10 < 8 ∧
    (vget (2 : BitVec 3) (userS id).core.xs.tk).toNat + 65535 ≤ 65535 ∧
    65535 < (vget (2 : BitVec 3) (onCore 8 fun k => { running id k with xs := { k.xs with tk := vset (2 : BitVec 3) 1 k.xs.tk } }).core.xs.tk).toNat + 65535 ∧
    0 ≤ (vget (2 : BitVec 3) (userS id).core.xs.tk).toNat ∧ (vget (2 : BitVec 3) (userS id).core.xs.tk).toNat < 1 := by decide +kernel

/-- A request of engine PIX that has answered, behind one without a result to pop. -/
def asked (k : Core) : Core :=
  { k with reqs := [⟨.pix, 0, 0, 0, ⟨0, false⟩, ⟨0, false⟩, true, 0, none⟩, ⟨.pix, 0, 0, 0, ⟨0, false⟩, ⟨0, false⟩, false, 1, some (7, false)⟩] }

/-- All 16 slots of PIX taken. -/
def askedFull (k : Core) : Core :=
  { k with reqs := (List.range 16).map fun i => ⟨.pix, 0, 0, 0, ⟨0, false⟩, ⟨0, false⟩, false, i, none⟩ }

theorem witness_RequestsIssued :
    (∃ o, reqOp (.pixLookup 0 false 2 1) = some o ∧ engineFeature (dev id id) o.eng = true ∧
      (plainForm 4 [o.ga, o.gb]).passes (dev id id) = true ∧ objectOf (dev id id) 0 o.eng o.obj.toNat = some 0 ∧
      slotsOf (dev id id).core o.eng < 16 ∧ 16 ≤ slotsOf (dev id askedFull).core o.eng) ∧
    (∃ o, reqOp (.umeReset 1 true) = some o ∧ engineFeature (dev id id) o.eng = true ∧ objectOf (dev id id) 0 o.eng o.obj.toNat = none) ∧
    (objectOf (dev id id) 0 .sampler 0 = some 5 ∧ objectOf (dev id id) 0 .ume 0 = some 6 ∧ objectOf (dev id id) 0 .fe 0 = some 0 ∧
      (dev id id).core.rg.sup = false ∧ (readG (dev id id).core 1 1).bad = false) :=
  ⟨⟨_, rfl, by decide +kernel⟩, ⟨_, rfl, by decide +kernel⟩, by decide +kernel⟩

theorem witness_GetResults :
    (plainForm 4 [1]).passes (dev id asked) = true ∧ (∀ r ∈ (dev id id).core.reqs, r.eng = .pix → r.nores = true) ∧
    ((dev id asked).core.reqs.map fun r => (r.nores, r.result)) = [(true, none), (false, some (7, false))] ∧
    (dev id askedFull).core.reqs.head?.map (fun r => (r.nores, r.result)) = some (false, none) := by decide +kernel

/-- A vector word of R = 1, C = 16 in type I32 and a word of the matrix engine. -/
def word0 : VWord := ⟨0, ⟨0, 0, false, 2⟩, ⟨0, 0, false, 1⟩, ⟨0, 0, false, 3⟩, false, false, 0, 14⟩
def mword0 : MWord := ⟨0, 0, 0, 0, 0, 0, 0, false, false, false, false, false, false, 0, 14, 14⟩

/-- Word memories of one NOP and one sum, and one MZERO. -/
def worded (k : Core) : Core :=
  { k with vmem := [(0, (encodeVector (.vadd word0)).getD 0), (1, (encodeVector (.vnop ⟨0, ⟨0, 0, false, 0⟩, ⟨0, 0, false, 0⟩, ⟨0, 0, false, 0⟩,
      false, false, 0, 0⟩)).getD 0)], mmem := [(0, (encodeMatrix (.mzero ⟨0, 0, 0, 0, 0, 0, 0, false, false, false, false, false, false, 0, 0, 0⟩)).getD 0)] }

theorem witness_EngineRuns :
    ((plainForm 4 [1]).passes (user (g123 0x80 0 0)) = true ∧ ((user (g123 0x80 0 0)).g 1).val.toNat % 128 = 0 ∧
      (vget (0 : BitVec 3) (user id).core.chans).state ≠ .walk ∧
      (vget (0 : BitVec 3) (onCore 0 fun k => { running id k with chans := vset (0 : BitVec 3) { Chan.idle with state := .walk } k.chans }).core.chans).state = .walk) ∧
    (((dev (fun r => { r with run := [⟨0x100, 1, 2, true⟩] }) worded).core.rg.run.find? fun x => decide (x.pc = 0x100) && x.live) =
        some ⟨0x100, 1, 2, true⟩ ∧
      ((List.range (2 - 1)).foldl (fun u i => u.bind (pushVector (1 + i)))
        (some (drainStores 0 (dev (fun r => { r with run := [⟨0x100, 1, 2, true⟩] }) worded)))).isSome = true) ∧
    ((∀ r ∈ (dev (g123 0 2 0) worded).core.rg.run, r.pc = (dev (g123 0 2 0) worded).pc → r.live = false) ∧
      okWith (checkVectors 2 0 (dev (g123 0 2 0) worded).core.eng.shape (dev (g123 0 2 0) worded)) (fun _ => true) = true ∧
      ((List.range 2).foldl (fun u i => u.bind (pushVector i)) (some (drainStores 0 (dev (g123 0 2 0) worded)))).isSome = true ∧
      (dev id id).me.val % 10 < 8 ∧ okWith (checkMatrices 1 0 (dev (g123 0 1 0) worded)) (fun _ => true) = true ∧
      (pushMatrix 0 (dev (g123 0 1 0) worded)).isSome = true) ∧
    (8 ≤ (userS (g123 4095 65535 0)).me.val % 10 ∧ (plainForm 4 [1, 2]).passes (userS (g123 4095 65535 0)) = true ∧
      ((userS (g123 4095 65535 0)).g 1).val.toNat < 4096 ∧ ((userS (g123 4095 65535 0)).g 2).val.toNat ≤ 65535 ∧
      (userS id).core.xs.runs.length < 4 ∧
      4 ≤ (onCore 8 fun k => { running id k with xs := { k.xs with runs := List.replicate 4 ⟨0, 1, 0, 0, 0⟩ } }).core.xs.runs.length ∧
      4096 ≤ ((userS (g123 4096 1 0)).g 1).val.toNat ∧ 65535 < ((userS (g123 0 65536 0)).g 2).val.toNat) := by decide +kernel

/-- A range record: base 1 MiB, 128 bytes, 2 rows, 256 bytes apart (R196). -/
def rangeBytes : List Byte := leBytes 8 0x100000 ++ leBytes 4 128 ++ leBytes 4 2 ++ leBytes 8 256 ++ leBytes 8 0

/-- A core with that record at 0x40 and the barriers of the tests. -/
def ranged (k : Core) : Core := { barred k with stash := k.stash.write 0x40 rangeBytes false }

/-- A core whose slot 2 is subscribed. -/
def subscribed (k : Core) : Core := { k with slots := vset (2 : BitVec 4) ⟨true, 0x100000, 0x80, .gang, true, true⟩ k.slots }

theorem witness_CommitsRangesSubscriptions :
    ((plainForm 4 [1, 2]).passes (dev (g123 0x40 0 0) ranged) = true ∧ barReady (dev id ranged).core 1 = true ∧
      barReady (dev id ranged).core 3 = false ∧ barReady (dev id ranged).core 8 = false ∧
      inScratch (dev (g123 0x40 0 0) ranged) 0x40 32 ∧ markStalls (dev id ranged) 0 0x40 32 = false ∧
      (dev id ranged).core.stash.poisoned 0x40 32 = false ∧ rangeOk 0x100000 128 2 256 = true ∧
      leVal ((dev id ranged).core.stash.bytes 0x40 8) = 0x100000 ∧ ((dev id ranged).die 0).walker.length < 64) ∧
    (SeqForm.runs ⟨8, 0, [1, 2, 3], gt⟩ (dev (g123 0x100000 4 0x100) id) = true ∧ (dev id id).feature 0 = true ∧
      cleanAt (dev (g123 0x100000 4 0x100) id) 0 [1, 2, 3] ∧ (0x100 : Word).toNat + 8 ≤ (dev id id).core.decl.stash ∧
      (∀ i : BitVec 4, i ≠ 2 → (vget i (dev id id).core.slots).active = false) ∧
      okWith (translate 0 0 0x100004 .read (dev (g123 0x100000 4 0x100) id)) (fun tx => decide (tx.2.region = .lcl) &&
        !markStalls tx.1 0 0x100004 4) = true) ∧
    (vget (2 : BitVec 4) (dev id subscribed).core.slots).active = true := by
  unfold inScratch cleanAt; decide +kernel

/-- A region record in a state, bound by cluster 0. -/
def feRec (state : Nat) : FeRec :=
  { gang := 1, region := 0, ctx := 0, desc := testRegion, state := state, flags := 0, sexp := 2, trip := 0, invoc := 0, sampled := 0,
    stepsDone := 0, ncap := 0, nval := 0, lasterr := 0, trips := 0, handle := 0, weights := [0, 0], capture := [], vbuf := [], batch := none }

/-- The device with that record, an FE area and an image on core 0. -/
def fitted (state : Nat) (h : Core → Core) : State :=
  let s := dev (g123 1 2 3) fun k => h { k with image := some (0x100000, 0) }
  { s.updCluster 0 (fun k => { k with fe := [feRec state] }) with
    ctxs := vset (0 : BitVec 6) { s.ctx 0 with fearea := 0x200000 } s.ctxs }

theorem witness_ApproximableRegions :
    (dev id id).feature 1 = true ∧ objectOf (dev id id) 0 .fe 0 ≠ none ∧
    (match (bindRegion 0 0 (drainStores 0 (dev id id))).2 with | .record _ => false | _ => true) = true ∧
    (∀ st ∈ [1, 4, 5], (match (bindRegion 0 0 (drainStores 0 (fitted st id))).2 with | .record r => r.state == st | _ => false) = true) ∧
    ((0 + 1) % 2 ^ 28) % 2 ^ (feRec 4).sexp ≠ 0 ∧ ((3 + 1) % 2 ^ 28) % 2 ^ (feRec 4).sexp = 0 ∧
    (readPlaces (fitted 4 id) testRegion.ins).2 = true ∧ (plainForm 4 (placeRegs testRegion.ins)).passes (fitted 4 id) = true ∧
    (plainForm 4 (placeRegs testRegion.outs)).passes (fitted 4 id) = true ∧ targetOk (fitted 4 id) (testRegion.end_.toNat + 4 : Nat) ∧
    (dev id id).core.inv = none ∧
    (fitted 1 fun k => { k with inv := some ⟨0, 1, false, true, [1], []⟩ }).core.inv = some ⟨0, 1, false, true, [1], []⟩ ∧
    findRecord (fitted 1 id) 0 1 0 = some (feRec 1) ∧ (readPlaces (fitted 1 id) testRegion.outs).2 = true := by
  unfold targetOk; decide +kernel

/-! ### Engines -/

/-- An entry of a vector queue with the shape of one row, and the same skipped-over, on queue `q` of the device. -/
def ventry (i : Instr) : VEntry := ⟨i, ⟨0, 0x100, 0x40, 0, 0, 0, .prologue⟩, 3, ⟨1, 16⟩⟩
def onQueue (q : VQ) (e : VEntry) (f : VQueue → VQueue) (h : Core → Core) : State :=
  let s := dev id h
  { s with focus := ⟨0, q, (0, 0), 0, 0, 0⟩ }.updQueue fun x => f { x with entries := [e] }

/-- A masked word, and a mask stack whose top is zero. -/
def maskedWord : VWord := { word0 with pm := true }
def allOff (q : VQueue) : VQueue := { q with masks := [0] }

/-- VCVT from F32 to E4M3 under overflow policy TRAP (rnd 3), and a register row whose element 2 is 2^100. -/
def cvtWord : VWord := ⟨0, ⟨0, 0, false, 0⟩, ⟨0, 0, false, 1⟩, ⟨0, 0, false, 3⟩, false, false, 3, 3⟩
def cvtEntry : VEntry := { ventry (.vcvt cvtWord) with cap := ⟨0, 0, 0, 0, 0, 0, .prologue⟩ }
def bigRow (k : Core) : Core := { k with eng := { k.eng with v := [(32, ⟨BitVec.ofNat 512 (0x71800000 * 2 ^ 64), false⟩)] } }

/-- A word that takes A from FIFO lf0. -/
def fifoWord : VWord := { word0 with a := ⟨0, 0, true, 0⟩ }

theorem witness_VectorRowWords :
    ((elementFn (.vadd word0)).isSome = true ∧ headReady (onQueue .vaq (ventry (.vadd word0)) id id) (ventry (.vadd word0)) ∧
      passedOver (onQueue .vaq (ventry (.vadd word0)) id id) (ventry (.vadd word0)) = false ∧
      okWith (sourcesOf (ventry (.vadd word0)) (onQueue .vaq (ventry (.vadd word0)) id id).core.eng) (fun x =>
        decide (x.2.1.length = 1)) = true ∧ roomFor word0.d (dev id id).core.eng) ∧
    (match sourcesOf (ventry (.vadd fifoWord)) (onQueue .vaq (ventry (.vadd fifoWord)) id id).core.eng with
      | .error .stall => true
      | _ => false) = true ∧
    (headReady (onQueue .vaq cvtEntry id bigRow) cvtEntry ∧
      okWith (sourcesOf cvtEntry (onQueue .vaq cvtEntry id bigRow).core.eng) (fun x =>
        (List.range 3).all fun j => (cellAt vcvtCell 8 (inputOf cvtEntry (BitVec.allOnes 4096) x.1 x.2.1 x.2.2) 0 j == .trap) == (j == 2)) = true) ∧
    ((rowFn (.vsumr word0)).isSome = true ∧ headReady (onQueue .vaq (ventry (.vsumr word0)) id id) (ventry (.vsumr word0)) ∧
      (computeForm (wordOf (.vsumr word0)).1).ty (wordOf (.vsumr word0)).2.type.toNat = true) ∧
    (headReady (onQueue .vaq (ventry (.vadd maskedWord)) allOff id) (ventry (.vadd maskedWord)) ∧
      passedOver (onQueue .vaq (ventry (.vadd maskedWord)) allOff id) (ventry (.vadd maskedWord)) = true) := by
  unfold headReady roomFor; decide +kernel

theorem witness_VectorArithmetic :
    ((8 = 8 ∧ 16 * 8 ≤ 128 ∧ 15 * 8 + 8 ≤ 128) ∧ (128 * 1 ≤ 128 ∧ 127 * 1 + 1 ≤ 128)) ∧
    (kwf ⟨0, false⟩ (dev id bigRow).core.eng.v = true ∧ (3 : BitVec 3).toNat < 4 ∧
      (7 : BitVec 5).toNat + (4 - 1) * stepOf ⟨3, 7, false, 0⟩ ≤ 31) ∧
    ((⟨0, 0, true, 5⟩ : Desc).index.toNat < 6 ∧ (fifoGet (dev id id).core.eng 5).length < 4 ∧ fifoGet (dev id id).core.eng 5 = []) ∧
    ((9 : Nat) ≤ 9 ∧ 15 ≤ 15 ∧ 0xFFFFFFFF < 2 ^ widthOf 14 ∧ 255 < 2 ^ widthOf 10 ∧ isSigned 14 = true) ∧
    ((decodeNum 0 0x7F800001).isNan = true ∧ (decodeNum 2 0x7C01).isNan = true) := by decide +kernel

/-- A state in which nothing watches core 0. -/
theorem quiet : unwatched (dev id id) := by unfold unwatched Core.unwatched; decide +kernel

/-- A vector load or store as the head of its queue. -/
def memState (q : VQ) (i : Instr) : State := onQueue q (ventry i) id id

theorem witness_StashRowWords :
    (headReady (memState .vlq (.vld word0)) (ventry (.vld word0)) ∧ unwatched (memState .vlq (.vld word0)) ∧
      passedOver (memState .vlq (.vld word0)) (ventry (.vld word0)) = false ∧ roomFor word0.d (dev id id).core.eng ∧
      piecesOk (memState .vlq (.vld word0)) 0x40 word0 (ventry (.vld word0)) (BitVec.allOnes 4096) ⟨0, false⟩ ∧
      piecesOk (memState .vlq (.vldx word0)) 0x41 word0 (ventry (.vldx word0)) (BitVec.allOnes 4096)
        (indexRow (dev id id).core.eng word0.a)) ∧
    (headReady (memState .vsq (.vst word0)) (ventry (.vst word0)) ∧
      okWith (source .regFifo word0.a 8 1 0 (memState .vsq (.vst word0)).core.eng) (fun x => decide (x.2.1.length = 1)) = true ∧
      piecesOk (memState .vsq (.vst word0)) 0x80 word0 (ventry (.vst word0)) (BitVec.allOnes 4096) ⟨0, false⟩) ∧
    (headReady (memState .vlq (.vldz word0)) (ventry (.vldz word0)) ∧
      recordFrom (memState .vlq (.vldz word0)).core.stash 0x100 1 ≤ (memState .vlq (.vldz word0)).core.decl.stash ∧
      headReady (memState .vsq (.vstz word0)) (ventry (.vstz word0)) ∧ 0x100 + 72 ≤ testDecl.stash) ∧
    (headReady (onQueue .vlq (ventry (.vldb maskedWord)) allOff id) (ventry (.vldb maskedWord)) ∧
      passedOver (onQueue .vlq (ventry (.vldb maskedWord)) allOff id) (ventry (.vldb maskedWord)) = true) := by
  refine ⟨⟨?_, ?_, ?_, ?_, ?_, ?_⟩, ⟨?_, ?_, ?_⟩, ⟨?_, ?_, ?_, ?_⟩, ?_, ?_⟩ <;>
    (try simp only [headReady, unwatched, Core.unwatched, piecesOk, inScratch, roomFor]) <;> decide +kernel

theorem witness_VectorControlWords :
    (headReady (onQueue .vaq (ventry (.vmpush word0)) id id) (ventry (.vmpush word0)) ∧
      skipped (onQueue .vaq (ventry (.vmpush word0)) id id).queue (ventry (.vmpush word0)) = false) ∧
    (headReady (onQueue .vlq (ventry (.vskip word0)) (fun q => { q with skipTo := some 3 }) id) (ventry (.vskip word0)) ∧
      skipped (onQueue .vlq (ventry (.vskip word0)) (fun q => { q with skipTo := some 3 }) id).queue (ventry (.vskip word0)) = true) ∧
    (headReady (onQueue .vsq (ventry (.vminv word0)) id id) (ventry (.vminv word0)) ∧
      findMsg (onQueue .vsq (ventry (.vminv word0)) id id).queue 3 = none ∧
      findMsg (onQueue .vsq (ventry (.vminv word0)) (fun q => { q with msgs := [.top 3 5] }) id).queue 3 = some (.top 3 5) ∧
      findMsg (onQueue .vsq (ventry (.vskip word0)) (fun q => { q with msgs := [.skip 3 true] }) id).queue 3 = some (.skip 3 true)) ∧
    (headReady (onQueue .vlq (ventry (.vsignal { word0 with aux := 0x41 })) id barred) (ventry (.vsignal { word0 with aux := 0x41 })) ∧
      (0x41 : BitVec 38).getLsbD 6 = true ∧ (0x41 : BitVec 38).getLsbD 14 = false ∧ sameGang (dev id barred) 0 0 = true ∧
      (vget (1 : BitVec 6) (dev id barred).core.bars).init = true ∧ (vget (3 : BitVec 6) (dev id barred).core.bars).init = false) := by
  unfold headReady; decide +kernel

/-- An entry of MXQ with a full latch of the core's empty stash, as the head of core 0's MXQ at a cycle. -/
def mentry (i : Instr) : MEntry := ⟨i, ⟨0, 0, 0, 0, 0, 0, .prologue⟩, false, if needsLatch i then some ⟨Mem.empty, [], []⟩ else none⟩
def onMxq (e : MEntry) (dcc : Word) (h : Core → Core) : State :=
  { (dev id h).updMxq (fun _ => [e]) with dcc := dcc }

/-- A stamped MMA, with and without permission to be late. -/
def stamped (late : Bool) : Instr := .mma { mword0 with stamp := 5, kg := 1, missp := late }

theorem witness_MatrixWords :
    (∀ i ∈ [Instr.mzero mword0, .msync mword0, .mma { mword0 with kg := 1 }, .mlda mword0, .madda mword0, .mbias mword0, .mxfr mword0],
      matrixReady (onMxq (mentry i) 0 id) (mentry i) ∧ stampGate (mentry i) (onMxq (mentry i) 0 id) = .go) ∧
    (matrixReady (onMxq (mentry (stamped true)) 6 id) (mentry (stamped true)) ∧
      stampGate (mentry (stamped true)) (onMxq (mentry (stamped true)) 6 id) = .late ∧ matrixParts (stamped true) ≠ none) ∧
    stampGate (mentry (stamped false)) (onMxq (mentry (stamped false)) 4 id) = .hold ∧ (dev id id).core.rg.status ≠ .stopped ∧
    stampGate (mentry (stamped false)) (onMxq (mentry (stamped false)) 4 fun k => { k with rg := { k.rg with status := .stopped } }) = .go ∧
    stampGate (mentry (stamped false)) (onMxq (mentry (stamped false)) 5 id) = .go ∧
    stampGate (mentry (stamped false)) (onMxq (mentry (stamped false)) 6 id) = .miss ∧
    (fifoGet (dev id id).core.eng 0).length < 4 ∧ ({ mword0 with aaddr := 0x20 } : MWord).aaddr.getLsbD 5 = true ∧
    4 ≤ (fifoGet (dev id fun k => { k with eng := { k.eng with fifos := k.eng.fifos.set 0 (List.replicate 4 ⟨[], 0, 8, .prologue⟩) } }).core.eng 0).length := by
  unfold matrixReady; decide +kernel

/-- A core that declares the whole stash. -/
def wide (k : Core) : Core := { k with decl := { testDecl with stash := 0x100000 } }

/-- A row-store word to I32, and one from F32 to E4M3 under TRAP. -/
def mstaTrap : MWord := { mword0 with afmt := 3, bfmt := 0, kg := 3 }
def bigAcc (k : Core) : Core := wide { k with eng := { k.eng with acc := [(0, ⟨0x71800000, false⟩)] } }

/-- The deepest product of I32 words that the stash holds, and the words that wait for a latch. -/
def deepWord : MWord := { mword0 with kg := 63, apitch := 6048, bpitch := 384 }
def unfilled (i : Instr) : MEntry := { mentry i with latch := none }

theorem witness_ProductsLatchesAndStores :
    ((9 ≤ (9 : BitVec 4).toNat ∧ (14 : BitVec 4).toNat ≠ 15) ∧ kwf ⟨0, false⟩ (dev id bigAcc).core.eng.acc = true) ∧
    ((dev id wide).core.eng.mxHalted = false ∧ unwatched (dev id wide)) ∧
    onArray (mentry (.mzero mword0)) (dev id id) = true ∧
    (needsLatch (.madda mword0) = true ∧ (unfilled (.madda mword0)).latch = none ∧
      ∀ r ∈ latchRanges Mem.empty (.madda mword0), r.1 + r.2 ≤ (dev id wide).core.decl.stash) ∧
    latchLegal Mem.empty (.mma deepWord) ∧
    (∀ r ∈ latchRanges Mem.empty (.mma deepWord), r.1 + r.2 ≤ (dev id wide).core.decl.stash) ∧
    matrixReady (onMxq (mentry (.msta mstaTrap)) 0 bigAcc) (mentry (.msta mstaTrap)) ∧
    ((∀ i < 96, mAbase mstaTrap + i * mstaTrap.apitch.toNat + rowBytes (halfBytes mstaTrap.afmt.toNat) 96 ≤
        (onMxq (mentry (.msta mstaTrap)) 0 bigAcc).core.decl.stash) ∧ mstaTrap.kg.getLsbD 3 = false) ∧
    ((mstaRow mstaTrap (mentry (.msta mstaTrap)).cap Mem.empty (dev id bigAcc).core.eng 0).1.getD 0 .trap = .trap) ∧
    (∀ i < 96, Conv.trap ∉ (mstaRow mstaTrap (mentry (.msta mstaTrap)).cap Mem.empty (dev id wide).core.eng i).1) := by
  refine ⟨?_, ?_, ?_, ?_, ⟨by decide, by decide, by decide, by decide, by decide⟩, ?_, ?_, ?_, ?_, ?_⟩ <;>
    (try simp only [matrixReady, unwatched, Core.unwatched]) <;> decide +kernel

/-! ### Known answers of the standards that the spec names -/

/-- CRC-32C of the digits 1 to 9 (the check value of the polynomial that R283 names). -/
theorem test_crc32c : crc32c [0x31, 0x32, 0x33, 0x34, 0x35, 0x36, 0x37, 0x38, 0x39] = 0xE3069283 := by decide +kernel
/-- Philox4x32-10 of a zero counter under a zero key: word 0 of its published vector (R123). -/
theorem test_philox : philoxWord0 0 0 0 0 0 = 0x6627E8D5 := by decide +kernel
/-- SHA-384 of "abc": the first eight bytes of its published digest (R440). -/
theorem test_sha384 : (sha384 [0x61, 0x62, 0x63]).take 8 = [0xCB, 0x00, 0x75, 0x3F, 0x45, 0xA3, 0x5E, 0x8B] := by decide +kernel
/-- R284's example: planes 7 and 0 of 34 bytes, the others of one; byte 5 is 0x81 and every other byte 0. -/
def exampleStream : List Byte :=
  let plane : List Byte := [0x02, 0x05] ++ List.replicate 31 0xFF ++ [0xF9]
  plane ++ List.replicate 6 0 ++ plane
theorem test_expand_example : exampleStream.length = 74 ∧ (planesOf 8 exampleStream) =
    some [2 ^ 5, 0, 0, 0, 0, 0, 0, 2 ^ 5] := by decide +kernel

/-! ### Copy channels -/

/-- 4,096 zero bytes, and the chunk record that decodes to them: eight planes of zeros under their CRC (R283). -/
def zeroOut : List Byte := List.replicate 4096 0
def zeroChunk : List Byte := [8, 0, 0, 0] ++ leBytes 4 (crc32c zeroOut).toNat ++ List.replicate 8 0
def streamMem : Mem := Mem.empty.write 0x100 zeroChunk false

theorem streamMem_byte (i : Nat) (h : i < 16) : streamMem.byte (0x100 + i) = zeroChunk.getD i 0 := by
  have hl : zeroChunk.length = 16 := by simp [zeroChunk]
  rw [streamMem, Mem.byte_write Mem.wf_empty]
  rw [if_pos ⟨by omega, by omega⟩]
  simp [unsetByte]

theorem streamMem_crc : leVal (streamMem.bytes 0x104 4) = (crc32c zeroOut).toNat := by
  have h : streamMem.bytes 0x104 4 = leBytes 4 (crc32c zeroOut).toNat := by
    simp only [Mem.bytes, List.range, List.range.loop, List.map]
    rw [streamMem_byte 4 (by omega), streamMem_byte 5 (by omega), streamMem_byte 6 (by omega), streamMem_byte 7 (by omega)]
    simp [zeroChunk, leBytes]
  rw [h, leVal_leBytes]
  omega

theorem streamMem_good {r : CopyRec} (hr : r.src = 0x100) (he : r.e1 = 16) : chunkGood streamMem r 0 16 zeroOut := by
  have b (i : Nat) (h : i < 16) := streamMem_byte i h
  have h2 : streamMem.bytes 0x100 2 = [8, 0] := by
    simp only [Mem.bytes, List.range, List.range.loop, List.map]
    rw [b 0 (by omega), b 1 (by omega)]; rfl
  have h3 : streamMem.bytes 0x102 2 = [0, 0] := by
    simp only [Mem.bytes, List.range, List.range.loop, List.map]
    rw [b 2 (by omega), b 3 (by omega)]; rfl
  have h4 : streamMem.bytes 0x108 8 = List.replicate 8 0 := by
    simp only [Mem.bytes, List.range, List.range.loop, List.map]
    rw [b 8 (by omega), b 9 (by omega), b 10 (by omega), b 11 (by omega), b 12 (by omega), b 13 (by omega), b 14 (by omega),
      b 15 (by omega)]
    simp [zeroChunk, leBytes, List.replicate]
  have hs : r.src.toNat + 0 = 0x100 := by rw [hr]; rfl
  unfold chunkGood
  simp only [hs, h2, h3]
  refine ⟨rfl, by rw [he]; decide, rfl, ?_, streamMem_crc⟩
  show expandBytes (streamMem.bytes 0x108 8) = _
  rw [h4]
  have : planesOf 8 (List.replicate 8 0) = some (List.replicate 8 0) := by decide +kernel
  have hz : ∀ i : Nat, BitVec.ofNat 8 ((List.replicate 8 0).foldl (fun v p => 2 * v + if Nat.testBit p i then 1 else 0) 0) = 0 := by
    intro i
    simp [List.replicate]
  simp only [expandBytes, this, Option.map_some, hz]
  rw [zeroOut, List.map_const', List.length_range]

/-- Channel 0 of core 0 walks a record at 0x800 of a stash. -/
def walking (m : Mem) : State :=
  dev id fun k => { barred (wide k) with stash := m, chans := vset (0 : BitVec 3) { Chan.idle with state := .walk, head := 0x800, va := 0x800 } k.chans }

/-- Records: kind, source, destination, lengths. -/
def rec_ (kind : Nat) (src dst : Word) (e0 e1 : BitVec 32) (aux : Word) : CopyRec :=
  { recFields 0 with ctl := BitVec.ofNat 64 (kind * 2 ^ 40), src := src, dst := dst, e0 := e0, e1 := e1, kindAux := aux }

/-- `planInStash` as a check that computes. -/
def planCheck (s : State) (p : CopyPlan) : Bool :=
  let m := s.core.stash
  let clean (a n : Nat) : Bool := decide (a + n ≤ s.core.decl.stash) && !m.poisoned a n
  decide (s.core.decl.stash ≤ 0x100000) &&
  (decide (p.rec_.kind ≠ 2) || clean p.rec_.kindAux.toNat ((p.rec_.e1.toNat + 7) / 8)) &&
  (decide (p.rec_.kind ≠ 3) || clean p.rec_.kindAux.toNat (4 * p.rec_.e1.toNat)) &&
  p.moves.all fun x => (match x.src with
      | none => true
      | some a => clean a x.n) && !m.poisoned x.dst x.n &&
    (p.targets.getD [s.me]).all fun c => decide (x.dst + x.n ≤ (s.coreAt c).decl.stash)

theorem planInStash_of {s : State} {p : CopyPlan} (h : planCheck s p = true) : planInStash s p := by
  simp only [planCheck, Bool.and_eq_true, Bool.or_eq_true, decide_eq_true_eq, List.all_eq_true, Bool.not_eq_true'] at h
  obtain ⟨⟨⟨h1, h2⟩, h3⟩, h4⟩ := h
  refine ⟨h1, fun _ _ => ⟨fun k => ?_, fun k => ?_⟩, fun x hx => ⟨fun a ha => ?_, fun _ => (h4 x hx).1.2, (h4 x hx).2⟩⟩
  · exact h2.resolve_left (fun n => n k)
  · exact h3.resolve_left (fun n => n k)
  · have := (h4 x hx).1.1
    simp only [ha, Bool.and_eq_true, decide_eq_true_eq, Bool.not_eq_true'] at this
    exact this

/-- The plan of an instruction on channel 0 of the walking core. -/
def planned (i : Instr) : Option CopyPlan := copyPlan (atStart (walking Mem.empty) 0) i

/-- An instruction is the row of its record, the channel stands at the record, the plan is legal or not and stays in the
stash, and targets that are to have arrivals are initialised. -/
def planMeets (i : Instr) (r : CopyRec) (legal : Bool) : Bool :=
  decide ((copyInstr 0 r).toOption = some i) && decide ((vget (0 : BitVec 3) (walking Mem.empty).core.chans).state = .walk) && recordOk r &&
  match planned i with
  | none => false
  | some p => decide (p.chan = 0 ∧ p.rec_ = r ∧ p.legal = legal) && planCheck (atStart (walking Mem.empty) 0) p &&
    (p.targets.getD []).all fun t => (vget (fld r.kindAux 32 6) ((walking Mem.empty).coreAt t).bars).init

theorem witness_CopyRecords :
    planMeets (.linear 0 (rec_ 0 0x100 0xFFFF0 16 0 0)) (rec_ 0 0x100 0xFFFF0 16 0 0) true = true ∧
    planMeets (.maskpack 0 (rec_ 2 0x100 0x200 8 2 0x300)) (rec_ 2 0x100 0x200 8 2 0x300) true = true ∧
    planMeets (.scatter 0 (rec_ 3 0x100 0x200 8 2 0x300)) (rec_ 3 0x100 0x200 8 2 0x300) true = true ∧
    planMeets (.reduce 0 (rec_ 5 0x100 0x200 8 2 0)) (rec_ 5 0x100 0x200 8 2 0) true = true ∧
    planMeets (.fill 0 (rec_ 8 0 0x200 8 2 0x0102030405060708)) (rec_ 8 0 0x200 8 2 0x0102030405060708) true = true ∧
    planMeets (.note 0 (rec_ 9 0 0x200 0 0 7)) (rec_ 9 0 0x200 0 0 7) true = true ∧
    planMeets (.note 0 (rec_ 9 0 0x204 0 0 7)) (rec_ 9 0 0x204 0 0 7) false = true ∧
    planMeets (.multicast 0 (rec_ 4 0x100 0x200 8 2 0x41FFFFFFF0)) (rec_ 4 0x100 0x200 8 2 0x41FFFFFFF0) true = true ∧
    (vget (1 : BitVec 3) (walking Mem.empty).core.chans).state ≠ .walk ∧ (rec_ 0 0 0 0 1 0).kind < 10 ∧
    recordOk (rec_ 0 0 0 0 1 0) = false ∧ (copyInstr 0 (rec_ 0 0 0 0 1 0)).toOption.isSome = true := by decide +kernel

/-- A core that walks a record, with the stream of zeros at 0x100, and its record. -/
def expandCore (k : Core) : Core :=
  { wide k with stash := streamMem, chans := vset (0 : BitVec 3) { Chan.idle with state := .walk, va := 0x800 } k.chans }
def expandRec : CopyRec := rec_ 6 0x100 0x1000 4096 16 0

theorem onCore_core (c : CoreId) (f : Core → Core) : (onCore c f).core = f (State.reset.coreAt c) := by
  simp [onCore, State.core, State.updCore, State.setCore, State.coreAt]

theorem witness_CopyStreams_expand :
    recordReady (onCore 0 expandCore) 0 expandRec ∧ expandRec.kind = 6 ∧ (onCore 0 expandCore).core.stash.wf = true ∧
    expandRec.e0.toNat = 4096 * [zeroOut].length ∧ expandRec.e1 ≠ 0 ∧
    cleanStash (onCore 0 expandCore) expandRec.src.toNat expandRec.e1.toNat ∧
    expandRec.dst.toNat + expandRec.e0.toNat ≤ (onCore 0 expandCore).core.decl.stash ∧
    apart expandRec.src.toNat expandRec.e1.toNat expandRec.dst.toNat expandRec.e0.toNat ∧
    chunkGood (onCore 0 expandCore).core.stash expandRec 0 16 zeroOut := by
  have hw : streamMem.wf = true := Mem.wf_write Mem.wf_empty _ _ _
  have hc : streamMem.poisoned 0x100 16 = false := by
    have : streamMem.bad = [] := by decide +kernel
    simp [Mem.poisoned, this]
  unfold recordReady cleanStash
  simp only [onCore_core, expandCore, vget_vset]
  refine ⟨⟨trivial, ?_, ?_⟩, ?_, hw, ?_, ?_, ⟨?_, ?_, hc⟩, ?_, .inl ?_, streamMem_good (by decide +kernel) (by decide +kernel)⟩ <;>
    decide +kernel

/-- A device whose slot 3 is armed for tag 0 with a last counter, and a DECRYPT record on it. -/
def armed (last : Word) : State :=
  let s := walking Mem.empty
  { s with sec := { s.sec with keys := vset (3 : BitVec 6) ⟨2, 0, 7, last⟩ s.sec.keys } }
def decryptRec : CopyRec := { rec_ 7 0x100 0x1000 16 16 5 with ctl := BitVec.ofNat 64 (7 * 2 ^ 40 + 3) }

/-- DECRYPT: every hypothesis but the tag, which is right or wrong; a counter above the last, and one not above it. -/
theorem witness_CopyStreams_decrypt :
    recordReady (armed 4) 0 decryptRec ∧ decryptRec.kind = 7 ∧ (armed 4).feature 9 = true ∧ (armed 4).core.stash.wf = true ∧
    (fld decryptRec.ctl 0 8).toNat < 64 ∧ decryptRec.e0 ≠ 0 ∧ decryptRec.e1.toNat % 16 = 0 ∧
    cleanStash (armed 4) 0x100 32 ∧ apart 0x100 32 0x1000 16 ∧
    (vget (3 : BitVec 6) (armed 4).sec.keys).state = 2 ∧ (vget (3 : BitVec 6) (armed 4).sec.keys).tag = ((armed 4).ctx 0).tag ∧
    (vget (3 : BitVec 6) (armed 4).sec.keys).lastctr < decryptRec.kindAux ∧
    decryptRec.kindAux ≤ (vget (3 : BitVec 6) (armed 5).sec.keys).lastctr := by
  unfold recordReady cleanStash apart; decide +kernel

/-- A channel in TAIL, with its next field or OWN bit in a record at 0x800. -/
def tailing (next ctl : Word) (twait : Bool) : State :=
  dev id fun k => { wide k with stash := k.stash.write 0x800 (leBytes 8 next.toNat ++ leBytes 8 ctl.toNat) false,
                                chans := vset (0 : BitVec 3) { Chan.idle with state := .tail, va := 0x800, twait := twait } k.chans }

theorem witness_CopyStreams_ends :
    ((vget (0 : BitVec 3) (walking Mem.empty).core.chans).va.toNat % 128 = 0 ∧
      barTarget (walking Mem.empty) 0 { rec_ 9 0 0x200 0 0 7 with ctl := BitVec.ofNat 64 (9 * 2 ^ 40 + 2 ^ 34) } = some (0, 1)) ∧
    barTarget (walking Mem.empty) 0 { rec_ 9 0 0x200 0 0 7 with ctl := BitVec.ofNat 64 (9 * 2 ^ 40 + 9 * 2 ^ 34) } = none ∧
    ((vget (0 : BitVec 3) (tailing 0 0 true).core.chans).state = .tail ∧ cleanStash (tailing 0 0 true) 0x800 16) ∧
    (leVal ((tailing 0x880 0 true).core.stash.bytes 0x800 8) = 0x880 ∧ leVal ((tailing 0x881 0 true).core.stash.bytes 0x800 8) % 128 ≠ 0) ∧
    (BitVec.ofNat 64 (leVal ((tailing 0 0x8000000000000000 false).core.stash.bytes 0x808 8))).getLsbD 63 = true := by
  unfold cleanStash; decide +kernel

/-! ### Units -/

/-- An S core with an active transform run at word 5; h1 is 3, loops as given. -/
def xrun (loops : List (Nat × Nat)) : State :=
  let gen : AddrGen := { AddrGen.launch with base := 0xFF0, cnt := Vector.replicate 4 0x8000 }
  let x : XSeq := { XSeq.launch with active := true, tpc := 5, loops := loops, runs := [⟨5, 2, 0, 0, 0⟩] }
  let y : XSeq := { x with h := vset (1 : BitVec 3) ⟨3, false⟩ x.h, tk := vset (2 : BitVec 3) 1 x.tk, ag := vset (0 : BitVec 4) gen x.ag }
  onCore 8 fun k => { running id k with xs := y }

/-- The active cells hold three elements; MOVE between bytes through generators 0 and 1, and one to h2. -/
def moveBytes3 : XWord := ⟨0x0001, 0, 1, 0⟩

theorem witness_TransformSequencer :
    ((onCore 8 fun k => { k with xs := { k.xs with runs := [⟨5, 2, 0, 0, 0⟩] } }).core.xs.active = false) ∧ xActive (xrun []) ∧
    ((vget (1 : BitVec 3) (xrun []).core.xs.h).val = 3 ∧ (vget (1 : BitVec 3) (xrun []).core.xs.h).bad = false ∧
      (vget (0 : BitVec 3) (xrun []).core.xs.h).val = 0 ∧ 4 ≤ (xrun (List.replicate 4 (0, 1))).core.xs.loops.length) ∧
    ((xrun [(6, 1)]).core.xs.loops = [(6, 1)] ∧ (0 : Int) ≤ 5 + (-5 : BitVec 16).toInt ∧ (5 : Int) + (4090 : BitVec 16).toInt < 4096) ∧
    ((vget (2 : BitVec 3) (xrun []).core.xs.tk).toNat = 1) ∧
    (AddrGen.launch.idx[0] + 1 = AddrGen.launch.cnt[0] ∧ ({ AddrGen.launch with cnt := Vector.replicate 4 2 } : AddrGen).idx[0] + 1 ≠ 2) ∧
    (∃ o, xferOp (.move moveBytes3) = some o ∧ o.legal 0 = true ∧ o.legal 2 = true ∧
      (xferFrom o.one 2 0 (xrun [])).isSome = true) ∧
    (∃ o, xferOp (.move { moveBytes3 with hd := 1 }) = some o ∧ o.legal 0 = false) ∧
    (xGet 0 1 (xrun [])).isSome = true := by
  refine ⟨?_, ?_, ?_, ?_, ?_, ?_, ⟨_, rfl, ?_⟩, ⟨_, rfl, ?_⟩, ?_⟩ <;> (try simp only [xActive]) <;> decide +kernel

theorem quietS : unwatched (xrun []) := by unfold unwatched Core.unwatched; decide +kernel

/-- A prefix-index operation succeeds with a property of what it gives. -/
def okPix {α : Type} (r : Except TrapInfo α × State) (p : α → Bool) : Bool := match r.1 with
  | .ok x => p x
  | _ => false

/-- A request of core 0 to an engine's object. -/
def ask (eng : EngineId) (sub : BitVec 4) (target : Nat) (a b : Word) : Req :=
  ⟨eng, 0, target, sub, ⟨a, false⟩, ⟨b, false⟩, false, 0, none⟩

/-- The device with one request waiting, the focus on sampler context 5, tree 0 and UME context 6. -/
def asking (q : Req) (m : Mem) : State :=
  { dev id (fun k => { barred k with reqs := [q], stash := m }) with focus := ⟨0, .vlq, (0, 5), 0, 6, 0⟩ }

/-- The same with bytes of HBM placed, which the granted page shows at their own address. -/
def placing (q : Req) (va : Nat) (bs : List Byte) : State :=
  let s := asking q Mem.empty
  { s with hbm := s.hbm.write va bs false }

/-- Sampler context 5 runs for core 0: two candidates, y1 = 0x40, y2 = 2. -/
def sampling : State :=
  (asking (ask .sampler 0 5 0x40 0) Mem.empty).updCluster 0 fun k =>
    { k with smp := [(5, { SmpCtx.reset with run := 1, gang := some 1, nc := 2, cands := [(0, ⟨0x3F800000, 7, false⟩), (1, ⟨0x40000000, 8, false⟩)],
                                             y := vset (1 : BitVec 3) ⟨0x40, false⟩ (vset (2 : BitVec 3) ⟨2, false⟩ SmpCtx.reset.y) })] }

theorem witness_SamplerUnits :
    ((smpEffect (.adds ⟨0, false, 2, 1, 3⟩)).isSome = true ∧ (smpCtx sampling).run = 1) ∧
    (yGet (smpCtx sampling) 2).bad = false ∧
    (smpRunning sampling = some (0, ask .sampler 0 5 0x40 0)) ∧
    (smpWaiting (asking (ask .sampler 0 5 0x40 0) Mem.empty) = some (0, ask .sampler 0 5 0x40 0) ∧
      (smpCtx (asking (ask .sampler 0 5 0x40 0) Mem.empty)).run ≠ 1) ∧
    (smpFits (asking (ask .sampler 0 5 0x40 0) Mem.empty) 0 0x40 32 3 ∧ Mem.empty.poisoned 0x40 96 = false ∧
      leVal (Mem.empty.bytes 0x40 4) ≤ 1023 ∧ leVal (Mem.empty.bytes 0x44 4) < 4 ∧
      1023 < leVal ((Mem.empty.write 0x40 (leBytes 4 1024) false).bytes 0x40 4)) ∧
    (smpFits sampling 0 (yGet (smpCtx sampling) 1).val 4 (yGet (smpCtx sampling) 2).val.toNat ∧
      (yGet (smpCtx sampling) 2).val.toNat ≤ 4096 ∧ yClean (smpCtx sampling) [1, 2] ∧ (yGet (smpCtx sampling) 0).val.toNat < (smpCtx sampling).nc ∧
      (cand (smpCtx sampling) 0).bad = false ∧ (smpCtx sampling).nc ≤ (yGet (smpCtx sampling) 2).val.toNat ∧ smpFits sampling 0 0x40 8 1) := by
  refine ⟨?_, ?_, ?_, ?_, ?_, ?_⟩ <;> (try simp only [smpFits, Core.unwatched, yClean]) <;> decide +kernel

/-- The device with tree 0 installed: 16 nodes at VA 1 MiB and 64 KiB, tag 0. -/
def treed (q : Req) : State :=
  let s := asking q Mem.empty
  { s with trees := vset (0 : BitVec 3) ⟨0x100000, 0x110000, 16, 0, true, 0⟩ s.trees }

/-- A LOOKUP of one block of tokens whose descriptor stands at VA 0x140000, its ids at 0x140100. -/
def lookupReq : Req := ask .pix 0 0 0x140000 0x140200
def looking : State := placing lookupReq 0x140000 (leBytes 8 16 ++ leBytes 8 0x140100 ++ leBytes 8 0x140180)

theorem witness_PrefixIndexRequests :
    (∃ x, pixOp .pixLookupRequest = some x ∧ x.1 = 0) ∧
    (pixRequest 1 (treed lookupReq) = none ∧ pixRequest 0 (treed lookupReq) = some (0, lookupReq)) ∧
    ((vget (0 : BitVec 3) (asking lookupReq Mem.empty).trees).installed = false ∧
      (vget (0 : BitVec 3) (treed lookupReq).trees).tag = ((treed lookupReq).ctx 0).tag) ∧
    (∃ e : PixEnv, e.tree.nmax = 16 ∧ okPix (pixDesc e 0x140000 looking) (fun d => decide (d = (16, 0x140100, 0x140180))) = true ∧
      okPix (pixNum e 0x140100 64 looking) (fun t => decide (t = 0)) = true ∧
      okPix (nodeField e 1 0x5C looking) (fun v => decide (v % 2 = 0)) = true ∧
      okPix (evictPick e looking) (fun p => decide (p = none)) = true ∧
      (evictLoop e 0x140200 (min (3 % 2 ^ 32) e.tree.nmax) [] looking).2 = ([], none)) ∧
    (16 ≤ (16 : Nat) ∧ 0 < 15 ∧ 15 < 16) := by
  refine ⟨⟨_, rfl, rfl⟩, ?_, ?_, ⟨⟨⟨0x100000, 0x110000, 16, 0, true, 1⟩, 0, 0⟩, ?_⟩, ?_⟩ <;> decide +kernel

/-- A block of 2 positions in one group, top-k of 1: token ids at VA 1 MiB, bitmap at VA 0x100400 (R333). -/
def umeBlockBytes : List Byte :=
  leBytes 2 2 ++ [1, 1] ++ leBytes 2 1 ++ [0, 0] ++ leBytes 4 0 ++ [0, 0, 0, 0] ++ leBytes 8 0x100000 ++ leBytes 8 0x100400 ++
    List.replicate 32 0
def umeCfg0 : UmeCfg :=
  { len := 2, groups := 1, kind := 1, q := 1, w := 0, rper := 0, thr := 0, cdg := 0, bdg := 0, tokva := 0x100000, mapva := 0x100400, ctx := 0 }

/-- A CFG whose block stands at VA 0x140000. -/
def configuring : State := placing (ask .ume 0 6 0x140000 0) 0x140000 umeBlockBytes

/-- The device with a UME request, its context configured with both positions posted. -/
def unmasking (q : Req) : State :=
  umePut 0 6 ⟨some umeCfg0, [0, 1], 0, some [(0, 0x3F800000, 5), (1, 0x40000000, 6)], [(0, 0)], some 1⟩ (asking q Mem.empty)

theorem witness_UnmaskingRequests :
    (umeServing configuring 0 0 (ask .ume 0 6 0x140000 0) default ∧
      okWith (globalRead 0 0 0x140000 64 configuring) (fun x =>
        decide (umeBlock x.2.1 0 = some umeCfg0 ∧ x.2.2 = false)) = true ∧
      okWith (globalWrite 0 0 0x100400 (mapBytes 2 [0, 1]) false (unmasking (ask .ume 0 6 0x140000 0))) (fun _ => true) = true ∧
      umeBlock (List.replicate 64 0) 0 = none) ∧
    (umeServing (asking (ask .ume 2 6 0 0) Mem.empty) 2 0 (ask .ume 2 6 0 0) default ∧ (default : UmeCtx).cfg = none) ∧
    (umeServing (unmasking (ask .ume 1 6 0x140080 0x1400C0)) 1 0 (ask .ume 1 6 0x140080 0x1400C0) (umeGet (unmasking (ask .ume 1 6 0x140080 0x1400C0)) 0 6) ∧
      [(0, (0 : BitVec 32), (0 : BitVec 32)), (1, 0, 0)].map (·.1) = (umeGet (unmasking (ask .ume 1 6 0x140080 0x1400C0)) 0 6).masked) ∧
    (umeServing (unmasking (ask .ume 2 6 0x140080 0)) 2 0 (ask .ume 2 6 0x140080 0) (umeGet (unmasking (ask .ume 2 6 0x140080 0)) 0 6) ∧
      okWith (globalWrite 0 0 0x140080 [1, 0] false (unmasking (ask .ume 2 6 0x140080 0))) (fun _ => true) = true) ∧
    (umeServing (unmasking (ask .ume 3 6 0x80 0x100)) 3 0 (ask .ume 3 6 0x80 0x100) (umeGet (unmasking (ask .ume 3 6 0x80 0x100)) 0 6) ∧
      (0x80 : Nat) % 64 = 0 ∧ 0 < umeCfg0.groups ∧ (vget (1 : BitVec 6) ((unmasking (ask .ume 3 6 0x80 0x100)).coreAt 0).bars).init = true ∧
      0x80 + 2 * 96 ≤ testDecl.stash ∧ testDecl.stash < 0xFC0 + 2 * 96 ∧ (0x81 : Nat) % 64 ≠ 0) := by
  unfold umeServing; refine ⟨?_, ?_, ?_, ?_, ?_⟩ <;> decide +kernel

/-- An FE request with a record bound, without an FE area, and with all records of the engine taken by another. -/
def feAsk (sub : BitVec 4) : Req := ask .fe sub 0 0 2

theorem witness_FittingRequests :
    ((bindRegion 0 0 (asking (feAsk 1) Mem.empty)).2 = .off ∧ feRequest 1 (asking (feAsk 1) Mem.empty) = some (0, feAsk 1) ∧
      feRequest 0 (asking (feAsk 0) Mem.empty) = some (0, feAsk 0)) ∧
    ((bindRegion 0 0 (fitted 4 fun k => { k with reqs := [feAsk 2] })).2 = .record (feRec 4) ∧
      feRequest 2 (fitted 4 fun k => { k with reqs := [feAsk 2] }) = some (0, feAsk 2) ∧ settOk 0 2 = true ∧ settOk 0 0xFFFFFFFFFFFFFFFF = false ∧
      okWith (writeRecord 0 (feRec 4) true (fitted 4 fun k => { k with reqs := [feAsk 1] })) (fun _ => true) = true) := by decide +kernel

/-- A cluster and a die with work handed over, on a core with barriers; a commit descriptor at VA 1 MiB with 3 tentative rows. -/
def committing : State :=
  let s := dev id barred
  let s := s.updCluster 0 fun k => { k with kvc := [⟨0, 0x100000, 2, 1, 0, some 1⟩] }
  let s := s.updDie 0 fun d => { d with walker := [⟨0, 0, false, 1, 0x100000, 128, 2, 256⟩] }
  { s with hbm := s.hbm.write 0x100000 (leBytes 4 5 ++ leBytes 4 100 ++ leBytes 8 0 ++ leBytes 4 3 ++ leBytes 4 0xFFFFFFFF ++
      leBytes 8 0x100400 ++ List.replicate 32 0) false }

theorem witness_CommitsAndWalks :
    (((committing.cluster 0).kvc = [⟨0, 0x100000, 2, 1, 0, some 1⟩]) ∧ (committing.coreAt 0).gang = some 1 ∧
      ((committing.updCore 0 fun k => { k with gang := none }).coreAt 0).gang ≠ some 1 ∧
      (vget (1 : BitVec 6) ((commit 0 0 0x100000 2 (committing.updCluster 0 fun k => { k with kvc := [] })).st.coreAt 0).bars).init = true ∧
      (commit 0 0 0x100000 2 committing).status = 0 ∧ (commit 0 0 0x100000 2 committing).len = 7) ∧
    ((0x100040 : Word).toNat % 64 = 0 ∧ (0x100001 : Word).toNat % 64 ≠ 0 ∧ (0xFFFC0 : Word).toNat < 0x100000) ∧
    (okWith (translate 0 0 0x100000 .read committing) (fun x => decide (x.2.region = .lcl)) = true ∧
      okWith (commitIds 0 0 0x100400 5 2 committing) (fun x => decide (x.2.1 = [0, 0] ∧ x.2.2 = false)) = true ∧
      okWith (commitWrite 0 0 0x100000 7 0 0 committing) (fun _ => true) = true) ∧
    ((committing.die 0).walker = [⟨0, 0, false, 1, 0x100000, 128, 2, 256⟩]) ∧
    (((dev id id).cluster 0).kvc = [] ∧ ((dev id id).die 0).walker = []) ∧
    ((0x100000 : Word).toNat < 2 ^ 52 ∧ (dev id id).core.tlb.find? (tlbHit 0 0x100000) = none ∧
      ((dev id id).cluster 0).tlb.find? (tlbHit 0 0x100000) = none ∧
      (∀ g ∈ (dev id id).grans, g.home.space = .hbm → g.dirty = 0) ∧
      okWith (walkFrom (some 0) 0 0x100000 (countWalk 0 (dev id id))) (fun x => decide (x.2.1 = leaf1G ∧ x.2.2 = 3)) = true ∧
      ((dev id id).updCluster 0 fun k => { k with tlb := [⟨0, 0, 3, leaf1G⟩] }).core.tlb.find? (tlbHit 0 0x100000) = none ∧
      (((dev id id).updCluster 0 fun k => { k with tlb := [⟨0, 0, 3, leaf1G⟩] }).cluster 0).tlb.find? (tlbHit 0 0x100000) =
        some ⟨0, 0, 3, leaf1G⟩) := by
  refine ⟨?_, ?_, ?_, ?_, ?_, ?_⟩ <;> decide +kernel

/-- A dirty granule 0x40, a subscription of slot 2 with a push due, a line in the agent's filter. -/
def watched : State :=
  let s := dev id subscribed
  { s with grans := [gran0 .lcl 0 3], subs := [⟨0, 2, ⟨.hbm, 0x100000⟩, 2, false, 0⟩],
           pool := { s.pool with filter := [(1, 7)] } }

theorem witness_MemoryEvents :
    ((granFind watched 0 0x41).isNone = true ∧ (granFind watched 0 0x40).isSome = true) ∧
    ((63 : Nat) < 64 ∧ watched.hbm.wf = true ∧ ((dev id id).coreAt 0).stash.wf = true ∧ granBarred (gran0 .lcl 0 3) watched = false ∧
      granTagOk (gran0 .lcl 0 3) watched = true ∧ badBlockHit watched ⟨.hbm, 0x100000⟩ false 64 = false) ∧
    (granBarred (gran0 .host 0 3) (dev id fun k => { k with stash := k.stash.write 0x1000 [1] true }) = true ∧
      granTagOk (gran0 .lcl 9 3) { watched with hbm := tables.write 0x20000 (leBytes 8 0x09000000000000C3) false } = false) ∧
    ((watched.subs.find? fun u => decide (u.core = watched.me) && decide (u.slot = 2)).isSome = true ∧
      (watched.subs.find? fun u => decide (u.core = watched.me) && decide (u.slot = 3)).isNone = true ∧ watched.subs.all (fun u => u.pending != 0) = true) ∧
    (watched.pool.filter.contains (1, 7) = true ∧ watched.pool.filter.contains (1, 8) = false ∧
      (∀ u ∈ watched.subs, u.word.space ≠ .pool 1) ∧ requestInFlight 1 8 watched = false ∧
      requestInFlight 1 8 (dev id fun k => { k with stores := [⟨⟨.pool 1, 1024⟩, .poolBi, false, 0x100000, [1], false, 0, none, none⟩] }) = true) ∧
    (after (exec (.sramErrorPoisoned (.accRow 383)) (dev id id)) (fun _ => true) = true ∧
      after (exec (.sramErrorPoisoned (.walkCache 0)) (watched.updDie 0 fun d => { d with wcache := [⟨0, 2, 0, 0x20001⟩] }))
        (fun t => (t.die 0).wcache == []) = true ∧ (383 : BitVec 9).toNat < 384) := by
  refine ⟨?_, ?_, ?_, ?_, ?_⟩ <;> decide +kernel

/-- The sequencer of core 0 is the next mover; its words are an ADDI, then zeros. -/
def fetching (f : SeqRegs → SeqRegs) (g : Core → Core) : State :=
  { dev (fun r => f { r with pc := 0 }) (fun k => g { k with cmem := k.cmem.write 0x100 (leBytes 4 0xFFEC4108) false }) with agenda := [.seq 0] }

theorem witness_StepRunsDecoded :
    ((fetching id id).powered = true ∧ (fetching id id).agenda = [.seq 0] ∧ (fetching id id).core.rg.status = .running ∧
      (fetching id id).core.pend = [] ∧
      (fetching id id).grans = [] ∧ controlUnit (fetching id id).core 0x100 = 0xFFEC4108 ∧
      (decodeControl (controlUnit (fetching id id).core 0x100) 0 0).toOption = some (.addi (-5) 2 1) ∧
      0x100 + 4 * (unitCount 0xFFEC4108 - 1) < 0xE000) ∧
    (0xE000 ≤ 0xDFFC + 4 * (unitCount 2 - 1) ∧ 0x10000 ≤ 0xFFFC + 4 * (unitCount 2 - 1) ∧
      decodeRefused 0 (.addi (-5) 2 1) = false ∧ decodeRefused 0 (.xrun 1 1 0) = true ∧ decodeRefused 8 (.xrun 1 1 0) = false) ∧
    (fetching id fun k => { k with pend := [⟨.mx, 1, 0, 0⟩] }).core.pend ≠ [] ∧
    ((prepare (.kvc 0) { committing with agenda := [] }).2 = some (.kvcCommit 0) ∧ (prepare (.clock 3) { committing with agenda := [] }).2 = none) ∧
    powersUp (.kvc 0) = false := by decide +kernel

theorem witness_ControlRoundTrip :
    (Instr.cmpl .tst ⟨1, false⟩ 1 0x89ABCDEF 5 .or 6).wellFormed = true ∧
    (encodeControl (.cmpl .tst ⟨1, false⟩ 1 0x89ABCDEF 5 .or 6)) = some [0x4002D82F, 0x00005001, 0x89ABCDEF] ∧
    (decodeControl 0x4002D82F 0x00005001 0x89ABCDEF).toOption = some (.cmpl .tst ⟨1, false⟩ 1 0x89ABCDEF 5 .or 6) := by decide +kernel

theorem witness_StreamRoundTrips :
    (encodeVector (.vadd word0)).isSome = true ∧ (encodeMatrix (.mzero { mword0 with afmt := 0, bfmt := 0 })).isSome = true ∧
    (decodeSampler 0xFFFE8452).toOption = some (.addsImmediate ⟨0xFFFE, true, 0, 2, 1⟩) ∧
    encodeSampler (.addsImmediate ⟨0xFFFE, true, 0, 2, 1⟩) = some 0xFFFE8452 := by decide +kernel

/-! ### The scheduler -/

/-- The device in a start-up phase. -/
def inPhase (p : BitVec 4) (s : State) : State := { s with ident := { s.ident with phase := p } }

/-- A graph header of one node at VA 0x100080, DONEEV 0, no FAILEV, DONECNT 1 (R379). -/
def headerBytes : List Byte :=
  leBytes 4 1 ++ leBytes 4 0 ++ leBytes 8 0x100080 ++ leBytes 2 0 ++ leBytes 2 0xFFFF ++ leBytes 4 1 ++ List.replicate 40 0

/-- A KERNEL descriptor of one M core, and the same with a wait for event 3 to reach 1 (R381). -/
def descBytes (nwait : Byte) : List Byte :=
  [0, 0, 1, 0, 3, 0, nwait, 0] ++ leBytes 8 0x180000 ++ List.replicate 48 0 ++ leBytes 4 1 ++ leBytes 2 3 ++ List.replicate 58 0

/-- The device with n roots of context 0 queued, the header, and the descriptors at 0x100080 and 0x100100. -/
def submitted (n : Nat) : State :=
  let s := dev id id
  let m := ((s.hbm.write 0x100000 headerBytes false).write 0x100080 (descBytes 0) false).write 0x100100 (descBytes 1) false
  { s with hbm := m, sched := { s.sched with submits := vset (0 : BitVec 6) ⟨List.replicate n 0x100000, false⟩ s.sched.submits } }

theorem witness_SubmissionsAndHeaders :
    ((dev id id).ident.phase = 5 ∧ (dev id id).feature 127 = true ∧ ((dev id id).ctx 0).valid = true ∧
      (vget (0 : BitVec 6) (dev id id).sched.submits).roots.length < 16 ∧ (inPhase 4 (dev id id)).ident.phase ≠ 5) ∧
    (16 ≤ (vget (0 : BitVec 6) (submitted 16).sched.submits).roots.length ∧ ((dev id id).ctx 1).valid = false) ∧
    (walkerTurn (dev id id) ≠ some 0 ∧ walkerTurn (submitted 1) = some 0) ∧
    ((readHeader 0 0x100000 (submitted 1)).isSome = true ∧ readHeader 0 0x100080 (submitted 1) = none ∧
      okWith (hubTranslate 0 0x100000 .read (submitted 1)) (fun x => decide (x.2.region = .lcl)) = true ∧
      okWith (hubBytes 0 0x100000 64 (submitted 1)) (fun x => decide (x.2.1 = headerBytes ∧ x.2.2 = false)) = true ∧
      headerLegal ((submitted 1).ctx 0) 0x100000 .lcl headerBytes false ∧
      ¬headerLegal ((submitted 1).ctx 0) 0x100020 .lcl headerBytes false) := by
  refine ⟨?_, ?_, ?_, ?_, ?_⟩ <;> (try simp only [headerLegal]) <;> decide +kernel

/-- A graph of context 0 in flight whose descriptors begin at an address. -/
def graphAt (nodes : Word) (next : Nat) (retired : Bool) : State :=
  let s := submitted 0
  { s with sched := { s.sched with graphs := [⟨3, 0, 2, nodes, 0, none, 1, next, retired⟩] } }

/-- A node of a kind and state, of no graph. -/
def nodeOf (kind : Nat) (st : NodeState) (aux : Word) : Node :=
  { id := 9, graph := none, slot := none, idx := 0, ctx := 0, va := 0, desc := { descOf (descBytes 0) [] with kind := kind, aux := aux },
    state := st, run := 0, order := 0, since := 0, gang := none, pred := none }

/-- A node of context 0 that has not run, and no gang; a root that is queued and one that is taken. -/
theorem witness_NodesAndEvents_completions :
    (let s := { dev id id with sched := { (dev id id).sched with gangs := [], nodes := [nodeOf 0 .waiting 0] } }
     s.ident.phase = 5 ∧ (∀ n ∈ s.sched.nodes, n.ctx = 0 → n.gang = none ∧ n.run = 0 ∧ n.state ≠ .placed ∧ n.state ≠ .running) ∧
      (∀ g ∈ s.sched.gangs, g.ctx ≠ 0) ∧ ∀ n ∈ s.sched.nodes, n.desc.kind = 2 → n.state ≠ .waiting) ∧
    ((dev id id).ident.phase = 5 ∧ (dev id id).feature 127 = true ∧ ((dev id id).ctx 0).valid = true ∧
      (vget (0 : BitVec 6) (dev id id).sched.submits).roots.length < 16) ∧
    (walkerTurn (submitted 1) = some 0 ∧ (vget (0 : BitVec 6) (submitted 1).sched.submits).roots = [0x100000]) := by
  refine ⟨?_, ?_, ?_⟩ <;> decide +kernel

theorem witness_NodesAndEvents :
    ((∀ g ∈ (dev id id).sched.graphs, g.id ≠ 3) ∧
      ((graphAt 0x100080 0 false).sched.graphs.find? fun g => decide (g.id = 3)).isSome = true ∧
      walkerReads 0 (graphAt 0x100080 0 false) = true ∧ walkerReads 0 State.reset = false) ∧
    ((readDesc 0 0x100080 (graphAt 0x100080 0 false)).map (·.waits) = some [] ∧
      (readDesc 0 0x100100 (graphAt 0x100080 1 false)).map (·.waits) = some [(3, 1)] ∧
      readDesc 0 0x100000 (graphAt 0x100000 0 false) = none ∧ 1 ≤ waitRoom (graphAt 0x100080 0 false)) ∧
    ((nodeOf 0 .waiting 0).state = .waiting ∧ (nodeOf 0 .waiting 0).desc.kind ≠ 2 ∧ (∀ w ∈ (nodeOf 0 .waiting 0).desc.waits, w.2 ≤ evCount (dev id id) w.1) ∧
      (dev id id).sched.nodes = [] ∧ (dev id id).sched.waits = [] ∧ (dev id id).sched.spill = []) ∧
    (0 ≤ evCount (dev id id) 3 ∧ evCount (dev id id) 3 < 1 ∧ (dev id id).sched.waits.length < 8192 ∧
      (List.replicate 8192 (⟨0, 3, 1⟩ : Wait)).length = 8192 ∧ (inPhase 2 (dev id id)).ident.phase ≠ 5) := by
  refine ⟨?_, ?_, ?_, ?_⟩ <;> decide +kernel

/-- The spill ring has no room and the pool of waits is full: the walker waits. -/
theorem witness_NodesAndEvents_full :
    waitRoom { dev id id with sched := { (dev id id).sched with waits := List.replicate 8192 ⟨0, 3, 1⟩ } } < 1 := by decide +kernel

/-- The device with one node; partition 0 has every cluster and a share of 8 ready nodes. -/
def withNode (n : Node) : State :=
  let s := submitted 0
  { s with sched := { s.sched with nodes := [n] }, parts := vset (0 : BitVec 3) ⟨0xFFFFFFFF, 0, 0, 0, 8⟩ s.parts }

theorem witness_NodesWithoutCores :
    (noEligible (withNode (nodeOf 2 .waiting 0x100000)) 9 2 ∧
      eligibleNode (withNode (nodeOf 2 .eligible 0x100000)) 9 2 (nodeOf 2 .eligible 0x100000) ∧
      eligibleNode (withNode (nodeOf 3 .eligible 5)) 9 3 (nodeOf 3 .eligible 5) ∧
      eligibleNode (withNode (nodeOf 4 .eligible 0)) 9 4 (nodeOf 4 .eligible 0)) ∧
    (okWith (hubRead 0 0x100000 4 (withNode (nodeOf 2 .eligible 0x100000))) (fun x => decide (leVal x.2.1 = 1 ∧ x.2.2 = false)) = true ∧
      okWith (hubRead 0 0x100080 4 { withNode (nodeOf 2 .eligible 0x100080) with
        hbm := (dev id id).hbm.write 0x100080 (List.replicate 4 0) true }) (fun x => x.2.2) = true ∧
      (match hubRead 0 0x40 4 (withNode (nodeOf 2 .eligible 0x40)) with
        | .error (.trap _) => true
        | _ => false) = true) ∧
    (({ nodeOf 2 .eligible 0 with pred := some (.word 1) } : Node).pred = some (.word 1) ∧ (nodeOf 2 .eligible 0).pred = none ∧
      ({ nodeOf 2 .eligible 0 with pred := some (.failed 3) } : Node).pred = some (.failed 3) ∧
      findNode (withNode (nodeOf 2 .eligible 0x100000)) 9 = some (nodeOf 2 .eligible 0x100000)) ∧
    ((findNode (withNode (nodeOf 1 .running 2)) 9).isSome = true ∧ (nodeOf 1 .running 2).run + 1 < 2 ∧
      2 ≤ ({ nodeOf 1 .running 2 with run := 1 } : Node).run + 1) ∧
    (entersReady (withNode (nodeOf 0 .eligible 0)) (nodeOf 0 .eligible 0) ∧
      ¬entersReady (withNode (nodeOf 0 .waiting 0)) (nodeOf 0 .waiting 0)) := by
  refine ⟨⟨?_, ?_⟩, ?_, ?_, ?_, ?_⟩
  · rintro n ⟨h, h2, -⟩
    have : n = nodeOf 2 .waiting 0x100000 := (Option.some.inj (h.symm.trans (by decide +kernel : _ = some (nodeOf 2 .waiting 0x100000))))
    subst this
    revert h2; decide +kernel
  all_goals ((try simp only [eligibleNode, entersReady]); decide +kernel)

/-- READY nodes: with an uninstalled tree, and with a gang that is saved on core 0. -/
def readyNode (pix : Byte) (gang : Option Nat) : Node :=
  let n := nodeOf 0 .ready 0
  { n with gang := gang, desc := { n.desc with pixmask := pix } }

/-- The device with a READY node and gang 1 as given. -/
def readyAt (n : Node) (g : Gang) : State :=
  let s := withNode n
  let busy : Core := { running id (Core.reset true) with gang := some 1 }
  { s with dcc := 2000000, cores := ((Vector.replicate 320 (Core.reset true)).set 0 busy).set 1 busy, sched := { s.sched with gangs := [g], saven := 2 } }

/-- Gang 1 alone on core 0 in a state, with save slots. -/
def soloGang (st : GangState) (slots : List Nat) : Gang := { testGang with members := [0], smp := [], state := st, slots := slots, node := 9 }

theorem witness_PlacementAndPreemption :
    ((dev id id).sched.run = true ∧ State.reset.sched.run = false ∧ (readyRanked (dev id id)) = []) ∧
    ((pickNode (readyAt (readyNode 0 none) testGang) (readyRanked (readyAt (readyNode 0 none) testGang)) []).isSome = true ∧
      treesOk (readyAt (readyNode 0 none) testGang) (readyNode 0 none) = true ∧
      treesOk (readyAt (readyNode 1 none) testGang) (readyNode 1 none) = false) ∧
    ((readyNode 0 (some 1)).gang.bind (findGang (readyAt (readyNode 0 (some 1)) (soloGang .saved [0]))) = some (soloGang .saved [0])) ∧
    (([0, 1] : List CoreId).Nodup ∧ (findNode (readyAt (readyNode 0 none) testGang) 9).isSome = true) := by
  refine ⟨?_, ?_, ?_, ?_⟩ <;> decide +kernel

/-- The gang of a node of its own runs on cores 0 and 1, and a node of priority 5 has waited: with all M cores of the one
cluster taken it asks the gang to stop; a node for which no gang would do asks none. -/
def crowded (prio : Nat) : State :=
  let n := readyNode 0 none
  let n := { n with desc := { n.desc with prio := prio, gangm := 8 } }
  let s := readyAt n { testGang with prio := 0 }
  { s with parts := vset (0 : BitVec 3) ⟨1, 0, 0, 0, 8⟩ s.parts,
           sched := { s.sched with nodes := [n, { n with id := 7, state := .running, gang := some 1 }] } }

/-- A partition's first node has waited for 1 ms, or not yet; a saved gang has lost its core. -/
theorem witness_PlacementAndPreemption_holds :
    (dueHolds (crowded 5) (readyRanked (crowded 5)) [] = [9] ∧ (noteHolds (crowded 5)).sched.holds = [9] ∧
      waited { crowded 5 with dcc := 1000 } (readyNode 0 none) < 650000 ∧
      ((readyRanked (crowded 5)).filter fun x => decide (((crowded 5).ctx x.ctx).part = 0)).length = 1 ∧
      pickNode (noteHolds (crowded 5)) (readyRanked (noteHolds (crowded 5))) [] = none) ∧
    (let s := (readyAt (readyNode 0 (some 1)) (soloGang .saved [0])).updCore 0 fun k => { k with inSvc := false }
     (match pickNode (noteHolds s) (readyRanked (noteHolds s)) [] with
       | some (n, _, _) => gangBroken (noteHolds s) n
       | none => false) = true) := by
  refine ⟨?_, ?_⟩ <;> decide +kernel

theorem witness_PlacementAndPreemption_stops :
    ((victims (crowded 5) ((findNode (crowded 5) 9).getD (nodeOf 0 .ready 0)) 0).length = 1 ∧
      (crowded 5).sched.run = true ∧ 650000 ≤ waited (crowded 5) ((findNode (crowded 5) 9).getD (nodeOf 0 .ready 0)) ∧
      pausedNode (crowded 5) ((findNode (crowded 5) 9).getD (nodeOf 0 .ready 0)) = false ∧
      enoughVictims (crowded 5) ((findNode (crowded 5) 9).getD (nodeOf 0 .ready 0)) 0 []
        (victims (crowded 5) ((findNode (crowded 5) 9).getD (nodeOf 0 .ready 0)) 0) = some [{ testGang with prio := 0 }] ∧
      enoughVictims (crowded 1) ((findNode (crowded 1) 9).getD (nodeOf 0 .ready 0)) 0 []
        (victims (crowded 0) ((findNode (crowded 0) 9).getD (nodeOf 0 .ready 0)) 0) = none) ∧
    (findNode (crowded 5) 1 = none ∧ (findNode (crowded 5) 9).isSome = true) ∧
    (2 ≤ (freeSlots (crowded 5)).length ∧ (freeSlots State.reset).length < 1 ∧
      ((crowded 5).sched.gangs.filter fun h => decide (h.num = 1)) = [{ testGang with prio := 0 }]) := by
  refine ⟨?_, ?_, ?_⟩ <;> decide +kernel

/-- A kernel image for one M core at VA 0x180000: entry 0, 32 registers, no sections (R317). -/
def imageBytes0 : List Byte :=
  leBytes 4 0x4D49524B ++ leBytes 2 1 ++ leBytes 2 0x100 ++ leBytes 8 0 ++ leBytes 8 0x8000000000000000 ++ leBytes 2 0 ++
    leBytes 2 0xFFFF ++ [32, 0, 0, 1] ++ leBytes 4 64 ++ [1, 0, 0, 0, 0, 0, 0, 0] ++ List.replicate 212 0

/-- A gang of core 0 that is placed, its boot mailbox written, STAMPED as said, in a cluster at a P-state. -/
def launching (g : Gang) (pstate : BitVec 3) : State :=
  let s := readyAt { readyNode 0 (some 1) with state := .placed } g
  let s := s.updCore 0 fun k => { k with rg := { k.rg with status := .off }, boot := ⟨0x180000, 0, 0, 0, 0, 0, true, 1, 0⟩ }
  let s := s.updCluster 0 fun k => { k with pstate := pstate }
  { s with hbm := s.hbm.write 0x180000 imageBytes0 false }

/-- A core of a stopping gang that has stopped and is idle. -/
def stopping (status : SeqStatus) (k : Core) : Core := { k with rg := { k.rg with status := status } }

theorem witness_GangStartsAndSaves :
    (findGang (launching (soloGang .placed []) 2) 1 = some (soloGang .placed []) ∧
      ((launching (soloGang .placed []) 2).coreAt 0).boot.go = true ∧ ((dev id id).coreAt 0).boot.go = false ∧
      gangOf (launching (soloGang .placed []) 2) 0 = some (soloGang .placed []) ∧ gangOf (dev id id) 0 = some testGang ∧
      gangOf (launching { soloGang .placed [] with num := 2 } 2) 0 = none) ∧
    ((match checkMembers ((findNode (launching (soloGang .placed []) 2) 9).map fun n => (n.desc.gangm, n.desc.gangs, n.desc.cls)) [0]
        (launching (soloGang .placed []) 2) with
      | .ok (u, ls) => decide (ls.length = 1 ∧ (u.cluster 0).pstate = 2)
      | .error _ => false) = true) ∧
    ((∀ g ∈ (dev id id).sched.gangs, g.cluster = 0 → g.state ≠ .waitP0) ∧
      ((launching (soloGang .waitP0 []) 2).sched.gangs.filter fun g => decide (g.cluster = 0) && decide (g.state = .waitP0)) = [soloGang .waitP0 []]) ∧
    (findGang (dev id id) 2 = none ∧ findGang (dev id id) 1 = some testGang ∧ canSave testGang (dev id id) = false) := by
  refine ⟨?_, ?_, ?_, ?_⟩ <;> decide +kernel

theorem witness_GangStartsAndSaves_saved :
    (canSave (soloGang .stopping [0]) ((readyAt (readyNode 0 (some 1)) (soloGang .stopping [0])).updCore 0 (stopping .stopped)) = true) ∧
    (fatalPending testGang = none ∧ fatalPending { testGang with done := [1], pending := [(1, ⟨.mx, 1, 0, 0⟩)] } = some (1, ⟨.mx, 1, 0, 0⟩) ∧
      (∃ c ∈ testGang.members, c ∉ testGang.done ∧ ((dev id id).coreAt c).rg.status ≠ .stopped)) ∧
    ((soloGang .placed [0]).slots ≠ [] ∧ (soloGang .placed [0]).state = .placed ∧ testGang.slots = [] ∧
      testGang.state ≠ .stopping ∧ (soloGang .stopping [0]).state = .stopping) ∧
    (((dev id (stopping .stopped)).coreAt 0).rg.status = .stopped ∧ ((dev id id).coreAt 0).rg.status ≠ .stopped) := by
  refine ⟨?_, ?_, ?_, ?_⟩ <;> decide +kernel

/-- A core whose VAQ head waits for FIFO lf0, which no word fills; and one that has halted with an element in a FIFO. -/
def starved (h : Core → Core) : State := onQueue .vaq (ventry (.vadd fifoWord)) id h
def leftOver (k : Core) : Core :=
  { k with rg := { k.rg with status := .halted }, eng := { k.eng with fifos := k.eng.fifos.set 0 [⟨[], 0, 0, .prologue⟩] } }

theorem witness_CoresStopAndEnd :
    (gangOf (user id) (user id).me = none ∧ gangOf (dev id id) (dev id id).me = some testGang ∧
      (gangOf (launching (soloGang .stopping [0]) 2) 0).map (·.state) = some .stopping ∧
      atPoint (dev id id) 0 = true ∧ (dev id id).core.rg.status = .running ∧ (dev id id).core.pend = [] ∧
      atPoint (super id) 0 = false) ∧
    ((waitsOnFifo (starved id).core .vaq = true ∧ (∀ q ∈ allQueues, canBegin q (starved id) = false) ∧
      (starved id).core.rg.status ≠ .off ∧ (starved id).core.rg.status ≠ .killed) ∧
      (dev id leftOver).core.rg.status = .halted ∧ queuesEmpty (dev id leftOver).core = true ∧
      (∃ f ∈ (dev id leftOver).core.eng.fifos.toList, f ≠ []) ∧
      ∀ q ∈ allQueues, waitsOnFifo (dev id id).core q = false ∧ canBegin .vaq (onQueue .vaq (ventry (.vadd word0)) id id) = true) ∧
    (((starved (stopping .stopped)).core.eng.queue .vaq).entries ≠ [] ∧ (starved (stopping .stopped)).core.rg.status = .stopped ∧
      (dev id (stopping .stopped)).core.rg.status = .stopped ∧ (∀ q ∈ allQueues, ((dev id id).core.eng.queue q).entries = []) ∧
      ∀ f ∈ (dev id id).core.eng.fifos.toList, f = []) ∧
    ((dev id id).stallt = 0 ∧ holdsWork (.matrix 0) (onMxq (mentry (.mzero mword0)) 0 id) = true ∧ holdsWork (.matrix 0) (dev id id) = false) ∧
    (canFinish (dev id (stopping .halted)).core = true ∧ canFinish (dev id leftOver).core = false ∧
      gangOf (onCore 0 fun k => { running id k with rg := { k.rg with status := .halted } }) 0 = none) ∧
    ((onCore 0 (fun k => { k with rg := { k.rg with status := .killed } })).core.gang = none ∧
      (dev id asked).core.reqs.any (fun r => r.result.isNone) = true ∧
      (onCore 0 (fun k => { k with rg := { k.rg with status := .killed } })).core.reqs = []) := by
  refine ⟨?_, ?_, ?_, ?_, ?_, ?_⟩ <;> decide +kernel

/-! ### Host registers, pool, security, resets -/

/-- A coalescer slot of a ring of 16 with two requests of arrival time 0, and its tail word at VA 0x150000. Every context is
the same, since the slot's is not given. -/
def coal0 (busy : BitVec 4) (en : Bool) (glist : Word) : Coal := ⟨0x151000, 0x150000, 0x152000, glist, 2, 10, 0, 4, en, 0, [0, 0], busy⟩
def coalescing (c : Coal) : State :=
  let s := dev id id
  { s with ctxs := Vector.replicate 64 ⟨0x10000, 0, 0, 15, 0, true, 0, 0, true⟩, coal := [(3, c)] }

theorem witness_HostDrivenUnits :
    (kget? (dev id id).coal 3 = none ∧ kget? (coalescing (coal0 0 true 0x153000)).coal 3 = some (coal0 0 true 0x153000) ∧
      coalActive (coal0 0 true 0) = true ∧ coalActive (coal0 0 false 0) = false) ∧
    (∀ c, okWith (hubRead c 0x150000 4 (coalescing (coal0 0 true 0x153000))) (fun x => !x.2.2) = true) ∧
    ((coal0 15 true 0).busy = 15 ∧ walkerReads (Config.coalContext 3) (coalescing (coal0 0 true 0)) = true ∧
      (coal0 0 true 0).b.toNat ≤ (coal0 0 true 0).arrivals.length ∧ (coal0 1 true 0).busy.getLsbD 1 = false ∧
      (coal0 1 true 0).busy.getLsbD 0 = true) ∧
    (∀ c, okWith (hubPut c 0x153000 (gatherBytes (coal0 0 true 0x153000) 2 0) (coalescing (coal0 0 true 0x153000))) (fun _ => true) = true ∧
      okWith (hubPut c 0x40 (gatherBytes (coal0 0 true 0x40) 2 0) (coalescing (coal0 0 true 0x40))) (fun _ => true) = false) := by
  refine ⟨?_, ?_, ?_, ?_⟩ <;> decide +kernel

theorem witness_HostDrivenUnits_others :
    ((dieOfCluster 0 = 0 ∧ dieOfCluster 8 ≠ 0 ∧ holdsStamped (dev id id) 0 = false ∧
      holdsStamped (launching { testGang with stamped := true } 0) 0 = true) ∧
      (inPhase 3 (dev id id)).ident.phase ≠ 5 ∧ (dev id id).ident.phase = 5) ∧
    (treeLegal 0 = false ∧ ctxOfTag (dev id id) 9 = none) ∧
    (selectorOk 0x10 = true ∧ selectorExists 0x10 = true ∧ selectorOk 0xF = false ∧ selectorExists 0x1FF0 = false) ∧
    ((0x8000000000000000 : Word).getLsbD 63 = true ∧ ((0x8000000000000000 : Word).extractLsb' 60 3).toNat < 4 ∧
      4 ≤ ((0x4000000000000000 : Word).extractLsb' 60 3).toNat) := by
  refine ⟨?_, ?_, ?_, ?_⟩ <;> decide +kernel

/-- The TDI in a state, as TDISP leaves it. -/
def inTdi (t : BitVec 2) (s : State) : State := { s with ident := { s.ident with tdi := t } }

/-- The writes that complete: a locked or unlocked TDI, contexts none of which is valid, a context with MODELOK. -/
theorem witness_HostDrivenUnits_writes :
    State.reset.ident.phase = 5 ∧ tdiLocked State.reset = false ∧ (∀ n, (State.reset.ctx n).valid = false) ∧
    ((0x8000000000000000 : Word).getLsbD 63 = true ∧ ((dev id id).ctx 0).modelok = true ∧ (dev id id).ident.phase = 5 ∧ tdiLocked (dev id id) = false) ∧
    (tdiLocked (inTdi 1 (dev id id)) = true ∧ touchesLocked (dev id id) 0x300010 0xFFFFFFFFFFFFFFFF = false) ∧
    (spansHalves 0x20000 = true ∧ 0x18 < 0x501000 ∧ 0x501200 ≤ 0x600000 ∧ 0x600000 < 0x700000 ∧ 0x501018 + 32 * (15 : BitVec 4).toNat = 0x5011F8) ∧
    after (exec (.tlbinv 0x8000000000000000) (dev id id)) (fun t => t.hbm == (dev id id).hbm) = true := by decide +kernel

theorem witness_HostRegisterWrites :
    (¬((3 : BitVec 4) = 8 ∧ (0x18 : BitVec 26).toNat % 8 = 0) ∧ (0x18 : BitVec 26).toNat % 8 = 0 ∧ (0x1C : BitVec 26).toNat % 4 = 0) ∧
    (tdiLocked (inTdi 1 (dev id id)) = true ∧ touchesLocked (dev id id) 0x101000 0xFFFFFFFFFFFFFFFF = true ∧ tdiLocked (dev id id) = false ∧
      spansHalves (0x18 / 8 * 8) = false) ∧
    ((∃ n, ((dev id id).ctx n).valid = true) ∧ ∀ n, (State.reset.ctx n).valid = false) ∧
    ((0x8000000000000000 : Word).getLsbD 63 = true ∧ (State.reset.ctx 1).valid = false ∧ (State.reset.ctx 1).modelok = false ∧
      (State.reset.ctx 1).tag = 0 ∧ ((dev id id).ctx 0).valid = true) ∧
    ((inTdi 2 { dev id id with ctxs := vset (1 : BitVec 6) ⟨0, 0, 0, 0, 0, false, 0, 7, false⟩ (dev id id).ctxs }).ctx 1).tag ≠ 0 ∧
    (State.reset.sched.run = false ∧ (dev id id).sched.run = true ∧
      after (exec (.registerWrite 0x101008 8 0x5000) State.reset) (fun t => decide (regRead t 0x101008 = 0x5000)) = true ∧
      after (exec (.registerWrite 0x400010 8 7) State.reset) (fun _ => true) = true) := by
  refine ⟨?_, ?_, ⟨⟨0, ?_⟩, ?_⟩, ?_, ?_, ?_⟩ <;> decide +kernel

/-- A port in a state, and with an extent entry in an XSTATE. -/
def portIn (p : BitVec 2) (st : BitVec 3) (x : List (Nat × BitVec 2)) : State :=
  let s := dev id id
  { s with pool := { s.pool with ports := vset p { Port.reset with state := st, dcap := true, xstate := x, ext := x.map fun i => (i.1, ⟨8, 4, 1⟩) } s.pool.ports } }

theorem witness_PoolPortsAndCapacity :
    (((portIn 1 0 []).port 1).state = 0 ∧ ((portIn 1 2 []).port 1).state ≠ 0 ∧ ((portIn 1 2 []).port 1).state ≠ 3 ∧
      ((portIn 1 3 []).port 1).state = 3 ∧ ((portIn 1 4 []).port 1).state = 4) ∧
    (tdiLocked (inTdi 1 (dev id id)) = true ∧ tdiLocked (dev id id) = false ∧ (inPhase 0 (dev id id)).ident.phase ≠ 5) ∧
    ((portIn 1 2 []).feature 8 = true ∧ ((portIn 1 2 []).port 1).dcap = true ∧ ((portIn 1 2 []).port 1).state = 2 ∧ xstateOf (portIn 1 2 []) 1 0 = 0 ∧ State.reset.feature 8 = false) ∧
    (xstateOf (portIn 1 2 [(0, 1)]) 1 0 = 1 ∧ xstateOf (portIn 1 2 [(0, 2)]) 1 0 = 2 ∧ xstateOf (portIn 1 2 [(0, 1)]) 1 1 = 0 ∧
      (((portIn 1 2 [(0, 1)]).port 1).xstate.map (·.1)).Nodup) := by
  refine ⟨?_, ?_, ?_, ?_⟩ <;> decide +kernel

/-- The security controller with FRESH set, one slot loaded and the mailbox's argument bytes. -/
def commanded (fresh : Bool) (args : KMap Byte) : State :=
  let s := dev id id
  { s with sec := { s.sec with fresh := fresh, args := args, keys := vset (0 : BitVec 6) ⟨1, 0, 0, 0⟩ s.sec.keys } }

theorem witness_SecurityCommands :
    (tdiLocked (inTdi 1 (commanded true [])) = true ∧ tdiLocked (commanded true []) = false) ∧
    ((argByte (commanded true [(0, 64)]) 0).toNat = 64 ∧ (argByte (commanded true [(1, 8), (8, 1)]) 0).toNat < 64 ∧
      (argByte (commanded true [(1, 8), (8, 1)]) 1).toNat = 8 ∧ (argByte (commanded true [(1, 15)]) 1).toNat < 16 ∧
      (argByte (commanded true [(1, 7)]) 1).toNat < 8) ∧
    ((commanded false []).sec.fresh = false ∧ (commanded true []).sec.fresh = true ∧
      ((List.range 64).filter fun j => (argByte (commanded true [(1, 8), (8, 1)]) (8 + j / 8)).getLsbD (j % 8)) = [0] ∧
      (vget (0 : BitVec 6) (commanded true []).sec.keys).state = 1 ∧
      (vget (0 : BitVec 6) (commanded true []).sec.keys).tag = ((commanded true []).ctx 0).tag ∧
      (vget (1 : BitVec 6) (commanded true []).sec.keys).state ≠ 1) ∧
    ((dev id id).feature 10 = true ∧ State.reset.feature 10 = false) := by
  refine ⟨?_, ?_, ?_, ?_⟩ <;> decide +kernel

/-- A session of fixed keys. -/
def session0 : Session := ⟨[1, 0, 2, 0], ⟨List.replicate 32 3, List.replicate 12 4, 0⟩, ⟨List.replicate 32 5, List.replicate 12 6, 0⟩, [7], [8]⟩

/-- The responder in a state of the request order with a request, which came plain or under that session. -/
def spdmAt (p : SpdmPhase) (q : List Byte) : State :=
  let s := dev id id
  { s with sec := { s.sec with spdm := p, request := q } }
def spdmIn (p : SpdmPhase) (q : List Byte) : State :=
  let s := spdmAt p q
  { s with sec := { s.sec with session := some session0, cover := some (session0.id, session0.rsp) } }

/-- A request of a code with n bytes, all others 0, and a VENDOR_DEFINED_REQUEST of a vendor with a payload. -/
def req12 (code : Byte) (n : Nat) : List Byte := [0x12, code, 0, 0] ++ List.replicate (n - 4) 0
def vendorReq (std vendor : Nat) (payload : List Byte) : List Byte :=
  [0x12, 0xFE, 0, 0] ++ leBytes 2 std ++ [2] ++ leBytes 2 vendor ++ leBytes 2 payload.length ++ payload

theorem witness_AttestationRequests :
    spdmTurn .getCapabilities (spdmAt .version (req12 0xE1 4)) ∧ spdmTurn .negotiateAlgorithms (spdmAt .caps (req12 0xE3 32)) ∧
    spdmTurn .getDigests (spdmAt .algs (req12 0x81 4)) ∧ spdmTurn .getCertificate (spdmAt .session (req12 0x82 8)) ∧
    spdmTurn .challenge (spdmAt .algs (req12 0x83 44)) ∧ spdmTurn .getMeasurements (spdmAt .algs (req12 0xE0 45)) ∧
    spdmTurn .keyExchange (spdmAt .algs (req12 0xE4 138)) ∧ spdmTurn .finish (spdmIn .keyed (req12 0xE5 52)) ∧
    spdmTurn .endSession (spdmIn .session (req12 0xEC 4)) ∧ spdmTurn .ideKm (spdmIn .session (vendorReq 3 1 [0, 0, 0, 0])) ∧
    spdmTurn .setKey (spdmIn .session (vendorReq 0 0x5342 ([1, 4, 0] ++ List.replicate 32 7))) ∧
    ¬spdmCovered .endSession (spdmAt .session (req12 0xEC 4)) := by
  refine ⟨?_, ?_, ?_, ?_, ?_, ?_, ?_, ?_, ?_, ?_, ?_, ?_⟩ <;> (try refine ⟨_, _, rfl, ?_⟩) <;> simp only [spdmCovered] <;> decide +kernel

/-- The blocks of the key stream and the tags of that session have 16 bytes. -/
theorem session0_lengths : (∀ b : List Byte, b.length = 16 → (aesBlock sbox (roundKeys sbox session0.req.key) b).length = 16) := by
  intro b hb
  have h : ((roundKeys sbox session0.req.key).getD 14 []).length = 16 := by decide +kernel
  simp only [aesBlock, xorBytes, shiftRows, List.length_zipWith, List.length_map, List.length_range, h]
  rfl

theorem beBytes16 (n : Nat) : (beBytes 16 n).length = 16 := by simp [beBytes, leBytes]

/-- An empty message under the session's keys opens. -/
theorem session0_opens : ∃ msg, openRecord session0 msg = some [] := by
  have hb : (recordIv session0.req ++ beBytes 4 (0 + 2)).length = 16 := by decide
  obtain ⟨k0, k1, ks, hk⟩ : ∃ k0 k1 ks, aesBlock sbox (roundKeys sbox session0.req.key) (recordIv session0.req ++ beBytes 4 (0 + 2)) = k0 :: k1 :: ks := by
    have := session0_lengths _ hb
    match h : aesBlock sbox (roundKeys sbox session0.req.key) (recordIv session0.req ++ beBytes 4 (0 + 2)) with
    | a :: b :: l => exact ⟨a, b, l, rfl⟩
    | [a] => simp [h] at this
    | [] => simp [h] at this
  have hc (a b : Byte) : gcmCrypt session0.req.key (recordIv session0.req) [a, b] = [k0 ^^^ a, k1 ^^^ b] := by
    simp [gcmCrypt, blocks16, hk, xorBytes, List.range_succ, List.replicate, List.take]
  have ht (aad ct : List Byte) : (gcmTag session0.req.key (recordIv session0.req) aad ct).length = 16 := by
    simp only [gcmTag, xorBytes, List.length_zipWith, beBytes16]
    rw [session0_lengths _ (by decide)]; rfl
  refine ⟨[1, 0, 2, 0] ++ leBytes 2 18 ++ [k0, k1] ++ gcmTag session0.req.key (recordIv session0.req) ([1, 0, 2, 0] ++ leBytes 2 18) [k0, k1], ?_⟩
  have hl : leBytes 2 18 = [18, 0] := by decide
  have hi : session0.id = [1, 0, 2, 0] := rfl
  simp [openRecord, hl, leVal, hi, ht, hc]

/-- A message under the session's keys opens; FINISH with the right verification value; a command executes. -/
theorem witness_AttestationRequests_session :
    ((∃ msg, openRecord session0 msg = some []) ∧ openRecord session0 [] = none ∧
      (spdmIn .session []).sec.session = some session0 ∧ (spdmIn .session []).sec.busy = none) ∧
    (let q : List Byte := req12 0xE5 4
     let proof := hmac384 session0.finished (transcriptHash (spdmIn .keyed q) q [])
     (spdmIn .keyed (q ++ proof)).sec.request.drop 4 = hmac384 session0.finished (transcriptHash (spdmIn .keyed (q ++ proof)) q [])) ∧
    ideObjectLength 0 = some 4 := by
  have trans (q : List Byte) : (spdmIn .keyed q).sec.trans = [] := rfl
  have request (q : List Byte) : (spdmIn .keyed q).sec.request = q := rfl
  refine ⟨⟨session0_opens, ?_, ?_⟩, ?_, rfl⟩
  · decide +kernel
  · decide +kernel
  · simp only [transcriptHash, trans, request]; simp [req12]

theorem witness_AttestationRequests_values :
    ((spdmAt .start (req12 0x84 4)).sec.request.length = 4 ∧ requestCode (spdmAt .start (req12 0x84 4)) = 0x84 ∧
      (spdmAt .start []).sec.request.length < 4 ∧ spdmVersionOk 0x11 = false ∧ spdmVersionOk 0x12 = true ∧
      SpdmPhase.start ∉ ([.algs, .session] : List SpdmPhase)) ∧
    ((vendorParts (vendorReq 3 1 [0, 4, 0, 0, 5, 0, 0, 0])).2.1 = 1 ∧
      (vendorParts (vendorReq 3 1 [0, 4, 0, 0, 5, 0, 0, 0])).2.2 = [0, 4, 0, 0, 5, 0, 0, 0] ∧ ideObjectLength 4 = some 8 ∧ ideObjectLength 2 = some 48 ∧
      (vendorParts (vendorReq 3 2 [])).2.1 ≠ 1) ∧
    (ideHasKeys State.reset 5 = false ∧ State.reset.ident.ideKeys.length < 5 ∧
      ideHasKeys { State.reset with ident := { State.reset.ident with ideKeys := [(5, [1])] } } 5 = true ∧
      ([(0, [1]), (1, [1]), (2, [1]), (3, [1]), (4, [1])] : KMap (List Byte)).length = 5) ∧
    ((vendorParts (vendorReq 0 0x5342 ([1, 4, 0] ++ List.replicate 32 7))).2.2.length = 35 ∧
      (vget (4 : BitVec 6) (spdmAt .session []).sec.keys).state = 0) ∧
    (match measRecord (spdmAt .algs (req12 0xE0 45)) 1 with
      | .ok (n, bs) => decide (n = 1 ∧ bs.length = 55)
      | .error _ => false) = true := by
  refine ⟨?_, ?_, ?_, ?_, ?_⟩ <;> decide +kernel

theorem witness_Resets :
    State.reset.powered = true ∧ ({ State.reset with powered := false } : State).powered = false ∧ (dev id id).ident.phase = 5 ∧
      (inPhase 15 (dev id id)).ident.phase ≠ 5 := by decide +kernel

theorem witness_StepKeepsCanonicalMemory :
    State.reset.hbm.wf = true ∧ State.reset.host.wf = true ∧ tables.wf = true ∧
      after (step { dev id id with agenda := [.seq 0] }) (fun t => t.hbm.wf) = true := by decide +kernel

/-! ### Witnesses of further clauses -/

/-- Core 0 with window 0, read-intent or write-intent, and the granules that are valid. -/
def writeWin : WinDesc := { goodWin with w2 := 0x3010000040 }
def windowed (d : WinDesc) (gs : List Gran) (f : SeqRegs → SeqRegs) : State :=
  { dev f (fun k => { k with wins := k.wins.set 0 d }) with grans := gs }

/-- The faults of an access: poison, each step of R157, a page that the tables deny, another owner's leaf in the core's TLB. -/
theorem witness_Loads_faults :
    ((user (poisoned1 0)).g 1).bad = true ∧
    addressFault (user id).core 0x10000000000000 4 = some cXlate ∧ addressFault (user id).core 0x42 4 = some cAlign ∧
    addressFault (user id).core 0x1000 4 = some cStashBounds ∧ addressFault (user id).core 0xFFC 4 = none ∧
    (inGlobal (dev (g123 0x40000000 0 0) id) 0x40000000 4 ∧
      (match translate 0 0 0x40000000 .read (dev id id) with
        | .error (.trap t) => decide (t.cause = cXlate)
        | _ => false) = true) ∧
    (let s := dev id fun k => { k with tlb := [⟨0, 0, 3, 0x09000000000000C3⟩] }
     s.core.tlb.find? (tlbHit 0 0x100000) = some ⟨0, 0, 3, 0x09000000000000C3⟩ ∧ pteOwner 0x09000000000000C3 ≠ (s.ctx 0).tag ∧
      okWith (physical s .lcl 0x100000 0x100000) (fun x => !inWiden6 s x) = true) ∧
    (let s := dev id fun k => { k with tlb := [⟨0, 0, 3, leaf1G⟩] }
     s.core.tlb.find? (tlbHit 0 0x100000) = some ⟨0, 0, 3, leaf1G⟩ ∧ pteRd leaf1G = true ∧ pteWr leaf1G = true ∧ pteOwner leaf1G = 0 ∧
      regionOf (pteClass leaf1G) = .lcl ∧ okWith (physical s .lcl 0x100000 0x100000) (fun _ => true) = true) := by
  simp only [inGlobal]; decide +kernel

/-- A window: a valid granule and one to fill, at the stash-local address and at the global one it mirrors. -/
theorem witness_Loads_windows :
    (∃ o, loadOp (.ld .d 0 1 3) = some o ∧ o.form.runs (windowed goodWin [gran0 .lcl 0 0] (g123 0x1000 0 0)) = true ∧
      cleanAt (windowed goodWin [gran0 .lcl 0 0] (g123 0x1000 0 0)) 0 o.bases ∧
      inWindow (windowed goodWin [gran0 .lcl 0 0] (g123 0x1000 0 0)) 0x1000 8 0 goodWin 0x1000 ∧
      inWindow (windowed goodWin [gran0 .lcl 0 0] (g123 0x100000 0 0)) 0x100000 8 0 goodWin 0x1000 ∧
      okWith (ensureGran 0 0 goodWin 0x40 .read (windowed goodWin [gran0 .lcl 0 0] id)) (fun t => !markStalls t 0 0x1000 8) = true) ∧
    (granFind (windowed goodWin [gran0 .lcl 0 0] id) 0 0x40 = some (gran0 .lcl 0 0) ∧ (gran0 .lcl 0 0).rd = true ∧
      granFind (windowed goodWin [{ gran0 .lcl 0 0 with rd := false }] id) 0 0x40 = some { gran0 .lcl 0 0 with rd := false } ∧
      (match ensureGran 0 0 goodWin 0x40 .read (windowed goodWin [{ gran0 .lcl 0 0 with rd := false }] id) with
        | .error (.trap t) => decide (t.cause = cProt)
        | _ => false) = true) ∧
    (granFind (windowed goodWin [] id) 0 0x40 = none ∧ goodWin.toGlobal (64 * 0x40) = some 0x100000 ∧ 0x100000 + 64 ≤ 2 ^ 52 ∧
      okWith (translate 0 0 0x100000 .read (windowed goodWin [] id)) (fun _ => true) = true) := by
  refine ⟨⟨_, rfl, ?_⟩, ?_, ?_⟩ <;> (try simp only [cleanAt, inWindow]) <;> decide +kernel

/-- A core without buffered stores has none to perform. -/
theorem drainGran_none {s : State} {c : CoreId} {g : Nat} (h : (s.coreAt c).stores = []) : drainGran c g s = s := by
  unfold drainGran; split <;> simp [drainBlock, h]

theorem windowed_drained : drainGran 0 0x40 (windowed writeWin [gran0 .lcl 0 0] (g123 0x1000 9 0)) =
    windowed writeWin [gran0 .lcl 0 0] (g123 0x1000 9 0) := drainGran_none (by decide +kernel)

theorem windowed_ensured : ensureGran 0 0 writeWin 0x40 .write (windowed writeWin [gran0 .lcl 0 0] (g123 0x1000 9 0)) =
    .ok (windowed writeWin [gran0 .lcl 0 0] (g123 0x1000 9 0)) := by
  unfold ensureGran
  simp only [windowed_drained]
  rw [show granFind (windowed writeWin [gran0 .lcl 0 0] (g123 0x1000 9 0)) 0 0x40 = some (gran0 .lcl 0 0) by decide +kernel]
  rfl

/-- Poisoned data for a HOST page, stores to a read-intent and to a write-intent window. -/
theorem witness_Stores_windows :
    (let s := hosting fun r => { g123 0x100000 0 0 r with g := vset (2 : Reg) ⟨9, true⟩ (g123 0x100000 0 0 r).g }
     (s.g 2).bad = true ∧ inGlobal s 0x100000 8 ∧
      okWith (translate 0 0 0x100000 .write s) (fun x => poisonRefused x.1 0 x.2) = true) ∧
    (∃ o, storeOp (.st .d 0 1 2) = some o ∧ o.form.runs (windowed writeWin [gran0 .lcl 0 0] (g123 0x1000 9 0)) = true ∧ o.rel = none ∧
      cleanAt (windowed writeWin [gran0 .lcl 0 0] (g123 0x1000 9 0)) 0 o.bases ∧
      inWindow (windowed writeWin [gran0 .lcl 0 0] (g123 0x1000 9 0)) 0x1000 8 0 writeWin 0x1000) ∧
    (let s := windowed writeWin [gran0 .lcl 0 0] (g123 0x1000 9 0)
     (ensureGran 0 0 writeWin 0x40 .write s = .ok s ∧ drainGran 0 0x40 s = s) ∧ writeWin.writes = true ∧ goodWin.writes = false ∧
      granFind s 0 0x40 = some (gran0 .lcl 0 0) ∧ (gran0 .lcl 0 0).wr = true ∧ s.subs = [] ∧
      poisonBarred s 0 .lcl 0 = false ∧ poisonBarred s 0 .lcl 9 = true) := by
  refine ⟨?_, ⟨_, rfl, ?_⟩, ⟨windowed_ensured, windowed_drained⟩, ?_⟩ <;> (try simp only [cleanAt, inGlobal, inWindow]) <;> decide +kernel

/-- Atomics at a LOCAL home, of a poisoned operand to a HOST page, and in a window. -/
theorem witness_Atomics_homes :
    (SeqForm.runs ⟨8, 0, [4, 1, 2, 3], gt⟩ (dev (g123 0x100000 5 6) id) = true ∧ inGlobal (dev (g123 0x100000 5 6) id) 0x100000 8 ∧
      okWith (translate 0 0 0x100000 .atomic (dev (g123 0x100000 5 6) id)) (fun x => decide (x.2.region = .lcl ∧ x.1.core.ctx = 0 ∧ x.1.me = 0) &&
        !markStalls x.1 0 0x100000 8 && !requestLost (drainBefore x.2 8 x.1) x.2.loc x.2.region) = true) ∧
    okWith (translate 0 0 0x100000 .atomic (hosting id)) (fun x => decide (x.2.region = .host) && poisonRefused x.1 0 x.2) = true ∧
    (let s := windowed writeWin [gran0 .lcl 0 0] (g123 0x1000 9 0)
     drainGran 0 0x40 s = s ∧ inWindow s 0x1000 8 0 writeWin 0x1000 ∧ granFind s 0 0x40 = some (gran0 .lcl 0 0) ∧
      narrowScope .cluster = true ∧ markStalls s 0 0x1000 8 = false ∧ (s.g 2).bad = false) ∧
    (releaseAt .cluster 0 (user id)).me = (user id).me ∧ (releaseAt .cluster 0 (user id)).core.ctx = (user id).core.ctx := by
  refine ⟨?_, ?_, ⟨windowed_drained, ?_⟩, ?_⟩ <;> (try simp only [inGlobal, inWindow]) <;> decide +kernel

/-- A user core with a level-1 request held for PIX. -/
def heldPut (r : SeqRegs) : SeqRegs := { r with boost := [⟨1, .put ⟨.pix, 0, false, 0, ⟨7, false⟩, ⟨8, false⟩⟩, 0, false, none, 0x80⟩] }

/-- A held request, with a free slot and with all 16 taken. -/
theorem witness_BoostCommit_puts :
    (dev heldPut id).core.rg.sup = false ∧ (dev heldPut id).core.rg.loops = [] ∧ targetOk (dev heldPut id) 0x104 ∧
    (((dev heldPut id).core.rg.boost.filter fun x => decide (x.lvl = 1) && x.fault.isNone).filterMap fun x =>
      match x.dst with
      | .put p => some p
      | _ => none) = [⟨.pix, 0, false, 0, ⟨7, false⟩, ⟨8, false⟩⟩] ∧
    slotsTaken (dev heldPut id).core .pix = 0 ∧ 16 ≤ slotsTaken (dev heldPut askedFull).core .pix ∧
    ∀ x ∈ (dev heldPut id).core.rg.boost, x.lvl = 1 → x.fault = none := by
  unfold targetOk; decide +kernel

/-- A record with TRIP 0 in its prologue and in its epilogue, at KSTART. -/
theorem witness_HardwareLoops_empty :
    (∀ ph ∈ [LoopPhase.prologue, .epilogue],
      let r : LoopRec := ⟨0x200, 0x210, 0x220, 0x230, 0, 0, false, 0, 0, 0x108, ph⟩
      (user fun x => { x with pc := 0x20C, loops := [r] }).core.rg.loops = [r] ∧ (0x210 : BitVec 16).setWidth 32 = r.kstart ∧
        r.kstart ≠ r.estart ∧ r.estart.toNat < 0x10000 ∧ r.estart ≠ r.eend ∧ r.trip = 0) ∧
    (let r : LoopRec := ⟨0x200, 0x210, 0x220, 0x230, 5, 0, false, 0, 0, 0x108, .prologue⟩
     (user fun x => { x with pc := 0x20C, loops := [r] }).core.rg.loops = [r] ∧ r.trip ≠ 0 ∧ r.kstart ≠ r.estart ∧
      r.kstart.toNat ≤ r.estart.toNat ∧ r.estart.toNat ≤ r.eend.toNat ∧ r.eend ≠ r.estart ∧ r.eend ≠ r.kstart) := by decide +kernel

/-- A core that traps on an iteration boundary, and one in supervisor mode that goes back to it. -/
theorem witness_ReturnFromTrap_boundary :
    (user fun r => { r with bound := true }).core.rg.bound = true ∧
    (super fun r => { r with fellTo := some 0x200, boundAt := some 0x200 }).core.rg.boundAt = some 0x200 := by decide +kernel

/-- Supervisor code of a core of gang 1. -/
theorem witness_PrivilegeAndSupervisorFaults_gang :
    (dev (fun r => { r with sup := true }) id).core.rg.sup = true ∧ gangOf (dev (fun r => { r with sup := true }) id) 0 = some testGang ∧
    findNode { dev (fun r => { r with sup := true }) id with sched := { (dev id id).sched with nodes := [{ nodeOf 0 .running 0 with id := 7 }] } } 7 ≠ none := by
  decide +kernel

/-- Channels 0 walking for a fence; a declared barrier of the target that is not initialised. -/
theorem witness_ControlCompletes_others :
    (user id).core.rg.loops = [] ∧ gangOf (user id) 0 = none ∧ gangOf (dev id id) 0 = some testGang ∧ testGang.state = .running ∧
    yieldWanted (dev id id) testGang = false ∧ (vget (0 : BitVec 3) (walking Mem.empty).core.chans).state = .walk ∧
    gathering (user id).core = false ∧
    sameGang (dev (g123 1 0 0) barred) 0 1 = true ∧ ((dev (g123 1 0 0) barred).g 1).val.extractLsb' 0 10 = BitVec.ofNat 10 (1 : CoreId).val ∧
    ((dev (g123 1 0 0) barred).coreAt 1).decl.barriers ≤ (8 : BitVec 6).toNat ∧
    (vget (3 : BitVec 6) ((releaseStores 0 (dev (g123 1 0 0) barred)).coreAt 1).bars).init = false := by decide +kernel

/-- The ready pool wants the cores of a gang that yields, and it stops there, or goes on to a point. -/
theorem witness_ControlCompletes_yield :
    gangOf (crowded 5) 0 = some { testGang with prio := 0 } ∧ (crowded 5).core.rg.sup = false ∧ (crowded 5).core.rg.loops = [] ∧
    yieldWanted (crowded 5) { testGang with prio := 0 } = true ∧
    (let v := requestStops [{ testGang with prio := 0 }] (crowded 5)
     (findGang v 1).map (·.state) = some .stopping ∧ atPoint v 0 = true ∧ (crowded 5).core.pend = []) := by decide +kernel

/-- A VMODE word that sets the rounding field, and a VAQ of 32 entries. -/
def modeWord (k : Core) : Core := { k with vmem := [(0, (encodeVector (.vmode { word0 with b := ⟨0, 0, false, 0⟩, d := ⟨0, 0, false, 0⟩, a := ⟨0, 0, false, 0⟩, type := 0, aux := 0x31 })).getD 0)] }
def vaqFull (k : Core) : Core := { worded k with eng := { k.eng with vaq := { k.eng.vaq with entries := List.replicate 32 (ventry (.vadd word0)) } } }

theorem witness_EngineRuns_pushes :
    (∀ q ∈ allQueues, ((dev (g123 0 2 0) worded).core.eng.queue q).entries.length + 2 ≤ 32) ∧ (dev id id).core.eng.mxq.length + 1 ≤ 16 ∧
    ((decodeVector (kget 0 (dev id modeWord).core.vmem 0)).toOption.map fun i => (wordOf i).1) = some 0xC5 ∧
    ((decodeVector (kget 0 (dev id vaqFull).core.vmem 0)).toOption.map fun i => queuesOf (wordOf i).1) = some [.vaq] ∧
    32 ≤ ((dev id vaqFull).core.eng.queue .vaq).entries.length ∧ (pushVector 0 (dev id vaqFull)).isNone = true ∧
    (decodeMatrix (kget 0 (dev id worded).core.mmem 0)).toOption.isSome = true := by decide +kernel

/-- The walker's queue of the die is full. -/
theorem witness_CommitsRangesSubscriptions_full :
    (let s := (dev (g123 0x40 0 0) ranged).updDie 0 fun d => { d with walker := List.replicate 64 ⟨0, 0, false, 1, 0x100000, 128, 2, 256⟩ }
     64 ≤ (s.die 0).walker.length ∧ barReady s.core 1 = true) := by decide +kernel

/-- END of an invocation in a state, over a record in a state, with an error that is above TRIP or not. -/
def ending (st rst : Nat) (clean sampled : Bool) (sur : List (BitVec 32)) : State :=
  fitted rst fun k => { k with inv := some ⟨0, st, sampled, clean, [1], sur⟩ }

/-- An error is above TRIP 0 of the records, or NaN. -/
def aboveTrip (e : BitVec 32) : Bool := (val32 e).isNan || fltVal (val32 (feRec 4).trip) (val32 e)

theorem witness_ApproximableRegions_ends :
    (∀ x ∈ [(3, 3, true, false), (3, 3, false, false), (4, 4, true, true), (4, 4, true, false), (5, 5, true, false), (3, 1, true, false)],
      let s := ending x.1 x.2.1 x.2.2.1 x.2.2.2 [0]
      let v := (drainStores s.me s).upd fun k => { k with inv := none }
      s.core.inv = some ⟨0, x.1, x.2.2.2, x.2.2.1, [1], [0]⟩ ∧
        (v.core.gang.bind fun g => findRecord v (clusterOf v.me) g 0) = some (feRec x.2.1) ∧
        (plainForm 4 (placeRegs testRegion.outs)).passes v = true ∧ (readPlaces v testRegion.outs).2 = true) ∧
    (aboveTrip 0x3F800000 = true ∧ aboveTrip 0 = false ∧ aboveTrip 0x7FC00000 = true) ∧
    ((feRec 3).nval + 1 ≥ testRegion.vsamp ∧ (3 : Nat) + 1 < ({ testRegion with vsamp := 5 } : Region319).vsamp ∧
      fltVal (val32 0) (val32 0x3F800000) = true ∧ fltVal (val32 0x3F800000) (val32 0) = false) ∧
    okWith (globalRead 0 0 0x200000 2 (fitted 4 id)) (fun x => decide (x.2.1 = [0, 0])) = true := by decide +kernel

/-- CPS.STOP waits for the record that a channel walks. -/
theorem witness_CopyStreams_stop :
    (let s := dev id fun k => { wide k with chans := vset (0 : BitVec 3) { Chan.idle with state := .walk, va := 0x800, stopAt := true } k.chans }
     (vget (0 : BitVec 3) s.core.chans).stopAt = true ∧ (vget (0 : BitVec 3) s.core.chans).va.toNat % 128 = 0 ∧ 0x800 + 128 ≤ s.core.decl.stash) := by
  decide +kernel

/-- A step in progress over one sample: the last of its region, and one of five with another batch complete; the smallest network. -/
theorem witness_FittingRequests_step :
    (let r : FeRec := { feRec 2 with batch := some [[1, 2]] }
     r.batch = some [[1, 2]] ∧ r.stepsDone + 1 = r.desc.steps) ∧
    (let r : FeRec := { feRec 2 with desc := { testRegion with steps := 5 }, batch := some [[1, 2]], ncap := 1 }
     r.stepsDone + 1 ≠ r.desc.steps ∧ r.ncap = r.desc.batch) ∧
    (let d : Region319 := { testRegion with acts := [0] }
     d.nin = 1 ∧ d.widths = [1] ∧ d.acts = [0]) := by decide +kernel

/-- A dirty LLC line of port 1, a page with a leaf in the core's TLB, and one of another owner. -/
theorem witness_CommitsAndWalks_lines :
    (let s := { dev id id with llc := [⟨1, 8, 0, 0, true⟩] }
     llcFind s 1 8 = some ⟨1, 8, 0, 0, true⟩ ∧ locSilent s ⟨.pool 1, 1024⟩ = false ∧ (s.mem (.pool 1)).wf = true ∧
      rising (s.llcTags.map (·.1)) = true) ∧
    (let r : WalkRange := ⟨0, 0, false, 1, 0x100000, 128, 2, 256⟩
     (dev id fun k => { k with tlb := [⟨0, 0, 3, 0xE3⟩] }).core.tlb.find? (tlbHit 0 0x100000) = some ⟨0, 0, 3, 0xE3⟩ ∧
      pteOwner leaf1G = 0 ∧ regionOf (pteClass leaf1G) = .lcl ∧ regionOf (pteClass 0xE3) = .host ∧
      pteOwner 0x09000000000000C3 ≠ ((dev id id).ctx 0).tag ∧
      okWith (walkerLoc r 0x100000 (dev id id)) (fun x => decide (x.2 = ⟨.hbm, 0x100000⟩)) = true ∧
      (match leafFor r.core r.ctx 0x40000000 (dev id id) with
        | .error (.trap t) => decide (t.cause = cXlate)
        | _ => false) = true) ∧
    ((windowed writeWin [gran0 .lcl 0 3] id).grans.filter fun g => decide (g.core = 0) && decide (g.home.space = .hbm) &&
      decide (g.home.addr / 64 = 0x100000 / 64)) = [gran0 .lcl 0 3] := by
  refine ⟨?_, ?_, ?_⟩ <;> decide +kernel

/-- What R407 lists of nothing, and a saved gang of core 0 whose images are resident. -/
def kept0 : Kept := ⟨0, [], [], none, Vector.replicate 8 0, [], (false, 0, false, 0), false, [], false, [], none⟩
def restoring : Gang := { soloGang .placed [0] with kept := [kept0], image := 0x180000 }
def resident : State :=
  let s := readyAt (readyNode 0 (some 1)) restoring
  let s := s.updCore 0 fun k => { k with image := some (0x180000, 0) }
  s.updCluster 0 fun k => { k with segs := [⟨0, 0x180000, 0, 4, true⟩] }

theorem witness_GangStartsAndSaves_restored :
    findGang resident 1 = some restoring ∧ restoring.members = [0] ∧ restoring.slots = [0] ∧ restoring.done = [] ∧
    (restoring.kept.find? fun x => decide (x.core = 0)) = some kept0 ∧ kept0.area = none ∧ restoring.stamped = false ∧
    holdsImage 0 0x180000 (resident.coreAt 0) = true ∧ (segmentOf 0 0 0x180000 resident).any (·.loaded) = true ∧
    (∀ j < 16, (BitVec.ofNat 64 (leVal (resident.hbm.bytes (slotBase resident 0 + 0x710 + 16 * j) 8))).getLsbD 63 = false) ∧
    (Core.reset true).stash.wf = true ∧ (Core.reset true).decl.stash % 64 = 0 := by decide +kernel

/-- A legal control block of two nodes at VA 0x100000, whose root and second node the tables map. -/
def treeBlock : BitVec 256 := (BitVec.ofNat 256 (2 * 2 ^ 128)) ||| (0x110000 : BitVec 256) <<< 64 ||| 0x100000

theorem witness_HostDrivenUnits_tree :
    treeLegal treeBlock = true ∧ ctxOfTag (dev id id) (treeBlock.extractLsb' 160 8) = some 0 ∧
    okWith (clearNodes 0 (treeOf treeBlock) (dev id id)) (fun _ => true) = true ∧
    okWith (hubTranslate 0 0x100000 .write (dev id id)) (fun x => decide (x.2.region = .lcl)) = true ∧
    okWith (hubWrite 0 0x100000 (List.replicate 128 0) false (dev id id)) (fun _ => true) = true := by decide +kernel

/-- The matrix engine of core 0 holds work, and was last seen with the same or with other work. -/
def stalled (since : Word) : State :=
  { onMxq (mentry (.mzero mword0)) 0x200000 id with stallt := 0x100000, watches := [⟨.matrix 0, [[0]], since⟩] }

theorem witness_CoresStopAndEnd_stalls :
    (stalled 0).stallt ≠ 0 ∧ holdsWork (.matrix 0) (stalled 0) = true ∧
    watchOf (.matrix 0) (noteProgress (stalled 0)) = some ⟨.matrix 0, [[0]], 0⟩ ∧
    watchOf (.matrix 0) (noteProgress { stalled 0 with watches := [] }) = none ∧
    max 0x100000 (stalled 0).stallt.toNat ≤ ((stalled 0).dcc - 0).toNat ∧ isHung (.matrix 0) (stalled 0) = false ∧
    ((stalled 0).dcc - 0x1F0000).toNat < 0x100000 := by decide +kernel

/-- A mailbox command executes, and none does. -/
theorem witness_SecurityCommands_busy :
    (let s := { commanded true [] with sec := { (commanded true []).sec with busy := some 1 } }
     s.sec.busy = some 1 ∧ s.sec.busy ≠ some 2) ∧ (commanded true []).sec.busy = none := by decide +kernel

end Sys2Proof.Tests
end

/-! ## Jumps (R161, R163) -/
section
namespace Sys2Proof.Machine

/-! ### Boost state while the PC moves (R34, R38) -/

@[simp] theorem State.setG_boost (s : State) (r : Reg) (v : PReg) : (s.setG r v).core.rg.boost = s.core.rg.boost := by
  rw [State.setG_rg, State.core_updRg]

@[simp] theorem setTop_boost (r : LoopRec) (s : State) : (setTop r s).core.rg.boost = s.core.rg.boost := by
  rw [setTop, State.core_updRg]

@[simp] theorem popLoop_boost (s : State) (ret : BitVec 32) : (popLoop s ret).core.rg.boost = s.core.rg.boost := by
  rw [popLoop, State.core_updRg]

@[simp] theorem ixStep_boost (r : LoopRec) (s : State) : (ixStep r s).core.rg.boost = s.core.rg.boost := by
  unfold ixStep
  split
  · exact State.setG_boost ..
  · rfl

/-- Entering an epilogue keeps boost state if what looks at the return address of an empty one does. -/
theorem enterEpilogue_boost {again : State → State} (h : ∀ t, (again t).core.rg.boost = t.core.rg.boost)
    (r : LoopRec) (s : State) : (enterEpilogue again r s).core.rg.boost = s.core.rg.boost := by
  unfold enterEpilogue
  split
  · simp [h]
  · simp

/-- Whatever the innermost records do at an address, boost state stands. -/
theorem watchLoop_boost (n : Nat) (fall : Bool) (s : State) :
    (watchLoop n fall s).core.rg.boost = s.core.rg.boost := by
  induction n generalizing fall s with
  | zero => rfl
  | succ n ih =>
    have enter := enterEpilogue_boost (again := watchLoop n true) (ih true)
    rw [watchLoop]
    split
    · rfl
    · dsimp only
      split_ifs
      · simp          -- ESTART with kernel iterations left
      · simp [enter]  -- ESTART at the end of the last iteration
      · simp [enter]  -- ESTART with no iteration left
      · simp [ih]     -- KSTART with TRIP 0
      · simp          -- KSTART ends the prologue
      · simp [ih]     -- EEND ends the record
      · rfl           -- no watched address

@[simp] theorem goTo_boost (target : BitVec 16) (fall : Bool) (s : State) :
    (goTo target fall s).core.rg.boost = s.core.rg.boost := by
  unfold goTo
  dsimp only
  split
  · simp
  · simp [watchLoop_boost]

/-! ### A legal target (R163) -/

/-- A target in control memory that the mode may reach raises no fault. -/
theorem checkTarget_ok {s : State} {t : Int} (h : targetOk s t) : checkTarget t s = .ok (BitVec.ofInt 16 t) := by
  obtain ⟨hlo, hhi, hmode⟩ := h
  have hpriv : (s.core.rg.sup || decide (t < 0xE000)) = true := by simpa using hmode
  rw [checkTarget, decide_eq_true ⟨hlo, hhi⟩, hpriv]
  rfl

/-- J goes to a legal target and does nothing else. -/
theorem exec_j {off : BitVec 24} {s : State} (h : targetOk s (relTarget off s)) :
    exec (.j off) s = .next (goTo (BitVec.ofInt 16 (relTarget off s)) false s) := by
  change execJ off s = _
  rw [execJ, checkTarget_ok h, ok_bind, conclude_ok]

/-- JL goes to a legal target, its link written to the architected g31. -/
theorem exec_jl {off : BitVec 24} {s : State} (h : targetOk s (relTarget off s)) :
    exec (.jl off) s = .next (goTo (BitVec.ofInt 16 (relTarget off s)) false
      (s.setG 31 (constReg (zext64 s.pc + 4)))) := by
  change execJl off s = _
  rw [execJl, checkTarget_ok h, ok_bind, conclude_ok]

/-! ### The J form (R128) -/

/-- The fields of a J form: page 0, the opcode, the offset. -/
theorem fld_jForm (off : BitVec 24) (op : BitVec 6) :
    fld (off ++ op ++ 0#2) 0 2 = 0#2 ∧ fld (off ++ op ++ 0#2) 2 6 = op ∧ fld (off ++ op ++ 0#2) 8 24 = off := by
  unfold fld
  refine ⟨BitVec.extractLsb'_append_eq_right, ?_, ?_⟩
  · rw [BitVec.extractLsb'_append_eq_of_le (by omega)]
    exact BitVec.extractLsb'_append_eq_right
  · rw [BitVec.extractLsb'_append_eq_of_le (by omega)]
    exact BitVec.extractLsb'_append_eq_left

theorem decodeControl_j (off : BitVec 24) (v lit : Unit32) : decodeControl (off ++ 0x0D#6 ++ 0#2) v lit = .ok (.j off) := by
  obtain ⟨hpage, hop, hoff⟩ := fld_jForm off 0x0D#6
  simp only [decodeControl, hpage, decodePage0, hop, hoff]
  rfl

theorem decodeControl_jl (off : BitVec 24) (v lit : Unit32) : decodeControl (off ++ 0x0E#6 ++ 0#2) v lit = .ok (.jl off) := by
  obtain ⟨hpage, hop, hoff⟩ := fld_jForm off 0x0E#6
  simp only [decodeControl, hpage, decodePage0, hop, hoff]
  rfl

/-- Settles O8: a legal target passes every check of R163, JL's link goes to the register file alone, and no loop record that
the target meets touches boost state. -/
theorem jumps : Obligations.Jumps :=
  ⟨fun _ _ h => ⟨exec_j h, exec_jl h, goTo_boost .., fun hs => goTo_plain hs _ _⟩,
   fun off v lit => ⟨decodeControl_j off v lit, decodeControl_jl off v lit⟩⟩

end Sys2Proof.Machine
end

/-! ## What an instruction without guard and boost level answers (R127) -/
section
namespace Sys2Proof.Machine

section
variable {len : Nat} {regs : List Reg} {body : State → R State} {s : State}

/-- The form of an instruction without a boost level asks only for declared registers. -/
theorem plainForm_passes (h : (plainForm len regs).passes s = true) :
    s.core.rg.sup = true ∨ regs.all (regDeclared s.core.decl) = true := by
  simpa [SeqForm.passes, plainForm] using h

theorem conclude_plain_ok {t : State} (h : (plainForm len regs).passes s = true) (hb : body s = .ok t) :
    conclude s (plain len regs body s) = .next (advance len t) := by
  rw [plain_ok (plainForm_passes h) hb, conclude_ok]

theorem conclude_plain_wait (h : (plainForm len regs).passes s = true) (hb : body s = wait) :
    conclude s (plain len regs body s) = .next s := by
  rw [plain_error (plainForm_passes h) hb]
  rfl

theorem conclude_plain_raise {c : Cause} {a : Word} (h : (plainForm len regs).passes s = true) (hb : body s = raise c a) :
    conclude s (plain len regs body s) = .next (takeTrap { cause := c, addr := a } s) := by
  rw [plain_error (plainForm_passes h) hb]
  rfl

end

end Sys2Proof.Machine
end

/-! ## Fields of a word (R6, R128, R131) -/
section
namespace Sys2Proof

/-- Bits of a register value as a number are those bits taken out (R6). -/
theorem bits_eq_extractLsb' (x : Word) (hi lo : Nat) : bits x hi lo = (x.extractLsb' lo (hi + 1 - lo)).toNat := by
  rw [bits, BitVec.extractLsb'_toNat]

/-- The number of joined fields is the sum of theirs, the upper one shifted past the lower. -/
theorem toNat_append_add {m n : Nat} (x : BitVec m) (y : BitVec n) : (x ++ y).toNat = x.toNat * 2 ^ n + y.toNat := by
  rw [BitVec.toNat_append, ← Nat.shiftLeft_add_eq_or_of_lt y.isLt, Nat.shiftLeft_eq]

/-- A field above the lower part of joined bits lies in the upper part. -/
theorem fld_append_high {m n : Nat} (x : BitVec m) (y : BitVec n) (lo k : Nat) : fld (x ++ y) (lo + n) k = fld x lo k := by
  rw [fld, BitVec.extractLsb'_append_eq_of_le (Nat.le_add_left n lo), Nat.add_sub_cancel]
  rfl

theorem fld_append_low {m n : Nat} (x : BitVec m) (y : BitVec n) : fld (x ++ y) 0 n = y :=
  BitVec.extractLsb'_append_eq_right

/-- A field of a field is a field of the word. -/
theorem fld_fld {w : Nat} (u : BitVec w) {a n lo k : Nat} (h : lo + k ≤ n) : fld (fld u a n) lo k = fld u (a + lo) k := by
  ext i hi
  have : lo + i < n := by omega
  simp [fld, this, Nat.add_assoc]

/-- The fields of a Q form: page, opcode, the registers, the number, the immediate. -/
theorem fld_qForm (imm8 : BitVec 8) (id6 : BitVec 6) (gb ga : Reg) (op : BitVec 6) (page : BitVec 2) :
    let u := imm8 ++ id6 ++ gb ++ ga ++ op ++ page
    fld u 0 2 = page ∧ fld u 2 6 = op ∧ fld u 8 5 = ga ∧ fld u 13 5 = gb ∧ fld u 18 6 = id6 ∧ fld u 24 8 = imm8 := by
  refine ⟨fld_append_low .., ?_, ?_, ?_, ?_, ?_⟩
  · rw [fld_append_high, fld_append_low]
  · rw [fld_append_high, fld_append_high, fld_append_low]
  · rw [fld_append_high, fld_append_high, fld_append_high, fld_append_low]
  · iterate 4 rw [fld_append_high]
    exact fld_append_low ..
  · iterate 5 rw [fld_append_high]
    exact BitVec.extractLsb'_eq_self

@[simp] theorem EngineId.ofCode_code (e : EngineId) : EngineId.ofCode e.code = some e := by
  cases e <;> rfl

end Sys2Proof
end

/-! ## Barrier reads (R49, R183) -/
section
namespace Sys2Proof.Machine

/-- The word that BAR.WAIT reads, field by field. -/
theorem barWaitWord_eq (x : Barrier) :
    barWaitWord x = BitVec.ofBool x.err ++ 0#7 ++ x.estat ++ 0#6 ++ x.esrc ++ x.cntw := by
  apply BitVec.eq_of_toNat_eq
  have hcntw := x.cntw.isLt
  have hesrc := x.esrc.isLt
  have hestat := x.estat.isLt
  simp only [barWaitWord, BitVec.toNat_ofNat, toNat_append_add, BitVec.toNat_ofBool]
  cases x.err <;> simp <;> omega

/-- The word that BAR.CNT reads, field by field. -/
theorem barCntWord_eq (x : Barrier) : barCntWord x = if x.init then x.expect ++ x.arrived ++ x.cntw else 0 := by
  unfold barCntWord
  congr 1
  apply BitVec.eq_of_toNat_eq
  have hcntw := x.cntw.isLt
  have harrived := x.arrived.isLt
  have hexpect := x.expect.isLt
  simp only [BitVec.toNat_ofNat, toNat_append_add]
  omega

theorem needBar_declared {k : Core} {b : BitVec 6} (h : b.toNat < k.decl.barriers) : needBar k b = .ok () :=
  if_pos (decide_eq_true h)

section
variable {b : BitVec 6} {ga : Reg} {s : State} {x : Barrier} (hb : b.toNat < s.core.decl.barriers)
  (hx : vget b s.core.bars = x)
include hb hx

/-- BAR.WAIT faults on a barrier that is not initialised. -/
theorem barWaitBody_uninit (hi : x.init = false) :
    barWaitBody b ga s = raise cBarrierBounds (BitVec.ofNat 64 b.toNat) := by
  simp [barWaitBody, needBar_declared hb, hx, hi, barFault]

/-- BAR.WAIT waits for arrivals that are missing. -/
theorem barWaitBody_missing (hi : x.init = true) (hn : x.arrived < x.expect) : barWaitBody b ga s = wait := by
  simp [barWaitBody, needBar_declared hb, hx, hi, BitVec.lt_def.mp hn]

/-- BAR.WAIT takes EXPECT arrivals, toggles PHASE, clears the error fields and reads the word as it was. -/
theorem barWaitBody_reached (hi : x.init = true) (hn : x.expect ≤ x.arrived) :
    barWaitBody b ga s = .ok ((s.upd fun k =>
      { k with bars := vset b ⟨x.cntw, 0, 0, x.expect, x.arrived - x.expect, false, !x.phase, true⟩ k.bars }).setG
        ga (constReg (barWaitWord x))) := by
  simp [barWaitBody, needBar_declared hb, hx, hi, Nat.not_lt.mpr (BitVec.le_def.mp hn)]

/-- BAR.CNT of a declared barrier reads its counts. -/
theorem execBarCnt_declared (hf : (plainForm 4 [ga]).passes s = true) :
    execBarCnt b ga s = .next (advance 4 (s.setG ga (constReg (barCntWord x)))) :=
  conclude_plain_ok hf (by rw [needBar_declared hb, ok_bind, hx])

end

/-- Settles O20: each outcome of the two bodies through the frame of R127, the words taken apart field by field. -/
theorem barrierReads : Obligations.BarrierReads := by
  intro b ga s hf hb x
  refine ⟨fun hi => ?_, fun hi hn => ?_, fun hi hn => ?_, ?_⟩
  · exact conclude_plain_raise hf (barWaitBody_uninit hb rfl hi)
  · exact conclude_plain_wait hf (barWaitBody_missing hb rfl hi hn)
  · rw [← barWaitWord_eq]
    exact conclude_plain_ok hf (barWaitBody_reached hb rfl hi hn)
  · rw [← barCntWord_eq]
    exact execBarCnt_declared hb rfl hf

end Sys2Proof.Machine
end

/-! ## Tokens (R13, R94, R186) -/
section
namespace Sys2Proof.Machine

/-! ### Legal on S cores only (R13) -/

theorem needS_ok {s : State} (h : 8 ≤ s.me.val % 10) : needS s = .ok () := need_ok.mpr (decide_eq_true h)

theorem needS_no {s : State} (h : s.me.val % 10 < 8) : needS s = raise cIllegalInstr (zext64 s.pc) := by
  rw [needS, show isS s.me = false from decide_eq_false (Nat.not_le.mpr h)]
  rfl

/-- An M core takes ILLEGAL_INSTR before it looks at anything else. -/
theorem conclude_needS_no {s : State} (h : s.me.val % 10 < 8) (rest : Unit → R State) :
    conclude s (needS s >>= rest) = .next (takeTrap { cause := cIllegalInstr, addr := zext64 s.pc } s) := by
  rw [needS_no h, raise_bind, conclude_raise]

/-! ### The counts -/

section
variable {t : BitVec 3} {ga : Reg} {s : State} (hS : 8 ≤ s.me.val % 10) (hf : (plainForm 4 [ga]).passes s = true)
include hS hf

/-- TOK.SIG adds its number behind the core's stores, or waits for room. -/
theorem exec_tokSig_onS :
    exec (.tokSig t ga) s =
      let n := ((s.g ga).val.extractLsb' 0 16).toNat
      let x := (vget t s.core.xs.tk).toNat
      .next (if 65535 < x + n then s else advance 4 (putToken t (BitVec.ofNat 16 (x + n)) (drainStores s.me s))) := by
  change execTokSig t ga s = _
  simp only [execTokSig, needS_ok hS, ok_bind, bits_eq_extractLsb']
  split
  next hfull => exact conclude_plain_wait hf (if_pos hfull)
  next hroom => exact conclude_plain_ok hf (if_neg hroom)

/-- TOK.WAITT takes its number from a count that has reached it, or waits. -/
theorem exec_tokWaitt_onS :
    exec (.tokWaitt t ga) s =
      let n := ((s.g ga).val.extractLsb' 0 16).toNat
      let x := (vget t s.core.xs.tk).toNat
      .next (if x < n then s else advance 4 (putToken t (BitVec.ofNat 16 (x - n)) s)) := by
  change execTokWaitt t ga s = _
  simp only [execTokWaitt, needS_ok hS, ok_bind, bits_eq_extractLsb']
  split
  next hshort => exact conclude_plain_wait hf (if_pos hshort)
  next hreached => exact conclude_plain_ok hf (if_neg hreached)

end

/-! ### Encoding (R131, R132) -/

/-- The fields of a token word: the token's number is the low half of the Q form's. -/
theorem fld_tokForm (imm8 : BitVec 8) (t : BitVec 3) (ga : Reg) :
    let u := imm8 ++ (0#3 ++ t) ++ 0#5 ++ ga ++ 0x0A#6 ++ 1#2
    fld u 0 2 = 1#2 ∧ fld u 2 6 = 0x0A#6 ∧ fld u 8 5 = ga ∧ fld u 13 5 = 0#5 ∧ fld u 18 3 = t ∧ fld u 21 3 = 0#3 ∧
      fld u 24 8 = imm8 := by
  intro u
  obtain ⟨hpage, hop, hga, hgb, hid, himm⟩ := fld_qForm imm8 (0#3 ++ t) 0#5 ga 0x0A#6 1#2
  refine ⟨hpage, hop, hga, hgb, ?_, ?_, himm⟩
  · rw [← fld_fld u (a := 18) (n := 6) (lo := 0) (by decide), hid]
    exact fld_append_low ..
  · rw [← fld_fld u (a := 18) (n := 6) (lo := 3) (by decide), hid]
    exact (fld_append_high 0#3 t 0 3).trans BitVec.extractLsb'_eq_self

theorem decodeControl_tokSig (t : BitVec 3) (ga : Reg) (v lit : Unit32) :
    decodeControl (0#8 ++ (0#3 ++ t) ++ 0#5 ++ ga ++ 0x0A#6 ++ 1#2) v lit = .ok (.tokSig t ga) := by
  obtain ⟨hpage, hop, hga, hgb, ht, hz, himm⟩ := fld_tokForm 0#8 t ga
  simp only [decodeControl, hpage, decodePage1, hop, hga, hgb, ht, hz, himm]
  rfl

theorem decodeControl_tokWaitt (t : BitVec 3) (ga : Reg) (v lit : Unit32) :
    decodeControl (1#8 ++ (0#3 ++ t) ++ 0#5 ++ ga ++ 0x0A#6 ++ 1#2) v lit = .ok (.tokWaitt t ga) := by
  obtain ⟨hpage, hop, hga, hgb, ht, hz, himm⟩ := fld_tokForm 1#8 t ga
  simp only [decodeControl, hpage, decodePage1, hop, hga, hgb, ht, hz, himm]
  rfl

/-- Settles O22: S cores run the bodies, which look at the number alone and never at its poison; M cores stop before them. -/
theorem tokens : Obligations.Tokens := by
  refine ⟨fun t ga s => ⟨fun hS hf => ?_, fun hM => ⟨conclude_needS_no hM _, conclude_needS_no hM _⟩⟩,
    fun t ga v lit => ⟨decodeControl_tokSig t ga v lit, decodeControl_tokWaitt t ga v lit⟩⟩
  rw [exec_tokSig_onS hS hf, exec_tokWaitt_onS hS hf]
  refine ⟨fun hroom => ?_, fun hfull => ?_, fun hreached => ?_, fun hshort => ?_⟩
  · exact congrArg _ (if_neg (Nat.not_lt.mpr hroom))
  · exact congrArg _ (if_pos hfull)
  · exact congrArg _ (if_neg (Nat.not_lt.mpr hreached))
  · exact congrArg _ (if_pos hshort)

end Sys2Proof.Machine
end

/-! ## Results of requests (R131, R172, R174) -/
section
namespace Sys2Proof.Machine

/-! ### The oldest result (R174) -/

section
variable {eng : EngineId} {ga : Reg} {s : State}

/-- GET finds nothing where every request of the engine is a nores request. -/
theorem getBody_none (h : ∀ r ∈ s.core.reqs, r.eng = eng → r.nores = true) :
    getBody eng ga s = raise cIllegalInstr (0x600 + eng.code.setWidth 64) := by
  have hnone : (s.core.reqs.find? fun r => decide (r.eng = eng) && !r.nores) = none :=
    List.find?_eq_none.mpr fun r hr => by simpa using h r hr
  rw [getBody, hnone]
  cases eng <;> rfl

/-- The first request of an engine that is to have a result is the one that GET finds. -/
theorem find_oldestResult {r : Req} {before after : List Req} (hreqs : s.core.reqs = before ++ r :: after)
    (heng : r.eng = eng) (hres : r.nores = false) (hfirst : ∀ x ∈ before, x.eng = eng → x.nores = true) :
    (s.core.reqs.find? fun x => decide (x.eng = eng) && !x.nores) = some r :=
  List.find?_eq_some_iff_append.mpr
    ⟨by simp [heng, hres], before, after, hreqs, fun x hx => by simpa [imp_iff_not_or] using hfirst x hx⟩

/-- GET waits for the element of the request that it finds. -/
theorem getBody_waits {r : Req} (h : (s.core.reqs.find? fun x => decide (x.eng = eng) && !x.nores) = some r)
    (hr : r.result = none) : getBody eng ga s = wait := by
  simp only [getBody, h, hr]

/-- GET moves the element of the request that it finds to its register and frees the slot. -/
theorem getBody_pops {r : Req} {e : Word} {bad : Bool}
    (h : (s.core.reqs.find? fun x => decide (x.eng = eng) && !x.nores) = some r) (hr : r.result = some (e, bad)) :
    getBody eng ga s = .ok ((s.upd fun k =>
      { k with reqs := k.reqs.filter fun x => decide (x.order ≠ r.order) }).setG ga ⟨e, bad⟩) := by
  simp only [getBody, h, hr]

end

/-! ### Encoding (R131) -/

theorem decodeControl_get (eng : EngineId) (ga : Reg) (v lit : Unit32) :
    decodeControl (0#8 ++ eng.code ++ 0#5 ++ ga ++ 0x14#6 ++ 0#2) v lit = .ok (.get eng ga) := by
  obtain ⟨hpage, hop, hga, hgb, hid, himm⟩ := fld_qForm 0#8 eng.code 0#5 ga 0x14#6 0#2
  simp only [decodeControl, hpage, decodePage0, hop, hga, hgb, hid, himm, EngineId.ofCode_code]
  rfl

/-- Settles O24: what GET finds is fixed by the requests before it, and its element decides between waiting and popping. -/
theorem getResults : Obligations.GetResults := by
  refine ⟨fun eng ga s hf => ⟨fun h => conclude_plain_raise hf (getBody_none h), ?_⟩, decodeControl_get⟩
  intro r before after hreqs heng hres hfirst
  have hfind := find_oldestResult hreqs heng hres hfirst
  exact ⟨fun hr => conclude_plain_wait hf (getBody_waits hfind hr),
    fun _ _ hr => conclude_plain_ok hf (getBody_pops hfind hr)⟩

end Sys2Proof.Machine
end
